-- ==== Sys2Proof/Word.lean ====
section
/-!
DEFINITION. The words of the device: an instruction word (R10), a register (R62), a byte of memory (R5).
-/
namespace Sys2Proof

/-- A 64-bit integer register or an address in a register (R62, R75). -/
abbrev Word := BitVec 64
/-- A byte of memory or of a scratchpad (R5). -/
abbrev Byte := BitVec 8
/-- An instruction word (R10). -/
abbrev IWord := BitVec 32

end Sys2Proof
end

