-- ==== Sys2Proof/Fields.lean ====
section
/-!
DEFINITION. The named field values of the instruction words (engines, scopes, sizes, operations) with the codes the spec gives them.
-/
namespace Sys2Proof

/-- The five engines of a core (R10). -/
inductive Eng where
  | S | L | V | M | W
  deriving DecidableEq, Repr

/-- Engine codes S = 1 to W = 5 (R10, R21, R248). -/
def Eng.code : Eng → Nat
  | .S => 1 | .L => 2 | .V => 3 | .M => 4 | .W => 5

/-- The engine of a code from 1 to 5. -/
def Eng.ofCode? : Nat → Option Eng
  | 1 => some .S | 2 => some .L | 3 => some .V | 4 => some .M | 5 => some .W
  | _ => none

/-- The class field that names an engine (R10). -/
def Eng.cls (e : Eng) : Nat := e.code - 1

def Eng.all : List Eng := [.S, .L, .V, .M, .W]

/-- The engine whose turn follows, in the order S, L, V, M, W. -/
def Eng.succ : Eng → Eng
  | .S => .L | .L => .V | .V => .M | .M => .W | .W => .S

/-- The wait and signal fields of a short-format word (R10, R12). -/
structure Sync where
  wait : Option Eng
  sig  : Option Eng
  deriving DecidableEq, Repr

/-- No wait and no signal. -/
def Sync.none : Sync := ⟨.none, .none⟩

/-- Rounding field of an instruction (R41): MODE 0 to 4, or 7 for the engine's RMODE. -/
inductive Rnd where
  | rn | rz | ru | rd | rs | eng
  deriving DecidableEq, Repr

def Rnd.code : Rnd → Nat
  | .rn => 0 | .rz => 1 | .ru => 2 | .rd => 3 | .rs => 4 | .eng => 7

def Rnd.ofCode? : Nat → Option Rnd
  | 0 => some .rn | 1 => some .rz | 2 => some .ru | 3 => some .rd | 4 => some .rs | 7 => some .eng
  | _ => none

/-- Access size (R77, R104, R105). -/
inductive Size where
  | b | h | w | d
  deriving DecidableEq, Repr

def Size.code : Size → Nat
  | .b => 0 | .h => 1 | .w => 2 | .d => 3
def Size.ofCode? : Nat → Option Size
  | 0 => some .b | 1 => some .h | 2 => some .w | 3 => some .d
  | _ => none
/-- The bytes of a size. -/
def Size.bytes : Size → Nat
  | .b => 1 | .h => 2 | .w => 4 | .d => 8

/-- Scopes with the codes of R82 and R257. -/
inductive Scope where
  | engine | core | quad | die | pkg | pod
  deriving DecidableEq, Repr

def Scope.code : Scope → Nat
  | .engine => 0 | .core => 1 | .quad => 2 | .die => 3 | .pkg => 4 | .pod => 5
def Scope.ofCode? : Nat → Option Scope
  | 0 => some .engine | 1 => some .core | 2 => some .quad | 3 => some .die | 4 => some .pkg | 5 => some .pod
  | _ => none
/-- The two-bit scope of LDA and STL: 0 quad to 3 pod (R78). -/
def Scope.ofCode4 : Nat → Scope
  | 0 => .quad | 1 => .die | 2 => .pkg | _ => .pod
/-- A scope that LDA and STL can name (R78). -/
def Scope.wide : Scope → Bool
  | .engine | .core => false
  | _ => true

/-- Operation of AMO (R79). -/
inductive AmoOp where
  | add | and | or | xor | min | max | minu | maxu | swap
  deriving DecidableEq, Repr

def AmoOp.code : AmoOp → Nat
  | .add => 0 | .and => 1 | .or => 2 | .xor => 3 | .min => 4 | .max => 5 | .minu => 6 | .maxu => 7 | .swap => 8
def AmoOp.ofCode? : Nat → Option AmoOp
  | 0 => some .add | 1 => some .and | 2 => some .or | 3 => some .xor | 4 => some .min | 5 => some .max
  | 6 => some .minu | 7 => some .maxu | 8 => some .swap
  | _ => none

/-- Operation of RED (R113). -/
inductive RedOp where
  | fadd | badd | iadd | imin | imax | fmin | fmax | ladd
  deriving DecidableEq, Repr

def RedOp.code : RedOp → Nat
  | .fadd => 0 | .badd => 1 | .iadd => 2 | .imin => 3 | .imax => 4 | .fmin => 5 | .fmax => 6 | .ladd => 7
def RedOp.ofCode? : Nat → Option RedOp
  | 0 => some .fadd | 1 => some .badd | 2 => some .iadd | 3 => some .imin | 4 => some .imax | 5 => some .fmin
  | 6 => some .fmax | 7 => some .ladd
  | _ => none

/-- Level of PREF (R112). -/
inductive PrefLevel where
  | m | t | mt
  deriving DecidableEq, Repr

def PrefLevel.code : PrefLevel → Nat
  | .m => 0 | .t => 1 | .mt => 2
def PrefLevel.ofCode? : Nat → Option PrefLevel
  | 0 => some .m | 1 => some .t | 2 => some .mt
  | _ => none

/-- Mode of BCOPY (R119). -/
inductive CopyMode where
  | copy | mig | shd
  deriving DecidableEq, Repr

def CopyMode.code : CopyMode → Nat
  | .copy => 0 | .mig => 1 | .shd => 2
def CopyMode.ofCode? : Nat → Option CopyMode
  | 0 => some .copy | 1 => some .mig | 2 => some .shd
  | _ => none

/-- Mode of DSET (R122). -/
inductive DsetMode where
  | set | addb | cnt
  deriving DecidableEq, Repr

def DsetMode.code : DsetMode → Nat
  | .set => 0 | .addb => 1 | .cnt => 2
def DsetMode.ofCode? : Nat → Option DsetMode
  | 0 => some .set | 1 => some .addb | 2 => some .cnt
  | _ => none

/-- Condition of VCMP (R135). -/
inductive Cond where
  | eq | ne | lt | le | gt | ge | un
  deriving DecidableEq, Repr

def Cond.code : Cond → Nat
  | .eq => 0 | .ne => 1 | .lt => 2 | .le => 3 | .gt => 4 | .ge => 5 | .un => 6
def Cond.ofCode? : Nat → Option Cond
  | 0 => some .eq | 1 => some .ne | 2 => some .lt | 3 => some .le | 4 => some .gt | 5 => some .ge | 6 => some .un
  | _ => none

/-- Operation of VRED and VSCAN (R144, R145). -/
inductive CombOp where
  | add | min | max | amax
  deriving DecidableEq, Repr

def CombOp.code : CombOp → Nat
  | .add => 0 | .min => 1 | .max => 2 | .amax => 3
def CombOp.ofCode? : Nat → Option CombOp
  | 0 => some .add | 1 => some .min | 2 => some .max | 3 => some .amax
  | _ => none

/-- Table of VPWL (R150). -/
inductive PwlTable where
  | user | exp | log
  deriving DecidableEq, Repr

def PwlTable.code : PwlTable → Nat
  | .user => 0 | .exp => 1 | .log => 2
def PwlTable.ofCode? : Nat → Option PwlTable
  | 0 => some .user | 1 => some .exp | 2 => some .log
  | _ => none

/-- Control registers with the numbers of R22. -/
inductive CtlReg where
  | flags | rmode | seed | tol | fmtlvl | ovfpol | fmtbase | fmtstride
  | crew | ncrew | quadpos | diepos | pkgpos | time | depcnt | prelvl
  | sc (i : Fin 14)
  deriving DecidableEq, Repr

def CtlReg.code : CtlReg → Nat
  | .flags => 0 | .rmode => 1 | .seed => 2 | .tol => 3 | .fmtlvl => 4 | .ovfpol => 5 | .fmtbase => 6 | .fmtstride => 7
  | .crew => 8 | .ncrew => 9 | .quadpos => 0xA | .diepos => 0xB | .pkgpos => 0xC
  | .time => 0x10 | .depcnt => 0x11 | .prelvl => 0x12
  | .sc i => 0x40 + i.val

def CtlReg.ofCode? (n : Nat) : Option CtlReg :=
  match n with
  | 0 => some .flags | 1 => some .rmode | 2 => some .seed | 3 => some .tol | 4 => some .fmtlvl | 5 => some .ovfpol
  | 6 => some .fmtbase | 7 => some .fmtstride | 8 => some .crew | 9 => some .ncrew | 0xA => some .quadpos
  | 0xB => some .diepos | 0xC => some .pkgpos | 0x10 => some .time | 0x11 => some .depcnt | 0x12 => some .prelvl
  | 0x40 => some (.sc 0) | 0x41 => some (.sc 1) | 0x42 => some (.sc 2) | 0x43 => some (.sc 3) | 0x44 => some (.sc 4)
  | 0x45 => some (.sc 5) | 0x46 => some (.sc 6) | 0x47 => some (.sc 7) | 0x48 => some (.sc 8) | 0x49 => some (.sc 9)
  | 0x4A => some (.sc 10) | 0x4B => some (.sc 11) | 0x4C => some (.sc 12) | 0x4D => some (.sc 13)
  | _ => none

/-- Registers that CRW may name: those R22 marks read, write. -/
def CtlReg.writable : CtlReg → Bool
  | .flags | .rmode | .seed | .tol | .fmtlvl | .ovfpol | .fmtbase | .fmtstride | .prelvl => true
  | _ => false

/-- The header fields of a packet and its payload (R367). PARAM is held by its named parts: the manual gives it no bit layout (log entry 9). -/
structure Packet where
  tag     : Nat            -- JOBTAG
  kind    : Nat            -- 1 data, 2 arrival, 3 control, 4 acknowledgement, 5 marker
  vc      : Nat
  dest    : Nat            -- bits 32:11 of a barrier handle
  src     : Nat
  seq     : Nat
  off     : Nat            -- data: target offset; control: buffer offset; marker: switch time
  acc     : Nat            -- data: accumulate code; control: the message (1 ready, 2 abort)
  count   : Bool
  obj     : Nat            -- counting object, or the arrival's object
  local?  : Option Nat     -- local object
  last    : Bool           -- last-packet flag
  ctag    : Nat            -- control: collective TAG; acknowledgement: transfer number
  status  : Nat            -- acknowledgement: 0 delivered, else the status of R376
  reservedSet : Bool       -- a reserved bit of the header is set
  payload : List Byte
  deriving DecidableEq, Repr

end Sys2Proof
end

