-- ==== Sys2Proof/Syntax.lean ====
section
/-!
DEFINITION. The instructions and steps of the device: one constructor per row of spec/opcode_table.json.
The 154 encoded rows carry their operand fields (common-group rows also the engine of the class field, R19); the event rows carry what the
outside world or the acting unit supplies.
-/
namespace Sys2Proof

/-- One constructor per row of spec/opcode_table.json, with the row's rule. -/
inductive Instr where
  | illegalInstruction (e : Eng) (word : IWord) (detail : Nat) -- ILLEGAL_INSTRUCTION, R29
  | nop (c : Eng) (y : Sync) -- NOP, R19
  | add (c : Eng) (y : Sync) (d : BitVec 5) (a : BitVec 5) (b : BitVec 5) (w : Bool) -- ADD, R63
  | sub (c : Eng) (y : Sync) (d : BitVec 5) (a : BitVec 5) (b : BitVec 5) (w : Bool) -- SUB, R63
  | mul (c : Eng) (y : Sync) (d : BitVec 5) (a : BitVec 5) (b : BitVec 5) (w : Bool) -- MUL, R63
  | mulh (c : Eng) (y : Sync) (d : BitVec 5) (a : BitVec 5) (b : BitVec 5) (w : Bool) -- MULH, R63
  | mulhu (c : Eng) (y : Sync) (d : BitVec 5) (a : BitVec 5) (b : BitVec 5) (w : Bool) -- MULHU, R63
  | div (c : Eng) (y : Sync) (d : BitVec 5) (a : BitVec 5) (b : BitVec 5) (w : Bool) -- DIV, R64
  | divu (c : Eng) (y : Sync) (d : BitVec 5) (a : BitVec 5) (b : BitVec 5) (w : Bool) -- DIVU, R64
  | rem (c : Eng) (y : Sync) (d : BitVec 5) (a : BitVec 5) (b : BitVec 5) (w : Bool) -- REM, R64
  | remu (c : Eng) (y : Sync) (d : BitVec 5) (a : BitVec 5) (b : BitVec 5) (w : Bool) -- REMU, R64
  | and (c : Eng) (y : Sync) (d : BitVec 5) (a : BitVec 5) (b : BitVec 5) (w : Bool) -- AND, R63
  | or (c : Eng) (y : Sync) (d : BitVec 5) (a : BitVec 5) (b : BitVec 5) (w : Bool) -- OR, R63
  | xor (c : Eng) (y : Sync) (d : BitVec 5) (a : BitVec 5) (b : BitVec 5) (w : Bool) -- XOR, R63
  | andn (c : Eng) (y : Sync) (d : BitVec 5) (a : BitVec 5) (b : BitVec 5) (w : Bool) -- ANDN, R63
  | shl (c : Eng) (y : Sync) (d : BitVec 5) (a : BitVec 5) (b : BitVec 5) (w : Bool) -- SHL, R63
  | shr (c : Eng) (y : Sync) (d : BitVec 5) (a : BitVec 5) (b : BitVec 5) (w : Bool) -- SHR, R63
  | sra (c : Eng) (y : Sync) (d : BitVec 5) (a : BitVec 5) (b : BitVec 5) (w : Bool) -- SRA, R63
  | slt (c : Eng) (y : Sync) (d : BitVec 5) (a : BitVec 5) (b : BitVec 5) (w : Bool) -- SLT, R63
  | sltu (c : Eng) (y : Sync) (d : BitVec 5) (a : BitVec 5) (b : BitVec 5) (w : Bool) -- SLTU, R63
  | min (c : Eng) (y : Sync) (d : BitVec 5) (a : BitVec 5) (b : BitVec 5) (w : Bool) -- MIN, R63
  | max (c : Eng) (y : Sync) (d : BitVec 5) (a : BitVec 5) (b : BitVec 5) (w : Bool) -- MAX, R63
  | minu (c : Eng) (y : Sync) (d : BitVec 5) (a : BitVec 5) (b : BitVec 5) (w : Bool) -- MINU, R63
  | maxu (c : Eng) (y : Sync) (d : BitVec 5) (a : BitVec 5) (b : BitVec 5) (w : Bool) -- MAXU, R63
  | sel (c : Eng) (y : Sync) (d : BitVec 5) (a : BitVec 5) (b : BitVec 5) -- SEL, R63
  | clz (c : Eng) (y : Sync) (d : BitVec 5) (a : BitVec 5) (w : Bool) -- CLZ, R63
  | popc (c : Eng) (y : Sync) (d : BitVec 5) (a : BitVec 5) (w : Bool) -- POPC, R63
  | addi (c : Eng) (y : Sync) (d : BitVec 5) (a : BitVec 5) (i : BitVec 6) -- ADDI, R65
  | andi (c : Eng) (y : Sync) (d : BitVec 5) (a : BitVec 5) (i : BitVec 6) -- ANDI, R65
  | ori (c : Eng) (y : Sync) (d : BitVec 5) (a : BitVec 5) (i : BitVec 6) -- ORI, R65
  | xori (c : Eng) (y : Sync) (d : BitVec 5) (a : BitVec 5) (i : BitVec 6) -- XORI, R65
  | shli (c : Eng) (y : Sync) (d : BitVec 5) (a : BitVec 5) (i : BitVec 6) -- SHLI, R65
  | shri (c : Eng) (y : Sync) (d : BitVec 5) (a : BitVec 5) (i : BitVec 6) -- SHRI, R65
  | srai (c : Eng) (y : Sync) (d : BitVec 5) (a : BitVec 5) (i : BitVec 6) -- SRAI, R65
  | slti (c : Eng) (y : Sync) (d : BitVec 5) (a : BitVec 5) (i : BitVec 6) -- SLTI, R65
  | sltiu (c : Eng) (y : Sync) (d : BitVec 5) (a : BitVec 5) (i : BitVec 6) -- SLTIU, R65
  | sync (c : Eng) (waits sigs : BitVec 5) -- SYNC, R21
  | syncV1 (c : Eng) (w g : Option Eng) -- SYNC_V1, R30
  | loop (c : Eng) (y : Sync) (s : BitVec 5) (len : BitVec 11) -- LOOP, R66
  | loopi (c : Eng) (y : Sync) (n : BitVec 9) (len : BitVec 7) -- LOOPI, R66
  | follow (c : Eng) (y : Sync) (d : BitVec 5) -- FOLLOW, R70
  | brf (c : Eng) (y : Sync) (d : BitVec 5) (off : BitVec 11) -- BRF, R70
  | crr (c : Eng) (y : Sync) (d : BitVec 5) (r : CtlReg) -- CRR, R71
  | crw (c : Eng) (y : Sync) (s : BitVec 5) (r : CtlReg) -- CRW, R71
  | li (c : Eng) (d : BitVec 5) (i : BitVec 17) -- LI, R15
  | lih (c : Eng) (d : BitVec 5) (i : BitVec 17) -- LIH, R15
  | addpc (off : BitVec 22) -- ADDPC, R15
  | j (off : BitVec 22) -- J, R15
  | call (off : BitVec 22) -- CALL, R15
  | beqz (y : Sync) (s : BitVec 5) (off : BitVec 11) -- BEQZ, R72
  | bnez (y : Sync) (s : BitVec 5) (off : BitVec 11) -- BNEZ, R72
  | bltz (y : Sync) (s : BitVec 5) (off : BitVec 11) -- BLTZ, R72
  | bgez (y : Sync) (s : BitVec 5) (off : BitVec 11) -- BGEZ, R72
  | bgtz (y : Sync) (s : BitVec 5) (off : BitVec 11) -- BGTZ, R72
  | blez (y : Sync) (s : BitVec 5) (off : BitVec 11) -- BLEZ, R72
  | callr (y : Sync) (s : BitVec 5) -- CALLR, R73
  | callx (y : Sync) (s : BitVec 5) (idx : BitVec 11) -- CALLX, R73
  | ret (y : Sync) -- RET, R73
  | callUnpark -- CALL_UNPARK, R358
  | ld (y : Sync) (d : BitVec 5) (a : BitVec 5) (sz : Size) (o : BitVec 4) -- LD, R77
  | st (y : Sync) (s : BitVec 5) (a : BitVec 5) (sz : Size) (o : BitVec 4) -- ST, R77
  | lda (y : Sync) (d : BitVec 5) (a : BitVec 5) (sc : Scope) (o : BitVec 4) -- LDA, R78
  | stl (y : Sync) (s : BitVec 5) (a : BitVec 5) (sc : Scope) (o : BitVec 4) -- STL, R78
  | amo (y : Sync) (d : BitVec 5) (a : BitVec 5) (op : AmoOp) (w : Bool) -- AMO, R79
  | cas (y : Sync) (d : BitVec 5) (a : BitVec 5) (b : BitVec 5) (w : Bool) -- CAS, R80
  | fence (y : Sync) (s : BitVec 5) (sc : Scope) -- FENCE, R82
  | sptest (y : Sync) (d : BitVec 5) (a : BitVec 5) -- SPTEST, R76
  | spcast (y : Sync) (d : BitVec 5) (a : BitVec 5) (w : BitVec 2) -- SPCAST, R76
  | binit (y : Sync) (s : BitVec 5) (id : BitVec 11) -- BINIT, R86
  | barv (y : Sync) (s : BitVec 5) (sc : Scope) -- BARV, R87
  | bwait (y : Sync) (p : Bool) (id : BitVec 11) -- BWAIT, R88
  | btry (y : Sync) (d : BitVec 4) (p : Bool) (id : BitVec 11) -- BTRY, R88
  | arm (y : Sync) (s : BitVec 5) (a : BitVec 5) (slot : BitVec 6) -- ARM, R89
  | disarm (y : Sync) (slot : BitVec 6) -- DISARM, R89
  | fmtw (y : Sync) (s : BitVec 5) (n : BitVec 6) -- FMTW, R91
  | pwlw (y : Sync) (s : BitVec 5) (n : BitVec 6) -- PWLW, R92
  | qbind (y : Sync) (s : BitVec 5) (p q : Eng) -- QBIND, R93
  | send (y : Sync) (s : BitVec 5) (t : Eng) -- SEND, R69
  | svc (y : Sync) (code : BitVec 11) -- SVC, R94
  | bkpt (y : Sync) (code : BitVec 11) -- BKPT, R95
  | halt (y : Sync) -- HALT, R96
  | haltComplete -- HALT_COMPLETE, R96
  | coll (y : Sync) (s : BitVec 5) (a : BitVec 5) -- COLL, R383
  | rlinv (y : Sync) (slot : Option (BitVec 3)) -- RLINV, R98
  | ldr (y : Sync) (d : BitVec 4) (a : BitVec 4) (sx : Bool) (sz : Size) (o : BitVec 4) -- LDR, R104
  | ldt (y : Sync) (m : BitVec 4) (p : BitVec 3) (q : Bool) (o : BitVec 4) -- LDT, R106
  | ldt3 (y : Sync) (m : BitVec 4) (p : BitVec 3) (q : Bool) (o : BitVec 4) (z : BitVec 4) -- LDT3, R106
  | ldg (y : Sync) (m : BitVec 4) (p : BitVec 3) (q : Bool) (o : BitVec 4) (sz : Size) -- LDG, R111
  | ldx (y : Sync) (m : BitVec 4) (p : BitVec 3) (q : Bool) (o : BitVec 4) (sz : Size) -- LDX, R108
  | ldz (y : Sync) (m : BitVec 4) (p : BitVec 3) (q : Bool) (o : BitVec 4) (trap : Bool) -- LDZ, R110
  | ldzDecodeDone -- LDZ_DECODE_DONE, R110
  | ldzWatchdog -- LDZ_WATCHDOG, R110
  | pref (y : Sync) (m : BitVec 4) (g : BitVec 4) (lvl : PrefLevel) -- PREF, R112
  | stx (y : Sync) (s : BitVec 4) (a : BitVec 4) (sz : Size) (o : BitVec 4) -- STX, R104
  | stt (y : Sync) (m : BitVec 4) (p : BitVec 3) (q : Bool) (o : BitVec 4) -- STT, R106
  | stt3 (y : Sync) (m : BitVec 4) (p : BitVec 3) (q : Bool) (o : BitVec 4) (z : BitVec 4) -- STT3, R106
  | sts (y : Sync) (m : BitVec 4) (p : BitVec 3) (q : Bool) (o : BitVec 4) (sz : Size) -- STS, R111
  | sttc (y : Sync) (m : BitVec 4) (p : BitVec 3) (q : Bool) (o : BitVec 4) (e : BitVec 4) -- STTC, R107
  | red (y : Sync) (m : BitVec 4) (p : BitVec 3) (q : Bool) (o : BitVec 4) (op : RedOp) -- RED, R113
  | sendt (y : Sync) (x : BitVec 4) -- SENDT, R116
  | pub (y : Sync) (h : BitVec 4) (sc : Scope) -- PUB, R118
  | bcopy (y : Sync) (d : BitVec 4) (s : BitVec 4) (n : BitVec 4) (md : CopyMode) -- BCOPY, R119
  | bcopyMoveComplete -- BCOPY_MOVE_COMPLETE, R120
  | migrationPageMove -- MIGRATION_PAGE_MOVE, R424
  | addressUnitCheck -- ADDRESS_UNIT_CHECK, R114
  | dset (y : Sync) (d : BitVec 4) (s : BitVec 4) (md : DsetMode) -- DSET, R122
  | vadd (y : Sync) (d : BitVec 4) (a : BitVec 4) (b : BitVec 4) (r : Rnd) (nf : Bool) -- VADD, R132
  | vsub (y : Sync) (d : BitVec 4) (a : BitVec 4) (b : BitVec 4) (r : Rnd) (nf : Bool) -- VSUB, R132
  | vmul (y : Sync) (d : BitVec 4) (a : BitVec 4) (b : BitVec 4) (r : Rnd) (nf : Bool) -- VMUL, R132
  | vfma (y : Sync) (d : BitVec 4) (a : BitVec 4) (b : BitVec 4) (r : Rnd) (nf : Bool) -- VFMA, R132
  | vmin (y : Sync) (d : BitVec 4) (a : BitVec 4) (b : BitVec 4) (r : Rnd) (nf : Bool) -- VMIN, R132
  | vmax (y : Sync) (d : BitVec 4) (a : BitVec 4) (b : BitVec 4) (r : Rnd) (nf : Bool) -- VMAX, R132
  | vabs (y : Sync) (d : BitVec 4) (a : BitVec 4) (r : Rnd) (nf : Bool) -- VABS, R132
  | vneg (y : Sync) (d : BitVec 4) (a : BitVec 4) (r : Rnd) (nf : Bool) -- VNEG, R132
  | vand (y : Sync) (d : BitVec 4) (a : BitVec 4) (b : BitVec 4) -- VAND, R133
  | vor (y : Sync) (d : BitVec 4) (a : BitVec 4) (b : BitVec 4) -- VOR, R133
  | vxor (y : Sync) (d : BitVec 4) (a : BitVec 4) (b : BitVec 4) -- VXOR, R133
  | vshl (y : Sync) (d : BitVec 4) (a : BitVec 4) (b : BitVec 4) -- VSHL, R134
  | vshr (y : Sync) (d : BitVec 4) (a : BitVec 4) (b : BitVec 4) -- VSHR, R134
  | vsra (y : Sync) (d : BitVec 4) (a : BitVec 4) (b : BitVec 4) -- VSRA, R134
  | vcmp (y : Sync) (d : BitVec 4) (a : BitVec 4) (b : BitVec 4) (cond : Cond) (nf : Bool) -- VCMP, R135
  | vsel (y : Sync) (d : BitVec 4) (a : BitVec 4) (b : BitVec 4) (m : BitVec 4) -- VSEL, R136
  | vmov (y : Sync) (d : BitVec 4) (a : BitVec 4) -- VMOV, R137
  | vfill (y : Sync) (d : BitVec 4) (s : BitVec 4) -- VFILL, R138
  | viota (y : Sync) (d : BitVec 4) (s : BitVec 4) (r : Rnd) (nf : Bool) -- VIOTA, R138
  | vcvt (y : Sync) (d : BitVec 4) (a : BitVec 4) (ns : Bool) (r : Rnd) (nf : Bool) -- VCVT, R139
  | vcvtV1 (y : Sync) (d : BitVec 4) (a : BitVec 4) (r : Rnd) (nf : Bool) -- VCVT_V1, R30
  | vqnt (y : Sync) (d : BitVec 4) (a : BitVec 4) (b : BitVec 4) (r : Rnd) (nf : Bool) -- VQNT, R140
  | vdqnt (y : Sync) (d : BitVec 4) (a : BitVec 4) (b : BitVec 4) (r : Rnd) (nf : Bool) -- VDQNT, R141
  | vrshr (y : Sync) (d : BitVec 4) (a : BitVec 4) (b : BitVec 4) (r : Rnd) (nf : Bool) -- VRSHR, R142
  | vclamp (y : Sync) (d : BitVec 4) (a : BitVec 4) (lo : BitVec 4) (hi : BitVec 4) -- VCLAMP, R143
  | vred (y : Sync) (d : BitVec 4) (a : BitVec 4) (op : CombOp) (r : Rnd) (nf : Bool) -- VRED, R144
  | vscan (y : Sync) (d : BitVec 4) (a : BitVec 4) (op : CombOp) (r : Rnd) (nf : Bool) -- VSCAN, R145
  | vpwl (y : Sync) (d : BitVec 4) (a : BitVec 4) (t : PwlTable) (ns : Bool) (r : Rnd) (nf : Bool) -- VPWL, R150
  | vrcp (y : Sync) (d : BitVec 4) (a : BitVec 4) (r : Rnd) (nf : Bool) -- VRCP, R146
  | vrsqrt (y : Sync) (d : BitVec 4) (a : BitVec 4) (r : Rnd) (nf : Bool) -- VRSQRT, R146
  | vsqrt (y : Sync) (d : BitVec 4) (a : BitVec 4) (r : Rnd) (nf : Bool) -- VSQRT, R146
  | vdiv (y : Sync) (d : BitVec 4) (a : BitVec 4) (b : BitVec 4) (r : Rnd) (nf : Bool) -- VDIV, R146
  | vgth (y : Sync) (d : BitVec 4) (a : BitVec 4) (b : BitVec 4) -- VGTH, R147
  | vsct (y : Sync) (d : BitVec 4) (a : BitVec 4) (b : BitVec 4) -- VSCT, R147
  | vflg (y : Sync) (d : BitVec 4) (clr : BitVec 6) -- VFLG, R148
  | mma (y : Sync) (c : BitVec 4) (a : BitVec 4) (b : BitVec 4) (slot : BitVec 3) (nf : Bool) -- MMA, R163
  | mmas (y : Sync) (c : BitVec 4) (a : BitVec 4) (b : BitVec 4) (slot : BitVec 3) (nf : Bool) -- MMAS, R166
  | mmat (y : Sync) (c : BitVec 4) (a : BitVec 4) (b : BitVec 4) (slot : BitVec 3) (nf : Bool) -- MMAT, R167
  | mzero (y : Sync) (w : BitVec 4) -- MZERO, R169
  | mdrain (y : Sync) (w : BitVec 4) (s : BitVec 4) (slot : BitVec 3) (e : BitVec 4) (nf : Bool) -- MDRAIN, R171
  | mlda (y : Sync) (w : BitVec 4) (s : BitVec 4) -- MLDA, R170
  | mstat (y : Sync) (d : BitVec 4) (clr : Bool) (e : BitVec 4) -- MSTAT, R174
  | tconf (y : Sync) (d : BitVec 4) (s : BitVec 4) (chk : Bool) -- TCONF, R193
  | tld (y : Sync) (d : BitVec 4) (s : BitVec 4) (k : BitVec 4) -- TLD, R195
  | tst (y : Sync) (t : BitVec 4) (s : BitVec 4) -- TST, R195
  | tmul (y : Sync) (d : BitVec 4) (a : BitVec 4) (b : BitVec 4) -- TMUL, R199
  | tadd (y : Sync) (d : BitVec 4) (a : BitVec 4) (b : BitVec 4) (s : BitVec 4) -- TADD, R196
  | tsub (y : Sync) (d : BitVec 4) (a : BitVec 4) (b : BitVec 4) (s : BitVec 4) -- TSUB, R196
  | tscal (y : Sync) (d : BitVec 4) (a : BitVec 4) (s : BitVec 4) -- TSCAL, R197
  | txp (y : Sync) (d : BitVec 4) (a : BitVec 4) -- TXP, R198
  | trcmp (y : Sync) (d : BitVec 4) (a : BitVec 4) -- TRCMP, R201
  | tdense (y : Sync) (d : BitVec 4) (a : BitVec 4) -- TDENSE, R200
  | tfact (y : Sync) (d : BitVec 4) (a : BitVec 4) -- TFACT, R203
  | tmma (y : Sync) (c : BitVec 4) (a : BitVec 4) (b : BitVec 4) (slot : BitVec 3) (nf : Bool) -- TMMA, R205
  | trank (y : Sync) (d : BitVec 4) (a : BitVec 4) -- TRANK, R194
  | ttol (y : Sync) (d : BitVec 4) (a : BitVec 4) -- TTOL, R204
  | tileExecutionEnd -- TILE_EXECUTION_END, R190
  | leaveGrant (core : Nat) -- LEAVE_GRANT, R177
  | leaveIdleRelease -- LEAVE_IDLE_RELEASE, R178
  | sliceDeadlock -- SLICE_DEADLOCK, R228
  | fetchLineFill (e : Eng) -- FETCH_LINE_FILL, R356
  | bankServe (bank : Nat) -- BANK_SERVE, R269
  | loadDataReturn -- LOAD_DATA_RETURN, R262
  | storePerform -- STORE_PERFORM, R258
  | pendingWriteCommit (e : Eng) -- PENDING_WRITE_COMMIT, R276
  | horizonWriteRelease -- HORIZON_WRITE_RELEASE, R275
  | memoryChecksComplete (e : Eng) -- MEMORY_CHECKS_COMPLETE, R83
  | faultDrainEnd -- FAULT_DRAIN_END, R281
  | sliceSetDrainTimeout -- SLICE_SET_DRAIN_TIMEOUT, R282
  | barrierArrivalApply -- BARRIER_ARRIVAL_APPLY, R87
  | sendtElementApply -- SENDT_ELEMENT_APPLY, R116
  | transferAcknowledgement -- TRANSFER_ACKNOWLEDGEMENT, R374
  | ackTimeout -- ACK_TIMEOUT, R376
  | packetReceive (port : Nat) (p : Packet) (badCrcs : Nat) -- PACKET_RECEIVE, R367
  | packetAdvance (port vc : Nat) -- PACKET_ADVANCE, R368
  | collAccept -- COLL_ACCEPT, R383
  | readyMessage (p : Packet) -- READY_MESSAGE, R385
  | readyRetry -- READY_RETRY, R385
  | collStep -- COLL_STEP, R386
  | collCompletionArrival -- COLL_COMPLETION_ARRIVAL, R390
  | collAbort (tag : Nat) -- COLL_ABORT, R389
  | collStepTimeout -- COLL_STEP_TIMEOUT, R389
  | qcfgWrite (fn q : Nat) (v : Word) -- QCFG_WRITE, R297
  | qbaseWrite (fn q : Nat) (v : Word) -- QBASE_WRITE, R297
  | doorbell (fn q : Nat) (v : Word) -- DOORBELL, R298
  | frontEndConsume -- FRONT_END_CONSUME, R299
  | nopCommand -- NOP_COMMAND, R300
  | launch -- LAUNCH, R303
  | drain -- DRAIN, R300
  | drainCompletion (fn q : Nat) -- DRAIN_COMPLETION, R300
  | waitmem -- WAITMEM, R300
  | waitmemPoll (fn q : Nat) -- WAITMEM_POLL, R300
  | pipe -- PIPE, R312
  | coreFreeDispatch (core : Nat) -- CORE_FREE_DISPATCH, R308
  | preemptTrigger -- PREEMPT_TRIGGER, R310
  | preemptBoundarySave -- PREEMPT_BOUNDARY_SAVE, R327
  | preemptForce -- PREEMPT_FORCE, R328
  | create (fn : Nat) (v : Word) -- CREATE, R318
  | destroy (fn : Nat) (v : Word) -- DESTROY, R339
  | save (fn : Nat) (v : Word) -- SAVE, R316
  | restore (fn : Nat) (v : Word) -- RESTORE, R325
  | switch (fn : Nat) (v : Word) -- SWITCH, R344
  | resume (fn : Nat) (v : Word) -- RESUME, R289
  | inval (fn : Nat) (v : Word) -- INVAL, R337
  | vfsusp (fn : Nat) (v : Word) -- VFSUSP, R343
  | vfres (fn : Nat) (v : Word) -- VFRES, R343
  | vffeatWrite (vf : Nat) (v : Word) -- VFFEAT_WRITE, R340
  | s2rootWrite (vf : Nat) (v : Word) -- S2ROOT_WRITE, R340
  | functionLevelReset (vf : Nat) -- FUNCTION_LEVEL_RESET, R342
  | pageWalkComplete (die : Nat) -- PAGE_WALK_COMPLETE, R336
  | load (fn : Nat) (v : Word) -- LOAD, R350
  | unload (fn : Nat) (v : Word) -- UNLOAD, R352
  | depstatWrite (fn : Nat) (v : Word) -- DEPSTAT_WRITE, R355
  | bind (v : Word) -- BIND, R371
  | unbind (v : Word) -- UNBIND, R371
  | easyAll (v : Word) -- EASY_ALL, R395
  | gangIn (v : Word) -- IN, R403
  | discard (v : Word) -- DISCARD, R406
  | gangSwitchTime -- GANG_SWITCH_TIME, R395
  | gangMarkerSend (port : Nat) -- GANG_MARKER_SEND, R397
  | gangMarkerArrival (port : Nat) (p : Packet) -- GANG_MARKER_ARRIVAL, R398
  | switchOutComplete -- SWITCH_OUT_COMPLETE, R400
  | gangMarkerTimeout -- GANG_MARKER_TIMEOUT, R405
  | gangResumeTime -- GANG_RESUME_TIME, R403
  | gangResumeComplete -- GANG_RESUME_COMPLETE, R403
  | firmwareUpdate (image : List Byte) -- FIRMWARE_UPDATE, R412
  | pcieLinkUp -- PCIE_LINK_UP, R408
  | powerOn -- POWER_ON, R410
  | rcvctlSubmit (v : Word) -- RCVCTL_SUBMIT, R412
  | railsGood -- RAILS_GOOD, R414
  | clkctlWrite (v : Word) -- CLKCTL_WRITE, R414
  | pllLock -- PLL_LOCK, R414
  | dierstWrite (v : Word) -- DIERST_WRITE, R414
  | dieReleased (die : Nat) -- DIE_RELEASED, R414
  | sraminitWrite (v : Word) -- SRAMINIT_WRITE, R414
  | sramInitDone (failing : List Nat) -- SRAM_INIT_DONE, R414
  | powerUpTimeout -- POWER_UP_TIMEOUT, R414
  | mctlWrite (n : Nat) (v : Word) -- MCTL_WRITE, R415
  | memoryTrainingDone (n : Nat) (pass : Bool) -- MEMORY_TRAINING_DONE, R415
  | memoryTrainingTimeout (n : Nat) -- MEMORY_TRAINING_TIMEOUT, R415
  | mmapWrite (v : Word) -- MMAP_WRITE, R415
  | portctlWrite (p : Nat) (v : Word) -- PORTCTL_WRITE, R416
  | laneTrainingDone (p : Nat) (lanes : BitVec 2) -- LANE_TRAINING_DONE, R416
  | rsFecLock (p : Nat) -- RS_FEC_LOCK, R416
  | identityExchangeDone (p neighbour : Nat) -- IDENTITY_EXCHANGE_DONE, R416
  | linkTrainingTimeout (p : Nat) -- LINK_TRAINING_TIMEOUT, R416
  | minsvnRaise -- MINSVN_RAISE, R412
  | attestationQuote (nonce : List Byte) -- ATTESTATION_QUOTE, R411
  | pluginTimeout (fn : Nat) -- PLUGIN_TIMEOUT, R413
  | pluginViolation (fn : Nat) -- PLUGIN_VIOLATION, R413
  | firmwareIsolationViolation -- FIRMWARE_ISOLATION_VIOLATION, R413
  | pwrlimWrite (v : Word) -- PWRLIM_WRITE, R408
  | governorTick (measured : Nat) -- GOVERNOR_TICK, R417
  | dieTemperatureChange (die celsius : Nat) -- DIE_TEMPERATURE_CHANGE, R418
  | correctedError (unit loc addr : Nat) -- CORRECTED_ERROR, R419
  | uncorrectableError (unit loc addr : Nat) -- UNCORRECTABLE_ERROR, R420
  | patrolScrub -- PATROL_SCRUB, R419
  | freePageAdd (v : Word) -- FREE_PAGE_ADD, R424
  | freePageTake (v : Word) -- FREE_PAGE_TAKE, R424
  | securityAlarm (source : Nat) -- SECURITY_ALARM, R426
  | registerWrite (fn off : Nat) (v : Word) -- REGISTER_WRITE, R6
  | powerOff -- POWER_OFF, R407
  | linkFailure (p : Nat) -- LINK_FAILURE, R369
  | policyPluginDone (resume : Bool) (ctx slot : Nat) -- POLICY_PLUGIN_DONE, R330
  deriving DecidableEq, Repr

end Sys2Proof
end

