-- ==== Sys2Proof/WellFormed.lean ====
section
/-!
DEFINITION. Well-formed instructions: the operand values an instruction word can carry (R12, R15, R17 to R22, R99, R101).
-/
namespace Sys2Proof

/-- A common-group register field: x0 to x31 in S, x0 to x15 in the other classes (R17). -/
def regOk (c : Eng) (r : BitVec 5) : Bool := c == .S || r.toNat < 16

/-- A wait or signal field never names the word's own engine (R12). -/
def syncOk (c : Eng) (y : Sync) : Bool := y.wait != some c && y.sig != some c

/-- A SYNC mask never names the word's own engine (R21). -/
def maskOk (c : Eng) (m : BitVec 5) : Bool := !m.getLsbD (c.code - 1)

/-- The check of every constructor; the event rows have no encoding and no check. -/
def Instr.wf : Instr → Bool
  | .sync c waits sigs => maskOk c waits && maskOk c sigs
  | .syncV1 c w g => w != some c && g != some c
  | .qbind y _ p q => syncOk .S y && p != q
  | .rlinv y _ => syncOk .S y
  | .nop c y => syncOk c y
  | .add c y d a b _ => syncOk c y && regOk c d && regOk c a && regOk c b
  | .sub c y d a b _ => syncOk c y && regOk c d && regOk c a && regOk c b
  | .mul c y d a b _ => syncOk c y && regOk c d && regOk c a && regOk c b
  | .mulh c y d a b _ => syncOk c y && regOk c d && regOk c a && regOk c b
  | .mulhu c y d a b _ => syncOk c y && regOk c d && regOk c a && regOk c b
  | .div c y d a b _ => syncOk c y && regOk c d && regOk c a && regOk c b
  | .divu c y d a b _ => syncOk c y && regOk c d && regOk c a && regOk c b
  | .rem c y d a b _ => syncOk c y && regOk c d && regOk c a && regOk c b
  | .remu c y d a b _ => syncOk c y && regOk c d && regOk c a && regOk c b
  | .and c y d a b _ => syncOk c y && regOk c d && regOk c a && regOk c b
  | .or c y d a b _ => syncOk c y && regOk c d && regOk c a && regOk c b
  | .xor c y d a b _ => syncOk c y && regOk c d && regOk c a && regOk c b
  | .andn c y d a b _ => syncOk c y && regOk c d && regOk c a && regOk c b
  | .shl c y d a b _ => syncOk c y && regOk c d && regOk c a && regOk c b
  | .shr c y d a b _ => syncOk c y && regOk c d && regOk c a && regOk c b
  | .sra c y d a b _ => syncOk c y && regOk c d && regOk c a && regOk c b
  | .slt c y d a b _ => syncOk c y && regOk c d && regOk c a && regOk c b
  | .sltu c y d a b _ => syncOk c y && regOk c d && regOk c a && regOk c b
  | .min c y d a b _ => syncOk c y && regOk c d && regOk c a && regOk c b
  | .max c y d a b _ => syncOk c y && regOk c d && regOk c a && regOk c b
  | .minu c y d a b _ => syncOk c y && regOk c d && regOk c a && regOk c b
  | .maxu c y d a b _ => syncOk c y && regOk c d && regOk c a && regOk c b
  | .sel c y d a b => syncOk c y && regOk c d && regOk c a && regOk c b
  | .clz c y d a _ => syncOk c y && regOk c d && regOk c a
  | .popc c y d a _ => syncOk c y && regOk c d && regOk c a
  | .addi c y d a _ => syncOk c y && regOk c d && regOk c a
  | .andi c y d a _ => syncOk c y && regOk c d && regOk c a
  | .ori c y d a _ => syncOk c y && regOk c d && regOk c a
  | .xori c y d a _ => syncOk c y && regOk c d && regOk c a
  | .shli c y d a _ => syncOk c y && regOk c d && regOk c a
  | .shri c y d a _ => syncOk c y && regOk c d && regOk c a
  | .srai c y d a _ => syncOk c y && regOk c d && regOk c a
  | .slti c y d a _ => syncOk c y && regOk c d && regOk c a
  | .sltiu c y d a _ => syncOk c y && regOk c d && regOk c a
  | .loop c y s len => syncOk c y && regOk c s && len != 0
  | .loopi c y n len => syncOk c y && n != 0 && len != 0
  | .follow c y d => syncOk c y && regOk c d && c != .S
  | .brf c y d _ => syncOk c y && regOk c d && c != .S
  | .crr c y d _ => syncOk c y && regOk c d
  | .crw c y s r => syncOk c y && regOk c s && r.writable
  | .li c d _ => regOk c d
  | .lih c d _ => regOk c d
  | .addpc _ => true
  | .j _ => true
  | .call _ => true
  | .beqz y _ _ => syncOk .S y
  | .bnez y _ _ => syncOk .S y
  | .bltz y _ _ => syncOk .S y
  | .bgez y _ _ => syncOk .S y
  | .bgtz y _ _ => syncOk .S y
  | .blez y _ _ => syncOk .S y
  | .callr y _ => syncOk .S y
  | .callx y _ _ => syncOk .S y
  | .ret y => syncOk .S y
  | .ld y _ _ _ _ => syncOk .S y
  | .st y _ _ _ _ => syncOk .S y
  | .lda y _ _ sc _ => syncOk .S y && sc.wide
  | .stl y _ _ sc _ => syncOk .S y && sc.wide
  | .amo y _ _ _ _ => syncOk .S y
  | .cas y _ _ _ _ => syncOk .S y
  | .fence y _ _ => syncOk .S y
  | .sptest y _ _ => syncOk .S y
  | .spcast y _ _ _ => syncOk .S y
  | .binit y _ _ => syncOk .S y
  | .barv y _ sc => syncOk .S y && sc != .engine
  | .bwait y _ _ => syncOk .S y
  | .btry y _ _ _ => syncOk .S y
  | .arm y _ _ _ => syncOk .S y
  | .disarm y _ => syncOk .S y
  | .fmtw y _ _ => syncOk .S y
  | .pwlw y _ _ => syncOk .S y
  | .send y _ t => syncOk .S y && t != .S
  | .svc y _ => syncOk .S y
  | .bkpt y _ => syncOk .S y
  | .halt y => syncOk .S y
  | .coll y _ _ => syncOk .S y
  | .ldr y _ _ _ _ _ => syncOk .L y
  | .ldt y _ _ q _ => syncOk .L y && (!q || y.sig.isSome)
  | .ldt3 y _ _ q _ _ => syncOk .L y && (!q || y.sig.isSome)
  | .ldg y _ _ q _ _ => syncOk .L y && (!q || y.sig.isSome)
  | .ldx y _ _ q _ sz => syncOk .L y && (!q || y.sig.isSome) && (sz == .b || sz == .h)
  | .ldz y _ _ q _ _ => syncOk .L y && (!q || y.sig.isSome)
  | .pref y _ _ _ => syncOk .L y
  | .stx y _ _ _ _ => syncOk .W y
  | .stt y _ _ q _ => syncOk .W y && (!q || y.wait.isSome)
  | .stt3 y _ _ q _ _ => syncOk .W y && (!q || y.wait.isSome)
  | .sts y _ _ q _ _ => syncOk .W y && (!q || y.wait.isSome)
  | .sttc y _ _ q _ _ => syncOk .W y && (!q || y.wait.isSome)
  | .red y _ _ q _ _ => syncOk .W y && (!q || y.wait.isSome)
  | .sendt y _ => syncOk .W y
  | .pub y _ sc => syncOk .W y && sc.wide
  | .bcopy y _ _ _ _ => syncOk .W y
  | .dset y _ _ _ => syncOk .V y
  | .vadd y _ _ _ _ _ => syncOk .V y
  | .vsub y _ _ _ _ _ => syncOk .V y
  | .vmul y _ _ _ _ _ => syncOk .V y
  | .vfma y _ _ _ _ _ => syncOk .V y
  | .vmin y _ _ _ _ _ => syncOk .V y
  | .vmax y _ _ _ _ _ => syncOk .V y
  | .vabs y _ _ _ _ => syncOk .V y
  | .vneg y _ _ _ _ => syncOk .V y
  | .vand y _ _ _ => syncOk .V y
  | .vor y _ _ _ => syncOk .V y
  | .vxor y _ _ _ => syncOk .V y
  | .vshl y _ _ _ => syncOk .V y
  | .vshr y _ _ _ => syncOk .V y
  | .vsra y _ _ _ => syncOk .V y
  | .vcmp y _ _ _ _ _ => syncOk .V y
  | .vsel y _ _ _ _ => syncOk .V y
  | .vmov y _ _ => syncOk .V y
  | .vfill y _ _ => syncOk .V y
  | .viota y _ _ _ _ => syncOk .V y
  | .vcvt y _ _ _ _ _ => syncOk .V y
  | .vcvtV1 y _ _ _ _ => syncOk .V y
  | .vqnt y _ _ _ _ _ => syncOk .V y
  | .vdqnt y _ _ _ _ _ => syncOk .V y
  | .vrshr y _ _ _ _ _ => syncOk .V y
  | .vclamp y _ _ _ _ => syncOk .V y
  | .vred y _ _ _ _ _ => syncOk .V y
  | .vscan y _ _ op _ _ => syncOk .V y && op != .amax
  | .vpwl y _ _ _ _ _ _ => syncOk .V y
  | .vrcp y _ _ _ _ => syncOk .V y
  | .vrsqrt y _ _ _ _ => syncOk .V y
  | .vsqrt y _ _ _ _ => syncOk .V y
  | .vdiv y _ _ _ _ _ => syncOk .V y
  | .vgth y _ _ _ => syncOk .V y
  | .vsct y _ _ _ => syncOk .V y
  | .vflg y _ _ => syncOk .V y
  | .mma y _ _ _ _ _ => syncOk .M y
  | .mmas y _ _ _ _ _ => syncOk .M y
  | .mmat y _ _ _ _ _ => syncOk .M y
  | .mzero y _ => syncOk .M y
  | .mdrain y _ _ _ _ _ => syncOk .M y
  | .mlda y _ _ => syncOk .M y
  | .mstat y _ _ _ => syncOk .M y
  | .tconf y _ _ _ => syncOk .M y
  | .tld y _ _ _ => syncOk .M y
  | .tst y _ _ => syncOk .M y
  | .tmul y _ _ _ => syncOk .M y
  | .tadd y _ _ _ _ => syncOk .M y
  | .tsub y _ _ _ _ => syncOk .M y
  | .tscal y _ _ _ => syncOk .M y
  | .txp y _ _ => syncOk .M y
  | .trcmp y _ _ => syncOk .M y
  | .tdense y _ _ => syncOk .M y
  | .tfact y _ _ => syncOk .M y
  | .tmma y _ _ _ _ _ => syncOk .M y
  | .trank y _ _ => syncOk .M y
  | .ttol y _ _ => syncOk .M y
  | .illegalInstruction _ _ _ => true
  | .callUnpark => true
  | .haltComplete => true
  | .ldzDecodeDone => true
  | .ldzWatchdog => true
  | .bcopyMoveComplete => true
  | .migrationPageMove => true
  | .addressUnitCheck => true
  | .tileExecutionEnd => true
  | .leaveGrant _ => true
  | .leaveIdleRelease => true
  | .sliceDeadlock => true
  | .fetchLineFill _ => true
  | .bankServe _ => true
  | .loadDataReturn => true
  | .storePerform => true
  | .pendingWriteCommit _ => true
  | .horizonWriteRelease => true
  | .memoryChecksComplete _ => true
  | .faultDrainEnd => true
  | .sliceSetDrainTimeout => true
  | .barrierArrivalApply => true
  | .sendtElementApply => true
  | .transferAcknowledgement => true
  | .ackTimeout => true
  | .packetReceive _ _ _ => true
  | .packetAdvance _ _ => true
  | .collAccept => true
  | .readyMessage _ => true
  | .readyRetry => true
  | .collStep => true
  | .collCompletionArrival => true
  | .collAbort _ => true
  | .collStepTimeout => true
  | .qcfgWrite _ _ _ => true
  | .qbaseWrite _ _ _ => true
  | .doorbell _ _ _ => true
  | .frontEndConsume => true
  | .nopCommand => true
  | .launch => true
  | .drain => true
  | .drainCompletion _ _ => true
  | .waitmem => true
  | .waitmemPoll _ _ => true
  | .pipe => true
  | .coreFreeDispatch _ => true
  | .preemptTrigger => true
  | .preemptBoundarySave => true
  | .preemptForce => true
  | .create _ _ => true
  | .destroy _ _ => true
  | .save _ _ => true
  | .restore _ _ => true
  | .switch _ _ => true
  | .resume _ _ => true
  | .inval _ _ => true
  | .vfsusp _ _ => true
  | .vfres _ _ => true
  | .vffeatWrite _ _ => true
  | .s2rootWrite _ _ => true
  | .functionLevelReset _ => true
  | .pageWalkComplete _ => true
  | .load _ _ => true
  | .unload _ _ => true
  | .depstatWrite _ _ => true
  | .bind _ => true
  | .unbind _ => true
  | .easyAll _ => true
  | .gangIn _ => true
  | .discard _ => true
  | .gangSwitchTime => true
  | .gangMarkerSend _ => true
  | .gangMarkerArrival _ _ => true
  | .switchOutComplete => true
  | .gangMarkerTimeout => true
  | .gangResumeTime => true
  | .gangResumeComplete => true
  | .pcieLinkUp => true
  | .powerOn => true
  | .rcvctlSubmit _ => true
  | .railsGood => true
  | .clkctlWrite _ => true
  | .pllLock => true
  | .dierstWrite _ => true
  | .dieReleased _ => true
  | .sraminitWrite _ => true
  | .sramInitDone _ => true
  | .powerUpTimeout => true
  | .mctlWrite _ _ => true
  | .memoryTrainingDone _ _ => true
  | .memoryTrainingTimeout _ => true
  | .mmapWrite _ => true
  | .portctlWrite _ _ => true
  | .laneTrainingDone _ _ => true
  | .rsFecLock _ => true
  | .identityExchangeDone _ _ => true
  | .linkTrainingTimeout _ => true
  | .firmwareUpdate _ => true
  | .minsvnRaise => true
  | .attestationQuote _ => true
  | .pluginTimeout _ => true
  | .pluginViolation _ => true
  | .firmwareIsolationViolation => true
  | .pwrlimWrite _ => true
  | .governorTick _ => true
  | .dieTemperatureChange _ _ => true
  | .correctedError _ _ _ => true
  | .uncorrectableError _ _ _ => true
  | .patrolScrub => true
  | .freePageAdd _ => true
  | .freePageTake _ => true
  | .securityAlarm _ => true
  | .registerWrite _ _ _ => true
  | .powerOff => true
  | .linkFailure _ => true
  | .policyPluginDone _ _ _ => true

end Sys2Proof
end

