-- ==== Sys2Proof/Decode.lean ====
section
/-!
DEFINITION. The decoder (R10 to R30), total on words and on bytes, rejecting by the detail code of R29; and the encoder written from the same tables.
-/
namespace Sys2Proof

/-- What the decoder answers: an instruction, or the detail code of R29 of an illegal word. -/
inductive Decoded where
  | ok (i : Instr)
  | illegal (detail : Nat)
  deriving DecidableEq, Repr

/-- The field of `n` bits whose lowest bit is `lo` (R5). -/
def fld {w : Nat} (o : BitVec w) (lo n : Nat) : BitVec n := o.extractLsb' lo n

/-- Bit `i` of an operand. -/
def bit {w : Nat} (o : BitVec w) (i : Nat) : Bool := o.getLsbD i

/-- The checks of R29 in their order: register fields (0x09), reserved bits (0x0A), ranges (0x0B). -/
def build (regs rsv rng : Bool) (i : Instr) : Decoded :=
  if !regs then .illegal 0x09 else if !rsv then .illegal 0x0A else if !rng then .illegal 0x0B else .ok i

/-- As `build`, for a form with a coded field whose code may name nothing (0x0B). -/
def build? (regs rsv rng : Bool) (i : Option Instr) : Decoded :=
  if !regs then .illegal 0x09 else if !rsv then .illegal 0x0A else if !rng then .illegal 0x0B else
  match i with
  | some j => .ok j
  | none => .illegal 0x0B

/-- An optional engine code of SYNC.V1: `none` when the code is 6, 7 or the word's own engine (R30). -/
def v1Code (c : Eng) (n : Nat) : Option (Option Eng) :=
  if n = 0 then some none else
  match Eng.ofCode? n with
  | some e => if e = c then none else some (some e)
  | none => none

/-- The long format (R14, R15). -/
def decodeLong (c : Eng) (op : Nat) (o : BitVec 22) : Decoded :=
  match op with
  | 0 => build (regOk c (fld o 17 5)) true true (.li c (fld o 17 5) (fld o 0 17))
  | 1 => build (regOk c (fld o 17 5)) true true (.lih c (fld o 17 5) (fld o 0 17))
  | 2 => if c = .S then .ok (.addpc (fld o 0 22)) else .illegal 0x05
  | 3 => if c = .S then .ok (.j (fld o 0 22)) else .illegal 0x05
  | 4 => if c = .S then .ok (.call (fld o 0 22)) else .illegal 0x05
  | _ => .illegal 0x05

/-- The common group (R19). -/
def decodeCommon (c : Eng) (y : Sync) (op : Nat) (o : BitVec 16) : Decoded :=
  match op with
  | 0x01 => build true (fld o 0 16 == 0) true (.nop c y)
  | 0x02 => build (regOk c (fld o 11 5) && regOk c (fld o 6 5) && regOk c (fld o 1 5)) true true (.add c y (fld o 11 5) (fld o 6 5) (fld o 1 5) (bit o 0))
  | 0x03 => build (regOk c (fld o 11 5) && regOk c (fld o 6 5) && regOk c (fld o 1 5)) true true (.sub c y (fld o 11 5) (fld o 6 5) (fld o 1 5) (bit o 0))
  | 0x04 => build (regOk c (fld o 11 5) && regOk c (fld o 6 5) && regOk c (fld o 1 5)) true true (.mul c y (fld o 11 5) (fld o 6 5) (fld o 1 5) (bit o 0))
  | 0x05 => build (regOk c (fld o 11 5) && regOk c (fld o 6 5) && regOk c (fld o 1 5)) true true (.mulh c y (fld o 11 5) (fld o 6 5) (fld o 1 5) (bit o 0))
  | 0x06 => build (regOk c (fld o 11 5) && regOk c (fld o 6 5) && regOk c (fld o 1 5)) true true (.mulhu c y (fld o 11 5) (fld o 6 5) (fld o 1 5) (bit o 0))
  | 0x07 => build (regOk c (fld o 11 5) && regOk c (fld o 6 5) && regOk c (fld o 1 5)) true true (.div c y (fld o 11 5) (fld o 6 5) (fld o 1 5) (bit o 0))
  | 0x08 => build (regOk c (fld o 11 5) && regOk c (fld o 6 5) && regOk c (fld o 1 5)) true true (.divu c y (fld o 11 5) (fld o 6 5) (fld o 1 5) (bit o 0))
  | 0x09 => build (regOk c (fld o 11 5) && regOk c (fld o 6 5) && regOk c (fld o 1 5)) true true (.rem c y (fld o 11 5) (fld o 6 5) (fld o 1 5) (bit o 0))
  | 0x0A => build (regOk c (fld o 11 5) && regOk c (fld o 6 5) && regOk c (fld o 1 5)) true true (.remu c y (fld o 11 5) (fld o 6 5) (fld o 1 5) (bit o 0))
  | 0x0B => build (regOk c (fld o 11 5) && regOk c (fld o 6 5) && regOk c (fld o 1 5)) true true (.and c y (fld o 11 5) (fld o 6 5) (fld o 1 5) (bit o 0))
  | 0x0C => build (regOk c (fld o 11 5) && regOk c (fld o 6 5) && regOk c (fld o 1 5)) true true (.or c y (fld o 11 5) (fld o 6 5) (fld o 1 5) (bit o 0))
  | 0x0D => build (regOk c (fld o 11 5) && regOk c (fld o 6 5) && regOk c (fld o 1 5)) true true (.xor c y (fld o 11 5) (fld o 6 5) (fld o 1 5) (bit o 0))
  | 0x0E => build (regOk c (fld o 11 5) && regOk c (fld o 6 5) && regOk c (fld o 1 5)) true true (.andn c y (fld o 11 5) (fld o 6 5) (fld o 1 5) (bit o 0))
  | 0x0F => build (regOk c (fld o 11 5) && regOk c (fld o 6 5) && regOk c (fld o 1 5)) true true (.shl c y (fld o 11 5) (fld o 6 5) (fld o 1 5) (bit o 0))
  | 0x10 => build (regOk c (fld o 11 5) && regOk c (fld o 6 5) && regOk c (fld o 1 5)) true true (.shr c y (fld o 11 5) (fld o 6 5) (fld o 1 5) (bit o 0))
  | 0x11 => build (regOk c (fld o 11 5) && regOk c (fld o 6 5) && regOk c (fld o 1 5)) true true (.sra c y (fld o 11 5) (fld o 6 5) (fld o 1 5) (bit o 0))
  | 0x12 => build (regOk c (fld o 11 5) && regOk c (fld o 6 5) && regOk c (fld o 1 5)) true true (.slt c y (fld o 11 5) (fld o 6 5) (fld o 1 5) (bit o 0))
  | 0x13 => build (regOk c (fld o 11 5) && regOk c (fld o 6 5) && regOk c (fld o 1 5)) true true (.sltu c y (fld o 11 5) (fld o 6 5) (fld o 1 5) (bit o 0))
  | 0x14 => build (regOk c (fld o 11 5) && regOk c (fld o 6 5) && regOk c (fld o 1 5)) true true (.min c y (fld o 11 5) (fld o 6 5) (fld o 1 5) (bit o 0))
  | 0x15 => build (regOk c (fld o 11 5) && regOk c (fld o 6 5) && regOk c (fld o 1 5)) true true (.max c y (fld o 11 5) (fld o 6 5) (fld o 1 5) (bit o 0))
  | 0x16 => build (regOk c (fld o 11 5) && regOk c (fld o 6 5) && regOk c (fld o 1 5)) true true (.minu c y (fld o 11 5) (fld o 6 5) (fld o 1 5) (bit o 0))
  | 0x17 => build (regOk c (fld o 11 5) && regOk c (fld o 6 5) && regOk c (fld o 1 5)) true true (.maxu c y (fld o 11 5) (fld o 6 5) (fld o 1 5) (bit o 0))
  | 0x18 => build (regOk c (fld o 11 5) && regOk c (fld o 6 5) && regOk c (fld o 1 5)) (fld o 0 1 == 0) true (.sel c y (fld o 11 5) (fld o 6 5) (fld o 1 5))
  | 0x19 => build (regOk c (fld o 11 5) && regOk c (fld o 6 5)) (fld o 1 5 == 0) true (.clz c y (fld o 11 5) (fld o 6 5) (bit o 0))
  | 0x1A => build (regOk c (fld o 11 5) && regOk c (fld o 6 5)) (fld o 1 5 == 0) true (.popc c y (fld o 11 5) (fld o 6 5) (bit o 0))
  | 0x20 => build (regOk c (fld o 11 5) && regOk c (fld o 6 5)) true true (.addi c y (fld o 11 5) (fld o 6 5) (fld o 0 6))
  | 0x21 => build (regOk c (fld o 11 5) && regOk c (fld o 6 5)) true true (.andi c y (fld o 11 5) (fld o 6 5) (fld o 0 6))
  | 0x22 => build (regOk c (fld o 11 5) && regOk c (fld o 6 5)) true true (.ori c y (fld o 11 5) (fld o 6 5) (fld o 0 6))
  | 0x23 => build (regOk c (fld o 11 5) && regOk c (fld o 6 5)) true true (.xori c y (fld o 11 5) (fld o 6 5) (fld o 0 6))
  | 0x24 => build (regOk c (fld o 11 5) && regOk c (fld o 6 5)) true true (.shli c y (fld o 11 5) (fld o 6 5) (fld o 0 6))
  | 0x25 => build (regOk c (fld o 11 5) && regOk c (fld o 6 5)) true true (.shri c y (fld o 11 5) (fld o 6 5) (fld o 0 6))
  | 0x26 => build (regOk c (fld o 11 5) && regOk c (fld o 6 5)) true true (.srai c y (fld o 11 5) (fld o 6 5) (fld o 0 6))
  | 0x27 => build (regOk c (fld o 11 5) && regOk c (fld o 6 5)) true true (.slti c y (fld o 11 5) (fld o 6 5) (fld o 0 6))
  | 0x28 => build (regOk c (fld o 11 5) && regOk c (fld o 6 5)) true true (.sltiu c y (fld o 11 5) (fld o 6 5) (fld o 0 6))
  | 0x32 => build (regOk c (fld o 11 5)) true (fld o 0 11 != 0) (.loop c y (fld o 11 5) (fld o 0 11))
  | 0x33 => build true true (fld o 7 9 != 0 && fld o 0 7 != 0) (.loopi c y (fld o 7 9) (fld o 0 7))
  | 0x34 => if c = .S then .illegal 0x08 else build (regOk c (fld o 11 5)) (fld o 0 11 == 0) true (.follow c y (fld o 11 5))
  | 0x35 => if c = .S then .illegal 0x08 else build (regOk c (fld o 11 5)) true true (.brf c y (fld o 11 5) (fld o 0 11))
  | 0x36 => build? (regOk c (fld o 11 5)) true true ((CtlReg.ofCode? (fld o 0 11).toNat).map fun er => .crr c y (fld o 11 5) er)
  | 0x37 => build? (regOk c (fld o 11 5)) true true (((CtlReg.ofCode? (fld o 0 11).toNat).filter (fun x => x.writable)).map fun er => .crw c y (fld o 11 5) er)
  | 0x30 =>
    if y != Sync.none || !maskOk c (fld o 11 5) || !maskOk c (fld o 6 5) then .illegal 0x08
    else build true (fld o 0 6 == 0) true (.sync c (fld o 11 5) (fld o 6 5))
  | 0x31 =>
    if y != Sync.none then .illegal 0x08 else
    match v1Code c (fld o 13 3).toNat, v1Code c (fld o 10 3).toNat with
    | some w, some g => build true (fld o 0 10 == 0) true (.syncV1 c w g)
    | _, _ => .illegal 0x08
  | _ => .illegal 0x07

/-- The class-specific group of S (R23). -/
def decodeS (y : Sync) (op : Nat) (o : BitVec 16) : Decoded :=
  match op with
  | 0x40 => build true true true (.beqz y (fld o 11 5) (fld o 0 11))
  | 0x41 => build true true true (.bnez y (fld o 11 5) (fld o 0 11))
  | 0x42 => build true true true (.bltz y (fld o 11 5) (fld o 0 11))
  | 0x43 => build true true true (.bgez y (fld o 11 5) (fld o 0 11))
  | 0x44 => build true true true (.bgtz y (fld o 11 5) (fld o 0 11))
  | 0x45 => build true true true (.blez y (fld o 11 5) (fld o 0 11))
  | 0x48 => build true (fld o 0 11 == 0) true (.callr y (fld o 11 5))
  | 0x49 => build true true true (.callx y (fld o 11 5) (fld o 0 11))
  | 0x4A => build true (fld o 0 16 == 0) true (.ret y)
  | 0x50 => build? true true true ((Size.ofCode? (fld o 4 2).toNat).map fun esz => .ld y (fld o 11 5) (fld o 6 5) esz (fld o 0 4))
  | 0x51 => build? true true true ((Size.ofCode? (fld o 4 2).toNat).map fun esz => .st y (fld o 11 5) (fld o 6 5) esz (fld o 0 4))
  | 0x52 => build true true true (.lda y (fld o 11 5) (fld o 6 5) (Scope.ofCode4 (fld o 4 2).toNat) (fld o 0 4))
  | 0x53 => build true true true (.stl y (fld o 11 5) (fld o 6 5) (Scope.ofCode4 (fld o 4 2).toNat) (fld o 0 4))
  | 0x54 => build? true (fld o 0 1 == 0) true ((AmoOp.ofCode? (fld o 2 4).toNat).map fun eop => .amo y (fld o 11 5) (fld o 6 5) eop (bit o 1))
  | 0x55 => build true true true (.cas y (fld o 11 5) (fld o 6 5) (fld o 1 5) (bit o 0))
  | 0x56 => build? true (fld o 0 8 == 0) true ((Scope.ofCode? (fld o 8 3).toNat).map fun esc => .fence y (fld o 11 5) esc)
  | 0x58 => build true (fld o 0 6 == 0) true (.sptest y (fld o 11 5) (fld o 6 5))
  | 0x59 => build true true (fld o 2 4 == 0) (.spcast y (fld o 11 5) (fld o 6 5) (fld o 0 2))
  | 0x60 => build true true true (.binit y (fld o 11 5) (fld o 0 11))
  | 0x61 => build? true (fld o 0 8 == 0) true (((Scope.ofCode? (fld o 8 3).toNat).filter (fun x => x != .engine)).map fun esc => .barv y (fld o 11 5) esc)
  | 0x62 => build true (fld o 12 4 == 0) true (.bwait y (bit o 11) (fld o 0 11))
  | 0x63 => build true true true (.btry y (fld o 12 4) (bit o 11) (fld o 0 11))
  | 0x64 => build true true true (.arm y (fld o 11 5) (fld o 6 5) (fld o 0 6))
  | 0x65 => build true (fld o 6 10 == 0) true (.disarm y (fld o 0 6))
  | 0x68 => build true (fld o 6 5 == 0) true (.fmtw y (fld o 11 5) (fld o 0 6))
  | 0x69 => build true (fld o 6 5 == 0) true (.pwlw y (fld o 11 5) (fld o 0 6))
  | 0x6C => build? true (fld o 0 8 == 0) true (((Eng.ofCode? (fld o 8 3).toNat).filter (fun x => x != .S)).map fun et => .send y (fld o 11 5) et)
  | 0x70 => build true (fld o 11 5 == 0) true (.svc y (fld o 0 11))
  | 0x71 => build true (fld o 11 5 == 0) true (.bkpt y (fld o 0 11))
  | 0x72 => build true (fld o 0 16 == 0) true (.halt y)
  | 0x78 => build true (fld o 0 6 == 0) true (.coll y (fld o 11 5) (fld o 6 5))
  | 0x6A => build? true (fld o 0 5 == 0) true
      ((Eng.ofCode? (fld o 8 3).toNat).bind fun p => ((Eng.ofCode? (fld o 5 3).toNat).filter fun q => p != q).map fun q =>
        .qbind y (fld o 11 5) p q)
  | 0x79 =>
    if bit o 4 then build true (fld o 5 11 == 0 && fld o 0 4 == 0) true (.rlinv y none)
    else build true (fld o 5 11 == 0) (fld o 3 1 == 0) (.rlinv y (some (fld o 0 3)))
  | _ => .illegal 0x07

/-- The class-specific group of L (R24). -/
def decodeL (y : Sync) (op : Nat) (o : BitVec 16) : Decoded :=
  match op with
  | 0x40 => build? true (fld o 7 1 == 0) true ((Size.ofCode? (fld o 4 2).toNat).map fun esz => .ldr y (fld o 12 4) (fld o 8 4) (bit o 6) esz (fld o 0 4))
  | 0x41 => build true (fld o 0 4 == 0) ((!bit o 8 || y.sig.isSome)) (.ldt y (fld o 12 4) (fld o 9 3) (bit o 8) (fld o 4 4))
  | 0x42 => build true true ((!bit o 8 || y.sig.isSome)) (.ldt3 y (fld o 12 4) (fld o 9 3) (bit o 8) (fld o 4 4) (fld o 0 4))
  | 0x43 => build? true (fld o 0 2 == 0) ((!bit o 8 || y.sig.isSome)) ((Size.ofCode? (fld o 2 2).toNat).map fun esz => .ldg y (fld o 12 4) (fld o 9 3) (bit o 8) (fld o 4 4) esz)
  | 0x44 => build? true (fld o 0 2 == 0) ((!bit o 8 || y.sig.isSome)) (((Size.ofCode? (fld o 2 2).toNat).filter (fun x => x == .b || x == .h)).map fun esz => .ldx y (fld o 12 4) (fld o 9 3) (bit o 8) (fld o 4 4) esz)
  | 0x45 => build true (fld o 0 3 == 0) ((!bit o 8 || y.sig.isSome)) (.ldz y (fld o 12 4) (fld o 9 3) (bit o 8) (fld o 4 4) (bit o 3))
  | 0x46 => build? true (fld o 0 6 == 0) true ((PrefLevel.ofCode? (fld o 6 2).toNat).map fun elvl => .pref y (fld o 12 4) (fld o 8 4) elvl)
  | _ => .illegal 0x07

/-- The class-specific group of W (R25). -/
def decodeW (y : Sync) (op : Nat) (o : BitVec 16) : Decoded :=
  match op with
  | 0x40 => build? true (fld o 6 2 == 0) true ((Size.ofCode? (fld o 4 2).toNat).map fun esz => .stx y (fld o 12 4) (fld o 8 4) esz (fld o 0 4))
  | 0x41 => build true (fld o 0 4 == 0) ((!bit o 8 || y.wait.isSome)) (.stt y (fld o 12 4) (fld o 9 3) (bit o 8) (fld o 4 4))
  | 0x42 => build true true ((!bit o 8 || y.wait.isSome)) (.stt3 y (fld o 12 4) (fld o 9 3) (bit o 8) (fld o 4 4) (fld o 0 4))
  | 0x43 => build? true (fld o 0 2 == 0) ((!bit o 8 || y.wait.isSome)) ((Size.ofCode? (fld o 2 2).toNat).map fun esz => .sts y (fld o 12 4) (fld o 9 3) (bit o 8) (fld o 4 4) esz)
  | 0x44 => build true true ((!bit o 8 || y.wait.isSome)) (.sttc y (fld o 12 4) (fld o 9 3) (bit o 8) (fld o 4 4) (fld o 0 4))
  | 0x45 => build? true true ((!bit o 8 || y.wait.isSome)) ((RedOp.ofCode? (fld o 0 4).toNat).map fun eop => .red y (fld o 12 4) (fld o 9 3) (bit o 8) (fld o 4 4) eop)
  | 0x46 => build true (fld o 0 12 == 0) true (.sendt y (fld o 12 4))
  | 0x47 => build? true (fld o 0 9 == 0) true (((Scope.ofCode? (fld o 9 3).toNat).filter (fun x => x.wide)).map fun esc => .pub y (fld o 12 4) esc)
  | 0x48 => build? true (fld o 0 2 == 0) true ((CopyMode.ofCode? (fld o 2 2).toNat).map fun emd => .bcopy y (fld o 12 4) (fld o 8 4) (fld o 4 4) emd)
  | _ => .illegal 0x07

/-- The class-specific group of V (R26). -/
def decodeV (y : Sync) (op : Nat) (o : BitVec 16) : Decoded :=
  match op with
  | 0x40 => build? true (fld o 0 6 == 0) true ((DsetMode.ofCode? (fld o 6 2).toNat).map fun emd => .dset y (fld o 12 4) (fld o 8 4) emd)
  | 0x41 => build? true true true ((Rnd.ofCode? (fld o 1 3).toNat).map fun er => .vadd y (fld o 12 4) (fld o 8 4) (fld o 4 4) er (bit o 0))
  | 0x42 => build? true true true ((Rnd.ofCode? (fld o 1 3).toNat).map fun er => .vsub y (fld o 12 4) (fld o 8 4) (fld o 4 4) er (bit o 0))
  | 0x43 => build? true true true ((Rnd.ofCode? (fld o 1 3).toNat).map fun er => .vmul y (fld o 12 4) (fld o 8 4) (fld o 4 4) er (bit o 0))
  | 0x44 => build? true true true ((Rnd.ofCode? (fld o 1 3).toNat).map fun er => .vfma y (fld o 12 4) (fld o 8 4) (fld o 4 4) er (bit o 0))
  | 0x45 => build? true true true ((Rnd.ofCode? (fld o 1 3).toNat).map fun er => .vmin y (fld o 12 4) (fld o 8 4) (fld o 4 4) er (bit o 0))
  | 0x46 => build? true true true ((Rnd.ofCode? (fld o 1 3).toNat).map fun er => .vmax y (fld o 12 4) (fld o 8 4) (fld o 4 4) er (bit o 0))
  | 0x47 => build? true (fld o 4 4 == 0) true ((Rnd.ofCode? (fld o 1 3).toNat).map fun er => .vabs y (fld o 12 4) (fld o 8 4) er (bit o 0))
  | 0x48 => build? true (fld o 4 4 == 0) true ((Rnd.ofCode? (fld o 1 3).toNat).map fun er => .vneg y (fld o 12 4) (fld o 8 4) er (bit o 0))
  | 0x49 => build true (fld o 0 4 == 0) true (.vand y (fld o 12 4) (fld o 8 4) (fld o 4 4))
  | 0x4A => build true (fld o 0 4 == 0) true (.vor y (fld o 12 4) (fld o 8 4) (fld o 4 4))
  | 0x4B => build true (fld o 0 4 == 0) true (.vxor y (fld o 12 4) (fld o 8 4) (fld o 4 4))
  | 0x4C => build true (fld o 0 4 == 0) true (.vshl y (fld o 12 4) (fld o 8 4) (fld o 4 4))
  | 0x4D => build true (fld o 0 4 == 0) true (.vshr y (fld o 12 4) (fld o 8 4) (fld o 4 4))
  | 0x4E => build true (fld o 0 4 == 0) true (.vsra y (fld o 12 4) (fld o 8 4) (fld o 4 4))
  | 0x4F => build? true true true ((Cond.ofCode? (fld o 1 3).toNat).map fun econd => .vcmp y (fld o 12 4) (fld o 8 4) (fld o 4 4) econd (bit o 0))
  | 0x50 => build true true true (.vsel y (fld o 12 4) (fld o 8 4) (fld o 4 4) (fld o 0 4))
  | 0x51 => build true (fld o 0 8 == 0) true (.vmov y (fld o 12 4) (fld o 8 4))
  | 0x52 => build true (fld o 0 8 == 0) true (.vfill y (fld o 12 4) (fld o 8 4))
  | 0x53 => build? true (fld o 4 4 == 0) true ((Rnd.ofCode? (fld o 1 3).toNat).map fun er => .viota y (fld o 12 4) (fld o 8 4) er (bit o 0))
  | 0x54 => build? true (fld o 5 3 == 0) true ((Rnd.ofCode? (fld o 1 3).toNat).map fun er => .vcvt y (fld o 12 4) (fld o 8 4) (bit o 4) er (bit o 0))
  | 0x55 => build? true (fld o 4 4 == 0) true ((Rnd.ofCode? (fld o 1 3).toNat).map fun er => .vcvtV1 y (fld o 12 4) (fld o 8 4) er (bit o 0))
  | 0x56 => build? true true true ((Rnd.ofCode? (fld o 1 3).toNat).map fun er => .vqnt y (fld o 12 4) (fld o 8 4) (fld o 4 4) er (bit o 0))
  | 0x57 => build? true true true ((Rnd.ofCode? (fld o 1 3).toNat).map fun er => .vdqnt y (fld o 12 4) (fld o 8 4) (fld o 4 4) er (bit o 0))
  | 0x58 => build? true true true ((Rnd.ofCode? (fld o 1 3).toNat).map fun er => .vrshr y (fld o 12 4) (fld o 8 4) (fld o 4 4) er (bit o 0))
  | 0x59 => build true true true (.vclamp y (fld o 12 4) (fld o 8 4) (fld o 4 4) (fld o 0 4))
  | 0x5A => build? true (fld o 4 2 == 0) true ((CombOp.ofCode? (fld o 6 2).toNat).bind fun eop => (Rnd.ofCode? (fld o 1 3).toNat).map fun er => .vred y (fld o 12 4) (fld o 8 4) eop er (bit o 0))
  | 0x5B => build? true (fld o 4 2 == 0) true (((CombOp.ofCode? (fld o 6 2).toNat).filter (fun x => x != .amax)).bind fun eop => (Rnd.ofCode? (fld o 1 3).toNat).map fun er => .vscan y (fld o 12 4) (fld o 8 4) eop er (bit o 0))
  | 0x5C => build? true (fld o 5 1 == 0) true ((PwlTable.ofCode? (fld o 6 2).toNat).bind fun et => (Rnd.ofCode? (fld o 1 3).toNat).map fun er => .vpwl y (fld o 12 4) (fld o 8 4) et (bit o 4) er (bit o 0))
  | 0x5D => build? true (fld o 4 4 == 0) true ((Rnd.ofCode? (fld o 1 3).toNat).map fun er => .vrcp y (fld o 12 4) (fld o 8 4) er (bit o 0))
  | 0x5E => build? true (fld o 4 4 == 0) true ((Rnd.ofCode? (fld o 1 3).toNat).map fun er => .vrsqrt y (fld o 12 4) (fld o 8 4) er (bit o 0))
  | 0x5F => build? true (fld o 4 4 == 0) true ((Rnd.ofCode? (fld o 1 3).toNat).map fun er => .vsqrt y (fld o 12 4) (fld o 8 4) er (bit o 0))
  | 0x60 => build? true true true ((Rnd.ofCode? (fld o 1 3).toNat).map fun er => .vdiv y (fld o 12 4) (fld o 8 4) (fld o 4 4) er (bit o 0))
  | 0x61 => build true (fld o 0 4 == 0) true (.vgth y (fld o 12 4) (fld o 8 4) (fld o 4 4))
  | 0x62 => build true (fld o 0 4 == 0) true (.vsct y (fld o 12 4) (fld o 8 4) (fld o 4 4))
  | 0x63 => build true (fld o 0 6 == 0) true (.vflg y (fld o 12 4) (fld o 6 6))
  | _ => .illegal 0x07

/-- The class-specific group of M (R27). -/
def decodeM (y : Sync) (op : Nat) (o : BitVec 16) : Decoded :=
  match op with
  | 0x40 => build true true true (.mma y (fld o 12 4) (fld o 8 4) (fld o 4 4) (fld o 1 3) (bit o 0))
  | 0x41 => build true true true (.mmas y (fld o 12 4) (fld o 8 4) (fld o 4 4) (fld o 1 3) (bit o 0))
  | 0x42 => build true true true (.mmat y (fld o 12 4) (fld o 8 4) (fld o 4 4) (fld o 1 3) (bit o 0))
  | 0x43 => build true (fld o 0 12 == 0) true (.mzero y (fld o 12 4))
  | 0x44 => build true true true (.mdrain y (fld o 12 4) (fld o 8 4) (fld o 5 3) (fld o 1 4) (bit o 0))
  | 0x45 => build true (fld o 0 8 == 0) true (.mlda y (fld o 12 4) (fld o 8 4))
  | 0x46 => build true (fld o 5 7 == 0) true (.mstat y (fld o 12 4) (bit o 4) (fld o 0 4))
  | 0x50 => build true (fld o 0 7 == 0) true (.tconf y (fld o 12 4) (fld o 8 4) (bit o 7))
  | 0x51 => build true (fld o 0 4 == 0) true (.tld y (fld o 12 4) (fld o 8 4) (fld o 4 4))
  | 0x52 => build true (fld o 0 8 == 0) true (.tst y (fld o 12 4) (fld o 8 4))
  | 0x53 => build true (fld o 0 4 == 0) true (.tmul y (fld o 12 4) (fld o 8 4) (fld o 4 4))
  | 0x54 => build true true true (.tadd y (fld o 12 4) (fld o 8 4) (fld o 4 4) (fld o 0 4))
  | 0x55 => build true true true (.tsub y (fld o 12 4) (fld o 8 4) (fld o 4 4) (fld o 0 4))
  | 0x56 => build true (fld o 0 4 == 0) true (.tscal y (fld o 12 4) (fld o 8 4) (fld o 4 4))
  | 0x57 => build true (fld o 0 8 == 0) true (.txp y (fld o 12 4) (fld o 8 4))
  | 0x58 => build true (fld o 0 8 == 0) true (.trcmp y (fld o 12 4) (fld o 8 4))
  | 0x59 => build true (fld o 0 8 == 0) true (.tdense y (fld o 12 4) (fld o 8 4))
  | 0x5A => build true (fld o 0 8 == 0) true (.tfact y (fld o 12 4) (fld o 8 4))
  | 0x5B => build true true true (.tmma y (fld o 12 4) (fld o 8 4) (fld o 4 4) (fld o 1 3) (bit o 0))
  | 0x5C => build true (fld o 0 8 == 0) true (.trank y (fld o 12 4) (fld o 8 4))
  | 0x5D => build true (fld o 0 8 == 0) true (.ttol y (fld o 12 4) (fld o 8 4))
  | _ => .illegal 0x07

/-- An opcode whose feature the virtual function's mask hides (R324, R341). -/
def masked (m : BitVec 8) (c : Eng) (op : Nat) : Bool :=
  (m.getLsbD 0 && c == .M && 0x50 ≤ op && op ≤ 0x5D) ||
  (m.getLsbD 1 && ((c == .M && op == 0x41) || (c == .L && (op == 0x44 || op == 0x45)))) ||
  (m.getLsbD 2 && c == .M && op == 0x42) ||
  (m.getLsbD 3 && ((c == .S && (op == 0x78 || op == 0x79)) || (c == .W && op == 0x46))) ||
  (m.getLsbD 4 && ((c == .S && op == 0x69) || (c == .V && op == 0x5C))) ||
  (m.getLsbD 5 && c == .W && (op == 0x47 || op == 0x48)) ||
  (m.getLsbD 6 && (op == 0x31 || (c == .V && op == 0x55)))

/-- A short-format word's opcode and operands (R19, R23 to R28). -/
def decodeShort (c : Eng) (m : BitVec 8) (y : Sync) (op : Nat) (o : BitVec 16) : Decoded :=
  if masked m c op then .illegal 0x07 else
  if op < 0x40 then decodeCommon c y op o else
  match c with
  | .S => decodeS y op o
  | .L => decodeL y op o
  | .V => decodeV y op o
  | .M => decodeM y op o
  | .W => decodeW y op o

/-- The decoder of engine `c` under the feature mask `m`: the first code of R29 that applies, or the instruction. -/
def decode (c : Eng) (m : BitVec 8) (w : IWord) : Decoded :=
  if w = 0 then .illegal 0x01 else
  if 5 ≤ (fld w 29 3).toNat then .illegal 0x02 else
  if (fld w 29 3).toNat ≠ c.cls then .illegal 0x03 else
  if (fld w 26 3).toNat = 7 then decodeLong c (fld w 22 4).toNat (fld w 0 22) else
  if (fld w 26 3).toNat = 6 ∨ (fld w 26 3).toNat = c.code then .illegal 0x04 else
  if 6 ≤ (fld w 23 3).toNat ∨ (fld w 23 3).toNat = c.code then .illegal 0x06 else
  decodeShort c m ⟨Eng.ofCode? (fld w 26 3).toNat, Eng.ofCode? (fld w 23 3).toNat⟩ (fld w 16 7).toNat (fld w 0 16)

/-- The word that four bytes hold, the lowest address first (R5). -/
def wordOfBytes (b0 b1 b2 b3 : Byte) : IWord := b3 ++ b2 ++ b1 ++ b0

/-- The bytes of a word, the lowest address first (R5). -/
def bytesOfWord (w : IWord) : List Byte := [fld w 0 8, fld w 8 8, fld w 16 8, fld w 24 8]

/-- The decoder on bytes: the instruction and the bytes after it; `none` where fewer than four bytes stand. -/
def decodeBytes (c : Eng) (m : BitVec 8) : List Byte → Option (Decoded × List Byte)
  | b0 :: b1 :: b2 :: b3 :: rest => some (decode c m (wordOfBytes b0 b1 b2 b3), rest)
  | _ => none

/-- The engine that a word's class field names (R10). -/
def classEngine (w : IWord) : Option Eng := Eng.ofCode? ((fld w 29 3).toNat + 1)

/-- The decoder on a row of spec/opcode_table.json: the word is laid out in bytes and read by the engine its class names. -/
def decodeTableWord (_nbits w : Nat) : Option Instr :=
  match classEngine (BitVec.ofNat 32 w), decodeBytes ((classEngine (BitVec.ofNat 32 w)).getD .S) 0 (bytesOfWord (BitVec.ofNat 32 w)) with
  | some _, some (.ok i, _) => some i
  | _, _ => none

/-- The code of an optional engine field: 0 for none (R10). -/
def optCode : Option Eng → Nat
  | none => 0
  | some e => e.code

/-- A short-format word (R10). -/
def shortWord (c : Eng) (y : Sync) (op : Nat) (o : BitVec 16) : IWord :=
  BitVec.ofNat 3 c.cls ++ BitVec.ofNat 3 (optCode y.wait) ++ BitVec.ofNat 3 (optCode y.sig) ++ BitVec.ofNat 7 op ++ o

/-- A long-format word (R14). -/
def longWord (c : Eng) (op : Nat) (o : BitVec 22) : IWord :=
  BitVec.ofNat 3 c.cls ++ (7 : BitVec 3) ++ BitVec.ofNat 4 op ++ o

/-- The word of an instruction; the event rows have none. -/
def encode : Instr → Option IWord
  | .sync c waits sigs => some (shortWord c Sync.none 0x30 (waits ++ sigs ++ (0 : BitVec 6)))
  | .syncV1 c w g => some (shortWord c Sync.none 0x31 (BitVec.ofNat 3 (optCode w) ++ BitVec.ofNat 3 (optCode g) ++ (0 : BitVec 10)))
  | .qbind y s p q => some (shortWord .S y 0x6A (s ++ BitVec.ofNat 3 p.code ++ BitVec.ofNat 3 q.code ++ (0 : BitVec 5)))
  | .rlinv y none => some (shortWord .S y 0x79 ((0 : BitVec 11) ++ (1 : BitVec 1) ++ (0 : BitVec 4)))
  | .rlinv y (some n) => some (shortWord .S y 0x79 ((0 : BitVec 12) ++ (0 : BitVec 1) ++ n))
  | .nop c y => some (shortWord c y 0x01 ((0 : BitVec 16)))
  | .add c y d a b w => some (shortWord c y 0x02 (d ++ a ++ b ++ BitVec.ofBool w))
  | .sub c y d a b w => some (shortWord c y 0x03 (d ++ a ++ b ++ BitVec.ofBool w))
  | .mul c y d a b w => some (shortWord c y 0x04 (d ++ a ++ b ++ BitVec.ofBool w))
  | .mulh c y d a b w => some (shortWord c y 0x05 (d ++ a ++ b ++ BitVec.ofBool w))
  | .mulhu c y d a b w => some (shortWord c y 0x06 (d ++ a ++ b ++ BitVec.ofBool w))
  | .div c y d a b w => some (shortWord c y 0x07 (d ++ a ++ b ++ BitVec.ofBool w))
  | .divu c y d a b w => some (shortWord c y 0x08 (d ++ a ++ b ++ BitVec.ofBool w))
  | .rem c y d a b w => some (shortWord c y 0x09 (d ++ a ++ b ++ BitVec.ofBool w))
  | .remu c y d a b w => some (shortWord c y 0x0A (d ++ a ++ b ++ BitVec.ofBool w))
  | .and c y d a b w => some (shortWord c y 0x0B (d ++ a ++ b ++ BitVec.ofBool w))
  | .or c y d a b w => some (shortWord c y 0x0C (d ++ a ++ b ++ BitVec.ofBool w))
  | .xor c y d a b w => some (shortWord c y 0x0D (d ++ a ++ b ++ BitVec.ofBool w))
  | .andn c y d a b w => some (shortWord c y 0x0E (d ++ a ++ b ++ BitVec.ofBool w))
  | .shl c y d a b w => some (shortWord c y 0x0F (d ++ a ++ b ++ BitVec.ofBool w))
  | .shr c y d a b w => some (shortWord c y 0x10 (d ++ a ++ b ++ BitVec.ofBool w))
  | .sra c y d a b w => some (shortWord c y 0x11 (d ++ a ++ b ++ BitVec.ofBool w))
  | .slt c y d a b w => some (shortWord c y 0x12 (d ++ a ++ b ++ BitVec.ofBool w))
  | .sltu c y d a b w => some (shortWord c y 0x13 (d ++ a ++ b ++ BitVec.ofBool w))
  | .min c y d a b w => some (shortWord c y 0x14 (d ++ a ++ b ++ BitVec.ofBool w))
  | .max c y d a b w => some (shortWord c y 0x15 (d ++ a ++ b ++ BitVec.ofBool w))
  | .minu c y d a b w => some (shortWord c y 0x16 (d ++ a ++ b ++ BitVec.ofBool w))
  | .maxu c y d a b w => some (shortWord c y 0x17 (d ++ a ++ b ++ BitVec.ofBool w))
  | .sel c y d a b => some (shortWord c y 0x18 (d ++ a ++ b ++ (0 : BitVec 1)))
  | .clz c y d a w => some (shortWord c y 0x19 (d ++ a ++ (0 : BitVec 5) ++ BitVec.ofBool w))
  | .popc c y d a w => some (shortWord c y 0x1A (d ++ a ++ (0 : BitVec 5) ++ BitVec.ofBool w))
  | .addi c y d a i => some (shortWord c y 0x20 (d ++ a ++ i))
  | .andi c y d a i => some (shortWord c y 0x21 (d ++ a ++ i))
  | .ori c y d a i => some (shortWord c y 0x22 (d ++ a ++ i))
  | .xori c y d a i => some (shortWord c y 0x23 (d ++ a ++ i))
  | .shli c y d a i => some (shortWord c y 0x24 (d ++ a ++ i))
  | .shri c y d a i => some (shortWord c y 0x25 (d ++ a ++ i))
  | .srai c y d a i => some (shortWord c y 0x26 (d ++ a ++ i))
  | .slti c y d a i => some (shortWord c y 0x27 (d ++ a ++ i))
  | .sltiu c y d a i => some (shortWord c y 0x28 (d ++ a ++ i))
  | .loop c y s len => some (shortWord c y 0x32 (s ++ len))
  | .loopi c y n len => some (shortWord c y 0x33 (n ++ len))
  | .follow c y d => some (shortWord c y 0x34 (d ++ (0 : BitVec 11)))
  | .brf c y d off => some (shortWord c y 0x35 (d ++ off))
  | .crr c y d r => some (shortWord c y 0x36 (d ++ BitVec.ofNat 11 r.code))
  | .crw c y s r => some (shortWord c y 0x37 (s ++ BitVec.ofNat 11 r.code))
  | .li c d i => some (longWord c 0 (d ++ i))
  | .lih c d i => some (longWord c 1 (d ++ i))
  | .addpc off => some (longWord .S 2 (off))
  | .j off => some (longWord .S 3 (off))
  | .call off => some (longWord .S 4 (off))
  | .beqz y s off => some (shortWord .S y 0x40 (s ++ off))
  | .bnez y s off => some (shortWord .S y 0x41 (s ++ off))
  | .bltz y s off => some (shortWord .S y 0x42 (s ++ off))
  | .bgez y s off => some (shortWord .S y 0x43 (s ++ off))
  | .bgtz y s off => some (shortWord .S y 0x44 (s ++ off))
  | .blez y s off => some (shortWord .S y 0x45 (s ++ off))
  | .callr y s => some (shortWord .S y 0x48 (s ++ (0 : BitVec 11)))
  | .callx y s idx => some (shortWord .S y 0x49 (s ++ idx))
  | .ret y => some (shortWord .S y 0x4A ((0 : BitVec 16)))
  | .ld y d a sz o => some (shortWord .S y 0x50 (d ++ a ++ BitVec.ofNat 2 sz.code ++ o))
  | .st y s a sz o => some (shortWord .S y 0x51 (s ++ a ++ BitVec.ofNat 2 sz.code ++ o))
  | .lda y d a sc o => some (shortWord .S y 0x52 (d ++ a ++ BitVec.ofNat 2 (sc.code - 2) ++ o))
  | .stl y s a sc o => some (shortWord .S y 0x53 (s ++ a ++ BitVec.ofNat 2 (sc.code - 2) ++ o))
  | .amo y d a op w => some (shortWord .S y 0x54 (d ++ a ++ BitVec.ofNat 4 op.code ++ BitVec.ofBool w ++ (0 : BitVec 1)))
  | .cas y d a b w => some (shortWord .S y 0x55 (d ++ a ++ b ++ BitVec.ofBool w))
  | .fence y s sc => some (shortWord .S y 0x56 (s ++ BitVec.ofNat 3 sc.code ++ (0 : BitVec 8)))
  | .sptest y d a => some (shortWord .S y 0x58 (d ++ a ++ (0 : BitVec 6)))
  | .spcast y d a w => some (shortWord .S y 0x59 (d ++ a ++ (0 : BitVec 4) ++ w))
  | .binit y s id => some (shortWord .S y 0x60 (s ++ id))
  | .barv y s sc => some (shortWord .S y 0x61 (s ++ BitVec.ofNat 3 sc.code ++ (0 : BitVec 8)))
  | .bwait y p id => some (shortWord .S y 0x62 ((0 : BitVec 4) ++ BitVec.ofBool p ++ id))
  | .btry y d p id => some (shortWord .S y 0x63 (d ++ BitVec.ofBool p ++ id))
  | .arm y s a slot => some (shortWord .S y 0x64 (s ++ a ++ slot))
  | .disarm y slot => some (shortWord .S y 0x65 ((0 : BitVec 10) ++ slot))
  | .fmtw y s n => some (shortWord .S y 0x68 (s ++ (0 : BitVec 5) ++ n))
  | .pwlw y s n => some (shortWord .S y 0x69 (s ++ (0 : BitVec 5) ++ n))
  | .send y s t => some (shortWord .S y 0x6C (s ++ BitVec.ofNat 3 t.code ++ (0 : BitVec 8)))
  | .svc y code => some (shortWord .S y 0x70 ((0 : BitVec 5) ++ code))
  | .bkpt y code => some (shortWord .S y 0x71 ((0 : BitVec 5) ++ code))
  | .halt y => some (shortWord .S y 0x72 ((0 : BitVec 16)))
  | .coll y s a => some (shortWord .S y 0x78 (s ++ a ++ (0 : BitVec 6)))
  | .ldr y d a sx sz o => some (shortWord .L y 0x40 (d ++ a ++ (0 : BitVec 1) ++ BitVec.ofBool sx ++ BitVec.ofNat 2 sz.code ++ o))
  | .ldt y m p q o => some (shortWord .L y 0x41 (m ++ p ++ BitVec.ofBool q ++ o ++ (0 : BitVec 4)))
  | .ldt3 y m p q o z => some (shortWord .L y 0x42 (m ++ p ++ BitVec.ofBool q ++ o ++ z))
  | .ldg y m p q o sz => some (shortWord .L y 0x43 (m ++ p ++ BitVec.ofBool q ++ o ++ BitVec.ofNat 2 sz.code ++ (0 : BitVec 2)))
  | .ldx y m p q o sz => some (shortWord .L y 0x44 (m ++ p ++ BitVec.ofBool q ++ o ++ BitVec.ofNat 2 sz.code ++ (0 : BitVec 2)))
  | .ldz y m p q o trap => some (shortWord .L y 0x45 (m ++ p ++ BitVec.ofBool q ++ o ++ BitVec.ofBool trap ++ (0 : BitVec 3)))
  | .pref y m g lvl => some (shortWord .L y 0x46 (m ++ g ++ BitVec.ofNat 2 lvl.code ++ (0 : BitVec 6)))
  | .stx y s a sz o => some (shortWord .W y 0x40 (s ++ a ++ (0 : BitVec 2) ++ BitVec.ofNat 2 sz.code ++ o))
  | .stt y m p q o => some (shortWord .W y 0x41 (m ++ p ++ BitVec.ofBool q ++ o ++ (0 : BitVec 4)))
  | .stt3 y m p q o z => some (shortWord .W y 0x42 (m ++ p ++ BitVec.ofBool q ++ o ++ z))
  | .sts y m p q o sz => some (shortWord .W y 0x43 (m ++ p ++ BitVec.ofBool q ++ o ++ BitVec.ofNat 2 sz.code ++ (0 : BitVec 2)))
  | .sttc y m p q o e => some (shortWord .W y 0x44 (m ++ p ++ BitVec.ofBool q ++ o ++ e))
  | .red y m p q o op => some (shortWord .W y 0x45 (m ++ p ++ BitVec.ofBool q ++ o ++ BitVec.ofNat 4 op.code))
  | .sendt y x => some (shortWord .W y 0x46 (x ++ (0 : BitVec 12)))
  | .pub y h sc => some (shortWord .W y 0x47 (h ++ BitVec.ofNat 3 sc.code ++ (0 : BitVec 9)))
  | .bcopy y d s n md => some (shortWord .W y 0x48 (d ++ s ++ n ++ BitVec.ofNat 2 md.code ++ (0 : BitVec 2)))
  | .dset y d s md => some (shortWord .V y 0x40 (d ++ s ++ BitVec.ofNat 2 md.code ++ (0 : BitVec 6)))
  | .vadd y d a b r nf => some (shortWord .V y 0x41 (d ++ a ++ b ++ BitVec.ofNat 3 r.code ++ BitVec.ofBool nf))
  | .vsub y d a b r nf => some (shortWord .V y 0x42 (d ++ a ++ b ++ BitVec.ofNat 3 r.code ++ BitVec.ofBool nf))
  | .vmul y d a b r nf => some (shortWord .V y 0x43 (d ++ a ++ b ++ BitVec.ofNat 3 r.code ++ BitVec.ofBool nf))
  | .vfma y d a b r nf => some (shortWord .V y 0x44 (d ++ a ++ b ++ BitVec.ofNat 3 r.code ++ BitVec.ofBool nf))
  | .vmin y d a b r nf => some (shortWord .V y 0x45 (d ++ a ++ b ++ BitVec.ofNat 3 r.code ++ BitVec.ofBool nf))
  | .vmax y d a b r nf => some (shortWord .V y 0x46 (d ++ a ++ b ++ BitVec.ofNat 3 r.code ++ BitVec.ofBool nf))
  | .vabs y d a r nf => some (shortWord .V y 0x47 (d ++ a ++ (0 : BitVec 4) ++ BitVec.ofNat 3 r.code ++ BitVec.ofBool nf))
  | .vneg y d a r nf => some (shortWord .V y 0x48 (d ++ a ++ (0 : BitVec 4) ++ BitVec.ofNat 3 r.code ++ BitVec.ofBool nf))
  | .vand y d a b => some (shortWord .V y 0x49 (d ++ a ++ b ++ (0 : BitVec 4)))
  | .vor y d a b => some (shortWord .V y 0x4A (d ++ a ++ b ++ (0 : BitVec 4)))
  | .vxor y d a b => some (shortWord .V y 0x4B (d ++ a ++ b ++ (0 : BitVec 4)))
  | .vshl y d a b => some (shortWord .V y 0x4C (d ++ a ++ b ++ (0 : BitVec 4)))
  | .vshr y d a b => some (shortWord .V y 0x4D (d ++ a ++ b ++ (0 : BitVec 4)))
  | .vsra y d a b => some (shortWord .V y 0x4E (d ++ a ++ b ++ (0 : BitVec 4)))
  | .vcmp y d a b cond nf => some (shortWord .V y 0x4F (d ++ a ++ b ++ BitVec.ofNat 3 cond.code ++ BitVec.ofBool nf))
  | .vsel y d a b m => some (shortWord .V y 0x50 (d ++ a ++ b ++ m))
  | .vmov y d a => some (shortWord .V y 0x51 (d ++ a ++ (0 : BitVec 8)))
  | .vfill y d s => some (shortWord .V y 0x52 (d ++ s ++ (0 : BitVec 8)))
  | .viota y d s r nf => some (shortWord .V y 0x53 (d ++ s ++ (0 : BitVec 4) ++ BitVec.ofNat 3 r.code ++ BitVec.ofBool nf))
  | .vcvt y d a ns r nf => some (shortWord .V y 0x54 (d ++ a ++ (0 : BitVec 3) ++ BitVec.ofBool ns ++ BitVec.ofNat 3 r.code ++ BitVec.ofBool nf))
  | .vcvtV1 y d a r nf => some (shortWord .V y 0x55 (d ++ a ++ (0 : BitVec 4) ++ BitVec.ofNat 3 r.code ++ BitVec.ofBool nf))
  | .vqnt y d a b r nf => some (shortWord .V y 0x56 (d ++ a ++ b ++ BitVec.ofNat 3 r.code ++ BitVec.ofBool nf))
  | .vdqnt y d a b r nf => some (shortWord .V y 0x57 (d ++ a ++ b ++ BitVec.ofNat 3 r.code ++ BitVec.ofBool nf))
  | .vrshr y d a b r nf => some (shortWord .V y 0x58 (d ++ a ++ b ++ BitVec.ofNat 3 r.code ++ BitVec.ofBool nf))
  | .vclamp y d a lo hi => some (shortWord .V y 0x59 (d ++ a ++ lo ++ hi))
  | .vred y d a op r nf => some (shortWord .V y 0x5A (d ++ a ++ BitVec.ofNat 2 op.code ++ (0 : BitVec 2) ++ BitVec.ofNat 3 r.code ++ BitVec.ofBool nf))
  | .vscan y d a op r nf => some (shortWord .V y 0x5B (d ++ a ++ BitVec.ofNat 2 op.code ++ (0 : BitVec 2) ++ BitVec.ofNat 3 r.code ++ BitVec.ofBool nf))
  | .vpwl y d a t ns r nf => some (shortWord .V y 0x5C (d ++ a ++ BitVec.ofNat 2 t.code ++ (0 : BitVec 1) ++ BitVec.ofBool ns ++ BitVec.ofNat 3 r.code ++ BitVec.ofBool nf))
  | .vrcp y d a r nf => some (shortWord .V y 0x5D (d ++ a ++ (0 : BitVec 4) ++ BitVec.ofNat 3 r.code ++ BitVec.ofBool nf))
  | .vrsqrt y d a r nf => some (shortWord .V y 0x5E (d ++ a ++ (0 : BitVec 4) ++ BitVec.ofNat 3 r.code ++ BitVec.ofBool nf))
  | .vsqrt y d a r nf => some (shortWord .V y 0x5F (d ++ a ++ (0 : BitVec 4) ++ BitVec.ofNat 3 r.code ++ BitVec.ofBool nf))
  | .vdiv y d a b r nf => some (shortWord .V y 0x60 (d ++ a ++ b ++ BitVec.ofNat 3 r.code ++ BitVec.ofBool nf))
  | .vgth y d a b => some (shortWord .V y 0x61 (d ++ a ++ b ++ (0 : BitVec 4)))
  | .vsct y d a b => some (shortWord .V y 0x62 (d ++ a ++ b ++ (0 : BitVec 4)))
  | .vflg y d clr => some (shortWord .V y 0x63 (d ++ clr ++ (0 : BitVec 6)))
  | .mma y c a b slot nf => some (shortWord .M y 0x40 (c ++ a ++ b ++ slot ++ BitVec.ofBool nf))
  | .mmas y c a b slot nf => some (shortWord .M y 0x41 (c ++ a ++ b ++ slot ++ BitVec.ofBool nf))
  | .mmat y c a b slot nf => some (shortWord .M y 0x42 (c ++ a ++ b ++ slot ++ BitVec.ofBool nf))
  | .mzero y w => some (shortWord .M y 0x43 (w ++ (0 : BitVec 12)))
  | .mdrain y w s slot e nf => some (shortWord .M y 0x44 (w ++ s ++ slot ++ e ++ BitVec.ofBool nf))
  | .mlda y w s => some (shortWord .M y 0x45 (w ++ s ++ (0 : BitVec 8)))
  | .mstat y d clr e => some (shortWord .M y 0x46 (d ++ (0 : BitVec 7) ++ BitVec.ofBool clr ++ e))
  | .tconf y d s chk => some (shortWord .M y 0x50 (d ++ s ++ BitVec.ofBool chk ++ (0 : BitVec 7)))
  | .tld y d s k => some (shortWord .M y 0x51 (d ++ s ++ k ++ (0 : BitVec 4)))
  | .tst y t s => some (shortWord .M y 0x52 (t ++ s ++ (0 : BitVec 8)))
  | .tmul y d a b => some (shortWord .M y 0x53 (d ++ a ++ b ++ (0 : BitVec 4)))
  | .tadd y d a b s => some (shortWord .M y 0x54 (d ++ a ++ b ++ s))
  | .tsub y d a b s => some (shortWord .M y 0x55 (d ++ a ++ b ++ s))
  | .tscal y d a s => some (shortWord .M y 0x56 (d ++ a ++ s ++ (0 : BitVec 4)))
  | .txp y d a => some (shortWord .M y 0x57 (d ++ a ++ (0 : BitVec 8)))
  | .trcmp y d a => some (shortWord .M y 0x58 (d ++ a ++ (0 : BitVec 8)))
  | .tdense y d a => some (shortWord .M y 0x59 (d ++ a ++ (0 : BitVec 8)))
  | .tfact y d a => some (shortWord .M y 0x5A (d ++ a ++ (0 : BitVec 8)))
  | .tmma y c a b slot nf => some (shortWord .M y 0x5B (c ++ a ++ b ++ slot ++ BitVec.ofBool nf))
  | .trank y d a => some (shortWord .M y 0x5C (d ++ a ++ (0 : BitVec 8)))
  | .ttol y d a => some (shortWord .M y 0x5D (d ++ a ++ (0 : BitVec 8)))
  | .illegalInstruction _ _ _ => none
  | .callUnpark => none
  | .haltComplete => none
  | .ldzDecodeDone => none
  | .ldzWatchdog => none
  | .bcopyMoveComplete => none
  | .migrationPageMove => none
  | .addressUnitCheck => none
  | .tileExecutionEnd => none
  | .leaveGrant _ => none
  | .leaveIdleRelease => none
  | .sliceDeadlock => none
  | .fetchLineFill _ => none
  | .bankServe _ => none
  | .loadDataReturn => none
  | .storePerform => none
  | .pendingWriteCommit _ => none
  | .horizonWriteRelease => none
  | .memoryChecksComplete _ => none
  | .faultDrainEnd => none
  | .sliceSetDrainTimeout => none
  | .barrierArrivalApply => none
  | .sendtElementApply => none
  | .transferAcknowledgement => none
  | .ackTimeout => none
  | .packetReceive _ _ _ => none
  | .packetAdvance _ _ => none
  | .collAccept => none
  | .readyMessage _ => none
  | .readyRetry => none
  | .collStep => none
  | .collCompletionArrival => none
  | .collAbort _ => none
  | .collStepTimeout => none
  | .qcfgWrite _ _ _ => none
  | .qbaseWrite _ _ _ => none
  | .doorbell _ _ _ => none
  | .frontEndConsume => none
  | .nopCommand => none
  | .launch => none
  | .drain => none
  | .drainCompletion _ _ => none
  | .waitmem => none
  | .waitmemPoll _ _ => none
  | .pipe => none
  | .coreFreeDispatch _ => none
  | .preemptTrigger => none
  | .preemptBoundarySave => none
  | .preemptForce => none
  | .create _ _ => none
  | .destroy _ _ => none
  | .save _ _ => none
  | .restore _ _ => none
  | .switch _ _ => none
  | .resume _ _ => none
  | .inval _ _ => none
  | .vfsusp _ _ => none
  | .vfres _ _ => none
  | .vffeatWrite _ _ => none
  | .s2rootWrite _ _ => none
  | .functionLevelReset _ => none
  | .pageWalkComplete _ => none
  | .load _ _ => none
  | .unload _ _ => none
  | .depstatWrite _ _ => none
  | .bind _ => none
  | .unbind _ => none
  | .easyAll _ => none
  | .gangIn _ => none
  | .discard _ => none
  | .gangSwitchTime => none
  | .gangMarkerSend _ => none
  | .gangMarkerArrival _ _ => none
  | .switchOutComplete => none
  | .gangMarkerTimeout => none
  | .gangResumeTime => none
  | .gangResumeComplete => none
  | .pcieLinkUp => none
  | .powerOn => none
  | .rcvctlSubmit _ => none
  | .railsGood => none
  | .clkctlWrite _ => none
  | .pllLock => none
  | .dierstWrite _ => none
  | .dieReleased _ => none
  | .sraminitWrite _ => none
  | .sramInitDone _ => none
  | .powerUpTimeout => none
  | .mctlWrite _ _ => none
  | .memoryTrainingDone _ _ => none
  | .memoryTrainingTimeout _ => none
  | .mmapWrite _ => none
  | .portctlWrite _ _ => none
  | .laneTrainingDone _ _ => none
  | .rsFecLock _ => none
  | .identityExchangeDone _ _ => none
  | .linkTrainingTimeout _ => none
  | .firmwareUpdate _ => none
  | .minsvnRaise => none
  | .attestationQuote _ => none
  | .pluginTimeout _ => none
  | .pluginViolation _ => none
  | .firmwareIsolationViolation => none
  | .pwrlimWrite _ => none
  | .governorTick _ => none
  | .dieTemperatureChange _ _ => none
  | .correctedError _ _ _ => none
  | .uncorrectableError _ _ _ => none
  | .patrolScrub => none
  | .freePageAdd _ => none
  | .freePageTake _ => none
  | .securityAlarm _ => none
  | .registerWrite _ _ _ => none
  | .powerOff => none
  | .linkFailure _ => none
  | .policyPluginDone _ _ _ => none

end Sys2Proof
end

