-- ==== Sys2Proof/Config.lean ====
section
/-!
DEFINITION. What one module fixes, and the free values: what the manual leaves open has no body here, so that no proof sees a value of it.
-/
namespace Sys2Proof.Config

/-- A free value (log entry 6): what the manual calls undefined or gives no value for; applied to a counter of the state. -/
opaque freeValue : Nat → BitVec 64

/-- The rank of the argument from which on the built-in EXP table, and the built-in LOG table, gives a result at least that of a rank, within what R151 allows (log entry 10). -/
opaque expStep : Nat → Nat
opaque logStep : Nat → Nat

/-- The two signatures of a quote or a certificate (R411; log entry 11). -/
opaque quoteBytes : (mregs : List (BitVec 8)) → (nonce : List (BitVec 8)) → List (BitVec 8)

/-- The table records of a kernel entry of an image, by the kernel's symbol: format entries and their values, segments and their 32 bytes; R347 gives them no field (log entry 74). -/
opaque kernelFmt : (image : List (BitVec 8)) → (sym : Nat) → List (Nat × BitVec 32)
opaque kernelPwl : (image : List (BitVec 8)) → (sym : Nat) → List (Nat × List (BitVec 8))

/-- PARAM's 32 bytes of a packet header; the manual gives the fields and no layout (R367; log entry 9). -/
opaque paramBytes : Packet → List (BitVec 8)
/-- Field `k` of PARAM's 32 bytes: target offset, accumulate code, COUNT, object, one more than LOCAL's object, last-packet flag, TAG or transfer, status (R367; log entry 9). -/
opaque paramField : (k : Nat) → List (BitVec 8) → Nat
/-- One byte of the CRC-32 of IEEE 802.3, least significant bit first, with the polynomial 0x04C11DB7 reflected. -/
def crcByte (r : BitVec 32) (b : BitVec 8) : BitVec 32 :=
  (List.range 8).foldl (fun r _ => if r.getLsbD 0 then (r >>> 1) ^^^ 0xEDB88320#32 else r >>> 1) (r ^^^ b.setWidth 32)

/-- The CRC-32 of IEEE 802.3 (R367; log entry 114). -/
def crc32 (l : List (BitVec 8)) : BitVec 32 := ~~~ (l.foldl crcByte 0xFFFFFFFF#32)

/-- Bytes of first-tier and of second-tier memory (R1). -/
def firstTierBytes : Nat := 192 * 2 ^ 30
def secondTierBytes : Nat := 2 ^ 40

/-- What the manual leaves open of where the tiers lie: which comes first, and the pages before it and between the two (log entry 12). -/
opaque tierMap : Nat → Nat

/-- The pages of a tier. -/
def tierPages (second : Bool) : Nat := (if second then secondTierBytes else firstTierBytes) / 0x10000
/-- Physical pages that no tier holds (R1: 52 bits). -/
def holePages : Nat := 2 ^ 36 - tierPages false - tierPages true
/-- The first page of a tier: each is one run of the physical addresses (R1, R394, R424; log entry 12). -/
def tierStart (second : Bool) : Nat :=
  let first := tierMap 1 % (holePages + 1)
  if (tierMap 0 % 2 == 1) == second then first else first + tierPages (!second) + tierMap 2 % (holePages - first + 1)
/-- Whether a physical page lies in a tier. -/
def inTier (second : Bool) (a : Nat) : Bool := tierStart second ≤ a / 0x10000 && a / 0x10000 < tierStart second + tierPages second
def firstTier (a : Nat) : Bool := inTier false a
def secondTier (a : Nat) : Bool := inTier true a

/-- The interleaving of a tier's pages over its devices; the manual gives it no layout (log entry 12). -/
opaque deviceOf : Nat → Nat
/-- The memory device, by its controller's number, that holds a physical page (R415, R421). -/
def controllerOf (a : Nat) : Nat := if secondTier a then 48 + deviceOf a % 16 else deviceOf a % 48

/-- Bytes of firmware SRAM, and the most that an image's body has (R1, R409). -/
def fwSramBytes : Nat := 0x400000
def fwBodyMost : Nat := 0x2FF000

/-- Where the manual leaves the body of an image in firmware SRAM (R410; log entry 109). -/
opaque fwPlace : Nat
/-- The address in firmware SRAM to which the boot ROM copies an image's body: on a word of 4 bytes, with room for every body. -/
def fwBody : Nat := 4 * (fwPlace % ((fwSramBytes - fwBodyMost) / 4 + 1))

/-- Configuration and address of the PMP regions that the monitor holds (R413; log entry 131). -/
opaque monitorPmp : Nat → BitVec 64

/-- The mask boot ROM, 64 KiB (R1); the manual publishes its source apart (R411). -/
def romBytes : Nat := 0x10000
opaque rom : Nat → BitVec 8

/-- The neighbour that the pod topology table gives a port; the host supplies the table (R416; log entry 31). -/
opaque topology : Nat → Nat

/-- The port the firmware's routes take toward a package with no direct link: for the packages of a job's set and the ports in service (R369, R371; the routes are the firmware's,
log entry 15). -/
opaque nextHop : (set ports : List Nat) → (pkg : Nat) → Nat

/-- The dateline class of a route, which the firmware sets (R368; log entry 15). -/
opaque dateClass : (set ports : List Nat) → (pkg : Nat) → Nat

/-- This package's number in the pod (R9). The pod's wiring is outside the module: the model's module is package 0 (log entry 13). -/
def pkgpos : Nat := 0

/-- Cores of a package (R1). -/
def cores : Nat := 384

/-- Bytes of a core's scratchpad (R1, R75). -/
def scratchBytes : Nat := 0x180000

/-- The features this revision has: every one of R324. -/
def features : BitVec 8 := 0x7F
/-- The revision code (R324). -/
def revision : Nat := 1

end Sys2Proof.Config
end

