-- ==== Sys2Proof/Machine/State.lean ====
section
/-!
DEFINITION. The machine's state as plain data, the state after reset, and the reasons a step can stop.
-/
namespace Sys2Proof.Machine

/-- A sparse table in one canonical form: keys strictly rising, no entry equal to what an unlisted key reads as. -/
abbrev Tab (α : Type) := List (Nat × α)

/-- Memory by physical address (R332); an unlisted byte reads 0 (log entry 2). -/
abbrev Memory := List Host.Cell

/-! ## One engine -/

/-- An active loop level (R66), with the logical index of its loop word and its count (R285, R290). -/
structure Level where
  start     : Word
  stop      : Word
  remaining : Nat
  index     : Nat
  depth     : Nat
  word      : Nat
  count     : Nat
  deriving DecidableEq, Repr

/-- A backward transfer that an engine has taken and stands among the words of (R272): the index of the transfer and of its target, how often it was taken in a row, and the loop
levels active around it. The model counts it to keep the comparison of R271 exact (log entry 103). -/
structure Lap where
  word  : Nat
  start : Nat
  count : Nat
  outer : Nat
  deriving DecidableEq, Repr

/-- A logical position (R271): index and, outermost first, loop word and iteration index of each active level; `call` orders positions within a call (R359) and `laps`, outermost first,
the passes that backward transfers make. -/
structure Pos where
  call  : Nat
  index : Nat
  iter  : List (Nat × Nat)
  laps  : List Lap
  deriving DecidableEq, Repr

/-- What an engine's pending writes may change (R275, first row): registers, control registers, descriptors, per-lane flags. -/
structure View where
  regs      : Tab Word
  flags     : BitVec 6
  rmode     : BitVec 3
  seed      : BitVec 32
  tol       : BitVec 32
  fmtlvl    : BitVec 3
  ovfpol    : BitVec 2
  fmtbase   : BitVec 6
  fmtstride : BitVec 6
  prelvl    : BitVec 3
  descs     : Tab Word
  lanes     : Tab (BitVec 6)
  deriving DecidableEq, Repr

/-- The view of an engine when a crew of number `crew` starts (R43, R59, R62, R121, R184). -/
def View.start (crew : Nat) : View where
  regs := []
  flags := 0
  rmode := 0
  seed := if 0x2545F491#32 + BitVec.ofNat 32 crew = 0 then 1 else 0x2545F491#32 + BitVec.ofNat 32 crew
  tol := 0
  fmtlvl := 4
  ovfpol := 1
  fmtbase := 0
  fmtstride := 0
  prelvl := 0
  descs := []
  lanes := []

/-- The pending writes of one instruction (R276): how many, and the view before them. `dep`: its commit counts a deprecated word (R354). -/
structure Past where
  pos    : Pos
  n      : Nat
  before : View
  dep    : Bool
  deriving DecidableEq, Repr

/-- An issued instruction whose pushes are not yet made (R225). -/
structure Flight where
  pos  : Pos
  sigs : List Eng
  send : Option (Eng × Word)
  done : Bool
  levels : List Level           -- active when it issued
  deriving DecidableEq, Repr

/-- A translation of one page: first- and second-level TLB entry, combined of both stages (R335). -/
structure TlbEntry where
  fn   : Nat
  ctx  : Nat
  page : Nat          -- address of the page
  bits : Nat          -- log2 of the page size: 16, 21 or 30
  pa   : Nat
  r    : Bool
  w    : Bool
  x    : Bool
  deriving DecidableEq, Repr

/-- What a walk answered for a 64 KiB page: an entry, or a fault of stage 1 or 2 (R334). -/
inductive Walked where
  | hit (e : TlbEntry)
  | fault (page stage : Nat)
  deriving DecidableEq, Repr

/-- The place of one byte: physical memory, or the scratchpad of a core. -/
inductive Loc where
  | mem (pa : Nat)
  | spad (core off : Nat)
  deriving DecidableEq, Repr

/-- A checked vector operand: where its elements lie in the core's scratchpad (R124). -/
structure Region where
  type   : Nat
  count  : Nat
  stride : Int
  base   : Nat
  slot   : Bool
  origin : Nat             -- of the slot, 0 for home
  deriving DecidableEq, Repr

/-- What an instruction's completed checks found, each list in access order: the places of its memory bytes, scratchpad offsets, offsets of index-list bytes, the bytes of a movement
with the pages of a migration (virtual and physical address, log2 of the size), the operands of a vector word and its index values. -/
structure Places where
  mem   : List Loc := []
  spad  : List Nat := []
  list  : List Nat := []
  move  : List (Loc × Loc) := []
  pages : List (Nat × Nat × Nat) := []
  regs  : List Region := []
  idx   : List Nat := []
  deriving DecidableEq, Repr

structure Engine where
  view    : View
  pc      : Word
  base    : Word             -- address of the slice
  len     : Nat              -- words of the slice; 0: empty
  loops   : List Level       -- innermost first, at most four
  past    : List Past        -- oldest first
  flights : List Flight      -- oldest first
  wait    : Option Nat       -- the base page the oldest word waits for (R336)
  got     : List Walked      -- answers obtained for that word
  call    : Nat              -- position counter above depth 0 (R359)
  laps    : List Lap         -- backward transfers taken, outermost first (R272)
  begun   : Bool             -- the word at the pc has issued and not finished (R287)
  hold    : Option Pos       -- the backward transfer, call or return after which it holds (R272)
  kept    : Option Places    -- what the oldest word's checks found, once they are complete (R83, R273)
  resolved : Option Pos      -- the oldest word, once it has resolved (R273)
  banks   : Option (List (Nat × Nat)) -- core and number of the banks that have still to serve the oldest word, once it waits at some (R269)
  stall   : Nat              -- stall counter in force, as its R22 number less 0x40; 0xFF for none (R286)
  sc      : Tab Nat          -- stall counters, keyed by R22 number less 0x40
  deriving DecidableEq, Repr

/-- An engine of a core that runs no crew. -/
def Engine.reset : Engine where
  view := View.start 0
  pc := 0
  base := 0
  len := 0
  loops := []
  past := []
  flights := []
  wait := none
  got := []
  call := 0
  laps := []
  begun := false
  hold := none
  kept := none
  resolved := none
  banks := none
  stall := 0xFF
  sc := []

/-! ## One core -/

/-- A bound queue of a pair (R93, R229): base and slot size in bytes, depth, the two slot pointers. -/
structure Queue where
  base  : Nat
  slot  : Nat
  depth : Nat
  prod  : Nat
  cons  : Nat
  deriving DecidableEq, Repr

/-- An armed operation (R89). -/
structure Armed where
  obj   : Nat
  phase : Bool
  desc  : List Byte
  deriving DecidableEq, Repr

/-- A write that a store-buffer entry still has to make: bytes, or one element of RED. -/
inductive StoreWrite where
  | bytes (ls : List (Loc × Byte))
  | red (op : RedOp) (ls : List Loc) (v : List Byte)
  deriving DecidableEq, Repr

/-- A store whose source has been read (R103); released once older than the horizon (R275). -/
structure StoreEntry where
  pos      : Pos
  eng      : Eng
  cls      : Nat
  released : Bool
  writes   : List StoreWrite
  deriving DecidableEq, Repr

/-- Load data on its way to the core's scratchpad (R262). -/
structure LoadData where
  pos    : Pos
  slot   : Bool                 -- it goes into a queue slot, which never waits on the horizon (R275)
  writes : List (Nat × Byte)
  deriving DecidableEq, Repr

/-- The LDZ decoder's chunk (R110). -/
structure Ldz where
  pos     : Pos
  sync    : Sync
  pair    : Nat
  trap    : Bool
  slot    : Bool
  code    : Nat                 -- violation, 0 none
  emitted : Nat
  busy    : Bool                -- the decoder still runs
  writes  : List (Nat × Byte)
  cls     : Nat
  deriving DecidableEq, Repr

/-- An accepted BCOPY movement (R120). -/
structure Copy where
  pos  : Pos
  mode : CopyMode
  move : List (Loc × Loc)       -- source, destination, in ascending address order
  pages : List (Nat × Nat × Nat) -- MIG: pages still to move: virtual and physical address, log2 of the size
  tier : Nat
  deriving DecidableEq, Repr

/-- A tile register: descriptor of R179 and its elements' stored bits: dense row by row, or U then V (R180). -/
structure Tile where
  desc : Word
  elems : List (BitVec 32)
  deriving DecidableEq, Repr

/-- A tile instruction that resolves at execution (R190). -/
structure TileRun where
  pos   : Pos
  word  : Instr
  busy  : Bool                  -- it still computes
  deriving DecidableEq, Repr

/-- Leave (R177): none, requested, held. -/
inductive Leave where
  | none | asked | held
  deriving DecidableEq, Repr

/-- A decoded-operation cache entry (R356). -/
structure OpEntry where
  ctx  : Nat
  isa  : Nat
  eng  : Eng
  addr : Word
  word : IWord
  index : Nat
  ins  : Bool
  deriving DecidableEq, Repr

/-- A restart record of the slice map (R251). -/
structure Restart where
  rpc  : List Nat
  tok  : List Nat
  live : List Nat
  deriving DecidableEq, Repr

/-- A loop or branch record (R252). -/
structure MapRec where
  index : Nat
  aux   : Nat                   -- loop: nesting level; branch: target
  offs  : List Nat
  deriving DecidableEq, Repr

/-- A view record (R253): descriptor `num` has its Q bit in the slice only, from `from_` to before `to_`. -/
structure ViewRec where
  num   : Nat
  from_ : Nat
  to_   : Nat
  deriving DecidableEq, Repr

/-- A slice set as the device reads it: descriptor (R248, R249) and slice map (R250 to R253). -/
structure SliceSet where
  addr     : Nat
  code     : Nat                          -- base of the code block the offsets count from
  isa      : Nat
  hand     : Bool
  plainLen : Nat
  homesz   : Nat
  slices   : List (Nat × Nat)             -- byte offset, words
  tokInit  : List Nat
  queues   : List (Nat × Nat × Word)      -- P, C, QCW
  fmtRec   : List (Nat × BitVec 32)
  pwlRec   : List (Nat × List Byte)
  prime    : Word
  maps     : List (List (Bool × Nat))     -- per slice, per word: INS and logical index
  restarts : List Restart
  loops    : List MapRec
  branches : List MapRec
  views    : List ViewRec
  deriving DecidableEq, Repr

/-- What a core runs (R304). -/
structure Crew where
  ctx     : Nat
  fn      : Nat
  launch  : Nat                           -- serial number of its launch
  num     : Nat
  ncrew   : Nat
  segBase : Nat
  segSize : Nat
  prio    : Nat
  group   : Nat
  placed  : Nat                           -- serial number of its placement (R310)
  set     : SliceSet
  deriving DecidableEq, Repr

/-- The first fault detected, when another replaced it (R288). -/
structure First where
  cause  : Nat
  eng    : Nat
  detail : Nat
  faddr  : Word
  pos    : Pos
  deriving DecidableEq, Repr

/-- A fault being drained (R278 to R282). -/
structure Freeze where
  pos      : Pos
  levels   : List Level                   -- active at the position
  eng      : Nat                          -- engine code; 0 for causes 0x12 to 0x14
  cause    : Nat
  detail   : Nat
  aux      : Word
  faddr    : Word
  ord      : Nat                          -- ORDCLASS of R285
  after    : Bool
  sliceset : Bool
  slices   : Bool                         -- some fault of the drain, replaced ones included, was the slice set's (R282)
  first    : Option First
  repl     : List Nat                     -- engines whose fault was replaced
  snaps    : List Byte                    -- the five snapshots of R286 at the freeze clock
  tfreeze  : Word
  stuck    : Nat                          -- drain clocks without progress (R282)
  deriving DecidableEq, Repr

/-- A requested pre-emption (R327). -/
structure Preempt where
  bound    : Pos                          -- the boundary B
  levels   : List Level
  since    : Nat                          -- PODTIME of the request
  deriving DecidableEq, Repr

/-- A ready message that reached the hub (R385): its place in the order of arrival, and the packet, whose SRC, buffer offset and object tell of its sender. -/
structure ReadyMsg where
  at_    : Nat
  packet : Packet
  deriving DecidableEq, Repr

/-- An accepted collective (R383 to R390). -/
structure Coll where
  id     : Nat                  -- serial number
  tag    : Nat                  -- the descriptor's TAG
  desc   : List Byte            -- the 64 bytes read at acceptance
  list   : Nat                  -- address of the rank list
  ext    : List Nat             -- extents of the mesh axes
  ranks  : List Nat             -- the rank list's packages
  step   : Nat                  -- transfers started
  flips  : Nat                  -- flips of RECV since acceptance
  told   : List Nat             -- members whose ready message was sent
  ready  : List ReadyMsg           -- ready messages matched to it
  sent   : Nat                  -- transfers sent and not acknowledged
  status : Nat                  -- 0, or the status it ends with
  since  : Nat                  -- PODTIME since which its present step waits
  retry  : Nat                  -- PODTIME of the next repetition of a ready message
  frozen : Bool                 -- frozen by easy-all (R396)
  bufs   : List (Nat × Nat)     -- its SRC and DST: offset and bytes
  dirty  : List Nat             -- bytes of them that a crew wrote since acceptance (R384)
  deriving DecidableEq, Repr

/-- A COLL that waits for the collective unit (R383): its position, the pointers to the descriptor and to the rank list. -/
structure CollAsk where
  pos  : Pos
  desc : Nat
  list : Nat
  deriving DecidableEq, Repr

/-- The address unit (R114, R277): instructions that have completed their checks and not begun their data phase, with what the checks found. -/
structure Unit_ where
  checked : List (Pos × Places)
  wait    : Option Nat
  got     : List Walked
  deriving DecidableEq, Repr

structure Core where
  id        : Nat
  crew      : Option Crew
  owner     : Option Nat                  -- context of the last crew (R427)
  engS      : Engine
  engL      : Engine
  engV      : Engine
  engM      : Engine
  engW      : Engine
  calldepth : Nat
  parked    : Bool                        -- a call holds the other engines (R358)
  halting   : Bool
  tok       : Tab Nat
  follow    : Tab (List Word)             -- keyed by engine code 2 to 5
  queues    : Tab Queue
  takes     : List (Pos × Nat × Nat)      -- slots taken by words not yet older than the horizon: taker, pair, consumer pointer before (R288)
  scratch   : Tab Byte
  barriers  : Tab Word
  armed     : Tab Armed
  fmt       : Tab (BitVec 32)
  pwl       : Tab Byte                    -- byte k of segment n at 32 n + k
  acc       : Tab (BitVec 32)             -- row r, column c at 64 r + c
  dstat     : Tab Word
  tiles     : Tab Tile
  tileRun   : Option TileRun
  ldz       : Option Ldz
  loads     : List LoadData
  stores    : List StoreEntry
  copies    : List Copy
  unit      : Unit_
  collAsk   : Option CollAsk
  colls     : List Coll                   -- at most 16
  ended     : List Coll                   -- completed ones whose DONE the crew has not seen flip (R384)
  ranks     : Tab (List Nat)              -- rank-list cache slots: address, context, NAXES, extents, entries (R379)
  opcache   : Tab (List OpEntry)          -- 512 sets, most recently used first
  tlb       : List TlbEntry               -- newest first
  leave     : Leave
  idle      : Nat                         -- clocks since the last heavy instruction (R178)
  bankPtr   : Tab Nat                     -- per bank, the requester served last (R269); 6 at the start
  freeze    : Option Freeze
  preempt   : Option Preempt
  held      : Bool                        -- placed by a resume of its job, not yet started (R403)
  stands    : Option Nat                  -- its crew still waits for the host's RESUME of this slot (R330, R403)
  time      : Word
  blocked   : Tab Nat                     -- per engine code, its turns since some engine was not blocked (R228)
  out       : Bool
  deriving DecidableEq, Repr

/-- Core `k` with no crew and its storage zeroed (R62, R304, R414). -/
def Core.reset (k : Nat) : Core where
  id := k
  crew := none
  owner := none
  engS := Engine.reset
  engL := Engine.reset
  engV := Engine.reset
  engM := Engine.reset
  engW := Engine.reset
  calldepth := 0
  parked := false
  halting := false
  tok := []
  follow := []
  queues := []
  takes := []
  scratch := []
  barriers := []
  armed := []
  fmt := []
  pwl := []
  acc := []
  dstat := []
  tiles := []
  tileRun := none
  ldz := none
  loads := []
  stores := []
  copies := []
  unit := ⟨[], none, []⟩
  collAsk := none
  colls := []
  ended := []
  ranks := []
  opcache := []
  tlb := []
  leave := .none
  idle := 0
  bankPtr := []
  freeze := none
  preempt := none
  held := false
  stands := none
  time := 0
  blocked := []
  out := false

/-! ## Translation -/

/-- A walk a die runs or holds waiting (R336), with the cores and engines it serves. -/
structure Walk where
  fn      : Nat
  ctx     : Nat
  page    : Nat                 -- 64 KiB base page
  waiters : List (Nat × Eng)
  deriving DecidableEq, Repr

/-- A page-walk cache entry: a non-leaf entry of stage 1 (R335). -/
structure PwcEntry where
  fn    : Nat
  ctx   : Nat
  level : Nat                   -- level of the table named
  tag   : Nat                   -- the address bits above that table's index
  table : Nat
  deriving DecidableEq, Repr

structure Die where
  walks  : List Walk            -- in arrival order; the first 32 are in progress
  pwc    : List PwcEntry
  primed : List Nat             -- launches whose priming was made on this die (R305)
  deriving DecidableEq, Repr

def Die.reset : Die := ⟨[], [], []⟩

/-! ## Contexts -/

/-- A procedure's span (R360): address and bytes. -/
structure Span where
  addr  : Nat
  bytes : Nat
  deriving DecidableEq, Repr

/-- A loaded object (R350). -/
structure Obj where
  handle   : Nat
  base     : Nat                -- CODEBASE
  size     : Nat                -- bytes of the code block
  link     : Nat                -- LINKBASE, 0 with no links
  nlink    : Nat
  stub     : Nat
  imports  : List (Nat × Bool × List Byte)   -- link entry, NOW, name, for externs
  targets  : List (Nat × Nat)   -- link entry and target bound so far
  symbols  : List (List Byte × Nat)
  sets     : List SliceSet
  spans    : List Span
  arena    : Nat                -- first arena byte of its block and linkage pages
  arenaLen : Nat
  tables   : List (Nat × Nat)   -- translation tables the loader made with it: address, bytes
  deriving DecidableEq, Repr

/-- A saved crew's slot (R323). -/
structure Slot where
  launch : Nat                  -- serial number of its launch
  num    : Nat
  kind   : Nat                  -- RSTKIND
  waits  : Bool                 -- its FAULTMAP bit: its record waits for the host (R330)
  plug   : Bool                 -- its service event is with the policy plug-in (R330, R413)
  since  : Nat                  -- PODTIME at which the plug-in took it (R413)
  quad   : Nat                  -- GROUPQ
  feat   : Nat                  -- features whose state is live in the block (R324)
  levels : List Level           -- of a crew stopped above depth 0, its loop levels, whose procedures and depths the record does not tell (R360; log entry 22)
  deriving DecidableEq, Repr

structure Ctx where
  fn       : Nat
  root     : Nat
  save     : Nat
  saveSize : Nat
  deadline : Nat                -- µs
  depcnt   : Word
  held     : Bool               -- saved: no crew is placed until RESTORE
  job      : Nat                -- JOBTAG, 0 for none
  slots    : Tab Slot
  objs     : List Obj
  deriving DecidableEq, Repr

/-- A started launch (R303, R308, R320). -/
structure Launch where
  serial : Nat
  ctx    : Nat
  fn     : Nat
  queue  : Nat
  proc   : Nat                  -- PROC of its queue; 65,536 for an adopted one
  cmd    : List Byte            -- the 128 bytes of the command
  args   : List Byte            -- 64 bytes
  tok    : List Nat             -- initial counts
  prio   : Nat
  next   : Nat
  ended  : Nat
  lslot  : Nat                  -- launch record of the context
  pipe   : List Word            -- JQ(0) onward
  stage  : Nat
  pipeId : Nat                  -- serial of the pipeline's first launch, 0 for none
  start  : Nat                  -- PODTIME of its start
  last   : Nat                  -- PODTIME it last received a core
  recv   : Nat                  -- order in which it last received a core; 0 never
  yielded : List Nat            -- crews that yielded, in order
  deriving DecidableEq, Repr

/-! ## Functions and the hub's queues -/

/-- The registers of a command queue (R297) and the command it is stopped at (R300). -/
structure CmdQueue where
  en    : Bool
  logsz : Nat
  ctx   : Nat
  proc  : Nat
  pcap  : Nat
  base  : Nat
  halt  : Bool
  err   : Nat
  head  : BitVec 32
  tail  : BitVec 32
  busy  : Option (List Byte)    -- a DRAIN or WAITMEM in progress
  pipe  : List Word             -- JQ of a PIPE whose launches follow
  pipeN : Nat                   -- stages that PIPE still expects
  pipeAt : Nat                  -- next stage expected
  pipeId : Nat
  pipePrio : Nat
  pipeRecv : Nat                -- how its pipeline's launches, completed ones included, stand in the order of R308: their place
  pipeLast : Nat                -- and the time they last received a core
  deriving DecidableEq, Repr

def CmdQueue.reset : CmdQueue where
  en := false
  logsz := 4
  ctx := 0
  proc := 0
  pcap := 0
  base := 0
  halt := false
  err := 0
  head := 0
  tail := 0
  busy := none
  pipe := []
  pipeN := 0
  pipeAt := 0
  pipeId := 0
  pipePrio := 0
  pipeRecv := 0
  pipeLast := 0

/-- A command of the context registers in progress (R315). -/
structure CtxCmd where
  op  : Nat
  ctx : Nat
  ctx2 : Nat
  arg : Word
  phase : Nat
  deriving DecidableEq, Repr

/-- One PCI Express function: 0 the physical function, v + 1 virtual function v. -/
structure Func where
  queues  : Tab CmdQueue
  ccmd    : Word
  carg    : Word
  newctx  : Nat
  cresult : Nat
  cbusy   : Option CtxCmd
  lcmd    : Word
  larg    : Word
  lhandle : Nat
  ldetail : Nat
  lresult : Nat
  depthr  : Word
  pend    : Bool
  depctx  : Nat
  vffeat  : BitVec 8
  s2root  : Nat
  susp    : Bool
  flr     : Bool                -- VFSTAT.FLR: a function-level reset is in progress (R342)
  lbusy   : Option Word         -- the loader command in progress: LSTAT's BUSY (R348)
  plugin  : Nat                 -- 0 none, 1 installed, 2 stopped (R413)
  deriving DecidableEq, Repr

def Func.reset : Func where
  queues := []
  ccmd := 0
  carg := 0
  newctx := 0
  cresult := 0
  cbusy := none
  lcmd := 0
  larg := 0
  lhandle := 0
  ldetail := 0
  lresult := 0
  depthr := 0
  pend := false
  depctx := 0
  vffeat := 0
  s2root := 0
  susp := false
  flr := false
  lbusy := none
  plugin := 0

/-- The command the front end has taken (R299). -/
structure Taken where
  fn    : Nat
  q     : Nat
  bytes : List Byte
  deriving DecidableEq, Repr

/-- The power governor (R417, R418). -/
structure Gov where
  limit   : Nat                 -- PWRLIM.LIMIT
  samples : List Int            -- the last ten of its 10 µs samples, newest first: measured power less 3 W a leave
  asks    : List (Nat × Nat)    -- requests for leave that wait, oldest first and of one PODTIME by core: PODTIME, core
  granted : List Nat            -- cores whose matrix engines hold leave, in the order of their grants
  hot     : List Nat            -- dies that passed 105 °C and are not yet below 95 °C
  deriving DecidableEq, Repr

structure Hub where
  fns      : Tab Func
  rr       : Nat                -- 16 fn + q served next
  current  : Option Taken
  launches : List Launch        -- in the order they started
  serial   : Nat
  recvs    : Nat
  resv     : List (Nat × Nat)   -- cores kept for the launch, by serial number, whose trigger frees them (R310)
  irqs     : List (Nat × Nat)   -- interrupts raised: function, vector
  gov      : Gov
  deriving DecidableEq, Repr

def Hub.reset : Hub := ⟨[], 0, none, [], 1, 0, [], [], ⟨1650, [], [], [], []⟩⟩

/-! ## The network -/

/-- A barrier arrival on its way inside the package (R87, R90). -/
structure Arrival where
  scope : Nat
  core  : Nat
  obj   : Nat
  src   : Nat                   -- issuing core
  deriving DecidableEq, Repr

/-- A transfer of SENDT, of an armed operation or of a collective, not yet acknowledged (R374, R375). -/
structure Xfer where
  id    : Nat
  core  : Nat                   -- issuing core
  tag   : Nat
  dest  : Nat                   -- bits 32:11 of the target's handle
  obj   : Nat                   -- TARGET.ID
  local? : Option Nat
  crew  : Option Pos            -- the position of the crew's own SENDT that made it, which releases wait for (R375)
  coll  : Option Nat            -- the collective it belongs to, by its serial number
  since : Nat                   -- PODTIME at which it was sent
  deriving DecidableEq, Repr

/-- An element that reached its target core and waits for its bank (R116, R270). -/
structure Elem where
  core  : Nat                   -- core of this package
  off   : Nat
  bytes : List Byte
  acc   : Nat
  count : Bool
  obj   : Nat
  tag   : Nat
  src   : Nat                   -- source, as SRC of R367
  xfer  : Nat
  last  : Bool                  -- the transfer's last element
  port  : Bool                  -- it came through a network port
  quad  : Bool                  -- its source is another core of the same quad
  deriving DecidableEq, Repr

/-- An acknowledgement that reached its issuing core (R374): transfer and status, 0 delivered. -/
structure Ack where
  xfer   : Nat
  status : Nat
  deriving DecidableEq, Repr

/-- A network port (R366, R416): input buffers per virtual channel, and what was put on its output link. -/
structure Port where
  service   : Bool
  lanes     : Nat               -- working lanes
  neighbour : Nat
  state     : Nat               -- training state of PSTAT
  bufs      : Tab (List Packet)
  out       : List Packet
  ahead     : List (Nat × Nat × Nat)           -- what it sent and the next router still holds, oldest first: channel, tag, bytes (R368)
  deriving DecidableEq, Repr

def Port.reset : Port := ⟨false, 0, 0, 0, [], [], []⟩

/-- A job of the package (R370 to R372). -/
structure Job where
  pkgs : List Nat
  jcap : Nat
  deriving DecidableEq, Repr

structure Net where
  arrivals : List Arrival
  xfers    : List Xfer
  nextXfer : Nat                               -- numbers transfers, collectives and ready messages
  wait     : List Packet                       -- the injection port: packets handed over and not yet on a link, oldest first (R368, R398)
  elems    : List Elem
  acks     : List Ack
  ports    : Tab Port
  seqs     : List ((Nat × Nat × Nat) × Nat)   -- next SEQ per source core, destination core and channel
  jobs     : List (Nat × Job)
  held     : List ReadyMsg                        -- ready messages for collectives not yet accepted (R385)
  discards : Nat                               -- packets the firmware counted as discarded (R367)
  jcmd     : Word
  jarg     : Word
  jresult  : Nat
  deriving DecidableEq, Repr

def Net.reset : Net := ⟨[], [], 1, [], [], [], [], [], [], [], 0, 0, 0, 0⟩

/-! ## The gang switch -/

/-- A crew that ran at the switch time: context, launch, crew number and core (R403). -/
structure Placed where
  ctx    : Nat
  launch : Nat
  num    : Nat
  core   : Nat
  deriving DecidableEq, Repr

/-- A collective that easy-all froze in the unit of a core (R395, R402). -/
structure Frozen where
  core : Nat
  coll : Coll
  deriving DecidableEq, Repr

/-- A parked job's entry (R393), with what the firmware keeps of it (R403). -/
structure Park where
  state  : Nat                  -- 0 empty, 3 out, 6 corrupt
  late   : Nat
  cause  : Nat
  tag    : Nat
  base   : Nat
  size   : Nat
  placed : List Placed
  caps   : Tab (List Packet)    -- its packets per port, in recorded order
  frozen : List Frozen
  deriving DecidableEq, Repr

def Park.reset : Park := ⟨0, 0, 0, 0, 0, 0, [], [], []⟩

structure Gang where
  op      : Nat                 -- GCMD's fields
  tag     : Nat
  time    : Word
  base    : Nat
  size    : Nat
  gtag    : Nat                 -- GSTAT
  state   : Nat
  late    : Nat
  cause   : Nat
  result  : Nat
  at_     : Nat                 -- T of an OUT in progress, T2 of an IN
  obase   : Nat                 -- its basin
  osize   : Nat
  caps    : Tab (List Packet)   -- captured packets per port, in arrival order (R398)
  enter   : Tab (List Packet)   -- records still to re-enter per port, in recorded order (R403)
  inset   : List Nat            -- ports that lead to a package of the job's set at T
  ended   : List Nat            -- ports whose capture has ended
  marked  : List Nat            -- links whose marker has arrived
  sent    : List Nat            -- links whose marker was sent
  frozen  : List Frozen
  placed  : List Placed
  park    : Tab Park            -- GPARK0 to GPARK7
  deriving DecidableEq, Repr

def Gang.reset : Gang where
  op := 0
  tag := 0
  time := 0
  base := 0
  size := 0
  gtag := 0
  state := 0
  late := 0
  cause := 0
  result := 0
  at_ := 0
  obase := 0
  osize := 0
  caps := []
  enter := []
  inset := []
  ended := []
  marked := []
  sent := []
  frozen := []
  placed := []
  park := []

/-! ## Boot, health and the hub's control space -/

/-- A log record (R422). -/
structure LogRec where
  time : Nat
  kind : Nat
  unit : Nat
  ctx  : Nat
  loc  : Nat
  addr : Nat
  flit : List Byte                -- of a late packet, its header flit, which the record's 32 bytes do not show (R405)
  deriving DecidableEq, Repr

/-- A unit taken out of service (R421). -/
inductive Out where
  | core (k : Nat)
  | quad (q : Nat)
  | die (d : Nat)
  | link (p : Nat)
  | group (g : Nat)             -- first-tier group
  | package (n : Nat)           -- second-tier package
  deriving DecidableEq, Repr

/-- What the module's own NVMe drive keeps (R407, R409, R420, R421). -/
structure Drive where
  answers : Bool
  image   : List Byte
  outs    : List Out
  fatal   : List LogRec
  retired : List Nat            -- the list of retired pages (R420, R423, R424)
  writing : Option (List Byte)  -- the image that the update service is writing (R412)
  deriving DecidableEq, Repr

/-- One-time-programmable fuses (R407, R410 to R412, R426). -/
structure Otp where
  ecHash  : List Byte
  lmsHash : List Byte
  minsvn  : Nat
  policy  : List Byte
  idz     : Bool
  leaf    : Nat                 -- identity leaves used
  killed  : Bool
  deriving DecidableEq, Repr

/-- Modes of a firmware core (R413). -/
inductive FwMode where
  | machine
  | supervisor
  | user
  deriving DecidableEq, Repr

/-- One of the eight RV64IMAC firmware cores (R413); satp is fixed at Bare and holds no state. -/
structure FwCore where
  on    : Bool                    -- it runs: the ROM starts core 0 (R410)
  mode  : FwMode
  pc    : Word
  regs  : Tab Word
  csrs  : Tab Word                -- control and status registers, by number
  pmp   : Tab (Nat × Word)        -- its 16 regions: configuration byte and address
  lr    : Option (Nat × Nat)      -- the reservation of LR: address and bytes
  count : Nat                     -- instructions retired
  deriving DecidableEq, Repr

def FwCore.reset : FwCore := ⟨false, .machine, 0, [], [], [], none, 0⟩

structure Health where
  powered : Bool                -- the rails are on: from POWER_ON to POWER_OFF (R407, R425; log entry 128)
  pcie    : Bool                -- the PCI Express link is up
  stage   : Nat                 -- BOOTSTAT
  fwsvn   : Nat
  fail    : Nat
  rcvlen  : Nat                 -- RCVCTL.LEN
  fwsram  : Tab Byte            -- firmware SRAM, 4 MiB, of which the BAR 2 window shows the first 3 (R1, R410, R412; log entry 109)
  fw      : Tab FwCore          -- the eight firmware cores (R413)
  total   : Nat                 -- ELOGCNT
  sel     : Nat                 -- ELOGSEL
  log     : List LogRec         -- the most recent 256, oldest first
  fptier  : Bool                -- FPCMD's fields
  fpop    : Nat
  fppage  : Nat
  free1   : List Nat            -- page addresses of each tier's list, earliest added first (R424)
  free2   : List Nat
  why     : Nat                 -- REPLACE, with REQ in bit 0
  sec     : Nat                 -- SECSTAT
  mregs   : List (List Byte)    -- MREG0 to MREG7
  aliases : Nat                 -- leaves of the alias LMS key still to use
  session : Bool                -- session keys are held
  drive   : Drive
  otp     : Otp
  outs    : List Out            -- mapped out in this power-on
  rails   : Nat                 -- RAILSTAT
  clkctl  : Nat                 -- CLKCTL bit 0 and bit 63
  dierst  : Nat
  diestat : Nat
  dsince  : Tab Nat             -- PODTIME at which a die's release was written
  sram    : Nat                 -- SRAMINIT: bit 0 written, bit 63 DONE
  corestat : List Nat           -- cores that CORESTAT lists
  mctl    : Tab Nat
  mstat   : Tab Nat
  mmap    : Nat
  portctl : Tab Nat
  msince  : Tab Nat             -- PODTIME at which a controller's training, and a port's present step, began
  psince  : Tab Nat
  quote   : List Byte           -- the latest quote's signatures
  since   : Nat                 -- PODTIME at which the present power-up step began to wait
  corr    : List (Nat × Nat)    -- corrected errors of core SRAM: core and PODTIME (R421)
  retrans : List (Nat × Nat)    -- exhausted retransmissions of the last hour: port and PODTIME
  devs    : List (Nat × Nat)    -- uncorrectable errors of memory: controller and page
  deriving DecidableEq, Repr

def Health.reset : Health where
  powered := false
  pcie := false
  stage := 0
  fwsvn := 0
  fail := 0
  rcvlen := 0
  fwsram := []
  fw := []
  total := 0
  sel := 0
  log := []
  fptier := false
  fpop := 0
  fppage := 0
  free1 := []
  free2 := []
  why := 0
  sec := 0
  mregs := List.replicate 8 (List.replicate 48 0)
  aliases := 0
  session := false
  drive := ⟨false, [], [], [], [], none⟩
  otp := ⟨[], [], 0, [], false, 0, false⟩
  outs := []
  rails := 0
  clkctl := 0
  dierst := 0
  diestat := 0
  dsince := []
  sram := 0
  corestat := []
  mctl := []
  mstat := []
  mmap := 0
  portctl := []
  msince := []
  psince := []
  quote := []
  since := 0
  corr := []
  retrans := []
  devs := []

/-! ## The module -/

/-- One turn of the machine (log entry 1). -/
inductive Turn where
  | engine (e : Eng)
  | event (i : Instr)
  | plugin (fn : Nat) (image : List Byte)   -- a plug-in is installed for a function (R411, R413)
  | firmware (core : Nat)                   -- one instruction of a firmware core (R413)
  | focus (core : Nat)
  | elapse (ns : Nat)
  deriving DecidableEq, Repr

structure State where
  core   : Core                 -- the core whose turn it is
  others : List Core            -- other cores, by rising number; an unlisted one is at reset
  agenda : List Turn            -- the turns the outside gives
  turn   : Eng
  free   : Nat                  -- the model's counter behind free values (log entry 6)
  mem    : Memory
  quads  : Tab (List TlbEntry)
  dies   : Tab Die
  ctxs   : Tab Ctx
  codeBlocks : List (Nat × Nat × List Obj)   -- the loader's records that code blocks brought from another module carry, by function and root table (log entry 26)
  hub    : Hub
  net    : Net
  gang   : Gang
  health : Health
  podtime : Nat                 -- PODTIME in nanoseconds (R392; log entry 3)
  deriving DecidableEq, Repr

/-- The machine right after reset. -/
def State.reset : State where
  core := Core.reset 0
  others := []
  agenda := []
  turn := .S
  free := 0
  mem := []
  quads := []
  dies := []
  ctxs := []
  codeBlocks := []
  hub := Hub.reset
  net := Net.reset
  gang := Gang.reset
  health := Health.reset
  podtime := 0

/-- Why a step stops with a fault. -/
inductive Fault where
  /-- An agenda entry names a core the package has not. Raised by the step alone; safe. -/
  | noSuchCore (core : Nat)
  deriving DecidableEq, Repr

/-- Why a step refuses. -/
inductive Refusal where
  /-- An arm of `exec` with no meaning yet, of which there is none. Safe: the machine stops. -/
  | notModelled (mnemonic : String)
  deriving DecidableEq, Repr

end Sys2Proof.Machine
end

