-- ==== Sys2Proof/Machine/Base.lean ====
section
/-!
DEFINITION. Sparse tables, bytes and words, and the accessors through which every other file reads and writes the state.
-/
namespace Sys2Proof.Machine

/-! ## Tables -/

/-- What key `i` reads as, `d` when it is not listed. -/
def Tab.get {α : Type} (d : α) : Tab α → Nat → α
  | [], _ => d
  | (k, v) :: t, i => if k = i then v else Tab.get d t i

/-- Writes key `i`; the default value `d` is never listed. -/
def Tab.set {α : Type} [DecidableEq α] (d : α) (t : Tab α) (i : Nat) (v : α) : Tab α :=
  t.filter (fun c => c.1 < i) ++ (if v = d then [] else [(i, v)]) ++ t.filter (fun c => i < c.1)

/-- Writes a list of keys in its order. -/
def Tab.setAll {α : Type} [DecidableEq α] (d : α) (t : Tab α) (l : List (Nat × α)) : Tab α :=
  l.foldl (fun t c => Tab.set d t c.1 c.2) t

/-- A table in canonical form with the entries of a list, the earlier of two for one key; a list in that form stays as it is. -/
def Tab.norm {α : Type} [DecidableEq α] (d : α) : List (Nat × α) → Tab α
  | [] => []
  | c :: l =>
    let t := Tab.norm d l
    if c.2 ≠ d ∧ (∀ x ∈ t.head?, c.1 < x.1) then c :: t else Tab.set d t c.1 c.2

/-- The values of keys `i` to `i + n - 1`. -/
def Tab.slice {α : Type} (d : α) (t : Tab α) (i n : Nat) : List α :=
  (List.range n).map fun k => Tab.get d t (i + k)

/-- Sets keys `i` to `i + n - 1` to the default. -/
def Tab.clear {α : Type} (t : Tab α) (i n : Nat) : Tab α :=
  t.filter fun c => c.1 < i || i + n ≤ c.1

/-- Keys strictly rising. -/
def Tab.rising {α : Type} : Tab α → Bool
  | [] => true
  | c :: t => t.all (fun x => c.1 < x.1) && Tab.rising t

/-- The canonical form of a table: keys strictly rising, no entry equal to what an unlisted key reads as. -/
def Tab.wf {α : Type} [DecidableEq α] (d : α) (t : Tab α) : Bool := Tab.rising t && t.all fun c => decide (c.2 ≠ d)

/-- The canonical form of memory (log entry 2). -/
def Memory.wf (m : Memory) : Bool := Tab.wf (0 : Byte) m

/-! ## Bytes (little-endian, R5) -/

/-- The `n` low bytes of a number, lowest first. -/
def toBytes (n v : Nat) : List Byte := (List.range n).map fun k => BitVec.ofNat 8 (v >>> (8 * k))

/-- Fills a list of bytes up to `n` with zeros. -/
def padTo (n : Nat) (l : List Byte) : List Byte := l ++ List.replicate (n - l.length) 0

/-- The number whose bytes, lowest first, are given. -/
def ofBytes : List Byte → Nat
  | [] => 0
  | b :: l => b.toNat + 256 * ofBytes l

/-- Bytes `i` to `i + n - 1` of a list as a number; missing bytes are 0. -/
def field (l : List Byte) (i n : Nat) : Nat := ofBytes ((l.drop i).take n)

/-- Bits `hi:lo` of a number. -/
def bits (v hi lo : Nat) : Nat := (v >>> lo) % 2 ^ (hi + 1 - lo)

/-- A signed number of `n` bits. -/
def signed (n v : Nat) : Int := if v < 2 ^ (n - 1) then (v : Int) else (v : Int) - 2 ^ n

/-! ## Cores and engines -/

def Core.eng (c : Core) : Eng → Engine
  | .S => c.engS | .L => c.engL | .V => c.engV | .M => c.engM | .W => c.engW

def Core.setEng (c : Core) (e : Eng) (g : Engine) : Core :=
  match e with
  | .S => { c with engS := g }
  | .L => { c with engL := g }
  | .V => { c with engV := g }
  | .M => { c with engM := g }
  | .W => { c with engW := g }

def State.eng (s : State) (e : Eng) : Engine := s.core.eng e

def State.mapCore (s : State) (f : Core → Core) : State := { s with core := f s.core }

def State.mapEng (s : State) (e : Eng) (f : Engine → Engine) : State :=
  { s with core := s.core.setEng e (f (s.core.eng e)) }

/-- Core `k`, wherever it stands; an unlisted core is at reset. -/
def State.coreAt (s : State) (k : Nat) : Core :=
  if s.core.id = k then s.core else (s.others.find? fun c => c.id == k).getD (Core.reset k)

/-- Puts core `c` where its number says. -/
def State.putCore (s : State) (c : Core) : State :=
  if s.core.id = c.id then { s with core := c } else
    { s with others := s.others.filter (fun x => x.id < c.id) ++
        (if c = Core.reset c.id then [] else [c]) ++ s.others.filter (fun x => c.id < x.id) }

/-- Makes core `k` the focus. -/
def State.focusOn (s : State) (k : Nat) : State :=
  if s.core.id = k then s else
    let c := s.coreAt k
    let o := s.core
    { (({ s with core := c, others := s.others.filter fun x => x.id != k } : State).putCore o) with core := c }

/-- Every core that is not at reset, by rising number. -/
def State.cores (s : State) : List Core :=
  s.others.filter (fun x => x.id < s.core.id) ++ [s.core] ++ s.others.filter (fun x => s.core.id < x.id)

/-- Index in its quad, quad in its die and die of a core (R9, R85). -/
def coreIdx (k : Nat) : Nat := k % 4
def quadOf (k : Nat) : Nat := k / 4
def dieOf (k : Nat) : Nat := k / 96

/-! ## Registers (R17, R62) -/

def View.x (v : View) (r : Nat) : Word := if r = 0 then 0 else Tab.get 0 v.regs r

/-- A write to x0 is discarded (R62). -/
def View.setX (v : View) (r : Nat) (w : Word) : View :=
  if r = 0 then v else { v with regs := Tab.set 0 v.regs r w }

/-- What register xr of engine e reads: the latest older write, pending ones included (R275). -/
def State.x (s : State) (e : Eng) (r : Nat) : Word := (s.eng e).view.x r

/-- Enters an instruction's writes into its engine's pending writes (R275, R276). -/
def State.write (s : State) (e : Eng) (p : Pos) (n : Nat) (f : View → View) : State :=
  s.mapEng e fun g => { g with view := f g.view, past := g.past ++ [⟨p, n, g.view, false⟩] }

/-- The registers that only slices use: S.x28 and x14, x15 of the others (R233, R275). -/
def slicePrivate (e : Eng) (r : Nat) : Bool := if e = .S then r == 28 else r == 14 || r == 15

/-- Writes one integer register: through the pending writes, a slice-private one at once (R275); x0 takes no write (R62). -/
def State.writeX (s : State) (e : Eng) (p : Pos) (r : Nat) (w : Word) : State :=
  if r = 0 then s else if slicePrivate e r then s.mapEng e fun g => { g with view := g.view.setX r w } else s.write e p 1 fun v => v.setX r w

/-- The writes an engine holds pending. -/
def Engine.pending (g : Engine) : Nat := (g.past.map (·.n)).sum

/-! ## Sticky flags (R53): bits of FLAGS -/

/-- Sets flags of an engine's view. -/
def View.orFlags (v : View) (f : BitVec 6) : View := { v with flags := v.flags ||| f }

/-- The next free value (log entry 6). -/
def State.freeWord (s : State) : Word × State := (Config.freeValue s.free, { s with free := s.free + 1 })

/-! ## Memory and scratchpad bytes -/

def State.memByte (s : State) (pa : Nat) : Byte := Tab.get 0 s.mem pa

def State.setMem (s : State) (pa : Nat) (b : Byte) : State := { s with mem := Tab.set 0 s.mem pa b }

/-- `n` bytes of physical memory. -/
def State.memBytes (s : State) (pa n : Nat) : List Byte := (List.range n).map fun k => s.memByte (pa + k)

/-- `n` bytes of physical memory as a number. -/
def State.memNat (s : State) (pa n : Nat) : Nat := ofBytes (s.memBytes pa n)

/-- Writes bytes of physical memory in ascending address order. -/
def State.setMemBytes (s : State) (pa : Nat) (l : List Byte) : State :=
  { s with mem := Tab.setAll 0 s.mem (l.zipIdx.map fun c => (pa + c.2, c.1)) }

/-- What the place of a byte reads as. -/
def State.byteAt (s : State) : Loc → Byte
  | .mem pa => s.memByte pa
  | .spad k off => Tab.get 0 (s.coreAt k).scratch off

/-- A collective whose buffers a crew's write meets: the bytes written are marked (R384). -/
def Coll.hit (offs : List Nat) (k : Coll) : Coll :=
  { k with dirty := k.dirty ++ offs.filter fun o => k.bufs.any (fun b => b.1 ≤ o && o < b.1 + b.2) && !k.dirty.contains o }

/-- A crew writes these bytes of a core's scratchpad. -/
def Core.hit (c : Core) (offs : List Nat) : Core := { c with colls := c.colls.map (Coll.hit offs), ended := c.ended.map (Coll.hit offs) }

/-- Writes the byte of a place. -/
def State.setByte (s : State) (l : Loc) (b : Byte) : State :=
  match l with
  | .mem pa => s.setMem pa b
  | .spad k off =>
    let c := s.coreAt k
    s.putCore { c.hit [off] with scratch := Tab.set 0 c.scratch off b }

/-- Writes bytes in list order. -/
def State.setBytes (s : State) (l : List (Loc × Byte)) : State := l.foldl (fun s c => s.setByte c.1 c.2) s

/-- The number that little-endian bytes at these places form. -/
def State.locsNat (s : State) (l : List Loc) : Nat := ofBytes (l.map s.byteAt)

/-- Bytes of the focus core's scratchpad. -/
def State.home (s : State) (off : Nat) : Byte := Tab.get 0 s.core.scratch off

def State.homeNat (s : State) (off n : Nat) : Nat := ofBytes ((List.range n).map fun k => s.home (off + k))

def State.setHome (s : State) (l : List (Nat × Byte)) : State :=
  s.mapCore fun c => { c.hit (l.map (·.1)) with scratch := Tab.setAll 0 c.scratch l }

/-- Bytes of core `k`'s scratchpad that hold free values from now on. -/
def State.fill (s : State) (k : Nat) (offs : List Nat) : State :=
  if offs = [] then s else
  let c := s.coreAt k
  let t := s.putCore { c with scratch := Tab.setAll 0 c.scratch (offs.zipIdx.map fun o => (o.1, (Config.freeValue (s.free + o.2)).setWidth 8)) }
  { t with free := s.free + offs.length }

/-! ## Functions and contexts -/

def State.func (s : State) (f : Nat) : Func := Tab.get Func.reset s.hub.fns f

def State.setFunc (s : State) (f : Nat) (x : Func) : State :=
  { s with hub := { s.hub with fns := Tab.set Func.reset s.hub.fns f x } }

def State.die (s : State) (d : Nat) : Die := Tab.get Die.reset s.dies d

def State.setDie (s : State) (d : Nat) (x : Die) : State := { s with dies := Tab.set Die.reset s.dies d x }

/-- Context `k`, if it exists. -/
def State.ctx? (s : State) (k : Nat) : Option Ctx := (s.ctxs.find? fun c => c.1 == k).map (·.2)

/-- Puts context `k`. -/
def State.putCtx (s : State) (k : Nat) (x : Ctx) : State :=
  { s with ctxs := s.ctxs.filter (fun c => c.1 < k) ++ [(k, x)] ++ s.ctxs.filter (fun c => k < c.1) }

/-- Removes context `k`. -/
def State.dropCtx (s : State) (k : Nat) : State := { s with ctxs := s.ctxs.filter fun c => c.1 != k }

/-- Raises an interrupt of a function (R331). -/
def State.interrupt (s : State) (fn vec : Nat) : State := { s with hub := { s.hub with irqs := s.hub.irqs ++ [(fn, vec)] } }

/-- The host is admitted: device registers answer (R408). -/
def State.admitted (s : State) : Bool := s.health.stage == 6

/-! ## The error log (R422) -/

/-- Writes a log record, with a packet's header flit for a late one; kinds 2 to 8 raise vector 5 (R405, R408, R422). -/
def State.logFlit (s : State) (kind unit ctx loc addr : Nat) (flit : List Byte) : State :=
  let h := s.health
  let l := h.log ++ [⟨s.podtime, kind, unit, ctx, loc, addr, flit⟩]
  let s : State := { s with health := { h with total := (h.total + 1) % 2 ^ 32, log := l.drop (l.length - 256) } }
  if 2 ≤ kind then s.interrupt 0 5 else s

/-- Writes a log record without a flit. -/
def State.logEvent (s : State) (kind unit ctx loc addr : Nat) : State := s.logFlit kind unit ctx loc addr []

/-- The feature mask that applies to the focus core's crew (R341). -/
def State.featMask (s : State) : BitVec 8 :=
  match s.core.crew with
  | none => 0
  | some c => if c.fn = 0 then 0 else (s.func c.fn).vffeat

end Sys2Proof.Machine
end

