-- ==== Sys2Proof/Machine/Flags.lean ====
section
/-!
DEFINITION. The sticky flags (R53, R55): their bits, and how an instruction's element results set the engine's and the lanes' flags.
-/
namespace Sys2Proof.Machine

/-- Bits of FLAGS (R53). -/
def flagINV : BitVec 6 := 1
def flagDZ : BitVec 6 := 2
def flagOVF : BitVec 6 := 4
def flagUNF : BitVec 6 := 8
def flagINX : BitVec 6 := 16
def flagSAT : BitVec 6 := 32

/-- A flag when a condition holds. -/
def flagIf (b : Bool) (f : BitVec 6) : BitVec 6 := if b then f else 0

/-- All of a list of flag sets. -/
def orAll (l : List (BitVec 6)) : BitVec 6 := l.foldl (· ||| ·) 0

/-- ORs element `i`'s flags into lane i mod 128 (R55). -/
def orLane (t : Tab (BitVec 6)) (i : Nat) (f : BitVec 6) : Tab (BitVec 6) :=
  if f = 0 then t else Tab.set 0 t (i % 128) (Tab.get 0 t (i % 128) ||| f)

/-- The view after element results, listed with their index and flags, have set the engine's and the lanes' flags (R54, R55). -/
def View.elemFlags (v : View) (l : List (Nat × BitVec 6)) : View :=
  { v with flags := v.flags ||| orAll (l.map (·.2)), lanes := l.foldl (fun t c => orLane t c.1 c.2) v.lanes }

end Sys2Proof.Machine
end

