-- ==== Sys2Proof/Machine/Alu.lean ====
section
/-!
DEFINITION. The integer operations (R63 to R65), and what an engine that follows W's words evaluates of them (R277).
-/
namespace Sys2Proof.Machine

/-! ## Integer operations (R63, R64) -/

/-- The 64-bit form, or the `.32` form on the low halves, sign-extended. -/
def narrow (w : Bool) (f : Word → Word → Word) (g : BitVec 32 → BitVec 32 → BitVec 32) (x y : Word) : Word :=
  if w then (g (x.setWidth 32) (y.setWidth 32)).signExtend 64 else f x y

/-- Bits 2n-1:n of the signed product. -/
def mulHigh {n : Nat} (x y : BitVec n) : BitVec n := BitVec.ofInt n ((x.toInt * y.toInt) >>> n)

/-- Bits 2n-1:n of the unsigned product. -/
def mulHighU {n : Nat} (x y : BitVec n) : BitVec n := BitVec.ofNat n ((x.toNat * y.toNat) >>> n)

/-- R64: quotients toward zero, all ones by zero; the most negative value by −1 gives itself. -/
def divS {n : Nat} (x y : BitVec n) : BitVec n := if y = 0 then BitVec.allOnes n else BitVec.ofInt n (x.toInt.tdiv y.toInt)
def divU {n : Nat} (x y : BitVec n) : BitVec n := if y = 0 then BitVec.allOnes n else BitVec.ofNat n (x.toNat / y.toNat)
def remS {n : Nat} (x y : BitVec n) : BitVec n := if y = 0 then x else BitVec.ofInt n (x.toInt.tmod y.toInt)
def remU {n : Nat} (x y : BitVec n) : BitVec n := if y = 0 then x else BitVec.ofNat n (x.toNat % y.toNat)

def boolWord (b : Bool) : Word := if b then 1 else 0

def leadingZeros {n : Nat} (x : BitVec n) : Nat := if x = 0 then n else n - 1 - x.toNat.log2
def oneBits {n : Nat} (x : BitVec n) : Nat := (List.range n).countP fun k => x.getLsbD k

/-- The T-format operations (R63, R64). -/
def aluAdd (w : Bool) := narrow w (· + ·) (· + ·)
def aluSub (w : Bool) := narrow w (· - ·) (· - ·)
def aluMul (w : Bool) := narrow w (· * ·) (· * ·)
def aluMulh (w : Bool) := narrow w mulHigh mulHigh
def aluMulhu (w : Bool) := narrow w mulHighU mulHighU
def aluDiv (w : Bool) := narrow w divS divS
def aluDivu (w : Bool) := narrow w divU divU
def aluRem (w : Bool) := narrow w remS remS
def aluRemu (w : Bool) := narrow w remU remU
def aluAnd (w : Bool) := narrow w (· &&& ·) (· &&& ·)
def aluOr (w : Bool) := narrow w (· ||| ·) (· ||| ·)
def aluXor (w : Bool) := narrow w (· ^^^ ·) (· ^^^ ·)
def aluAndn (w : Bool) := narrow w (fun x y => x &&& ~~~y) (fun x y => x &&& ~~~y)
def aluShl (w : Bool) := narrow w (fun x y => x <<< (y.toNat % 64)) (fun x y => x <<< (y.toNat % 32))
def aluShr (w : Bool) := narrow w (fun x y => x >>> (y.toNat % 64)) (fun x y => x >>> (y.toNat % 32))
def aluSra (w : Bool) := narrow w (fun x y => x.sshiftRight (y.toNat % 64)) (fun x y => x.sshiftRight (y.toNat % 32))
def aluSlt (w : Bool) (x y : Word) : Word :=
  boolWord (if w then (x.setWidth 32).slt (y.setWidth 32) else x.slt y)
def aluSltu (w : Bool) (x y : Word) : Word :=
  boolWord (if w then (x.setWidth 32).ult (y.setWidth 32) else x.ult y)
def aluMin (w : Bool) := narrow w (fun x y => if x.slt y then x else y) (fun x y => if x.slt y then x else y)
def aluMax (w : Bool) := narrow w (fun x y => if x.slt y then y else x) (fun x y => if x.slt y then y else x)
def aluMinu (w : Bool) := narrow w (fun x y => if x.ult y then x else y) (fun x y => if x.ult y then x else y)
def aluMaxu (w : Bool) := narrow w (fun x y => if x.ult y then y else x) (fun x y => if x.ult y then y else x)
def aluClz (w : Bool) (x : Word) : Word := BitVec.ofNat 64 (if w then leadingZeros (x.setWidth 32) else leadingZeros x)
def aluPopc (w : Bool) (x : Word) : Word := BitVec.ofNat 64 (if w then oneBits (x.setWidth 32) else oneBits x)

/-- An integer operation of the common group that the address unit evaluates on its copy of W's registers. -/
def unitEval (i : Instr) (x : Nat → Word) : Option (Nat × Word) :=
  let t (d a b : BitVec 5) (f : Word → Word → Word) : Option (Nat × Word) := some (d.toNat, f (x a.toNat) (x b.toNat))
  let u (d a : BitVec 5) (f : Word → Word) : Option (Nat × Word) := some (d.toNat, f (x a.toNat))
  match i with
  | .add _ _ d a b w => t d a b (aluAdd w)
  | .sub _ _ d a b w => t d a b (aluSub w)
  | .mul _ _ d a b w => t d a b (aluMul w)
  | .mulh _ _ d a b w => t d a b (aluMulh w)
  | .mulhu _ _ d a b w => t d a b (aluMulhu w)
  | .div _ _ d a b w => t d a b (aluDiv w)
  | .divu _ _ d a b w => t d a b (aluDivu w)
  | .rem _ _ d a b w => t d a b (aluRem w)
  | .remu _ _ d a b w => t d a b (aluRemu w)
  | .and _ _ d a b w => t d a b (aluAnd w)
  | .or _ _ d a b w => t d a b (aluOr w)
  | .xor _ _ d a b w => t d a b (aluXor w)
  | .andn _ _ d a b w => t d a b (aluAndn w)
  | .shl _ _ d a b w => t d a b (aluShl w)
  | .shr _ _ d a b w => t d a b (aluShr w)
  | .sra _ _ d a b w => t d a b (aluSra w)
  | .slt _ _ d a b w => t d a b (aluSlt w)
  | .sltu _ _ d a b w => t d a b (aluSltu w)
  | .min _ _ d a b w => t d a b (aluMin w)
  | .max _ _ d a b w => t d a b (aluMax w)
  | .minu _ _ d a b w => t d a b (aluMinu w)
  | .maxu _ _ d a b w => t d a b (aluMaxu w)
  | .sel _ _ d a b => some (d.toNat, if x d.toNat ≠ 0 then x a.toNat else x b.toNat)
  | .clz _ _ d a w => u d a (aluClz w)
  | .popc _ _ d a w => u d a (aluPopc w)
  | .addi _ _ d a i => u d a (fun v => v + i.signExtend 64)
  | .andi _ _ d a i => u d a (fun v => v &&& i.signExtend 64)
  | .ori _ _ d a i => u d a (fun v => v ||| i.signExtend 64)
  | .xori _ _ d a i => u d a (fun v => v ^^^ i.signExtend 64)
  | .shli _ _ d a i => u d a (fun v => v <<< i.toNat)
  | .shri _ _ d a i => u d a (fun v => v >>> i.toNat)
  | .srai _ _ d a i => u d a (fun v => v.sshiftRight i.toNat)
  | .slti _ _ d a i => u d a (fun v => boolWord (v.slt (i.signExtend 64)))
  | .sltiu _ _ d a i => u d a (fun v => boolWord (v.ult (i.signExtend 64)))
  | .li _ d i => some (d.toNat, i.signExtend 64)
  | .lih _ d i => some (d.toNat, x d.toNat <<< 17 ||| i.setWidth 64)
  | _ => none

/-- Whether the address unit stops at a word until the main stream has executed it (R277). -/
def unitStops (i : Instr) : Bool :=
  match i with
  | .follow .. | .brf .. | .crr .. | .loop .. => true
  | _ => false

end Sys2Proof.Machine
end

