-- ==== Sys2Proof/Machine/Walk.lean ====
section
/-!
DEFINITION. Translation: tables and walks of both stages (R332 to R334), the lookup in the TLBs (R335) and the queueing of walks (R336).
-/
namespace Sys2Proof.Machine

/-- Size in address bits of what a leaf at a level maps (R332). -/
def leafBits : Nat → Nat
  | 1 => 30 | 2 => 21 | _ => 16

/-- Index of an address in the table of a level (R332). -/
def tableIdx (level va : Nat) : Nat :=
  match level with
  | 0 => bits va 55 43 | 1 => bits va 42 30 | 2 => bits va 29 21 | _ => bits va 20 16

/-- Bytes of a table of a level (R332). -/
def tableSize : Nat → Nat
  | 0 => 0x10000 | 1 => 0x10000 | 2 => 0x1000 | _ => 0x100

/-- A valid table entry: leaf, address, permissions. -/
structure Pte where
  leaf : Bool
  addr : Nat
  r    : Bool
  w    : Bool
  x    : Bool
  deriving DecidableEq, Repr

/-- Reads an entry of a level; `none` where R333 gives a translation fault. -/
def pte? (level raw : Nat) : Option Pte :=
  let leaf := raw.testBit 1
  let addr := bits raw 51 8 * 256
  if !raw.testBit 0 || bits raw 63 52 != 0 || bits raw 7 5 != 0 then none else
  if leaf && level == 0 || !leaf && level == 3 then none else
  if addr % (if leaf then 2 ^ leafBits level else tableSize (level + 1)) != 0 then none else
  some ⟨leaf, addr, raw.testBit 2, raw.testBit 3, raw.testBit 4⟩

/-- A leaf found, or the stage that faults. -/
inductive WalkRes where
  | leaf (bits addr : Nat) (r w x : Bool)
  | bad (stage : Nat)
  deriving DecidableEq, Repr

/-- Walks the levels given from a table; `rd` reads an entry, `none` where stage 2 forbids it. -/
def walkLevels (rd : Nat → Option Nat) (va : Nat) : List Nat → Nat → WalkRes
  | [], _ => .bad 1
  | l :: ls, table =>
    match rd (table + 8 * tableIdx l va) with
    | none => .bad 2
    | some raw =>
      match pte? l raw with
      | none => .bad 1
      | some p => if p.leaf then .leaf (leafBits l) p.addr p.r p.w p.x else walkLevels rd va ls p.addr

/-- The non-leaf entries such a walk reads: the level of the table named, and the table. -/
def walkTables (rd : Nat → Option Nat) (va : Nat) : List Nat → Nat → List (Nat × Nat)
  | [], _ => []
  | l :: ls, table =>
    match (rd (table + 8 * tableIdx l va)).bind (pte? l) with
    | none => []
    | some p => if p.leaf then [] else (l + 1, p.addr) :: walkTables rd va ls p.addr

/-- Stage 2 of virtual function `fn - 1`; none for the physical function (R334). -/
def stage2 (s : State) (fn ipa : Nat) : WalkRes :=
  if fn = 0 then .leaf 52 0 true true true else
  let root := (s.func fn).s2root
  if root = 0 || 2 ^ 52 ≤ ipa then .bad 2 else
  match walkLevels (fun a => some (s.memNat a 8)) ipa [0, 1, 2, 3] root with
  | .leaf b a r w x => .leaf b a r w x
  | .bad _ => .bad 2

/-- The physical address of a guest physical address, and its permissions. -/
def guestPa (s : State) (fn ipa : Nat) : Option (Nat × Bool × Bool) :=
  match stage2 s fn ipa with
  | .leaf b a r w _ => some (a + ipa % 2 ^ b, r, w)
  | .bad _ => none

/-- Reads an 8-byte table entry of stage 1 (R334). -/
def readEntry (s : State) (fn : Nat) (a : Nat) : Option Nat :=
  match guestPa s fn a with
  | some (pa, true, _) => some (s.memNat pa 8)
  | _ => none

/-- A walk from level `start` of table `table`: the combined entry, or the fault (R334, R335). -/
def walkFrom (s : State) (fn ctx va : Nat) (levels : List Nat) (table : Nat) : Walked :=
  if va < 0x10000 then .fault (va - va % 0x10000) 1 else
  match walkLevels (readEntry s fn) va levels table with
  | .bad st => .fault (va - va % 0x10000) st
  | .leaf b a r w x =>
    let ipa := a + va % 2 ^ b
    match stage2 s fn ipa with
    | .bad st => .fault (va - va % 0x10000) st
    | .leaf b2 a2 r2 w2 x2 =>
      let m := min b b2
      .hit ⟨fn, ctx, va - va % 2 ^ m, m, a2 + ipa % 2 ^ b2 - va % 2 ^ m, r && r2, w && w2, x && x2⟩

/-- A whole walk from the context's root. -/
def fullWalk (s : State) (ctx va : Nat) : Walked :=
  match s.ctx? ctx with
  | none => .fault (va - va % 0x10000) 1
  | some c => walkFrom s c.fn ctx va [0, 1, 2, 3] c.root

/-- The leaf entry a walk ends at: its address, log2 of the page size, and the page's address. -/
def leafEntry (rd : Nat → Option Nat) (va : Nat) : List Nat → Nat → Option (Nat × Nat × Nat)
  | [], _ => none
  | l :: ls, table =>
    let a := table + 8 * tableIdx l va
    match (rd a).bind (pte? l) with
    | none => none
    | some p => if p.leaf then some (a, leafBits l, p.addr) else leafEntry rd va ls p.addr

/-- The leaf entry of the last stage that maps an address (R338): stage 1 under the physical function, stage 2 under a virtual one. -/
def lastLeaf (s : State) (ctx va : Nat) : Option (Nat × Nat × Nat) :=
  match s.ctx? ctx with
  | none => none
  | some c =>
    match leafEntry (readEntry s c.fn) va [0, 1, 2, 3] c.root with
    | none => none
    | some (a, b, pa) =>
      if c.fn = 0 then some (a, b, pa) else
      leafEntry (fun a => some (s.memNat a 8)) (pa + va % 2 ^ b) [0, 1, 2, 3] (s.func c.fn).s2root

/-- What the front end, the loader or the context engine reaches at a virtual address of a context. -/
def ctxPa (s : State) (ctx va : Nat) (write : Bool) : Option Nat :=
  match fullWalk s ctx va with
  | .hit e => if (if write then e.w else e.r) then some (e.pa + (va - e.page)) else none
  | .fault _ _ => none

/-- The pieces of a region within one page each: offset in the region, address, bytes. -/
def pagePieces (a n : Nat) : List (Nat × Nat × Nat) :=
  (List.range ((a % 0x10000 + n + 0xFFFF) / 0x10000)).map fun k =>
    let lo := max a (a - a % 0x10000 + 0x10000 * k)
    let hi := min (a + n) (a - a % 0x10000 + 0x10000 * (k + 1))
    (lo - a, lo, hi - lo)

/-- The physical addresses of `n` bytes of a context, each page translated once; `none` where one faults. -/
def ctxAddrs (s : State) (ctx va n : Nat) (write : Bool) : Option (List Nat) :=
  ((pagePieces va n).mapM fun p => (ctxPa s ctx p.2.1 write).map fun pa => (List.range p.2.2).map (pa + ·)).map List.flatten

/-- Reads `n` bytes at a virtual address of a context; `none` on a translation or permission fault. -/
def ctxRead (s : State) (ctx va n : Nat) : Option (List Byte) := (ctxAddrs s ctx va n false).map fun l => l.map s.memByte

/-- Writes bytes at a virtual address of a context; `none` on a fault at any byte. -/
def ctxWrite (s : State) (ctx va : Nat) (l : List Byte) : Option State :=
  (ctxAddrs s ctx va l.length true).map fun as => { s with mem := Tab.setAll 0 s.mem (as.zip l) }

/-! ## TLBs -/

def TlbEntry.covers (e : TlbEntry) (fn ctx va : Nat) : Bool :=
  e.fn == fn && e.ctx == ctx && e.page ≤ va && va < e.page + 2 ^ e.bits

/-- What is known of an address: the answers got for the word, the core's TLB, its quad's TLB (R335, R336); `none`: a walk is needed. -/
def lookup (s : State) (got : List Walked) (fn ctx va : Nat) : Option Walked :=
  let base := va - va % 0x10000
  if va < 0x10000 then some (.fault base 1) else
  match got.find? (fun w => match w with | .hit e => e.covers fn ctx va | .fault p _ => p == base) with
  | some w => some w
  | none =>
    match (s.core.tlb ++ Tab.get [] s.quads (quadOf s.core.id)).find? fun e => e.covers fn ctx va with
    | some e => some (.hit e)
    | none => none

/-- Requests a walk of a base page for an engine of the focus core, joining one in progress (R336). -/
def requestWalk (s : State) (e : Eng) (fn ctx page : Nat) : State :=
  let d := dieOf s.core.id
  let die := s.die d
  let w := (s.core.id, e)
  if die.walks.any fun k => k.fn == fn && k.ctx == ctx && k.page == page then
    s.setDie d { die with walks := die.walks.map fun k =>
      if k.fn == fn && k.ctx == ctx && k.page == page && !k.waiters.contains w then { k with waiters := k.waiters ++ [w] } else k }
  else s.setDie d { die with walks := die.walks ++ [⟨fn, ctx, page, [w]⟩] }

/-- Puts a translation at the front of a TLB of `n` entries. -/
def tlbFill (n : Nat) (l : List TlbEntry) (e : TlbEntry) : List TlbEntry := (e :: l.filter (· != e)).take n

/-- The table a walk starts from: the deepest cached one, else the root (R335, R336). -/
def walkStart (pwc : List PwcEntry) (fn ctx va root : Nat) : List Nat × Nat :=
  let at_ (l : Nat) := pwc.find? fun p => p.fn == fn && p.ctx == ctx && p.level == l && p.tag == va >>> (if l = 3 then 21 else if l = 2 then 30 else 43)
  match at_ 3, at_ 2, at_ 1 with
  | some p, _, _ => ([3], p.table)
  | none, some p, _ => ([2, 3], p.table)
  | none, none, some p => ([1, 2, 3], p.table)
  | none, none, none => ([0, 1, 2, 3], root)

end Sys2Proof.Machine
end

