-- ==== Sys2Proof/Machine/Ops.lean ====
section
/-!
DEFINITION. The named operations every meaning is written over: positions, loops, decoding at a position, the commit horizon, tokens and queues,
stalls, taking a fault, and the issue of one instruction.
-/
namespace Sys2Proof.Machine

/-! ## Positions (R271) -/

/-- One level of a position, outermost first: a loop level with its word and iteration index, or the passes of a backward transfer. -/
inductive Frame where
  | loop (word idx : Nat)
  | lap (l : Lap)
  deriving DecidableEq, Repr

/-- Whether a word index lies among the words from a backward transfer's target to the transfer. -/
def Lap.holds (l : Lap) (i : Nat) : Bool := l.start ≤ i && i ≤ l.word

/-- The levels of a position, loop levels and passes of backward transfers, outermost first. -/
def Pos.frames (p : Pos) : List Frame :=
  (List.range (p.iter.length + 1)).flatMap fun k =>
    (p.laps.filter fun l => l.outer == k).map .lap ++ (p.iter[k]?).toList.map fun w => .loop w.1 w.2

/-- Which of two counts is the smaller. -/
def natCmp (a b : Nat) : Ordering := if a < b then .lt else if b < a then .gt else .eq

/-- Orders two instances at indices `i` and `j` by their first level that differs (R271); a position among the words of a backward transfer that shows no pass of it is in the first. -/
def frameCmp (i j : Nat) : List Frame → List Frame → Ordering
  | .loop w a :: p, .loop v b :: q => if w = v then (natCmp a b).then (frameCmp i j p q) else .eq
  | .lap a :: p, .lap b :: q =>
    if a.word = b.word then (natCmp a.count b.count).then (frameCmp i j p q)
    else if b.word < a.word then (if a.holds j then .gt else .eq) else if b.holds i then .lt else .eq
  | .lap a :: _, _ => if a.holds j then .gt else .eq
  | _, .lap b :: _ => if b.holds i then .lt else .eq
  | _, _ => .eq

/-- Earlier in sequential order (R271); what runs above depth 0 stands before every kernel word not yet executed (R359). -/
def Pos.lt (a b : Pos) : Bool :=
  if a.call ≠ b.call then a.call ≠ 0 && (b.call == 0 || a.call < b.call) else
  match frameCmp a.index b.index a.frames b.frames with
  | .lt => true
  | .gt => false
  | .eq => a.index < b.index

/-- Pair index of the pair from D to E (R248). -/
def pairIdx (d e : Nat) : Nat := 4 * (d - 1) + (e - 1) - (if d < e then 1 else 0)

/-! ## Where an engine stands -/

/-- The word offset of a pc in the engine's slice. -/
def Engine.offOf (g : Engine) (pc : Word) : Nat := (pc - g.base).toNat / 4

/-- Whether a pc lies in the engine's slice. -/
def Engine.holds (g : Engine) (pc : Word) : Bool := (pc - g.base).toNat < 4 * g.len

/-- The device virtual address an address in a register names (R75, global window). -/
def va56 (a : Word) : Nat := a.toNat % 2 ^ 56

/-- Word offset in the procedure that holds a pc (R360). -/
def procIndex (s : State) (ctx : Nat) (pc : Word) : Nat :=
  let a := va56 pc
  match s.ctx? ctx with
  | none => 0
  | some c =>
    match (c.objs.flatMap (·.spans)).find? fun p => p.addr ≤ a && a < p.addr + p.bytes with
    | some p => (a - p.addr) / 4
    | none =>
      match c.objs.find? fun o => o.base ≤ a && a < o.base + o.size with
      | some o => (a - o.base) / 4
      | none => 0

/-- INS bit and logical index of the word at a pc (R250, R356, R360). -/
def State.mapAt (s : State) (e : Eng) (pc : Word) : Bool × Nat :=
  match s.core.crew with
  | none => (false, 0)
  | some c =>
    if e = .S ∧ 0 < s.core.calldepth then (false, procIndex s c.ctx pc) else
    let o := (s.eng e).offOf pc
    ((c.set.maps.getD (e.code - 1) []).getD o (false, o))

/-- The iteration vector of active levels (innermost first). -/
def iterOf (ls : List Level) : List (Nat × Nat) := ls.reverse.map fun l => (l.word, l.index)

/-- The passes of backward transfers that hold at a word index with these levels active. -/
def Engine.lapsAt (g : Engine) (i : Nat) (ls : List Level) : List Lap :=
  g.laps.filter fun l => l.holds i && (iterOf ls).take l.outer == (iterOf g.loops).take l.outer

/-- The position of the word at a pc with these levels active. -/
def State.posAt (s : State) (e : Eng) (pc : Word) (ls : List Level) : Pos :=
  let i := (s.mapAt e pc).2
  ⟨if e = .S ∧ 0 < s.core.calldepth then (s.eng e).call else 0, i, iterOf ls, (s.eng e).lapsAt i ls⟩

/-- The position of the word at a pc when the engine will have issued `k` more words before it (R359). -/
def State.posAhead (s : State) (e : Eng) (k : Nat) (pc : Word) (ls : List Level) : Pos :=
  let p := s.posAt e pc ls
  { p with call := if p.call = 0 then 0 else p.call + k }

/-- The position of an engine's oldest word not issued. -/
def State.pos (s : State) (e : Eng) : Pos := s.posAt e (s.eng e).pc (s.eng e).loops

/-- Idle (R227): an empty slice, or past its last word; above depth 0 S is in a procedure. -/
def State.isIdle (s : State) (e : Eng) : Bool :=
  let g := s.eng e
  g.len == 0 && !(e == .S && 0 < s.core.calldepth) || (!g.holds g.pc && !(e == .S && 0 < s.core.calldepth))

/-! ## Loop levels (R66, R67) -/

/-- The end test of R66 at the word at `pc`, from the innermost level out: the next pc and the levels. -/
def endTest (depth : Nat) (pc : Word) : List Level → Word × List Level
  | [] => (pc + 4, [])
  | l :: ls =>
    if l.stop = pc ∧ l.depth = depth then
      if 1 < l.remaining then (l.start, { l with remaining := l.remaining - 1, index := l.index + 1 } :: ls)
      else endTest depth pc ls
    else (pc + 4, l :: ls)

/-- The levels a taken branch to `t` keeps (R67). -/
def branchLoops (depth : Nat) (t : Word) : List Level → List Level
  | [] => []
  | l :: ls =>
    let r := branchLoops depth t ls
    if r.length < ls.length then r else
    if l.depth = depth ∧ ¬(l.start.toNat ≤ t.toNat ∧ t.toNat ≤ l.stop.toNat) then ls else l :: ls

/-- A level begun at `pc` (R66). -/
def newLevel (depth : Nat) (pc : Word) (len count word : Nat) : Level :=
  ⟨pc + 4, pc + BitVec.ofNat 64 (4 * len), count, 0, depth, word, count⟩

/-! ## Words and decoding at a position -/

/-- The decoded-operation cache's entry for a word of an engine (R356). -/
def State.opEntry? (s : State) (e : Eng) (pc : Word) : Option OpEntry :=
  match s.core.crew with
  | none => none
  | some c => (Tab.get [] s.core.opcache (bits pc.toNat 10 2)).find? fun o =>
      o.ctx == c.ctx && o.isa == c.set.isa && o.eng == e && va56 o.addr == va56 pc

/-- The word at a pc, from the cache or as memory holds it. -/
def State.wordAt (s : State) (e : Eng) (pc : Word) : Option IWord :=
  match s.opEntry? e pc with
  | some o => some o.word
  | none =>
    match s.core.crew with
    | none => none
    | some c =>
      match fullWalk s c.ctx (va56 pc) with
      | .hit t => if t.x then some (BitVec.ofNat 32 (s.memNat (t.pa + (va56 pc - t.page)) 4)) else none
      | .fault _ _ => none

/-- A word of S that R359 makes illegal above depth 0. -/
def slicingWord (w : IWord) : Bool :=
  (fld w 26 3).toNat != 7 &&
    ((fld w 26 3).toNat != 0 || (fld w 23 3).toNat != 0 || [0x30, 0x31, 0x6C, 0x6A].contains (fld w 16 7).toNat)

/-- A loop word that R68 makes illegal: no level is free, or its body ends beyond the end of the innermost level begun at this call depth. -/
def loopIllegal (depth : Nat) (pc : Word) (ls : List Level) (len : Nat) : Bool :=
  4 ≤ ls.length ||
    match ls.find? fun l => l.depth == depth with
    | some l => l.stop.toNat < pc.toNat + 4 * len
    | none => false

/-- Decoding of the word at a pc with these levels active: R29 with R68 and R359. -/
def State.decodeAt (s : State) (e : Eng) (pc : Word) (ls : List Level) (w : IWord) : Decoded :=
  let up := e == .S && 0 < s.core.calldepth && slicingWord w
  match decode e s.featMask w with
  | .illegal d => .illegal (if up && 8 < d then 8 else d)
  | .ok i =>
    if up then .illegal 8 else
    match i with
    | .loop _ _ _ len => if loopIllegal s.core.calldepth pc ls len.toNat then .illegal 0x0B else .ok i
    | .loopi _ _ _ len => if loopIllegal s.core.calldepth pc ls len.toNat then .illegal 0x0B else .ok i
    | _ => .ok i

/-- Whether some use of an instruction can raise a precise fault (R273). -/
def faultable (i : Instr) : Bool :=
  match i with
  | .brf .. | .j .. | .call .. | .beqz .. | .bnez .. | .bltz .. | .bgez .. | .bgtz .. | .blez .. | .callr .. | .callx .. | .ret ..
  | .ld .. | .st .. | .lda .. | .stl .. | .amo .. | .cas .. | .coll .. | .svc .. | .bkpt ..
  | .ldr .. | .ldt .. | .ldt3 .. | .ldg .. | .ldx .. | .ldz ..
  | .stx .. | .stt .. | .stt3 .. | .sts .. | .sttc .. | .red .. | .pub .. | .bcopy ..
  | .vadd .. | .vsub .. | .vmul .. | .vfma .. | .vmin .. | .vmax .. | .vabs .. | .vneg .. | .vand .. | .vor .. | .vxor ..
  | .vshl .. | .vshr .. | .vsra .. | .vcmp .. | .vsel .. | .vmov .. | .vfill .. | .viota .. | .vcvt .. | .vcvtV1 .. | .vqnt ..
  | .vdqnt .. | .vrshr .. | .vclamp .. | .vred .. | .vscan .. | .vpwl .. | .vrcp .. | .vrsqrt .. | .vsqrt .. | .vdiv ..
  | .vgth .. | .vsct .. | .vflg ..
  | .tld .. | .tadd .. | .tsub .. | .tmul .. | .tscal .. | .txp .. | .trcmp .. | .tdense .. | .tfact .. => true
  | .tconf _ _ _ chk => chk
  | _ => false

/-- A memory instruction the address unit checks ahead (R114). -/
def unitInstr (i : Instr) : Bool :=
  match i with
  | .stx .. | .stt .. | .stt3 .. | .sts .. | .sttc .. | .red .. | .pub .. | .bcopy .. => true
  | _ => false

/-- A word after which the next word executed is not yet known, or is none: a transfer of control, a stop, a loop whose count a register holds. -/
def endsRun (i : Instr) : Bool :=
  match i with
  | .brf .. | .j .. | .call .. | .beqz .. | .bnez .. | .bltz .. | .bgez .. | .bgtz .. | .blez .. | .callr .. | .callx .. | .ret ..
  | .svc .. | .bkpt .. | .halt .. | .loop .. => true
  | _ => false

/-- A call word of a kernel (R358). -/
def isCall (i : Instr) : Bool :=
  match i with
  | .call .. | .callr .. | .callx .. => true
  | _ => false

/-- Where an engine that follows its own loop levels stands after a word (R274); at a LOOP, whose count it does not know, before the first word of the body. -/
def stepPast (depth : Nat) (pc : Word) (ls : List Level) (word : Nat) (i : Instr) : Word × List Level :=
  match i with
  | .loop _ _ _ len => (pc + 4, newLevel depth pc len.toNat 1 word :: ls)
  | .loopi _ _ n len =>
    if n = 0 then endTest depth (pc + BitVec.ofNat 64 (4 * len.toNat)) ls else (pc + 4, newLevel depth pc len.toNat n.toNat word :: ls)
  | _ => endTest depth pc ls

/-- A loop word whose count only its execution gives. -/
def openLoop (i : Instr) : Bool :=
  match i with
  | .loop .. => true
  | _ => false

/-! ## The commit horizon (R274) -/

/-- Whether no word of the engine's remaining slice, its active loop bodies included, is faultable (R274). -/
def State.restQuiet (s : State) (e : Eng) : Bool :=
  let g := s.eng e
  if e = .S ∧ 0 < s.core.calldepth then false else
  let first := (g.pc :: g.loops.map (·.start)).foldl (fun m p => min m (g.offOf p)) g.len
  (List.range g.len).all fun o => o < first ||
    match s.wordAt e (g.base + BitVec.ofNat 64 (4 * o)) with
    | none => false
    | some w =>
      match decode e s.featMask w with
      | .illegal _ => false
      | .ok i => !faultable i

/-- The position of the first faultable unresolved word among the decoded words, else of the first word beyond them (R274). -/
def State.scan (s : State) (e : Eng) : Nat → Word → List Level → Option Pos
  | 0, pc, ls => some (s.posAhead e 16 pc ls)
  | n + 1, pc, ls =>
    let g := s.eng e
    let p := s.posAhead e (15 - n) pc ls
    if !g.holds pc && !(e == .S && 0 < s.core.calldepth) then none else
    match s.wordAt e pc with
    | none => some p
    | some w =>
      match s.decodeAt e pc ls w with
      | .illegal _ => some p
      | .ok i =>
        if faultable i && !(e == .W && s.core.unit.checked.any fun c => c.1 == p) && g.resolved != some p then some p else
        let q := stepPast s.core.calldepth pc ls p.index i
        if openLoop i then some (s.posAhead e (16 - n) q.1 q.2) else s.scan e n q.1 q.2

/-- The position an engine contributes to the horizon (R274): of its oldest word that is faultable and unresolved, whether issued or only decoded, else of the first beyond the decoded
ones. -/
def State.contribution (s : State) (e : Eng) : Option Pos :=
  let g := s.eng e
  match if e = .L then (s.core.ldz.filter (·.busy)).map (·.pos) else if e = .M then (s.core.tileRun.filter (·.busy)).map (·.pos) else none with
  | some p => some p
  | none => if s.isIdle e || s.restQuiet e then none else s.scan e 16 g.pc g.loops

/-- Whether engine `b` keeps an instruction of engine `e` at position `p` from being older than the horizon. -/
def State.blocks (s : State) (b e : Eng) (p : Pos) : Bool :=
  match s.contribution b with
  | none => false
  | some c => if b == e then c.lt p else !(p.lt c)

/-- Whether an instruction of engine `e` at position `p` is older than the horizon (R274), which during a drain is no later than F (R279). -/
def State.older (s : State) (e : Eng) (p : Pos) : Bool :=
  (match s.core.freeze with | some f => p.lt f.pos | none => true) && Eng.all.all fun b => !s.blocks b e p

/-! ## Stall counters (R22, R255) -/

def scTokw : Nat := 0
def scFolw : Nat := 1
def scTokf : Nat := 2
def scQslot : Nat := 3
def scBank : Nat := 4
def scMem : Nat := 5
def scXlat : Nat := 6
def scHrzn : Nat := 7
def scPool : Nat := 8
def scLeave : Nat := 9
def scFetch : Nat := 10
def scBar : Nat := 11
def scNet : Nat := 12
def scOther : Nat := 13

/-- Place of a counter in the table of R255. -/
def scRank (c : Nat) : Nat :=
  ([scFetch, scQslot, scTokw, scFolw, scTokf, scBar, scLeave, scPool, scHrzn, scXlat, scMem, scBank, scNet, scOther].idxOf? c).getD 14

/-- Counts one stalled clock of an engine; a counter that passes 2^48 − 1 goes on from 0 (R22; log entry 94). -/
def Engine.count (g : Engine) (c : Nat) : Engine :=
  { g with stall := c, sc := Tab.set 0 g.sc c ((Tab.get 0 g.sc c + 1) % 2 ^ 48) }

/-- A clock in which an engine's word cannot issue for cause `c`; the blocked causes of R228 count towards a deadlock. -/
def State.stallOn (s : State) (e : Eng) (c : Nat) (blocked : Bool) : State :=
  let s := s.mapEng e fun g => g.count c
  s.mapCore fun k => { k with blocked := if blocked then Tab.set 0 k.blocked e.code (Tab.get 0 k.blocked e.code + 1) else [] }

/-! ## Taking a fault (R278 to R288) -/

/-- Bytes of an iteration vector lc0 to lc3 (R285). -/
def iterBytes (l : List (Nat × Nat)) : List Byte := (List.range 4).flatMap fun k => toBytes 4 ((l.getD k (0, 0)).2)

/-- How many decoded words an engine holds ahead of its oldest one (R286); decoding goes no further than a loop whose count is not known. -/
def State.ahead (s : State) (e : Eng) : Nat → Word → List Level → Nat
  | 0, _, _ => 0
  | n + 1, pc, ls =>
    match s.wordAt e pc with
    | none => 0
    | some w =>
      match s.decodeAt e pc ls w with
      | .illegal _ => 0
      | .ok i =>
        let q := stepPast s.core.calldepth pc ls (s.mapAt e pc).2 i
        if !openLoop i && ((s.eng e).holds q.1 || e == .S && 0 < s.core.calldepth) then 1 + s.ahead e n q.1 q.2 else 0

/-- Memory and transfer operations of an engine accepted and not finished (R287): S's accepted collectives and W's transfers are among them. -/
def State.outstanding (s : State) (e : Eng) : Nat :=
  let c := s.core
  (c.stores.filter (·.eng == e)).length +
    match e with
    | .S => c.colls.length + (if c.collAsk.isSome then 1 else 0)
    | .L => c.loads.length + (if c.ldz.isSome then 1 else 0)
    | .W => c.copies.length + (s.net.xfers.filter fun x => x.crew.isSome && x.core == c.id).length
    | _ => 0

/-- The 64-byte snapshot of an engine (R286, R287), without its FLT and REPL bits. -/
def State.snapshot (s : State) (e : Eng) : List Byte :=
  let g := s.eng e
  let c := s.core
  let idle := s.isIdle e
  let halt := e == .S && c.halting
  let status := (s.outstanding e % 2 ^ 16) * 2 ^ 16 + (if e = .W then c.unit.checked.length * 2 ^ 8 else 0) +
    (if idle then 16 else 0) + (if halt then 8 else 0) + (if g.begun then 4 else 0)
  let other := Eng.all.filter (· != e)
  toBytes 4 (g.offOf g.pc) ++ toBytes 4 (if idle then 0xFFFFFFFF else (s.pos e).index) ++ iterBytes (iterOf g.loops) ++
  toBytes 4 status ++ [BitVec.ofNat 8 (if idle then 0 else s.ahead e 16 g.pc g.loops), BitVec.ofNat 8 g.stall, BitVec.ofNat 8 g.loops.length, 0] ++
  (other.map fun d => BitVec.ofNat 8 (Tab.get 0 c.tok (pairIdx d.code e.code))) ++
  (other.map fun d => BitVec.ofNat 8 (Tab.get 0 c.tok (pairIdx e.code d.code))) ++
  [BitVec.ofNat 8 (if e = .S then 0 else (Tab.get [] c.follow e.code).length)] ++ List.replicate 23 0

/-- What an instruction found when it faults: R284's cause, detail, AUX and FADDR, and R285's ORDCLASS. -/
structure Trap where
  cause  : Nat
  detail : Nat
  aux    : Word
  faddr  : Word
  ord    : Nat
  deriving DecidableEq, Repr

/-- The freeze at a position. -/
def State.newFreeze (s : State) (p : Pos) (ls : List Level) (eng : Nat) (t : Trap) (after sliceset : Bool) : Freeze where
  pos := p
  levels := ls
  eng := eng
  cause := t.cause
  detail := t.detail
  aux := t.aux
  faddr := t.faddr
  ord := t.ord
  after := after
  sliceset := sliceset
  slices := sliceset
  first := none
  repl := []
  snaps := Eng.all.flatMap s.snapshot
  tfreeze := s.core.time
  stuck := 0

/-- Takes a fault found at a position: the crew freezes (R278); during a drain an earlier fault replaces the one drained (R279, R282) and a later one is discarded. -/
def State.takeFault (s : State) (p : Pos) (ls : List Level) (eng : Nat) (t : Trap) (after sliceset : Bool) : State :=
  match s.core.freeze with
  | none => s.mapCore fun c => { c with freeze := some (s.newFreeze p ls eng t after sliceset) }
  | some f =>
    if p.lt f.pos then
      s.mapCore fun c => { c with freeze := some { f with
        pos := p, levels := ls, eng := eng, cause := t.cause, detail := t.detail, aux := t.aux, faddr := t.faddr, ord := t.ord, after := after,
        sliceset := sliceset, slices := f.slices || sliceset, stuck := 0,
        first := some (f.first.getD ⟨f.cause, f.eng, f.detail, f.faddr, f.pos⟩), repl := f.repl ++ [f.eng] } }
    else s

/-- A precise fault of the word at an engine's pc. -/
def State.trapAt (s : State) (e : Eng) (t : Trap) (after : Bool) : State :=
  s.takeFault (s.pos e) (s.eng e).loops e.code t after false

/-! ## Tokens, queues and the order of pushes (R224 to R229) -/

/-- Whether the FIFO from each engine named holds a token. -/
def Core.canPop (c : Core) (e : Eng) (waits : List Eng) : Bool :=
  waits.all fun d => 0 < Tab.get 0 c.tok (pairIdx d.code e.code)

/-- The queue bound from D to E. -/
def Core.queue? (c : Core) (d e : Eng) : Option Queue := (c.queues.find? fun q => q.1 == pairIdx d.code e.code).map (·.2)

/-- Pops one token from each engine named, and takes the consumer's slot of a bound pair (R229) for the word at `p`. -/
def Core.pop (c : Core) (e : Eng) (p : Pos) (waits : List Eng) : Core :=
  waits.foldl (fun c d =>
    let k := pairIdx d.code e.code
    { c with tok := Tab.set 0 c.tok k (Tab.get 0 c.tok k - 1),
             takes := c.takes ++ (c.queues.filter fun q => q.1 == k).map (fun q => (p, k, q.2.cons)),
             queues := c.queues.map fun q => if q.1 = k then (k, { q.2 with cons := (q.2.cons + 1) % q.2.depth }) else q }) c

/-- The consumer pointer of the slot that the word at `p` addresses on a pair: the slot it took when it popped, before that the next one (R229). -/
def Core.takenBy (c : Core) (p : Pos) (k cons : Nat) : Nat :=
  match c.takes.find? fun t => t.1 == p && t.2.1 == k with
  | some t => t.2.2
  | none => cons

/-- Takes the producer's slot of each bound pair toward an engine named (R229). -/
def Core.takeSlots (c : Core) (e : Eng) (sigs : List Eng) : Core :=
  sigs.foldl (fun c d =>
    let k := pairIdx e.code d.code
    { c with queues := c.queues.map fun q => if q.1 = k then (k, { q.2 with prod := (q.2.prod + 1) % q.2.depth }) else q }) c

/-- Pushes one token toward each engine named. -/
def Core.push (c : Core) (e : Eng) (sigs : List Eng) : Core :=
  sigs.foldl (fun c d =>
    let k := pairIdx e.code d.code
    { c with tok := Tab.set 0 c.tok k (Tab.get 0 c.tok k + 1), blocked := [] }) c

/-- The first FIFO, in the order S, L, V, M, W of the engines named, that a push would raise above 63 (R226); that is the pair a fault reports where one word overflows several (log entry 95). -/
def Core.overflow? (c : Core) (e : Eng) (sigs : List Eng) : Option Nat :=
  (sigs.find? fun d => 63 ≤ Tab.get 0 c.tok (pairIdx e.code d.code)).map fun d => pairIdx e.code d.code

/-- Makes the pushes and the SEND of one finished instruction. Where a push would raise a count above 63, the word pushes no token and the slice set faults (R21, R226, R282). -/
def State.release (s : State) (e : Eng) (f : Flight) : State :=
  let full := s.core.overflow? e f.sigs
  let s := if full.isSome then s else s.mapCore fun c => c.push e f.sigs
  let s := match f.send with
    | none => s
    | some (t, v) => s.mapCore fun c => { c with follow := Tab.set [] c.follow t.code (Tab.get [] c.follow t.code ++ [v]), blocked := [] }
  match full with
  | some k => s.takeFault f.pos f.levels 0 ⟨0x12, k, 0, 0, 0⟩ false true
  | none => s

/-- Releases the finished instructions at the head of an engine's flights (R225). -/
def State.settle (s : State) (e : Eng) : List Flight → State
  | [] => s.mapEng e fun g => { g with flights := [] }
  | f :: fs => if f.done then (s.release e f).settle e fs else s.mapEng e fun g => { g with flights := f :: fs }

/-- A drain that makes progress starts its count again (R282). -/
def State.progress (s : State) : State := s.mapCore fun c => { c with freeze := c.freeze.map fun f => { f with stuck := 0 } }

/-- State `t` after a step that began at `s`: the snapshots of a freeze that the step began are those of the start of its clock (R286). -/
def State.began (s t : State) : State :=
  match s.core.freeze, t.core.freeze with
  | none, some f => t.mapCore fun c => { c with freeze := some { f with snaps := Eng.all.flatMap s.snapshot, tfreeze := s.core.time } }
  | _, _ => t

/-- Marks the flight at a position finished and makes what pushes can now be made. -/
def State.finish (s : State) (e : Eng) (p : Pos) : State :=
  s.began (s.progress.settle e ((s.eng e).flights.map fun f => if f.pos = p then { f with done := true } else f))

/-! ## Issue of one instruction -/

/-- Where control goes after an instruction. -/
inductive Next where
  | fall
  | jump (t : Word)              -- a taken branch, BRF or J
  | goto (t : Word)              -- a call or a return, which leaves the loop levels as they are (R67)
  | enter (l : Level)            -- a loop word begins a level
  | skip (n : Nat)               -- over the next n words
  deriving DecidableEq, Repr

/-- What executing an instruction's body answers. -/
inductive Res where
  | done (s : State) (n : Next)                            -- issued and finished
  | begin (s : State)                                      -- its execution begins: it pops now, and goes on in later clocks
  | fly (s : State) (n : Next)                             -- issued; it finishes later (R103)
  | stall (c : Nat) (blocked : Bool) (s : State)           -- cannot issue in this clock (R255)
  | trap (t : Trap) (after : Bool) (s : State)             -- a precise fault (R273)
  | stop (s : State)                                       -- the body has already said what the whole step does
  deriving DecidableEq, Repr

/-- Why an engine may not issue its oldest word now. -/
inductive Gate where
  | go
  | off                          -- no crew, a drain or a boundary holds it: nothing is counted
  | wait (c : Nat) (blocked : Bool)
  deriving DecidableEq, Repr

/-- The engines a word has still to pop from: those of its wait field, none once it has begun and made its pop (R13). -/
def State.waitsOf (s : State) (e : Eng) (y : Sync) : List Eng := if (s.eng e).begun then [] else y.wait.toList

/-- Whether a kernel call not yet executed stands before an engine's word (R358). -/
def State.heldByCall (s : State) (e : Eng) : Bool :=
  let g := s.core.engS
  e != .S && !s.isIdle .S && (List.range g.len).any fun o =>
    let pc := g.base + BitVec.ofNat 64 (4 * o)
    match s.wordAt .S pc with
    | none => false
    | some w =>
      match decode .S s.featMask w with
      | .ok i => isCall i && (let c : Pos := ⟨0, (s.mapAt .S pc).2, [], []⟩; !c.lt (s.pos .S) && c.lt (s.pos e))
      | .illegal _ => false

/-- An engine stands at or after a position, or is idle. -/
def State.reached (s : State) (b : Eng) (p : Pos) : Bool := s.isIdle b || !(s.pos b).lt p

/-- Whether the hold of R272 after a word at position `p` is over: every older faultable instruction of the crew has resolved. -/
def State.holdOver (s : State) (p : Pos) : Bool :=
  Eng.all.all fun b => match s.contribution b with | none => true | some c => !c.lt p

/-- Whether an engine's oldest word may issue. -/
def State.gate (s : State) (e : Eng) : Gate :=
  let g := s.eng e
  let p := s.pos e
  if s.core.crew = none ∨ s.core.held then .off else
  if s.isIdle e then .off else
  if (match s.core.freeze with | some f => !(p.lt f.pos) | none => false) then .off else
  if (match s.core.preempt with | some f => !(p.lt f.bound) | none => false) then .off else
  if s.core.parked && (e != .S || s.core.calldepth == 0) then .wait scOther false else
  if g.hold.isSome then .wait scHrzn false else
  if s.heldByCall e then .wait scOther false else
  if g.wait.isSome then .wait scXlat false else .go

/-- The stall counter of a pop that waits (R255): SC_QSLOT where it waits on the reverse pair of a queue for which the engine is the producer. -/
def Core.popCause (c : Core) (e : Eng) (waits : List Eng) : Nat :=
  if waits.any fun d => Tab.get 0 c.tok (pairIdx d.code e.code) == 0 && (c.queue? e d).isSome then scQslot else scTokw

/-- Whether a transfer to `t` from a word at position `p` is backward: its target's index is not greater than the word's own (R272). -/
def State.backward (s : State) (e : Eng) (p : Pos) (t : Word) : Bool :=
  ((s.eng e).holds t || e == .S && 0 < s.core.calldepth) && (s.mapAt e t).2 ≤ p.index

/-- The passes of backward transfers once the engine has taken one from index `i` to index `t` with `n` levels active. -/
def lapsBack (i t n : Nat) (l : List Lap) : List Lap :=
  l.filter (fun x => x.start ≤ t && i < x.word && x.outer ≤ n) ++ [⟨i, t, ((l.find? fun x => x.word == i).map (·.count)).getD 0 + 1, n⟩]

/-- The passes that still hold once the engine has moved to index `t` otherwise; `again`: by the back-edge of the innermost of its `n` levels. -/
def lapsOn (t n : Nat) (again : Bool) (l : List Lap) : List Lap := l.filter fun x => x.holds t && (!again || x.outer < n)

/-- An engine that goes on at `pc` with these levels, other than by a transfer backward. -/
def Engine.goOn (g : Engine) (t : Nat) (r : Word × List Level) : Engine :=
  { g with pc := r.1, loops := r.2, laps := lapsOn t r.2.length (r.1.toNat ≤ g.pc.toNat) g.laps }

/-- Moves an engine's pc after an instruction issued at it; after a backward transfer, a call or a return it holds its next word (R272). -/
def State.advance (s : State) (e : Eng) (p : Pos) (n : Next) : State :=
  let d := s.core.calldepth
  let g := s.eng e
  let on (r : Word × List Level) : State := s.mapEng e fun g => if p.call = 0 then g.goOn (s.mapAt e r.1).2 r else { g with pc := r.1, loops := r.2 }
  match n with
  | .fall => on (endTest d g.pc g.loops)
  | .jump t =>
    let ls := branchLoops d t g.loops
    if s.backward e p t then
      s.mapEng e fun g => { g with pc := t, loops := ls, hold := some p, laps := if p.call = 0 then lapsBack p.index (s.mapAt e t).2 ls.length g.laps else g.laps }
    else on (t, ls)
  | .goto t => s.mapEng e fun g => { g with pc := t, hold := some p }
  | .enter l => on (g.pc + 4, l :: g.loops)
  | .skip n => on (endTest d (g.pc + BitVec.ofNat 64 (4 * n)) g.loops)

/-- After an instruction of engine `e` at position `p` has executed: pops, slots, pushes in slice order, the next pc. -/
def State.retire (s : State) (e : Eng) (p : Pos) (waits sigs : List Eng) (send : Option (Eng × Word)) (fin : Bool) (n : Next) : State :=
  let ls := (s.eng e).loops
  let s := s.progress.mapCore fun c => { (c.pop e p waits).takeSlots e sigs with blocked := [] }
  let s := s.mapEng e fun g => { g with stall := 0xFF, kept := none, resolved := none, banks := none, got := [], wait := none, begun := false,
                                        call := if e = .S ∧ 0 < p.call then g.call + 1 else g.call }
  let s := s.advance e p n
  s.settle e ((s.eng e).flights ++ [⟨p, sigs, send, fin, ls⟩])

/-- What an attempt to issue has found stays found: its checks, that it resolved, the banks it waits at. -/
def State.carry (s t : State) (e : Eng) : State :=
  s.mapEng e fun g => { g with kept := (t.eng e).kept, resolved := (t.eng e).resolved, banks := (t.eng e).banks }

/-- The counter and the blocking of an engine whose gate waits for cause `c`: the first cause of R255's table that applies to its oldest word. -/
def State.gateCause (s : State) (e : Eng) (waits : List Eng) (c : Nat) (blocked : Bool) (r : Res) : Nat × Bool :=
  if !s.core.canPop e waits then (s.core.popCause e waits, true) else
  match r with
  | .stall d b _ => if scRank d < scRank c then (d, b) else (c, blocked)
  | _ => (c, blocked)

/-- Issues the oldest word of engine `e`, which pops from `waits`, pushes to `sigs` and does `body`. A word whose writes would make more than 16 pending stalls (R276). -/
def issue (e : Eng) (waits sigs : List Eng) (send : Option (Eng × Word)) (body : Pos → State → Res) (s : State) :
    Host.Outcome State Fault Refusal :=
  let p := s.pos e
  match s.gate e with
  | .off => .next s
  | .wait c b =>
    let w := s.gateCause e waits c b (body p s)
    .next (s.stallOn e w.1 w.2)
  | .go =>
    if !s.core.canPop e waits then .next (s.stallOn e (s.core.popCause e waits) true) else
    match body p s with
    | .done s' nx => .next (if 16 < (s'.eng e).pending then (s.carry s' e).stallOn e scHrzn false else s.began (s'.retire e p waits sigs send true nx))
    | .fly s' nx => .next (if 16 < (s'.eng e).pending then (s.carry s' e).stallOn e scHrzn false else s.began (s'.retire e p waits sigs send false nx))
    | .begin s' => .next ((s'.progress.mapCore fun k => { k.pop e p waits with blocked := [] }).mapEng e fun g => { g with begun := true })
    | .stall c b s' => .next (s'.stallOn e c b)
    | .trap t after s' => .next (s.began (s'.trapAt e t after))
    | .stop s' => .next s'

/-- Issue of a short-format word: its wait and signal fields (R12). -/
def issueY (e : Eng) (y : Sync) (body : Pos → State → Res) (s : State) : Host.Outcome State Fault Refusal :=
  issue e y.wait.toList y.sig.toList none body s

/-- A body whose writes stall until the instruction is older than the horizon (R275). -/
def whenOlder (e : Eng) (p : Pos) (s : State) (k : State → Res) : Res :=
  if s.older e p then k s else .stall scHrzn false s

/-- A word that would make `n` pending writes and has no room for them stalls for that first, where another cause that R255 lists later holds it too (R276). -/
def roomFirst (e : Eng) (n : Nat) (r : Res) : Res :=
  match r with
  | .stall c b s => if scRank scHrzn < scRank c ∧ 16 < (s.eng e).pending + n then .stall scHrzn false s else .stall c b s
  | r => r

/-- A body that writes register `d` of its engine through the pending writes. -/
def setReg (e : Eng) (d : Nat) (f : State → Word) (p : Pos) (s : State) : Res :=
  .done (s.writeX e p d (f s)) .fall

/-- Waits for the walk of a base page (R336). -/
def needWalk (e : Eng) (ctx fn page : Nat) (s : State) : Res :=
  .stall scXlat false ((requestWalk s e fn ctx page).mapEng e fun g => { g with wait := some page })

/-- The engine's oldest word has resolved (R273). -/
def State.resolve (s : State) (e : Eng) : State := s.mapEng e fun g => { g with resolved := some (s.pos e) }

/-- The target check of a transfer of control (R74): aligned on 4, in an executable page; the word has then resolved (R273) and `k` follows. A misaligned target is reported as detail 1
before its window is looked at, and a target outside the global window as detail 2 (log entry 115). A transfer counts as a memory instruction of class 0 where R83's limit is concerned
(R285). -/
def checkTarget (e : Eng) (t : Word) (s : State) (k : State → Res) : Res :=
  match s.core.crew with
  | none => k s
  | some c =>
    if (s.eng e).resolved = some (s.pos e) then k s else
    if t.toNat % 4 ≠ 0 then .trap ⟨0x02, 1, 0, t, 0x80⟩ false s else
    if bits t.toNat 63 55 ≠ 0 ∧ bits t.toNat 63 55 ≠ 0x1FF then .trap ⟨0x02, 2, 0, t, 0x80⟩ false s else
    match lookup s (s.eng e).got c.fn c.ctx (va56 t) with
    | none => needWalk e c.ctx c.fn (va56 t - va56 t % 0x10000) s
    | some (.fault _ _) => .trap ⟨0x02, 2, 0, t, 0x80⟩ false s
    | some (.hit x) => if x.x then k (s.resolve e) else .trap ⟨0x02, 3, 0, t, 0x80⟩ false s

/-- A branch of engine `e` by a word offset (R67, R72, R74). -/
def branchBy (e : Eng) (taken : Bool) (off : Int) (s : State) : Res :=
  if taken then
    let t := (s.eng e).pc + BitVec.ofInt 64 (4 * off)
    checkTarget e t s fun s => .done s (.jump t)
  else .done s .fall

/-- Every older access and pending write of the crew has performed or committed (R358). -/
def Core.drained (c : Core) : Bool :=
  c.stores.isEmpty && c.loads.isEmpty && c.ldz.isNone && c.tileRun.isNone && c.copies.isEmpty &&
    Eng.all.all fun e => (c.eng e).past.isEmpty && (c.eng e).flights.isEmpty

/-- A call from S to `t` that leaves `f` done to S's registers with `n` writes (R67, R73, R358): from depth 0 it parks the crew, and its own writes stand first of what runs above depth 0. -/
def callTo (p : Pos) (t : Word) (n : Nat) (f : View → View) (s : State) : Res :=
  roomFirst .S (n + 1) <|
  if s.core.calldepth = 0 ∧ ¬(s.core.drained ∧ Eng.all.all (fun b => b == .S || s.reached b p)) then .stall scOther false s else
  checkTarget .S t s fun s => whenOlder .S p s fun s =>
    let ret := (s.eng .S).pc + 4
    let s := s.write .S (if s.core.calldepth = 0 then { p with call := 1 } else p) (n + 1) fun v => (f v).setX 31 ret
    let s := if s.core.calldepth = 0 then s.mapEng .S fun g => { g with call := 2 } else s
    .done (s.mapCore fun c => { c with calldepth := if c.calldepth < 2 ^ 32 - 1 then c.calldepth + 1 else c.calldepth, parked := true }) (.goto t)

end Sys2Proof.Machine
end

