-- ==== Sys2Proof/Machine/Operands.lean ====
section
/-!
DEFINITION. Operand forms: the control registers (R22, R71), pointers and windows (R75, R256),
and the checks of the bytes a memory instruction touches (R83, R102).
-/
namespace Sys2Proof.Machine

/-! ## Control registers (R22, R43, R53, R60, R71) -/

/-- What CRR of a control register reads in engine `e`. -/
def ctlRead (s : State) (e : Eng) (r : CtlReg) : Word :=
  let g := s.eng e
  let v := g.view
  match r with
  | .flags => v.flags.setWidth 64
  | .rmode => v.rmode.setWidth 64
  | .seed => v.seed.setWidth 64
  | .tol => v.tol.setWidth 64
  | .fmtlvl => v.fmtlvl.setWidth 64
  | .ovfpol => v.ovfpol.setWidth 64
  | .fmtbase => v.fmtbase.setWidth 64
  | .fmtstride => v.fmtstride.setWidth 64
  | .crew => BitVec.ofNat 64 ((s.core.crew.map (·.num)).getD 0)
  | .ncrew => BitVec.ofNat 64 ((s.core.crew.map (·.ncrew)).getD 0)
  | .quadpos => BitVec.ofNat 64 (quadOf s.core.id % 24)
  | .diepos => BitVec.ofNat 64 (dieOf s.core.id)
  | .pkgpos => BitVec.ofNat 64 Config.pkgpos
  | .time => s.core.time
  | .depcnt => ((s.core.crew.bind fun c => s.ctx? c.ctx).map (·.depcnt)).getD 0
  | .prelvl => v.prelvl.setWidth 64
  | .sc i => BitVec.ofNat 64 (Tab.get 0 g.sc i.val)

/-- What CRW of a value leaves in a writable control register; a value not allowed stores the reset value and sets INV (R6, R43, R53, R60, R184, R326). -/
def ctlWrite (r : CtlReg) (x : Word) (v : View) : View :=
  match r with
  | .flags => { v with flags := x.setWidth 6 }
  | .rmode => if x.toNat % 8 ≤ 4 then { v with rmode := x.setWidth 3 } else { v with rmode := 0, flags := v.flags ||| flagINV }
  | .seed => { v with seed := if x.setWidth 32 = 0#32 then 1 else x.setWidth 32 }
  | .tol => { v with tol := x.setWidth 32 }
  | .fmtlvl => if x.toNat % 8 ≤ 4 then { v with fmtlvl := x.setWidth 3 } else { v with fmtlvl := 4, flags := v.flags ||| flagINV }
  | .ovfpol => if x.toNat % 4 ≤ 2 then { v with ovfpol := x.setWidth 2 } else { v with ovfpol := 1, flags := v.flags ||| flagINV }
  | .fmtbase => { v with fmtbase := x.setWidth 6 }
  | .fmtstride => { v with fmtstride := x.setWidth 6 }
  | .prelvl => if x.toNat % 8 ≤ 4 then { v with prelvl := x.setWidth 3 } else { v with prelvl := 0, flags := v.flags ||| flagINV }
  | _ => v

/-- Pending writes of a CRW (R276): the register, and INV for a value that is not allowed. -/
def ctlWrites (r : CtlReg) (x : Word) : Nat :=
  match r with
  | .rmode | .fmtlvl | .prelvl => if x.toNat % 8 ≤ 4 then 1 else 2
  | .ovfpol => if x.toNat % 4 ≤ 2 then 1 else 2
  | _ => 1

/-! ## Pointers and windows (R75, R256) -/

/-- A generic pointer's window and what it names there. -/
inductive Window where
  | global (va : Nat)
  | own (core off : Nat)
  | quad (core off : Nat)
  | priv (off : Nat)
  | illegal
  deriving DecidableEq, Repr

/-- The window of a pointer (R75); `core` is an index in the quad and `off` bits 20:0. -/
def window (a : Word) : Window :=
  let t := bits a.toNat 63 56
  if t = 0 ∧ !a.getLsbD 55 ∨ t = 0xFF ∧ a.getLsbD 55 then .global (va56 a) else
  if t = 0xF2 then .priv (va56 a) else
  if (t = 0xF0 ∨ t = 0xF1) ∧ bits a.toNat 55 26 = 0 ∧ bits a.toNat 23 21 = 0 then
    if t = 0xF0 then .own (bits a.toNat 25 24) (bits a.toNat 20 0) else .quad (bits a.toNat 25 24) (bits a.toNat 20 0)
  else .illegal

/-- The code SPTEST returns (R75). -/
def Window.code : Window → Nat
  | .global _ => 0 | .own .. => 1 | .quad .. => 2 | .priv _ => 3 | .illegal => 4

/-- SPCAST (R76): a pointer converted to window `w` in a crew with this private segment. -/
def spcast (segBase segSize : Nat) (w : Nat) (a : Word) : Word :=
  match window a, w with
  | .illegal, _ => 0
  | .global va, 0 => let _ := va; a
  | .own .., 1 => a
  | .quad .., 2 => a
  | .priv _, 3 => a
  | .own .., 2 => BitVec.ofNat 64 (a.toNat % 2 ^ 56 + 0xF1 * 2 ^ 56)
  | .quad .., 1 => BitVec.ofNat 64 (a.toNat % 2 ^ 56 + 0xF0 * 2 ^ 56)
  | .global va, 3 => if segBase ≤ va ∧ va < segBase + segSize then BitVec.ofNat 64 (0xF2 * 2 ^ 56 + (va - segBase)) else 0
  | .priv off, 0 => if off < segSize then BitVec.ofNat 64 (segBase + off) else 0
  | _, _ => 0

/-- Permission a byte needs. -/
structure Need where
  r : Bool
  w : Bool
  deriving DecidableEq, Repr

def Need.read : Need := ⟨true, false⟩
def Need.write : Need := ⟨false, true⟩
def Need.both : Need := ⟨true, true⟩

/-- What checking a byte or an instruction answers: a place, a fault of R284, or a base page whose walk is needed. -/
inductive Chk (α : Type) where
  | ok (x : α)
  | bad (cause detail : Nat) (faddr : Word)
  | walk (page : Nat)
  deriving DecidableEq, Repr

def Chk.bind {α β : Type} (c : Chk α) (f : α → Chk β) : Chk β :=
  match c with
  | .ok x => f x
  | .bad a b d => .bad a b d
  | .walk p => .walk p

/-- Checks every element of a list in order; the first that fails decides (R102). -/
def Chk.each {α β : Type} (f : α → Chk β) : List α → Chk (List β)
  | [] => .ok []
  | x :: l => (f x).bind fun y => (Chk.each f l).bind fun ys => .ok (y :: ys)

/-- The fault address of a scratchpad-window byte (R284). -/
def spadAddr (ptr : Word) (off : Nat) : Word :=
  BitVec.ofNat 64 (bits ptr.toNat 63 56 * 2 ^ 56 + bits ptr.toNat 25 24 * 2 ^ 24 + off % 2 ^ 24)

/-- The fault address of a home-scratchpad or slot byte (R284). -/
def homeAddr (off : Int) : Word := BitVec.ofNat 64 (0xF0 * 2 ^ 56 + (off % 2 ^ 56).toNat)

/-- A translated byte: translation, then permission (R83, R334). -/
def checkVa (s : State) (got : List Walked) (c : Crew) (va : Nat) (need : Need) (faddr : Word) : Chk Loc :=
  match lookup s got c.fn c.ctx va with
  | none => .walk (va - va % 0x10000)
  | some (.fault _ st) => .bad 0x07 st faddr
  | some (.hit e) =>
    let d := (if need.r && !e.r then 1 else 0) + (if need.w && !e.w then 2 else 0)
    if d = 0 then .ok (.mem (e.pa + (va - e.page))) else .bad 0x08 d faddr

/-- Whether a core of the quad holds a crew of a context that accesses may reach (R256). -/
def reachable (s : State) (ctx core : Nat) : Bool :=
  let k := s.coreAt core
  !k.out && (match k.crew with | some c => c.ctx == ctx | none => false)

/-- Checks one memory byte at address `a`, reached through pointer `ptr` (R83, R102 checks 1, 3 and 4; R256). `mis`: the byte's element is misaligned. -/
def checkByte (s : State) (got : List Walked) (need : Need) (ptr : Word) (mis : Bool) (a : Word) : Chk Loc :=
  match s.core.crew with
  | none => .bad 0x03 0 a
  | some c =>
    let w := window a
    if w = .illegal ∨ w.code ≠ (window ptr).code then .bad 0x03 0 a else
    match w with
    | .illegal => .bad 0x03 0 a
    | .global va => if mis then .bad 0x04 0 (BitVec.ofNat 64 va) else checkVa s got c va need (BitVec.ofNat 64 va)
    | .priv off =>
      if mis then .bad 0x04 0 a else
      if c.segSize ≤ off then .bad 0x07 1 a else checkVa s got c ((c.segBase + off) % 2 ^ 56) need a
    | .own k off =>
      if mis then .bad 0x04 0 (spadAddr ptr off) else
      if k ≠ coreIdx s.core.id then .bad 0x06 0 (spadAddr ptr off) else
      if Config.scratchBytes ≤ off then .bad 0x05 0 (spadAddr ptr off) else .ok (.spad s.core.id off)
    | .quad k off =>
      let core := 4 * quadOf s.core.id + k
      if mis then .bad 0x04 0 (spadAddr ptr off) else
      if ¬reachable s c.ctx core then .bad 0x06 0 (spadAddr ptr off) else
      if Config.scratchBytes ≤ off then .bad 0x05 0 (spadAddr ptr off) else .ok (.spad core off)

/-- Checks an aligned access of `n` bytes through a pointer: the places of its bytes (R77, R83). -/
def checkAccess (s : State) (got : List Walked) (need : Need) (ptr : Word) (n : Nat) : Chk (List Loc) :=
  Chk.each (checkByte s got need ptr (ptr.toNat % n != 0)) ((List.range n).map fun k => ptr + BitVec.ofNat 64 k)

/-- Whether a home-scratchpad byte lies in a bound queue region (R102). -/
def Core.inQueue (c : Core) (off : Nat) : Bool :=
  c.queues.any fun q => q.2.base ≤ off && off < q.2.base + q.2.slot * q.2.depth

/-- Checks one home-scratchpad byte of an offset operand (R102 check 4). -/
def checkHome (s : State) (off : Int) : Chk Nat :=
  if off < 0 ∨ (Config.scratchBytes : Int) ≤ off ∨ s.core.inQueue off.toNat then .bad 0x05 0 (homeAddr off) else .ok off.toNat

/-- Checks one byte of a queue slot at `base` (R102 check 4); the fault address is the slot's base plus the offset. -/
def checkSlot (q : Queue) (base : Nat) (off : Int) : Chk Nat :=
  if off < 0 ∨ (q.slot : Int) ≤ off then .bad 0x05 0 (homeAddr (base + off)) else .ok (base + off.toNat)

/-- The checks of an aligned access with the places they find. -/
def checkMem (s : State) (got : List Walked) (need : Need) (ptr : Word) (n : Nat) : Chk Places :=
  (checkAccess s got need ptr n).bind fun ls => .ok { mem := ls }

/-- What the checks of an engine's oldest word answer: what they found once complete, which the engine or the address unit keeps (R83, R114, R127, R337), else `c`. -/
def State.known (s : State) (e : Eng) (c : Chk Places) : Chk Places :=
  match (s.eng e).kept, s.core.unit.checked.find? fun u => e == .W && u.1 == s.pos .W with
  | some pl, _ => .ok pl
  | none, some u => .ok u.2
  | none, none => c

/-- The engine keeps what the checks of its oldest word found. -/
def State.keep (s : State) (e : Eng) (pl : Places) : State := s.mapEng e fun g => { g with kept := some pl }

/-! ## Banks (R267 to R269) -/

/-- Bank of a scratchpad offset (R267). -/
def bankOf (off : Nat) : Nat := off / 64 % 48

/-- Number of an engine among the requesters of a bank (R268). -/
def bankReq : Eng → Nat
  | .S => 0 | .L => 1 | .V => 2 | .M => 3 | .W => 4

/-- The first load whose data may be placed: one that waits no more on the horizon, or is older than it (R275). -/
def State.placeable (s : State) : Option LoadData := s.core.loads.find? fun l => l.slot || s.older .L l.pos

/-- The first element waiting at a port of core `k` (R268): the quad port has those of the quad's other cores, the network port all others. -/
def State.elemOf (s : State) (k : Nat) (quad : Bool) : Option Elem :=
  s.net.elems.find? fun e => e.core == k && (!e.port && e.quad) == quad

/-- Whether an engine's oldest word, which can issue, waits at a bank, given as its core and number. -/
def State.waiting (s : State) (e : Eng) (b : Nat × Nat) : Bool := ((s.eng e).banks.getD []).contains b && s.gate e == .go

/-- The requesters that wait at a bank of core `k` (R268): its engines, L with load data too, the quad port with elements and with words of the quad's other cores, the network port. -/
def State.waitsAt (s : State) (k bank : Nat) : List Nat :=
  let t := s.focusOn k
  let quads := s.cores.filter fun c => quadOf c.id == quadOf k && c.id != k
  (Eng.all.filter fun e => t.waiting e (k, bank)).map bankReq ++
  (if t.placeable.any fun l => l.writes.any fun w => bankOf w.1 == bank then [1] else []) ++
  (if (s.elemOf k true).any (fun e => bankOf e.off == bank) || quads.any (fun c => Eng.all.any fun e => (s.focusOn c.id).waiting e (k, bank)) then [5] else []) ++
  (if (s.elemOf k false).any fun e => bankOf e.off == bank then [6] else [])

/-- How far requester `r` stands after the one a bank served last (R269). -/
def Core.turnAt (c : Core) (bank r : Nat) : Nat := (r + 6 - Tab.get 6 c.bankPtr bank) % 7

/-- Whether the turn of another requester that waits at a bank comes before that of requester `r` (R269). -/
def State.behind (s : State) (r : Nat) (b : Nat × Nat) : Bool :=
  (s.waitsAt b.1 b.2).any fun q => q != r && (s.coreAt b.1).turnAt b.2 q < (s.coreAt b.1).turnAt b.2 r

/-- The requester that an engine of the focus core is at a bank of core `k`: itself, or the quad port (R268). -/
def State.reqAt (s : State) (e : Eng) (k : Nat) : Nat := if k = s.core.id then bankReq e else 5

/-- Offsets of the focus core's own scratchpad, with their core. -/
def State.here (s : State) (offs : List Nat) : List (Nat × Nat) := offs.map fun o => (s.core.id, o)

/-- The banks that an engine's oldest word, which reaches these offsets, has still to be served by: each serves it when its turn comes (R269). -/
def State.wants (s : State) (e : Eng) (at_ : List (Nat × Nat)) : List (Nat × Nat) :=
  (s.eng e).banks.getD (at_.map fun x => (x.1, bankOf x.2)).eraseDups

/-- Of those banks, the ones at which another requester's turn comes before the engine's. -/
def State.bankHeld (s : State) (e : Eng) (at_ : List (Nat × Nat)) : List (Nat × Nat) := (s.wants e at_).filter fun b => s.behind (s.reqAt e b.1) b

/-- A core's banks have served requester `r` last (R269). -/
def Core.servedAt (c : Core) (r : Nat) (banks : List Nat) : Core := { c with bankPtr := banks.foldl (fun t b => Tab.set 6 t b r) c.bankPtr }

/-- The banks of these offsets have served requester `r` last. -/
def Core.served (c : Core) (r : Nat) (offs : List Nat) : Core := c.servedAt r (offs.map bankOf).eraseDups

/-- Banks, of the focus core and of the quad's others, have served an engine of the focus core last. -/
def State.serveAt (s : State) (e : Eng) (bs : List (Nat × Nat)) : State :=
  { s with core := s.core.servedAt (bankReq e) ((bs.filter fun b => b.1 == s.core.id).map (·.2))
           others := if bs.all (fun b => b.1 == s.core.id) then s.others else
             s.others.map fun c => c.servedAt 5 ((bs.filter fun b => b.1 == c.id).map (·.2)) }

/-- An engine's access to these offsets, from state `s`: the banks whose turn is the engine's serve a word that could now execute, and it executes once all of them have (R269). A word
that cannot execute waits at none. -/
def banked (e : Eng) (at_ : List (Nat × Nat)) (s : State) (r : Res) : Res :=
  let held := s.bankHeld e at_
  let now := (s.wants e at_).filter fun b => !held.contains b
  let wait (t : State) : Res := .stall (if 16 < (t.eng e).pending then scHrzn else scBank) false ((s.carry t e |>.serveAt e now).mapEng e fun g => { g with banks := some held })
  match held, r with
  | [], .done t n => .done (t.serveAt e now) n
  | [], .fly t n => .fly (t.serveAt e now) n
  | [], .begin t => .begin ((t.serveAt e now).mapEng e fun g => { g with banks := some [] })
  | _, .done t _ => wait t
  | _, .fly t _ => wait t
  | _, .begin _ => wait s
  | _, .stall c b t => .stall c b (t.mapEng e fun g => { g with banks := none })
  | _, r => r

/-- The bytes of its own and of the quad's scratchpads that a word reaches as it executes, each with its core; a load's own bytes are written when its data returns. -/
def Places.home (core : Nat) (e : Eng) (pl : Places) : List (Nat × Nat) :=
  ((if e = .L then [] else pl.spad) ++ pl.list).map (fun o => (core, o)) ++ pl.mem.filterMap fun l => match l with | .spad k off => some (k, off) | .mem _ => none

/-- Continues an instruction of engine `e` with ordering class `ord` once its checks are complete (R83): they are kept, it has resolved (R273), and its bytes in the core's scratchpad
take their turn at the banks. -/
def afterCheck (e : Eng) (ord : Nat) (s : State) (c : Chk Places) (k : Places → State → Res) : Res :=
  match s.known e c with
  | .ok x => let t := (s.keep e x).resolve e; banked e (x.home s.core.id e) t (k x t)
  | .bad cause detail faddr => .trap ⟨cause, detail, 0, faddr, ord⟩ false s
  | .walk page =>
    match s.core.crew with
    | none => .stop s
    | some c => needWalk e c.ctx c.fn page s

/-- ORDCLASS of a memory instruction (R285). -/
def ordOf (cls : Nat) : Nat := 0x80 + cls

end Sys2Proof.Machine
end

