-- ==== Sys2Proof/Machine/Common.lean ====
section
/-!
DEFINITION. The common group (R15, R19 to R22, R30, R62 to R71): each engine's integer arithmetic, constants, loops, follow path, control registers and SYNC.
-/
namespace Sys2Proof.Machine

/-- A T-format operation: xd = f xa xb (R63). -/
def execT (c : Eng) (y : Sync) (d a b : BitVec 5) (f : Word → Word → Word) (s : State) : Host.Outcome State Fault Refusal :=
  issueY c y (setReg c d.toNat fun s => f (s.x c a.toNat) (s.x c b.toNat)) s

/-- A one-operand operation or an immediate form: xd = f xa (R63, R65). -/
def execU (c : Eng) (y : Sync) (d a : BitVec 5) (f : Word → Word) (s : State) : Host.Outcome State Fault Refusal :=
  issueY c y (setReg c d.toNat fun s => f (s.x c a.toNat)) s

/-- NOP (R19). -/
def execNop (c : Eng) (y : Sync) (s : State) : Host.Outcome State Fault Refusal :=
  issueY c y (fun _ s => .done s .fall) s

/-- ADD (R63). -/
def execAdd (c : Eng) (y : Sync) (d a b : BitVec 5) (w : Bool) (s : State) : Host.Outcome State Fault Refusal :=
  execT c y d a b (aluAdd w) s
/-- SUB (R63). -/
def execSub (c : Eng) (y : Sync) (d a b : BitVec 5) (w : Bool) (s : State) : Host.Outcome State Fault Refusal :=
  execT c y d a b (aluSub w) s
/-- MUL (R63). -/
def execMul (c : Eng) (y : Sync) (d a b : BitVec 5) (w : Bool) (s : State) : Host.Outcome State Fault Refusal :=
  execT c y d a b (aluMul w) s
/-- MULH (R63). -/
def execMulh (c : Eng) (y : Sync) (d a b : BitVec 5) (w : Bool) (s : State) : Host.Outcome State Fault Refusal :=
  execT c y d a b (aluMulh w) s
/-- MULHU (R63). -/
def execMulhu (c : Eng) (y : Sync) (d a b : BitVec 5) (w : Bool) (s : State) : Host.Outcome State Fault Refusal :=
  execT c y d a b (aluMulhu w) s
/-- DIV (R64). -/
def execDiv (c : Eng) (y : Sync) (d a b : BitVec 5) (w : Bool) (s : State) : Host.Outcome State Fault Refusal :=
  execT c y d a b (aluDiv w) s
/-- DIVU (R64). -/
def execDivu (c : Eng) (y : Sync) (d a b : BitVec 5) (w : Bool) (s : State) : Host.Outcome State Fault Refusal :=
  execT c y d a b (aluDivu w) s
/-- REM (R64). -/
def execRem (c : Eng) (y : Sync) (d a b : BitVec 5) (w : Bool) (s : State) : Host.Outcome State Fault Refusal :=
  execT c y d a b (aluRem w) s
/-- REMU (R64). -/
def execRemu (c : Eng) (y : Sync) (d a b : BitVec 5) (w : Bool) (s : State) : Host.Outcome State Fault Refusal :=
  execT c y d a b (aluRemu w) s
/-- AND (R63). -/
def execAnd (c : Eng) (y : Sync) (d a b : BitVec 5) (w : Bool) (s : State) : Host.Outcome State Fault Refusal :=
  execT c y d a b (aluAnd w) s
/-- OR (R63). -/
def execOr (c : Eng) (y : Sync) (d a b : BitVec 5) (w : Bool) (s : State) : Host.Outcome State Fault Refusal :=
  execT c y d a b (aluOr w) s
/-- XOR (R63). -/
def execXor (c : Eng) (y : Sync) (d a b : BitVec 5) (w : Bool) (s : State) : Host.Outcome State Fault Refusal :=
  execT c y d a b (aluXor w) s
/-- ANDN (R63). -/
def execAndn (c : Eng) (y : Sync) (d a b : BitVec 5) (w : Bool) (s : State) : Host.Outcome State Fault Refusal :=
  execT c y d a b (aluAndn w) s
/-- SHL (R63). -/
def execShl (c : Eng) (y : Sync) (d a b : BitVec 5) (w : Bool) (s : State) : Host.Outcome State Fault Refusal :=
  execT c y d a b (aluShl w) s
/-- SHR (R63). -/
def execShr (c : Eng) (y : Sync) (d a b : BitVec 5) (w : Bool) (s : State) : Host.Outcome State Fault Refusal :=
  execT c y d a b (aluShr w) s
/-- SRA (R63). -/
def execSra (c : Eng) (y : Sync) (d a b : BitVec 5) (w : Bool) (s : State) : Host.Outcome State Fault Refusal :=
  execT c y d a b (aluSra w) s
/-- SLT (R63). -/
def execSlt (c : Eng) (y : Sync) (d a b : BitVec 5) (w : Bool) (s : State) : Host.Outcome State Fault Refusal :=
  execT c y d a b (aluSlt w) s
/-- SLTU (R63). -/
def execSltu (c : Eng) (y : Sync) (d a b : BitVec 5) (w : Bool) (s : State) : Host.Outcome State Fault Refusal :=
  execT c y d a b (aluSltu w) s
/-- MIN (R63). -/
def execMin (c : Eng) (y : Sync) (d a b : BitVec 5) (w : Bool) (s : State) : Host.Outcome State Fault Refusal :=
  execT c y d a b (aluMin w) s
/-- MAX (R63). -/
def execMax (c : Eng) (y : Sync) (d a b : BitVec 5) (w : Bool) (s : State) : Host.Outcome State Fault Refusal :=
  execT c y d a b (aluMax w) s
/-- MINU (R63). -/
def execMinu (c : Eng) (y : Sync) (d a b : BitVec 5) (w : Bool) (s : State) : Host.Outcome State Fault Refusal :=
  execT c y d a b (aluMinu w) s
/-- MAXU (R63). -/
def execMaxu (c : Eng) (y : Sync) (d a b : BitVec 5) (w : Bool) (s : State) : Host.Outcome State Fault Refusal :=
  execT c y d a b (aluMaxu w) s

/-- SEL (R63): xd keeps xa where it was not zero. -/
def execSel (c : Eng) (y : Sync) (d a b : BitVec 5) (s : State) : Host.Outcome State Fault Refusal :=
  issueY c y (setReg c d.toNat fun s => if s.x c d.toNat ≠ 0 then s.x c a.toNat else s.x c b.toNat) s
/-- CLZ (R63). -/
def execClz (c : Eng) (y : Sync) (d a : BitVec 5) (w : Bool) (s : State) : Host.Outcome State Fault Refusal :=
  execU c y d a (aluClz w) s
/-- POPC (R63). -/
def execPopc (c : Eng) (y : Sync) (d a : BitVec 5) (w : Bool) (s : State) : Host.Outcome State Fault Refusal :=
  execU c y d a (aluPopc w) s

/-- ADDI (R65). -/
def execAddi (c : Eng) (y : Sync) (d a : BitVec 5) (i : BitVec 6) (s : State) : Host.Outcome State Fault Refusal :=
  execU c y d a (fun x => x + i.signExtend 64) s
/-- ANDI (R65). -/
def execAndi (c : Eng) (y : Sync) (d a : BitVec 5) (i : BitVec 6) (s : State) : Host.Outcome State Fault Refusal :=
  execU c y d a (fun x => x &&& i.signExtend 64) s
/-- ORI (R65). -/
def execOri (c : Eng) (y : Sync) (d a : BitVec 5) (i : BitVec 6) (s : State) : Host.Outcome State Fault Refusal :=
  execU c y d a (fun x => x ||| i.signExtend 64) s
/-- XORI (R65). -/
def execXori (c : Eng) (y : Sync) (d a : BitVec 5) (i : BitVec 6) (s : State) : Host.Outcome State Fault Refusal :=
  execU c y d a (fun x => x ^^^ i.signExtend 64) s
/-- SHLI (R65). -/
def execShli (c : Eng) (y : Sync) (d a : BitVec 5) (i : BitVec 6) (s : State) : Host.Outcome State Fault Refusal :=
  execU c y d a (fun x => x <<< i.toNat) s
/-- SHRI (R65). -/
def execShri (c : Eng) (y : Sync) (d a : BitVec 5) (i : BitVec 6) (s : State) : Host.Outcome State Fault Refusal :=
  execU c y d a (fun x => x >>> i.toNat) s
/-- SRAI (R65). -/
def execSrai (c : Eng) (y : Sync) (d a : BitVec 5) (i : BitVec 6) (s : State) : Host.Outcome State Fault Refusal :=
  execU c y d a (fun x => x.sshiftRight i.toNat) s
/-- SLTI (R65). -/
def execSlti (c : Eng) (y : Sync) (d a : BitVec 5) (i : BitVec 6) (s : State) : Host.Outcome State Fault Refusal :=
  execU c y d a (fun x => boolWord (x.slt (i.signExtend 64))) s
/-- SLTIU (R65). -/
def execSltiu (c : Eng) (y : Sync) (d a : BitVec 5) (i : BitVec 6) (s : State) : Host.Outcome State Fault Refusal :=
  execU c y d a (fun x => boolWord (x.ult (i.signExtend 64))) s

/-- LI (R15). -/
def execLi (c : Eng) (d : BitVec 5) (i : BitVec 17) (s : State) : Host.Outcome State Fault Refusal :=
  issueY c Sync.none (setReg c d.toNat fun _ => i.signExtend 64) s

/-- LIH (R15). -/
def execLih (c : Eng) (d : BitVec 5) (i : BitVec 17) (s : State) : Host.Outcome State Fault Refusal :=
  issueY c Sync.none (setReg c d.toNat fun s => s.x c d.toNat <<< 17 ||| i.setWidth 64) s

/-- The engines a SYNC mask names, in the order S, L, V, M, W (R21). -/
def maskEngs (m : BitVec 5) : List Eng := Eng.all.filter fun e => m.getLsbD (e.code - 1)

/-- SYNC (R21). -/
def execSync (c : Eng) (waits sigs : BitVec 5) (s : State) : Host.Outcome State Fault Refusal :=
  issue c (maskEngs waits) (maskEngs sigs) none (fun _ s => .done s .fall) s

/-- Adds one to the context's DEPCNT (R354) and raises the advisory at the threshold (R355). -/
def countDeprecated (s : State) : State :=
  match s.core.crew with
  | none => s
  | some c =>
    match s.ctx? c.ctx with
    | none => s
    | some x =>
      let n := if x.depcnt = BitVec.allOnes 64 then x.depcnt else x.depcnt + 1
      let s := s.putCtx c.ctx { x with depcnt := n }
      let f := s.func c.fn
      if f.depthr ≠ 0 ∧ n = f.depthr ∧ x.depcnt ≠ n then
        (s.setFunc c.fn { f with pend := true, depctx := c.ctx }).interrupt c.fn 3
      else s

/-- Enters a deprecated word among the pending writes of its engine: it counts as it commits, so once it is older than the horizon (R354). -/
def State.deprecate (s : State) (e : Eng) (p : Pos) : State :=
  s.mapEng e fun g => { g with past := g.past ++ [⟨p, 0, g.view, true⟩] }

/-- SYNC.V1 (R30): a SYNC, which counts once it is older than the horizon (R354). -/
def execSyncV1 (c : Eng) (w g : Option Eng) (s : State) : Host.Outcome State Fault Refusal :=
  issue c w.toList g.toList none (fun p s => .done (s.deprecate c p) .fall) s

/-- Whether the loop of record `r` holds a faultable word of engine `b` (R252). -/
def State.loopFaults (s : State) (b : Eng) (r : MapRec) : Bool :=
  let g := s.eng b
  let o := r.offs.getD (b.code - 1) 0xFFFFFFFF
  let word (k : Nat) : Option Instr :=
    match s.wordAt b (g.base + BitVec.ofNat 64 (4 * k)) with
    | none => none
    | some w => match decode b s.featMask w with | .ok i => some i | .illegal _ => none
  o < g.len && match word o with
    | some (.loop _ _ _ len) => (List.range len.toNat).any fun k => ((word (o + 1 + k)).map faultable).getD true
    | some (.loopi _ _ _ len) => (List.range len.toNat).any fun k => ((word (o + 1 + k)).map faultable).getD true
    | _ => true

/-- Whether the word of engine `b` at offset `o` of its slice is faultable, and has not resolved where the engine is still to execute it in the iterations it is in (R273). -/
def State.openWord (s : State) (b : Eng) (o : Nat) : Bool × Bool :=
  let g := s.eng b
  let pc := g.base + BitVec.ofNat 64 (4 * o)
  let p := s.posAt b pc g.loops
  let faults := match s.wordAt b pc with
    | none => true
    | some w => match decode b s.featMask w with | .ok i => faultable i | .illegal _ => true
  (faults, faults && !(pc == g.pc && g.resolved == some p) && !(b == .W && s.core.unit.checked.any fun c => c.1 == p))

/-- Whether engine `b` has still to resolve a faultable word of the activation at nesting level `n` that it stands in: one from its pc on, or one of a body that has iterations left. -/
def State.openIn (s : State) (b : Eng) (n : Nat) : Bool :=
  let g := s.eng b
  let inner := g.loops.take (g.loops.length - n)
  match inner.getLast? with
  | none => false
  | some l => (List.range g.len).any fun o =>
      g.offOf l.start ≤ o && o ≤ g.offOf l.stop &&
        ((g.offOf g.pc ≤ o && (s.openWord b o).2) ||
          inner.any fun k => 1 < k.remaining && g.offOf k.start ≤ o && o ≤ g.offOf k.stop && (s.openWord b o).1)

/-- Whether word index `r` lies in the body of engine `b`'s active loop of word `w`. -/
def State.spans (s : State) (b : Eng) (w r : Nat) : Bool :=
  w < r && ((s.eng b).loops.find? fun l => l.word == w).all fun l => r ≤ (s.mapAt b l.stop).2

/-- Whether engine `b`, in these levels, comes to word index `r` in a further iteration of one of them. -/
def State.again (s : State) (b : Eng) (r : Nat) (l : List Frame) : Bool :=
  l.any fun f => match f with
    | .loop w i => s.spans b w r && ((s.eng b).loops.find? fun l => l.word == w).all fun l => i + 1 < l.count
    | .lap _ => false

/-- Whether engine `b`, from index `i` in levels `c`, comes to word index `r` before position `j` in levels `p`. -/
def State.passes (s : State) (b : Eng) (r i j : Nat) (c p : List Frame) : Bool :=
  let next (k n : Nat) : Bool := i ≤ r || r < j || k + 1 < n
  match c, p with
  | f :: c, g :: p =>
    if f = g then s.passes b r i j c p else
    match f, g with
    | .loop w k, .loop v n => if w = v then s.again b r c || s.spans b w r && next k n else s.again b r (f :: c) || i ≤ r && r < j
    | .lap x, .lap y =>
      if x.word = y.word then s.again b r c || y.holds r && next x.count y.count
      else s.again b r (f :: c) || if x.word < y.word then y.holds r && next 0 y.count else i ≤ r && r < j
    | _, .lap y => s.again b r (f :: c) || y.holds r && next 0 y.count
    | _, _ => s.again b r (f :: c) || i ≤ r && r < j
  | [], .lap y :: _ => y.holds r && next 0 y.count
  | c, _ => s.again b r c || i ≤ r && r < j

/-- Whether a faultable word of an earlier activation at nesting level `n` is unresolved (R272): an engine stands inside such an activation and has words of it left, or comes on its way to
position `p` to a loop of the level that holds one. -/
def State.olderActivation (s : State) (p : Pos) (n : Nat) : Bool :=
  Eng.all.any fun b => match s.contribution b with
    | none => false
    | some c => c.lt p && ((n < c.iter.length && s.openIn b n) ||
        ((s.core.crew.map (·.set.loops)).getD []).any fun r => r.aux == n && s.loopFaults b r && s.passes b r.index c.index p.index c.frames p.frames)

/-- LOOP and LOOPI with count `n` (R66, R272); a skipped body is left through its last word (log entry 14). -/
def loopBody (c : Eng) (count : State → Nat) (len : Nat) (p : Pos) (s : State) : Res :=
  if count s = 0 then .done s (.skip len) else
  if s.olderActivation p (s.eng c).loops.length then .stall scHrzn false s else
  .done s (.enter (newLevel s.core.calldepth (s.eng c).pc len (count s) p.index))

/-- LOOP (R66): the count is xs[31:0]. -/
def execLoop (c : Eng) (y : Sync) (r : BitVec 5) (len : BitVec 11) (s : State) : Host.Outcome State Fault Refusal :=
  issueY c y (loopBody c (fun s => (s.x c r.toNat).toNat % 2 ^ 32) len.toNat) s

/-- LOOPI (R66). -/
def execLoopi (c : Eng) (y : Sync) (n : BitVec 9) (len : BitVec 7) (s : State) : Host.Outcome State Fault Refusal :=
  issueY c y (loopBody c (fun _ => n.toNat) len.toNat) s

/-- Pops the oldest value of the follow FIFO from S (R70). -/
def popFollow (c : Eng) (s : State) (k : Word → State → Res) : Res :=
  match Tab.get [] s.core.follow c.code with
  | [] => .stall scFolw true s
  | v :: l => k v (s.mapCore fun x => { x with follow := Tab.set [] x.follow c.code l })

/-- FOLLOW (R70). -/
def execFollow (c : Eng) (y : Sync) (d : BitVec 5) (s : State) : Host.Outcome State Fault Refusal :=
  issueY c y (fun p s => popFollow c s fun v s => .done (s.writeX c p d.toNat v) .fall) s

/-- BRF (R70): xd takes the value, and the branch is taken when it is not zero. A target that does not pass leaves the value in the FIFO. -/
def execBrf (c : Eng) (y : Sync) (d : BitVec 5) (off : BitVec 11) (s : State) : Host.Outcome State Fault Refusal :=
  issueY c y (fun p s =>
    match branchBy c (match Tab.get [] s.core.follow c.code with | [] => false | v :: _ => v != 0) off.toInt s with
    | .done s n => popFollow c s fun v s => .done (s.writeX c p d.toNat v) n
    | r => r) s

/-- Whether an engine's slice holds a word that DEPCNT counts (R354). -/
def State.counts (s : State) (e : Eng) : Bool :=
  let g := s.eng e
  (List.range g.len).any fun o => match s.wordAt e (g.base + BitVec.ofNat 64 (4 * o)) with
    | none => false
    | some w => match decode e s.featMask w with
      | .ok i => counted i
      | .illegal _ => false
where
  /-- A word that adds one to DEPCNT. -/
  counted (i : Instr) : Bool :=
    match i with
    | .syncV1 .. | .vcvtV1 .. => true
    | _ => false

/-- CRR (R71). DEPCNT waits until the crew's older counted words have counted: until each engine that has such words in its slice stands at or after the CRR, and they are older than the
horizon (R354). -/
def execCrr (c : Eng) (y : Sync) (d : BitVec 5) (r : CtlReg) (s : State) : Host.Outcome State Fault Refusal :=
  issueY c y (fun p s =>
    if r = .depcnt then
      if Eng.all.any fun b => b != c && s.counts b && !s.reached b p then .stall scOther false s else
      whenOlder c p s fun s =>
      if Eng.all.any fun b => (s.eng b).past.any fun w => w.dep && w.pos.lt p then .stall scHrzn false s else setReg c d.toNat (fun s => ctlRead s c r) p s
    else setReg c d.toNat (fun s => ctlRead s c r) p s) s

/-- CRW (R20, R71): the register and, for a value not allowed, INV, each one pending write (R276). -/
def execCrw (c : Eng) (y : Sync) (r : BitVec 5) (k : CtlReg) (s : State) : Host.Outcome State Fault Refusal :=
  issueY c y (fun p s => .done (s.write c p (ctlWrites k (s.x c r.toNat)) (ctlWrite k (s.x c r.toNat))) .fall) s

end Sys2Proof.Machine
end

