-- ==== Sys2Proof/Machine/Num.lean ====
section
/-!
DEFINITION. Number formats, rounding and conversion (R34 to R52): values are exact dyadic numbers, every result is rounded once.
-/
namespace Sys2Proof.Machine

/-! ## Values -/

/-- A value: NaN, an infinity, or (−1)^neg × m × 2^e; `more` says that the exact magnitude lies strictly between m × 2^e and (m + 1) × 2^e. -/
inductive Val where
  | nan
  | inf (neg : Bool)
  | fin (neg : Bool) (m : Nat) (e : Int) (more : Bool)
  deriving DecidableEq, Repr

def Val.zero (neg : Bool) : Val := .fin neg 0 0 false
def Val.ofInt (i : Int) : Val := .fin (i < 0) i.natAbs 0 false
def Val.isNan : Val → Bool
  | .nan => true
  | _ => false
def Val.isZero : Val → Bool
  | .fin _ m _ more => m == 0 && !more
  | _ => false
def Val.neg? : Val → Bool
  | .nan => false
  | .inf n => n
  | .fin n _ _ _ => n
def Val.negate : Val → Val
  | .nan => .nan
  | .inf n => .inf !n
  | .fin n m e s => .fin (!n) m e s
def Val.abs : Val → Val
  | .nan => .nan
  | .inf _ => .inf false
  | .fin _ m e s => .fin false m e s
/-- Times 2^k. -/
def Val.scale (v : Val) (k : Int) : Val :=
  match v with
  | .fin n m e s => .fin n m (e + k) s
  | v => v

/-- A signed integer times 2^e as a value; `z` is the sign of a zero. -/
def Val.ofDyadic (z : Bool) (i : Int) (e : Int) : Val := if i = 0 then .zero z else .fin (i < 0) i.natAbs e false

/-- A finite exact value as a signed integer times 2^q, for q at most its exponent. -/
def Val.at? (v : Val) (q : Int) : Int :=
  match v with
  | .fin n m e _ => (if n then -1 else 1) * ((m * 2 ^ (e - q).toNat : Nat) : Int)
  | _ => 0

def Val.exp : Val → Int
  | .fin _ _ e _ => e
  | _ => 0

/-- Compares two values that are not NaN. -/
def Val.cmp (a b : Val) : Ordering :=
  match a, b with
  | .inf true, .inf true => .eq
  | .inf false, .inf false => .eq
  | .inf true, _ => .lt
  | _, .inf true => .gt
  | .inf false, _ => .gt
  | _, .inf false => .lt
  | a, b =>
    let q := min a.exp b.exp
    compare (a.at? q) (b.at? q)

/-! ## Formats (R34 to R39) -/

/-- A floating-point format (R35); `inf` says whether it has infinities (R36). -/
structure Fmt where
  ebits : Nat
  mbits : Nat
  inf   : Bool
  deriving DecidableEq, Repr

def Fmt.bias (f : Fmt) : Nat := 2 ^ (f.ebits - 1) - 1
def Fmt.width (f : Fmt) : Nat := 1 + f.ebits + f.mbits
def fp32 : Fmt := ⟨8, 23, true⟩
def fp16 : Fmt := ⟨5, 10, true⟩
def bf16 : Fmt := ⟨8, 7, true⟩
def e4m3 : Fmt := ⟨4, 3, false⟩
def e5m2 : Fmt := ⟨5, 2, true⟩

/-- The floating-point format of a code (R34). -/
def Fmt.ofCode? : Nat → Option Fmt
  | 0x00 => some fp32 | 0x01 => some fp16 | 0x02 => some bf16 | 0x03 => some e4m3 | 0x04 => some e5m2
  | _ => none

/-- The value of a floating-point encoding (R35, R36). -/
def Fmt.value (f : Fmt) (b : Nat) : Val :=
  let s := b.testBit (f.ebits + f.mbits)
  let e := bits b (f.ebits + f.mbits - 1) f.mbits
  let m := b % 2 ^ f.mbits
  if e = 0 then (if m = 0 then .zero s else .fin s m (1 - (f.bias : Int) - f.mbits) false) else
  if f.inf ∧ e = 2 ^ f.ebits - 1 then (if m = 0 then .inf s else .nan) else
  if ¬f.inf ∧ e = 2 ^ f.ebits - 1 ∧ m = 2 ^ f.mbits - 1 then .nan else
  .fin s (2 ^ f.mbits + m) ((e : Int) - f.bias - f.mbits) false

/-- The canonical NaN (R36). -/
def Fmt.nan (f : Fmt) : Nat :=
  if f.inf then (2 ^ f.ebits - 1) * 2 ^ f.mbits + 2 ^ (f.mbits - 1) else 2 ^ (f.ebits + f.mbits) - 1
def Fmt.sign (f : Fmt) (neg : Bool) : Nat := if neg then 2 ^ (f.ebits + f.mbits) else 0
/-- An infinity of a format that has them. -/
def Fmt.infinity (f : Fmt) (neg : Bool) : Nat := f.sign neg + (2 ^ f.ebits - 1) * 2 ^ f.mbits
/-- The largest finite encoding. -/
def Fmt.largest (f : Fmt) (neg : Bool) : Nat := f.sign neg + (if f.inf then (2 ^ f.ebits - 1) * 2 ^ f.mbits - 1 else 2 ^ (f.ebits + f.mbits) - 2)

/-- Width in bits of an element of a format code (R34); 0 for a reserved code. -/
def codeWidth : Nat → Nat
  | 0x00 => 32 | 0x01 => 16 | 0x02 => 16 | 0x03 => 8 | 0x04 => 8 | 0x05 => 8 | 0x06 => 2
  | 0x08 => 4 | 0x09 => 8 | 0x0A => 8 | 0x0B => 16 | 0x0C => 32 | 0x0D => 64
  | 0x10 => 8 | 0x11 => 8 | 0x12 => 8
  | _ => 0

/-- The range of an integer format code (R38). -/
def intRange? : Nat → Option (Int × Int)
  | 0x08 => some (-8, 7) | 0x09 => some (-128, 127) | 0x0A => some (0, 255) | 0x0B => some (-32768, 32767)
  | 0x0C => some (-2 ^ 31, 2 ^ 31 - 1) | 0x0D => some (-2 ^ 63, 2 ^ 63 - 1)
  | _ => none

/-- The value of an element of a format code and the flags reading it sets (R35 to R39); microscaled codes give the element's own value without its scale. -/
def codeValue (code b : Nat) : Val × BitVec 6 :=
  match Fmt.ofCode? (if code = 0x10 then 0x03 else if code = 0x11 then 0x04 else code) with
  | some f => (f.value b, 0)
  | none =>
    match code with
    | 0x05 => (if b = 0xFF then .nan else .fin false 1 ((b : Int) - 127) false, 0)
    | 0x06 => if b = 1 then (.ofInt 1, 0) else if b = 3 then (.ofInt (-1), 0) else (.ofInt 0, flagIf (b == 2) flagINV)
    | 0x0A => (.ofInt b, 0)
    | 0x12 => (.fin (signed 8 b < 0) (signed 8 b).natAbs (-6) false, 0)
    | c => (.ofInt (signed (codeWidth c) b), 0)

/-! ## Rounding (R42, R44) -/

/-- A magnitude cut at 2^q: what is kept, what is left in units of 2^(q − sh), and sh. -/
structure Cut where
  kept : Nat
  rem  : Nat
  sh   : Nat
  more : Bool
  deriving DecidableEq, Repr

def cutAt (m : Nat) (e : Int) (more : Bool) (q : Int) : Cut :=
  if q ≤ e then ⟨m * 2 ^ (e - q).toNat, 0, 0, more⟩ else
  let sh := (q - e).toNat
  ⟨m >>> sh, m % 2 ^ sh, sh, more⟩

def Cut.inexact (c : Cut) : Bool := c.rem != 0 || c.more

/-- Whether the neighbour of larger magnitude is chosen: modes 0 to 4 of R41; `r` is the step's random number. -/
def Cut.up (c : Cut) (mode : Nat) (neg : Bool) (r : Nat) : Bool :=
  c.inexact &&
  match mode with
  | 0 => 2 ^ c.sh < 2 * c.rem || (2 ^ c.sh == 2 * c.rem && (c.more || c.kept % 2 == 1))
  | 1 => false
  | 2 => !neg
  | 3 => neg
  | _ => 2 ^ 32 ≤ (if 32 ≤ c.sh then c.rem >>> (c.sh - 32) else c.rem <<< (32 - c.sh)) + r

def Cut.rounded (c : Cut) (mode : Nat) (neg : Bool) (r : Nat) : Nat := c.kept + (if c.up mode neg r then 1 else 0)

/-- A result with a floating-point destination (R45). -/
def Fmt.round (f : Fmt) (mode : Nat) (nsat : Bool) (r : Nat) (v : Val) : Nat × BitVec 6 :=
  match v with
  | .nan => (f.nan, 0)
  | .inf n =>
    if !nsat then (f.largest n, flagSAT) else if f.inf then (f.infinity n, 0) else (f.nan, flagINV)
  | .fin n m e more =>
    if m = 0 ∧ ¬more then (f.sign n, 0) else
    let emin : Int := 1 - (f.bias : Int)
    let top : Int := (m.log2 : Int) + e
    let q := max top emin - f.mbits
    let c := cutAt m e more q
    let k := c.rounded mode n r
    let k' := if 2 ^ (f.mbits + 1) ≤ k then k / 2 else k
    let q' := if 2 ^ (f.mbits + 1) ≤ k then q + 1 else q
    let emaxq : Int := (if f.inf then (2 ^ f.ebits - 2 : Nat) else (2 ^ f.ebits - 1 : Nat)) - (f.bias : Int) - f.mbits
    let maxm := if f.inf then 2 ^ (f.mbits + 1) - 1 else 2 ^ (f.mbits + 1) - 2
    if emaxq < q' ∨ q' = emaxq ∧ maxm < k' then
      if !nsat then (f.largest n, flagOVF ||| flagINX ||| flagSAT) else
      (if !f.inf then f.nan else if mode = 0 ∨ mode = 4 ∨ mode = 2 ∧ n = false ∨ mode = 3 ∧ n = true then f.infinity n else f.largest n,
        flagOVF ||| flagINX)
    else
      let b := if k' < 2 ^ f.mbits then k' else (q' + f.mbits + f.bias).toNat * 2 ^ f.mbits + (k' - 2 ^ f.mbits)
      (f.sign n + b, flagIf c.inexact flagINX ||| flagIf (c.inexact && top < emin) flagUNF)

/-- A result with an integer destination of range lo to hi, as `w` bits (R46). -/
def roundInt (w : Nat) (lo hi : Int) (mode : Nat) (r : Nat) (v : Val) : Nat × BitVec 6 :=
  let bitsOf (i : Int) : Nat := (i % 2 ^ w).toNat
  match v with
  | .nan => (0, flagINV)
  | .inf n => (bitsOf (if n then lo else hi), flagSAT)
  | .fin n m e more =>
    let c := cutAt m e more 0
    let k : Int := (if n then -1 else 1) * (c.rounded mode n r : Int)
    if k < lo then (bitsOf lo, flagSAT) else if hi < k then (bitsOf hi, flagSAT) else (bitsOf k, flagIf c.inexact flagINX)

/-- Conversion to E8M0 (R47). -/
def toE8M0 (v : Val) : Nat × BitVec 6 :=
  match v with
  | .nan => (0xFF, 0)
  | .inf _ => (0xFE, flagSAT)
  | .fin _ m e more =>
    if m = 0 then (0, flagUNF) else
    let l : Int := (m.log2 : Int) + e
    if l < -127 then (0, flagUNF) else if 128 ≤ l then (0xFE, flagSAT) else
    ((l + 127).toNat, flagIf (more || m != 2 ^ m.log2) flagINX)

/-- Conversion to TER2 (R39, R46). A result that rounds inexactly and is then limited sets SAT and not INX (log entry 113). -/
def toTer2 (mode r : Nat) (v : Val) : Nat × BitVec 6 :=
  let (b, f) := roundInt 8 (-128) 127 mode r v
  let i := signed 8 b
  if i < -1 then (3, (f &&& ~~~flagINX) ||| flagSAT) else if 1 < i then (1, (f &&& ~~~flagINX) ||| flagSAT) else
  (if i = 1 then 1 else if i = -1 then 3 else 0, f)

/-- A result rounded into a format code other than a microscaled one (R45 to R47). -/
def toCode (code mode : Nat) (nsat : Bool) (r : Nat) (v : Val) : Nat × BitVec 6 :=
  match Fmt.ofCode? code with
  | some f => f.round mode nsat r v
  | none =>
    if code = 0x05 then toE8M0 v else if code = 0x06 then toTer2 mode r v else
    match intRange? code with
    | some (lo, hi) => roundInt (codeWidth code) lo hi mode r v
    | none => (0, 0)

/-! ## Exact arithmetic -/

/-- Sign of an exact zero sum (R42). -/
def zeroSign (mode : Nat) (a b : Bool) : Bool := if a == b then a else mode == 3

/-- The exact sum; ∞ − ∞ gives NaN and INV. -/
def Val.add (mode : Nat) (a b : Val) : Val × BitVec 6 :=
  match a, b with
  | .nan, _ => (.nan, 0)
  | _, .nan => (.nan, 0)
  | .inf x, .inf y => if x = y then (.inf x, 0) else (.nan, flagINV)
  | .inf x, _ => (.inf x, 0)
  | _, .inf y => (.inf y, 0)
  | a, b =>
    let q := min a.exp b.exp
    (.ofDyadic (if a.isZero && b.isZero then zeroSign mode a.neg? b.neg? else mode == 3) (a.at? q + b.at? q) q, 0)

/-- The exact product; ∞ × 0 gives NaN and INV. -/
def Val.mul (a b : Val) : Val × BitVec 6 :=
  match a, b with
  | .nan, _ => (.nan, 0)
  | _, .nan => (.nan, 0)
  | .inf x, b => if b.isZero then (.nan, flagINV) else (.inf (x != b.neg?), 0)
  | a, .inf y => if a.isZero then (.nan, flagINV) else (.inf (a.neg? != y), 0)
  | .fin x m e _, .fin y n f _ => (.fin (x != y) (m * n) (e + f) false, 0)

/-- The quotient to more bits than any format keeps, with what is left over (R146). -/
def Val.quot (a b : Val) : Val :=
  match a, b with
  | .fin x m e _, .fin y n f _ =>
    let k := 80 + n.log2
    .fin (x != y) ((m <<< k) / n) (e - f - k) ((m <<< k) % n != 0)
  | _, _ => .nan

/-- The largest r of at most `n` bits with r × r ≤ m. -/
def sqrtBits (m : Nat) : Nat → Nat → Nat
  | 0, r => r
  | n + 1, r => sqrtBits m n (if (r + 2 ^ n) * (r + 2 ^ n) ≤ m then r + 2 ^ n else r)

/-- The square root of a finite value that is not negative, to more bits than any format keeps. -/
def Val.root (v : Val) : Val :=
  match v with
  | .fin _ m e _ =>
    let odd := (e % 2).toNat
    let m' := m <<< (160 + odd)
    let r := sqrtBits m' (m'.log2 / 2 + 1) 0
    .fin false r ((e - odd - 160) / 2) (r * r != m')
  | v => v

/-- The reciprocal square root of a finite positive value. -/
def Val.rroot (v : Val) : Val :=
  match v with
  | .fin _ m e _ =>
    let odd := (e % 2).toNat
    let m' := m <<< odd
    let k := 80 + m'.log2
    let t := 2 ^ (2 * k) / m'
    let r := sqrtBits t (t.log2 / 2 + 1) 0
    .fin false r (-((e - odd) / 2) - k) (r * r * m' != 2 ^ (2 * k))
  | v => v

/-! ## The generator (R43) -/

/-- One step of the xorshift generator: the new state, which is the step's random number. -/
def xorshift (x : BitVec 32) : BitVec 32 :=
  let x := x ^^^ (x <<< 13)
  let x := x ^^^ (x >>> 17)
  x ^^^ (x <<< 5)

/-! ## The bank transform unit (R52) -/

/-- What an element of `old` becomes when `new` is written with an accumulate code of R115. -/
def transformAdd (acc old new : Nat) : Nat :=
  match acc with
  | 1 => (fp32.round 0 false 0 (Val.add 0 (fp32.value old) (fp32.value new)).1).1
  | 2 => (bf16.round 0 false 0 (Val.add 0 (bf16.value old) (bf16.value new)).1).1
  | 3 => (roundInt 32 (-2 ^ 31) (2 ^ 31 - 1) 0 0 (.ofInt (signed 32 old + signed 32 new))).1
  | _ => new

end Sys2Proof.Machine
end

