-- ==== Sys2Proof/Machine/Exchange.lean ====
section
/-!
DEFINITION. What a pair of layouts means (R378, R381, R382, R386, R388): reading a rank list and a descriptor, deriving the exchange, and its pieces.
-/
namespace Sys2Proof.Machine

def listProd (l : List Nat) : Nat := l.foldl (· * ·) 1

/-! ## Rank lists (R378) -/

/-- The extents that the 16-byte header of a rank list gives; `none` where the list is refused. -/
def rankHeader (b : List Byte) : Option (List Nat) :=
  let n := field b 2 1
  let ext := (List.range 4).map fun k => field b (4 + 2 * k) 2
  if field b 0 2 ≠ 1 ∨ n = 0 ∨ 4 < n ∨ field b 3 1 ≠ 0 ∨ field b 12 4 ≠ 0 ∨ (ext.drop n).any (· != 0) ∨ (ext.take n).contains 0 ∨
      16384 < listProd (ext.take n) then none
  else some (ext.take n)

/-- Whether a list's entries are in order: no package twice, each in the job's set, this package among them. -/
def ranksOk (set ents : List Nat) : Bool :=
  ents.all (fun e => e < 2 ^ 13 && set.contains e) && decide ents.Nodup && ents.contains Config.pkgpos

/-- Coordinates of a rank, axis 0 first. -/
def coordsOf : List Nat → Nat → List Nat
  | [], _ => []
  | e :: l, r => r / listProd l % e :: coordsOf l r

/-- Rank of a coordinate tuple. -/
def rankOf (ext c : List Nat) : Nat := (ext.zip c).foldl (fun a x => a * x.1 + x.2) 0

/-! ## Descriptors (R381) -/

structure CDesc where
  etype : Nat
  slot  : Nat
  tag   : Nat
  dim   : List Nat
  amap  : List Nat
  apsum : Nat
  bmap  : List Nat
  bpsum : Nat
  src   : Nat
  dst   : Nat
  recv  : Nat
  done  : Nat
  bad   : Bool                  -- FORMAT is not 1, a reserved bit is set, or an extent is 0
  deriving DecidableEq, Repr

def CDesc.of (b : List Byte) : CDesc :=
  let dim := (List.range 4).map fun k => field b (8 + 2 * k) 2
  let o := field b 48 8
  { etype := field b 2 1
    slot := field b 3 1 % 8
    tag := field b 4 2
    dim := dim
    amap := (List.range 4).map fun k => field b (16 + k) 1
    apsum := field b 20 1
    bmap := (List.range 4).map fun k => field b (24 + k) 1
    bpsum := field b 28 1
    src := field b 32 8 % 2 ^ 21
    dst := field b 40 8 % 2 ^ 21
    recv := bits o 10 0
    done := bits o 26 16
    bad := field b 0 2 != 1 || 8 ≤ field b 3 1 || field b 6 2 != 0 || 16 ≤ field b 20 1 || field b 21 3 != 0 || 16 ≤ field b 28 1 ||
      field b 29 3 != 0 || 2 ^ 21 ≤ field b 32 8 || 2 ^ 21 ≤ field b 40 8 || bits o 15 11 != 0 || bits o 63 27 != 0 || field b 56 8 != 0 ||
      dim.contains 0 }

/-- Role of an axis in a layout (R382). -/
inductive Role where
  | replicated
  | partial_
  | shards (d : Nat)
  deriving DecidableEq, Repr

def roleOf (map : List Nat) (psum m : Nat) : Role :=
  if psum.testBit m then .partial_ else
  match (map.zipIdx.find? fun x => x.1 == m) with
  | some x => .shards x.2
  | none => .replicated

/-- Whether a map may stand: axes below NAXES, none twice, none that also holds partial sums, sharded extents multiples of their axes'. -/
def mapOk (ext dim map : List Nat) (psum : Nat) : Bool :=
  let named := map.filter (· != 0xFF)
  named.all (fun m => m < ext.length && !psum.testBit m) && decide named.Nodup && psum < 2 ^ ext.length &&
    (map.zip dim).all fun x => x.1 == 0xFF || x.2 % ext.getD x.1 1 == 0

/-- The local shard's extents. -/
def shardOf (ext dim map : List Nat) : List Nat := (map.zip dim).map fun x => if x.1 = 0xFF then x.2 else x.2 / ext.getD x.1 1

/-- The exchanges of R382, with the dimensions they name. -/
inductive ExKind where
  | allReduce
  | reduceScatter (d : Nat)
  | allGather (d : Nat)
  | allToAll (d e : Nat)
  | permutation
  | localSlice (d : Nat)
  deriving DecidableEq, Repr

/-- KIND of a collective record (R402). -/
def ExKind.code : ExKind → Nat
  | .allReduce => 1 | .reduceScatter _ => 2 | .allGather _ => 3 | .allToAll .. => 4 | .permutation => 5 | .localSlice _ => 6

/-- The exchange of one axis whose roles differ; `none`: refused. -/
def exchangeOf : Role → Role → Option ExKind
  | .partial_, .replicated => some .allReduce
  | .partial_, .shards d => some (.reduceScatter d)
  | .shards d, .replicated => some (.allGather d)
  | .shards d, .shards e => some (.allToAll d e)
  | .replicated, .shards d => some (.localSlice d)
  | _, _ => none

/-- A derived exchange. -/
structure Ex where
  kind : ExKind
  g    : Nat                    -- the issuer's rank along the axis
  line : List Nat               -- packages in rank order along the axis; of a permutation, the partner alone
  grp  : List Nat               -- every package of the group
  shA  : List Nat
  shB  : List Nat
  w    : Nat                    -- bytes of an element
  code : Nat                    -- accumulation code of ETYPE, 0 for none
  deriving DecidableEq, Repr

/-- Bytes of an element type that a collective accepts (R382). -/
def collWidth (t : Nat) : Nat := if [0x00, 0x01, 0x02, 0x03, 0x04, 0x09, 0x0A, 0x0B, 0x0C].contains t then codeWidth t / 8 else 0

/-- The accumulation code of an element type (R115). -/
def accCode (t : Nat) : Nat := if t = 0x00 then 1 else if t = 0x02 then 2 else if t = 0x0C then 3 else 0

def overlap (a n b m : Nat) : Bool := a < b + m && b < a + n

/-- Derives the exchange (R382); `none` where the pair is refused with status 2. -/
def derive (c : CDesc) (ext ranks : List Nat) : Option Ex :=
  if c.bad || collWidth c.etype == 0 || !mapOk ext c.dim c.amap c.apsum || !mapOk ext c.dim c.bmap c.bpsum then none else
  let a := (List.range ext.length).map fun m => roleOf c.amap c.apsum m
  let b := (List.range ext.length).map fun m => roleOf c.bmap c.bpsum m
  let role (l : List Role) (m : Nat) : Role := l.getD m .replicated
  let diff := (List.range ext.length).filter fun m => role a m != role b m
  let co := coordsOf ext (ranks.idxOf Config.pkgpos)
  let pkg (c : List Nat) : Nat := ranks.getD (rankOf ext c) 0
  let shA := shardOf ext c.dim c.amap
  let shB := shardOf ext c.dim c.bmap
  let w := collWidth c.etype
  let mk (k : ExKind) (g : Nat) (line grp : List Nat) : Ex := ⟨k, g, line, grp, shA, shB, w, accCode c.etype⟩
  let nA := listProd shA
  let nB := listProd shB
  match diff with
  | [m] =>
    match exchangeOf (role a m) (role b m) with
    | none => none
    | some k =>
      let p := ext.getD m 1
      let line := (List.range p).map fun i => pkg (co.set m i)
      let sums : Bool := match k with | .allReduce | .reduceScatter _ => true | _ => false
      if sums && accCode c.etype == 0 then none else
      if k = .allReduce then
        if nA % p ≠ 0 ∨ c.src ≠ c.dst ∧ overlap c.src (nA * w) c.dst (nB * w) then none else some (mk k (co.getD m 0) line line)
      else if overlap c.src (nA * w) c.dst (nB * w) then none
      else some (mk k (co.getD m 0) line (match k with | .localSlice _ => [] | _ => line))
  | [m, n] =>
    match role a m, role b m, role a n, role b n with
    | .shards d, .shards e, .shards d', .shards e' =>
      if d = e' ∧ e = d' ∧ ext.getD m 1 = ext.getD n 1 ∧ !overlap c.src (nA * w) c.dst (nB * w) then
        let p := ext.getD m 1
        some (mk .permutation 0 [pkg ((co.set m (co.getD n 0)).set n (co.getD m 0))]
          ((List.range p).flatMap fun i => (List.range p).map fun j => pkg ((co.set m i).set n j)))
      else none
    | _, _, _, _ => none
  | _ => none

/-! ## Pieces -/

/-- The byte runs of indices `lo` to `hi - 1` along dimension `d` of a packed row-major block. -/
def runsOf (sh : List Nat) (d lo hi w base : Nat) : List (Nat × Nat) :=
  let inner := listProd (sh.drop (d + 1)) * w
  (List.range (listProd (sh.take d))).map fun o => (base + (o * sh.getD d 1 + lo) * inner, (hi - lo) * inner)

/-- d-block `c` of `p` of a block. -/
def blockRuns (sh : List Nat) (d c p w base : Nat) : List (Nat × Nat) :=
  runsOf sh d (c * sh.getD d 1 / p) ((c + 1) * sh.getD d 1 / p) w base

def Ex.p (x : Ex) : Nat := x.line.length
def Ex.bytesA (x : Ex) : Nat := listProd x.shA * x.w
def Ex.bytesB (x : Ex) : Nat := listProd x.shB * x.w

/-- Offset of the buffer that members write (R386, R388). -/
def Ex.work (x : Ex) (c : CDesc) : Nat := match x.kind with | .reduceScatter _ => c.src | _ => c.dst

/-- The byte runs of a ring's piece. -/
def Ex.piece (x : Ex) (c : CDesc) (k : Nat) : List (Nat × Nat) :=
  match x.kind with
  | .allReduce => [(c.dst + k * (x.bytesA / x.p), x.bytesA / x.p)]
  | .reduceScatter d => blockRuns x.shA d k x.p x.w c.src
  | .allGather d => blockRuns x.shB d k x.p x.w c.dst
  | _ => []

/-- The local copies made at acceptance: source and destination runs. -/
def Ex.before (x : Ex) (c : CDesc) : List (List (Nat × Nat) × List (Nat × Nat)) :=
  match x.kind with
  | .allReduce => if c.src = c.dst then [] else [([(c.src, x.bytesA)], [(c.dst, x.bytesA)])]
  | .reduceScatter _ => []
  | .allGather _ => [([(c.src, x.bytesA)], x.piece c x.g)]
  | .allToAll d e => [(blockRuns x.shA e x.g x.p x.w c.src, blockRuns x.shB d x.g x.p x.w c.dst)]
  | .permutation => if x.line = [Config.pkgpos] then [([(c.src, x.bytesA)], [(c.dst, x.bytesA)])] else []
  | .localSlice d => [(blockRuns x.shA d x.g x.p x.w c.src, [(c.dst, x.bytesB)])]

/-- The local copy made at the end. -/
def Ex.after (x : Ex) (c : CDesc) : List (List (Nat × Nat) × List (Nat × Nat)) :=
  match x.kind with
  | .reduceScatter _ => [(x.piece c x.g, [(c.dst, x.bytesB)])]
  | _ => []

/-- The first step of a ring. -/
def Ex.first (x : Ex) : Nat := match x.kind with | .allGather _ => x.p - 1 | _ => 0

/-- How many transfers the exchange makes. -/
def Ex.sends (x : Ex) : Nat :=
  match x.kind with
  | .allReduce => 2 * x.p - 2
  | .reduceScatter _ => x.p - 1
  | .allGather _ => x.p - 1
  | .allToAll .. => x.p - 1
  | .permutation => if x.line = [Config.pkgpos] then 0 else 1
  | .localSlice _ => 0

/-- How many flips of RECV it waits for. -/
def Ex.waits (x : Ex) : Nat := match x.kind with | .allToAll .. => min 1 x.sends | _ => x.sends

def Ex.isRing (x : Ex) : Bool := match x.kind with | .allReduce | .reduceScatter _ | .allGather _ => true | _ => false

/-- The member that transfer `n` goes to. -/
def Ex.target (x : Ex) (n : Nat) : Nat :=
  match x.kind with
  | .permutation => x.line.getD 0 Config.pkgpos
  | .allToAll .. => x.line.getD ((x.g + n + 1) % x.p) 0
  | _ => x.line.getD ((x.g + 1) % x.p) 0

/-- The members that will send to this rank. -/
def Ex.senders (x : Ex) : List Nat :=
  if x.sends = 0 then [] else
  match x.kind with
  | .permutation => x.line
  | .allToAll .. => x.line.filter (· != Config.pkgpos)
  | _ => [x.line.getD ((x.g + x.p - 1) % x.p) 0]

/-- The members this rank sends to. -/
def Ex.receivers (x : Ex) : List Nat := if x.sends = 0 then [] else match x.kind with | .allToAll .. => x.senders | _ => [x.target 0]

/-- Transfer `n`: source runs, destination runs relative to the target's working buffer, accumulation code (R386, R388). -/
def Ex.transfer (x : Ex) (c : CDesc) (n : Nat) : List (Nat × Nat) × List (Nat × Nat) × Nat :=
  match x.kind with
  | .permutation => ([(c.src, x.bytesA)], [(0, x.bytesA)], 0)
  | .allToAll d e => (blockRuns x.shA e ((x.g + n + 1) % x.p) x.p x.w c.src, blockRuns x.shB d x.g x.p x.w 0, 0)
  | _ =>
    let t := x.first + n
    let r := x.piece c ((x.g + 2 * x.p - t - 1) % x.p)
    (r, r.map (fun y => (y.1 - x.work c, y.2)), if t + 2 ≤ x.p then x.code else 0)

/-- EXPECT of RECV: the elements of one step's piece (R385); with no step there are none. -/
def Ex.expect (x : Ex) : Nat :=
  if x.sends = 0 then 0 else
  match x.kind with
  | .permutation => x.bytesA / x.w
  | .allToAll .. => (x.p - 1) * (x.bytesA / x.p) / x.w
  | _ => ((x.transfer (CDesc.of []) 0).1.map (·.2)).sum / x.w

/-- The exchange of an accepted collective; its pair was accepted, so there is one. -/
def Coll.cdesc (k : Coll) : CDesc := CDesc.of k.desc
def Coll.ex? (k : Coll) : Option Ex := derive k.cdesc k.ext k.ranks

/-! ## What a crew's writes leave (R384) -/

/-- The bytes of a collective's buffers whose elements a crew has written: they hold no defined value. -/
def Coll.spoiled (k : Coll) : List Nat :=
  if k.dirty = [] then [] else
  let w := match k.ex? with | some x => max 1 x.w | none => 1
  k.bufs.flatMap fun b => (List.range b.2).filterMap fun j =>
    if k.dirty.any fun d => b.1 ≤ d && d < b.1 + b.2 && (d - b.1) / w == j / w then some (b.1 + j) else none

/-- The bytes of a collective that its abort leaves undefined: DST's, and SRC's when it works there (R389). -/
def Coll.aborted (k : Coll) : List Nat :=
  match k.ex? with
  | none => []
  | some x => (List.range x.bytesB).map (k.cdesc.dst + ·) ++ match x.kind with | .reduceScatter _ => (List.range x.bytesA).map (k.cdesc.src + ·) | _ => []

/-- The crew observes the flip of an object: with it ends the time in which a collective leaves elements undefined that the crew wrote (R384). -/
def State.observe (s : State) (id : Nat) : State :=
  match s.core.ended.filter fun k => k.cdesc.done == id with
  | [] => s
  | l => (l.foldl (fun s k => s.fill s.core.id k.spoiled) s).mapCore fun c => { c with ended := c.ended.filter fun k => k.cdesc.done != id }

end Sys2Proof.Machine
end

