-- ==== Sys2Proof/Machine/Scalar.lean ====
section
/-!
DEFINITION. The scalar engine's own instructions (R15, R72 to R96) but for the barrier network's and the collectives'.
-/
namespace Sys2Proof.Machine

/-- ADDPC (R15). -/
def execAddpc (off : BitVec 22) (s : State) : Host.Outcome State Fault Refusal :=
  issueY .S Sync.none (setReg .S 30 fun s => (s.eng .S).pc + BitVec.ofInt 64 (4 * off.toInt)) s

/-- J (R15, R74). -/
def execJ (off : BitVec 22) (s : State) : Host.Outcome State Fault Refusal :=
  issueY .S Sync.none (fun _ s => branchBy .S true off.toInt s) s

/-- CALL (R15, R358). -/
def execCall (off : BitVec 22) (s : State) : Host.Outcome State Fault Refusal :=
  issueY .S Sync.none (fun p s => callTo p ((s.eng .S).pc + BitVec.ofInt 64 (4 * off.toInt)) 0 id s) s

/-- A conditional branch on xs (R72). -/
def execBranch (y : Sync) (r : BitVec 5) (off : BitVec 11) (f : Word → Bool) (s : State) : Host.Outcome State Fault Refusal :=
  issueY .S y (fun _ s => branchBy .S (f (s.x .S r.toNat)) off.toInt s) s

/-- BEQZ (R72). -/
def execBeqz (y : Sync) (r : BitVec 5) (off : BitVec 11) (s : State) : Host.Outcome State Fault Refusal :=
  execBranch y r off (fun x => x == 0) s
/-- BNEZ (R72). -/
def execBnez (y : Sync) (r : BitVec 5) (off : BitVec 11) (s : State) : Host.Outcome State Fault Refusal :=
  execBranch y r off (fun x => x != 0) s
/-- BLTZ (R72). -/
def execBltz (y : Sync) (r : BitVec 5) (off : BitVec 11) (s : State) : Host.Outcome State Fault Refusal :=
  execBranch y r off (fun x => x.slt 0) s
/-- BGEZ (R72). -/
def execBgez (y : Sync) (r : BitVec 5) (off : BitVec 11) (s : State) : Host.Outcome State Fault Refusal :=
  execBranch y r off (fun x => !x.slt 0) s
/-- BGTZ (R72). -/
def execBgtz (y : Sync) (r : BitVec 5) (off : BitVec 11) (s : State) : Host.Outcome State Fault Refusal :=
  execBranch y r off (fun x => (0 : Word).slt x) s
/-- BLEZ (R72). -/
def execBlez (y : Sync) (r : BitVec 5) (off : BitVec 11) (s : State) : Host.Outcome State Fault Refusal :=
  execBranch y r off (fun x => !(0 : Word).slt x) s

/-- CALLR (R73). -/
def execCallr (y : Sync) (r : BitVec 5) (s : State) : Host.Outcome State Fault Refusal :=
  issueY .S y (fun p s => callTo p (s.x .S r.toNat) 0 id s) s

/-! ## Memory -/

/-- Whether an older access of the store buffer in class `cls` has still to perform (R260). -/
def Core.olderStore (c : Core) (p : Pos) (cls : Nat) : Bool := c.stores.any fun e => e.cls == cls && e.pos.lt p

/-- Whether any older write, or an accepted BCOPY movement, has still to perform (R78, R120). -/
def Core.olderAny (c : Core) (p : Pos) : Bool := c.stores.any (fun e => e.pos.lt p) || !c.copies.isEmpty

/-- Whether elements of the crew's own SENDTs older than position `p` are still to be applied (R375). -/
def State.crewSends (s : State) (p : Pos) : Bool := s.net.xfers.any fun x => x.core == s.core.id && x.crew.any fun q => q.lt p

/-- Whether a place lies in a page that BCOPY.MIG still moves (R120). -/
def Core.moving (c : Core) : Loc → Bool
  | .mem pa => c.copies.any fun k => k.pages.any fun g => g.2.1 ≤ pa && pa < g.2.1 + 2 ^ g.2.2
  | .spad .. => false

/-- Whether a place lies in a page that some core's BCOPY.MIG still moves (R120). -/
def State.moving (s : State) (l : Loc) : Bool := s.cores.any fun c => c.moving l

/-- Waits for data: an older write of the class has to perform first (SC_MEM). -/
def afterStores (p : Pos) (cls : Nat) (s : State) (k : State → Res) : Res :=
  if s.core.olderStore p cls then .stall scMem false s else k s

/-- Puts a store into the store buffer; it is already older than the horizon. -/
def State.addStore (s : State) (p : Pos) (e : Eng) (cls : Nat) (released : Bool) (ws : List StoreWrite) : State :=
  s.mapCore fun c => { c with stores := c.stores ++ [⟨p, e, cls, released, ws⟩] }

/-- An aligned load through a pointer (R77, R83). -/
def loadBody (a n cls : Nat) (d : Nat) (p : Pos) (s : State) : Res :=
  let ptr := s.x .S a
  roomFirst .S 1 <| afterCheck .S (ordOf cls) s (checkMem s (s.eng .S).got .read ptr n) fun pl s =>
    afterStores p cls s fun s => .done (s.writeX .S p d (BitVec.ofNat 64 (s.locsNat pl.mem))) .fall

/-- LD (R77). -/
def execLd (y : Sync) (d a : BitVec 5) (sz : Size) (o : BitVec 4) (s : State) : Host.Outcome State Fault Refusal :=
  issueY .S y (loadBody a.toNat sz.bytes o.toNat d.toNat) s

/-- LDA (R78): an acquire. Every later access of the crew is a later word of its engine, or is ordered by a token (R239). -/
def execLda (y : Sync) (d a : BitVec 5) (_sc : Scope) (o : BitVec 4) (s : State) : Host.Outcome State Fault Refusal :=
  issueY .S y (loadBody a.toNat 8 o.toNat d.toNat) s

/-- An aligned store through a pointer: checked, then older than the horizon, then handed to the store buffer (R77, R83, R275). -/
def storeBody (r a n cls : Nat) (rel : Bool) (p : Pos) (s : State) : Res :=
  let ptr := s.x .S a
  afterCheck .S (ordOf cls) s (checkMem s (s.eng .S).got .write ptr n) fun pl s =>
    whenOlder .S p s fun s =>
      if pl.mem.any s.moving then .stall scXlat false s else
      if rel && (s.core.olderAny p || s.crewSends p) then .stall scMem false s else
      .done (s.addStore p .S cls true [.bytes (pl.mem.zip (toBytes n (s.x .S r).toNat))]) .fall

/-- ST (R77). -/
def execSt (y : Sync) (r a : BitVec 5) (sz : Size) (o : BitVec 4) (s : State) : Host.Outcome State Fault Refusal :=
  issueY .S y (storeBody r.toNat a.toNat sz.bytes o.toNat false) s

/-- STL (R78): a release, after every older access of the crew. -/
def execStl (y : Sync) (r a : BitVec 5) (_sc : Scope) (o : BitVec 4) (s : State) : Host.Outcome State Fault Refusal :=
  issueY .S y (storeBody r.toNat a.toNat 8 o.toNat true) s

/-- The value AMO leaves, at `n` bits (R79). -/
def amoOp (op : AmoOp) {n : Nat} (old x : BitVec n) : BitVec n :=
  match op with
  | .add => old + x
  | .and => old &&& x
  | .or => old ||| x
  | .xor => old ^^^ x
  | .min => if old.slt x then old else x
  | .max => if old.slt x then x else old
  | .minu => if old.ult x then old else x
  | .maxu => if old.ult x then x else old
  | .swap => x

/-- AMO at a size. -/
def amoVal (op : AmoOp) (dbl : Bool) (old : Nat) (x : Word) : Nat :=
  if dbl then (amoOp op (BitVec.ofNat 64 old) x).toNat else (amoOp op (BitVec.ofNat 32 old) (x.setWidth 32)).toNat

/-- A read-modify-write of S in ordering class 0 (R81): `f` gives the new bytes from the old value. -/
def rmwBody (d a : Nat) (dbl : Bool) (f : State → Nat → Nat) (p : Pos) (s : State) : Res :=
  let n := if dbl then 8 else 4
  roomFirst .S 1 <| afterCheck .S (ordOf 0) s (checkMem s (s.eng .S).got .both (s.x .S a) n) fun pl s =>
    whenOlder .S p s fun s =>
      if pl.mem.any s.moving then .stall scXlat false s else
      afterStores p 0 s fun s =>
      let old := s.locsNat pl.mem
      .done ((s.setBytes (pl.mem.zip (toBytes n (f s old)))).writeX .S p d (BitVec.ofNat 64 old)) .fall

/-- AMO (R79). -/
def execAmo (y : Sync) (d a : BitVec 5) (op : AmoOp) (w : Bool) (s : State) : Host.Outcome State Fault Refusal :=
  issueY .S y (rmwBody d.toNat a.toNat w fun s old => amoVal op w old (s.x .S d.toNat)) s

/-- CAS (R80). -/
def execCas (y : Sync) (d a b : BitVec 5) (w : Bool) (s : State) : Host.Outcome State Fault Refusal :=
  issueY .S y (rmwBody d.toNat a.toNat w fun s old =>
    if old = (s.x .S d.toNat).toNat % (if w then 2 ^ 64 else 2 ^ 32) then (s.x .S b.toNat).toNat else old) s

/-- CALLX (R73, R74): the entry is read as LDA reads, then called; what the check of the entry found is kept, and the word resolves with its target (R273). -/
def execCallx (y : Sync) (r : BitVec 5) (idx : BitVec 11) (s : State) : Host.Outcome State Fault Refusal :=
  issueY .S y (fun p s =>
    let a := s.x .S r.toNat + BitVec.ofNat 64 (8 * idx.toNat)
    let res := (s.eng .S).resolved
    roomFirst .S 2 <| afterCheck .S (ordOf 0) s (checkMem s (s.eng .S).got .read a 8) fun pl s =>
      afterStores p 0 (s.mapEng .S fun g => { g with resolved := res }) fun s =>
        callTo p (BitVec.ofNat 64 (s.locsNat pl.mem)) 1 (fun v => v.setX 29 a) s) s

/-- RET (R73, R358). -/
def execRet (y : Sync) (s : State) : Host.Outcome State Fault Refusal :=
  issueY .S y (fun p s =>
    let t := s.x .S 31
    checkTarget .S t s fun s => whenOlder .S p s fun s =>
      .done (s.mapCore fun c => { c with calldepth := c.calldepth - 1 }) (.goto t)) s

/-- FENCE (R82): the older accesses of the masked classes have performed; all sixteen classes take in BCOPY's movement and the elements of the crew's SENDTs (R120, R375). -/
def execFence (y : Sync) (r : BitVec 5) (_sc : Scope) (s : State) : Host.Outcome State Fault Refusal :=
  issueY .S y (fun p s =>
    let mask : BitVec 16 := if r = 0 then BitVec.allOnes 16 else (s.x .S r.toNat).setWidth 16
    if (s.core.stores.any fun e => e.pos.lt p && mask.getLsbD e.cls) || (mask == BitVec.allOnes 16 && (!s.core.copies.isEmpty || s.crewSends p))
    then .stall scMem false s else .done s .fall) s

/-- SPTEST (R76). -/
def execSptest (y : Sync) (d a : BitVec 5) (s : State) : Host.Outcome State Fault Refusal :=
  issueY .S y (setReg .S d.toNat fun s => BitVec.ofNat 64 (window (s.x .S a.toNat)).code) s

/-- SPCAST (R76). -/
def execSpcast (y : Sync) (d a : BitVec 5) (w : BitVec 2) (s : State) : Host.Outcome State Fault Refusal :=
  issueY .S y (setReg .S d.toNat fun s =>
    match s.core.crew with
    | none => 0
    | some c => spcast c.segBase c.segSize w.toNat (s.x .S a.toNat)) s

/-! ## Barrier objects (R84 to R88) -/

def objPhase (o : Word) : Bool := o.getLsbD 63
def objErr (o : Word) : Nat := bits o.toNat 59 56
def objExpect (o : Word) : Nat := bits o.toNat 55 28
def objArrive (o : Word) : Nat := bits o.toNat 27 0
def mkObj (phase : Bool) (err expect arrive : Nat) : Word :=
  BitVec.ofNat 64 ((if phase then 2 ^ 63 else 0) + err % 16 * 2 ^ 56 + expect % 2 ^ 28 * 2 ^ 28 + arrive % 2 ^ 28)

def Core.obj (c : Core) (id : Nat) : Word := Tab.get 0 c.barriers id
def Core.setObj (c : Core) (id : Nat) (o : Word) : Core := { c with barriers := Tab.set 0 c.barriers id o }

/-- BINIT (R86). -/
def execBinit (y : Sync) (r : BitVec 5) (id : BitVec 11) (s : State) : Host.Outcome State Fault Refusal :=
  issueY .S y (fun p s => whenOlder .S p s fun s =>
    let x := (s.x .S r.toNat).toNat
    let n := if x / 2 ^ 28 ≠ 0 then 0x0FFFFFFF else x
    .done (s.mapCore fun c => c.setObj id.toNat (mkObj (objPhase (c.obj id.toNat)) 0 n 0)) .fall) s

/-- BWAIT (R88). -/
def execBwait (y : Sync) (ph : Bool) (id : BitVec 11) (s : State) : Host.Outcome State Fault Refusal :=
  issueY .S y (fun _ s => if objPhase (s.core.obj id.toNat) = ph then .done (s.observe id.toNat) .fall else .stall scBar false s) s

/-- BTRY (R88). -/
def execBtry (y : Sync) (d : BitVec 4) (ph : Bool) (id : BitVec 11) (s : State) : Host.Outcome State Fault Refusal :=
  issueY .S y (fun p s =>
    let o := s.core.obj id.toNat
    .done ((s.observe id.toNat).writeX .S p d.toNat (BitVec.ofNat 64 ((if objPhase o = ph then 1 else 0) + objErr o * 16))) .fall) s

/-! ## Armed operations (R89) -/

/-- The 64 bytes of a descriptor at an offset of the focus core's scratchpad. -/
def State.homeBytes (s : State) (off n : Nat) : List Byte := (List.range n).map fun k => s.home (off + k)

/-- Whether an armed-operation descriptor may be armed: KIND and the reserved bits of R89's table, those of FLAGS and bytes 7:3. A SCOPE byte that is no code of BARV, and reserved
bits inside HANDLE and TRANSFER, do not keep it from being armed (log entry 96). -/
def armOk (d : List Byte) : Bool :=
  (field d 0 1 == 1 || field d 0 1 == 2) && field d 1 1 < 2 && field d 3 5 == 0

/-- Sets INV of S through the pending writes. -/
def State.setInv (s : State) (e : Eng) (p : Pos) : State := s.write e p 1 fun v => v.orFlags flagINV

/-- ARM (R89). -/
def execArm (y : Sync) (r a : BitVec 5) (slot : BitVec 6) (s : State) : Host.Outcome State Fault Refusal :=
  issueY .S y (fun p s => whenOlder .S p s fun s =>
    let off := (s.x .S r.toNat).toNat / 64 * 64
    let x := (s.x .S a.toNat).toNat
    let d := s.homeBytes off 64
    banked .S (s.here ((List.range 64).map (off + ·))) s <|
    if off < Config.scratchBytes ∧ armOk d then
      .done (s.mapCore fun c => { c with armed := c.armed.filter (fun e => e.1 < slot.toNat) ++
        [(slot.toNat, ⟨x % 2048, x.testBit 11, d⟩)] ++ c.armed.filter (fun e => slot.toNat < e.1) }) .fall
    else .done ((s.mapCore fun c => { c with armed := c.armed.filter fun e => e.1 != slot.toNat }).setInv .S p) .fall) s

/-- DISARM (R89). -/
def execDisarm (y : Sync) (slot : BitVec 6) (s : State) : Host.Outcome State Fault Refusal :=
  issueY .S y (fun p s => whenOlder .S p s fun s =>
    .done (s.mapCore fun c => { c with armed := c.armed.filter fun e => e.1 != slot.toNat }) .fall) s

/-! ## Tables and queues (R91 to R93) -/

/-- The group of formats an AFMT or BFMT code belongs to (R34, R58); TER2 goes with INT8 and UINT8. -/
def pairClass : Nat → Nat
  | 0x01 | 0x02 => 1
  | 0x03 | 0x04 => 2
  | 0x10 | 0x11 => 3
  | 0x09 | 0x0A => 4
  | 0x12 => 5
  | 0x08 => 6
  | _ => 0

/-- Whether an entry accepts AFMT with BFMT (R58). -/
def pairOk (a b : Nat) : Bool := if a = 0x06 then pairClass b == 4 else pairClass a != 0 && pairClass a == pairClass b

/-- Whether an entry accepts a DFMT (R58): every code of R34 but E8M0, TER2 and INT64. -/
def dfmtOk (d : Nat) : Bool := [0x00, 0x01, 0x02, 0x03, 0x04, 0x08, 0x09, 0x0A, 0x0B, 0x0C, 0x10, 0x11, 0x12].contains d

/-- The entry a value stores, field by field, and whether a field was replaced (R57, R58). -/
def fmtStore (v : BitVec 32) : BitVec 32 × Bool :=
  let a := bits v.toNat 28 24
  let b := bits v.toNat 23 19
  let d := bits v.toNat 18 14
  let r := bits v.toNat 13 11
  let ab := pairOk a b
  let a' := if ab then a else 0x02
  let b' := if ab then b else 0x02
  let d' := if dfmtOk d then d else 0
  let r' := if r = 5 ∨ r = 6 then 0 else r
  (BitVec.ofNat 32 (a' * 2 ^ 24 + b' * 2 ^ 19 + d' * 2 ^ 14 + r' * 2 ^ 11 + bits v.toNat 10 10 * 2 ^ 10), !ab || !dfmtOk d || r == 5 || r == 6)

/-- An entry the descriptor does not initialise (R57). -/
def fmtDefault : BitVec 32 := 0x02100000

/-- FMTW (R91). -/
def execFmtw (y : Sync) (r : BitVec 5) (n : BitVec 6) (s : State) : Host.Outcome State Fault Refusal :=
  issueY .S y (fun p s => whenOlder .S p s fun s =>
    let v := fmtStore ((s.x .S r.toNat).setWidth 32)
    let s' := s.mapCore fun c => { c with fmt := Tab.set fmtDefault c.fmt n.toNat v.1 }
    .done (if v.2 then s'.setInv .S p else s') .fall) s

/-- PWLW (R92): the 32-byte record, or zeros beyond the scratchpad. -/
def execPwlw (y : Sync) (r : BitVec 5) (n : BitVec 6) (s : State) : Host.Outcome State Fault Refusal :=
  issueY .S y (fun p s => whenOlder .S p s fun s =>
    let off := bits (s.x .S r.toNat).toNat 20 5 * 32
    let b := if Config.scratchBytes ≤ off then List.replicate 32 (0 : Byte) else s.homeBytes off 32
    banked .S (s.here ((List.range 32).map (off + ·))) s <| .done (s.mapCore fun c => { c with pwl := Tab.setAll 0 c.pwl (b.zipIdx.map fun k => (32 * n.toNat + k.2, k.1)) }) .fall) s

/-- A queue control word taken apart (R93); `none` when a reserved bit is set or the region passes the scratchpad's end. -/
def qcw? (w : Word) : Option Queue :=
  let v := w.toNat
  let slot := bits v 35 24 * 64
  let depth := bits v 41 36 + 1
  let base := bits v 20 6 * 64
  if bits v 63 42 ≠ 0 ∨ bits v 23 21 ≠ 0 ∨ bits v 5 0 ≠ 0 ∨ Config.scratchBytes < base + depth * slot then none
  else some ⟨base, slot, depth, 0, 0⟩

/-- Binds a pair, or unbinds it with slot size 0; `none` when the word is refused (R93). -/
def Core.bind? (c : Core) (p q : Nat) (w : Word) : Option Core :=
  let k := pairIdx p q
  let rest := c.queues.filter fun x => x.1 != k
  match qcw? w with
  | none => none
  | some n =>
    if n.slot = 0 then some { c with queues := rest } else
    if rest.any fun x => n.base < x.2.base + x.2.slot * x.2.depth && x.2.base < n.base + n.slot * n.depth then none else
    some { c with queues := rest.filter (fun x => x.1 < k) ++ [(k, n)] ++ rest.filter (fun x => k < x.1) }

/-- QBIND (R93): slice-private, so it never waits (R275). -/
def execQbind (y : Sync) (r : BitVec 5) (p q : Eng) (s : State) : Host.Outcome State Fault Refusal :=
  issueY .S y (fun pos s =>
    match s.core.bind? p.code q.code (s.x .S r.toNat) with
    | some c => .done { s with core := c } .fall
    | none => .done (s.setInv .S pos) .fall) s

/-! ## The follow path and leaving the kernel -/

/-- Values that a follow FIFO holds or that older SENDs will append (R69, R225). -/
def State.followLoad (s : State) (t : Eng) : Nat :=
  (Tab.get [] s.core.follow t.code).length + ((s.eng .S).flights.filter fun f => match f.send with | some (k, _) => k == t | none => false).length

/-- SEND (R69): appended in slice order (R225). -/
def execSend (y : Sync) (r : BitVec 5) (t : Eng) (s : State) : Host.Outcome State Fault Refusal :=
  issue .S y.wait.toList y.sig.toList (some (t, s.x .S r.toNat))
    (fun _ s => if 32 ≤ s.followLoad t then .stall scTokf true s else .done s .fall) s

/-- SVC (R94): stops the crew just after itself. -/
def execSvc (y : Sync) (code : BitVec 11) (s : State) : Host.Outcome State Fault Refusal :=
  issueY .S y (fun _ s => .trap ⟨0x10, 0, code.setWidth 64, 0, 0⟩ true s) s

/-- BKPT (R95). -/
def execBkpt (y : Sync) (code : BitVec 11) (s : State) : Host.Outcome State Fault Refusal :=
  issueY .S y (fun _ s => .trap ⟨0x11, 0, code.setWidth 64, 0, 0⟩ true s) s

/-- HALT (R96): it pops its wait token as it starts (R13) and waits for the other engines; HALT_COMPLETE ends the crew. -/
def execHalt (y : Sync) (s : State) : Host.Outcome State Fault Refusal :=
  issue .S (s.waitsOf .S y) y.sig.toList none (fun p s =>
    if (s.eng .S).begun then .stall scOther (!Eng.all.all fun b => s.reached b p) s
    else .begin ((s.mapCore fun c => { c with halting := true }).mapEng .S fun g => g.count scOther)) s

end Sys2Proof.Machine
end

