-- ==== Sys2Proof/Machine/Network.lean ====
section
/-!
DEFINITION. The barrier networks, armed operations and transfers (R85 to R90, R115, R116, R264, R270, R370 to R377).
-/
namespace Sys2Proof.Machine

/-! ## Handles (R85) and jobs (R371) -/

/-- Number in its package of the core that bits 32:11 of a handle name. -/
def destCore (dest : Nat) : Nat := bits dest 8 7 * 96 + bits dest 6 2 * 4 + bits dest 1 0
def destPkg (dest : Nat) : Nat := dest / 2 ^ 9
/-- Bits 32:11 of a handle that names core `k` of package `pkg`. -/
def mkDest (pkg k : Nat) : Nat := pkg * 2 ^ 9 + k / 96 * 2 ^ 7 + k % 96 / 4 * 4 + k % 4

/-- What bits 32:11 name for a handle used on core `k`: with REMOTE clear, that core itself. -/
def handleDest (k h : Nat) : Nat := if h.testBit 33 then bits h 32 11 else mkDest Config.pkgpos k

/-- The packages that a context of this tag reaches. -/
def jobPkgs (s : State) (tag : Nat) : List Nat :=
  match s.net.jobs.find? fun j => j.1 == tag with
  | some j => j.2.pkgs
  | none => [Config.pkgpos]

/-- The job tag of a core's crew; 0 for none. -/
def coreTag (s : State) (k : Nat) : Nat :=
  match (s.coreAt k).crew with
  | none => 0
  | some c => ((s.ctx? c.ctx).map (·.job)).getD 0

/-- Whether R87 drops an arrival or a transfer with this handle. -/
def dropped (s : State) (k h : Nat) : Bool :=
  let d := handleDest k h
  bits h 63 34 != 0 || 24 ≤ bits d 6 2 || !(jobPkgs s (coreTag s k)).contains (destPkg d) ||
    (destPkg d == Config.pkgpos && (s.coreAt (destCore d)).out)

/-- The smallest scope that holds two cores of the package. -/
def scopeOf (a b : Nat) : Nat := if a = b then 1 else if quadOf a = quadOf b then 2 else if dieOf a = dieOf b then 3 else 4

/-! ## Objects -/

/-- Writes a status into an object whose ERR is 0 (R377). -/
def State.setErr (s : State) (k id err : Nat) : State :=
  let c := s.coreAt k
  let o := c.obj id
  if objErr o ≠ 0 then s else s.putCore (c.setObj id (mkObj (objPhase o) err (objExpect o) (objArrive o)))

/-! ## Packets to other packages (R367, R369) -/

/-- Ports in service. -/
def State.inService (s : State) : List Nat := (s.net.ports.filter (·.2.service)).map (·.1)

/-- The port toward a package for a tag: of the links in service that lead to packages of the tag's set, a direct one, else the firmware's route; `none` without one (R369, R371). -/
def routePort (s : State) (tag pkg : Nat) : Option Nat :=
  let set := jobPkgs s tag
  let ok (p : Nat) : Bool := (Tab.get Port.reset s.net.ports p).service && set.contains (Tab.get Port.reset s.net.ports p).neighbour
  if !set.contains pkg then none else
  match s.net.ports.find? fun p => ok p.1 && p.2.neighbour == pkg with
  | some p => some p.1
  | none => let q := Config.nextHop set s.inService pkg; if ok q then some q else none

/-- The channel of data packets toward a package: the route's dateline class (R368). -/
def dataVc (s : State) (tag pkg : Nat) : Nat := Config.dateClass (jobPkgs s tag) s.inService pkg % 4

/-- The next SEQ of a flow, and the state after taking it. -/
def takeSeq (s : State) (key : Nat × Nat × Nat) : Nat × State :=
  let n := ((s.net.seqs.find? fun x => x.1 == key).map (·.2)).getD 0
  (n, { s with net := { s.net with seqs := s.net.seqs.filter (fun x => x.1 != key) ++ [(key, (n + 1) % 2 ^ 16)] } })

/-- Bytes of a packet: its header flit and payload flits (R366, R399). -/
def recBytes (p : Packet) : Nat := 64 * (1 + (p.payload.length + 63) / 64)

/-- Whether a marker carries nothing but a switch time. -/
def bareMarker (p : Packet) : Bool := p.acc == 0 && !p.count && p.obj == 0 && p.local?.isNone && !p.last && p.ctag == 0 && p.status == 0

/-- PARAM's bytes: of a gang marker its switch time in the low 8, the rest zero (R397); of any other packet the manual gives no layout (log entry 9). -/
def paramOf (p : Packet) : List Byte := if p.kind = 5 ∧ bareMarker p then toBytes 8 p.off else Config.paramBytes p

/-- A packet's header flit, the CRC included (R367). -/
def headerFlit (p : Packet) : List Byte :=
  let h := toBytes 2 p.tag ++ toBytes 1 p.kind ++ toBytes 1 p.vc ++ toBytes 4 p.dest ++ toBytes 4 p.src ++ toBytes 2 p.payload.length ++ toBytes 2 p.seq ++
    padTo 32 ((paramOf p).take 32) ++ List.replicate 12 0
  h ++ toBytes 4 (Config.crc32 (h ++ p.payload)).toNat

/-- A packet's record (R399). -/
def packetRecord (p : Packet) : List Byte := headerFlit p ++ padTo ((p.payload.length + 63) / 64 * 64) p.payload

/-- JCAP of a job (R372). -/
def State.jcap (s : State) (tag : Nat) : Nat := ((s.net.jobs.find? fun j => j.1 == tag).map (·.2.jcap)).getD 16384

/-- Whether the next router holds credits for a packet's channel and job (R368, R372). -/
def State.canEmit (s : State) (port : Nat) (p : Packet) : Bool :=
  let l := (Tab.get Port.reset s.net.ports port).ahead.filter fun a => a.1 == p.vc
  (l.map (·.2.2)).sum + recBytes p ≤ 32768 && ((l.filter fun a => a.2.1 == p.tag).map (·.2.2)).sum + recBytes p ≤ s.jcap p.tag

/-- Puts a packet on an output link. -/
def putOut (s : State) (port : Nat) (p : Packet) : State :=
  let x := Tab.get Port.reset s.net.ports port
  { s with net := { s.net with ports := Tab.set Port.reset s.net.ports port { x with out := x.out ++ [p], ahead := x.ahead ++ [(p.vc, p.tag, recBytes p)] } } }

/-- The firmware counts a discarded packet (R367). -/
def State.discardPacket (s : State) : State := { s with net := { s.net with discards := s.net.discards + 1 } }

/-- The packets of the injection port go out in the order they were handed over, each where its route and the next router's credits allow; one that waits keeps those of its job and
channel behind it. `held`: port, channel and tag of those that wait. Without a route a packet is lost (R369). -/
def flushOut : List Packet → List (Nat × Nat × Nat) → State → List Packet × State
  | [], _, s => ([], s)
  | p :: l, held, s =>
    match routePort s p.tag (destPkg p.dest) with
    | none => flushOut l held s.discardPacket
    | some q =>
      if held.contains (q, p.vc, p.tag) || !s.canEmit q p then
        let r := flushOut l ((q, p.vc, p.tag) :: held) s
        (p :: r.1, r.2)
      else flushOut l held (putOut s q p)

/-- What can leave the injection port leaves it. -/
def State.flush (s : State) : State :=
  let r := flushOut s.net.wait [] s
  { r.2 with net := { r.2.net with wait := r.1 } }

/-- Hands a packet to the router. -/
def State.inject (s : State) (p : Packet) : State := ({ s with net := { s.net with wait := s.net.wait ++ [p] } } : State).flush

/-! ## Capture by easy-all (R395 to R401, R405) -/

/-- The job of this tag is being switched out. -/
def State.switchingTag (s : State) (tag : Nat) : Bool := s.gang.state == 2 && s.gang.gtag == tag && tag != 0

/-- The parked entry of a tag. -/
def Gang.parked? (g : Gang) (tag : Nat) : Option (Nat × Park) := g.park.find? fun p => p.2.tag == tag && p.2.state != 0

/-- The timers of a tag's transfers and collectives stand still (R395). -/
def State.timersStop (s : State) (tag : Nat) : Bool := tag != 0 && (s.switchingTag tag || (s.gang.parked? tag).isSome)

/-- Collectives of the switched job: frozen ones, and those that its cores still hold. -/
def State.frozenAll (s : State) : List Frozen :=
  s.gang.frozen ++ (s.cores.filter fun c => coreTag s c.id == s.gang.gtag).flatMap fun c => c.colls.map fun k => ⟨c.id, k⟩

/-- Whether a record of `n` bytes still fits in the basin (R401, R405). -/
def State.basinFits (s : State) (n : Nat) : Bool :=
  0x1000 + 256 * s.frozenAll.length + ((s.gang.caps.flatMap (·.2)).map recBytes).sum + n ≤ s.gang.osize * 0x10000

/-- Raises vector 4 (R393). -/
def State.gangInterrupt (s : State) : State := s.interrupt 0 4

/-- Marks a job's saved state corrupt: at its completion while it is switched out, at once while it is parked (R405). -/
def State.markCorrupt (s : State) (tag cause : Nat) : State :=
  match s.gang.parked? tag with
  | some (i, p) =>
    let s1 := if p.cause = 0 then s.setMemBytes (p.base + 4) [2, BitVec.ofNat 8 cause] else s
    let q := { p with state := 6, cause := if p.cause = 0 then cause else p.cause }
    let g := { s1.gang with park := Tab.set Park.reset s1.gang.park i q }
    let mine := g.gtag == tag
    let s2 : State := { s1 with gang := { g with cause := if mine then q.cause else g.cause, state := if mine then 6 else g.state } }
    if p.state = 6 then s2 else s2.gangInterrupt
  | none => if s.gang.gtag = tag ∧ s.gang.cause = 0 then { s with gang := { s.gang with cause := cause } } else s

/-- Counts a late packet of a job, saturating (R393, R405). -/
def State.countLate (s : State) (tag : Nat) : State :=
  let g := s.gang
  { s with gang := { g with
      late := if g.gtag = tag then min 65535 (g.late + 1) else g.late
      park := g.park.map fun p => if p.2.tag = tag ∧ p.2.state ≠ 0 then (p.1, { p.2 with late := min 65535 (p.2.late + 1) }) else p } }

/-- A packet goes into the basin at a port, or is dropped with CAUSE 4 (R398, R405). -/
def State.capture (s : State) (port : Nat) (p : Packet) : State :=
  if s.basinFits (recBytes p) then { s with gang := { s.gang with caps := Tab.set [] s.gang.caps port (Tab.get [] s.gang.caps port ++ [p]) } }
  else (s.countLate p.tag).markCorrupt p.tag 4

/-- Sends a packet of this package, numbered in its flow; the caller has found a route. What a core of a job that is switched out hands over is captured at port 32. -/
def sendPacket (s : State) (p : Packet) : State :=
  let (n, s) := takeSeq s (p.src, p.dest, p.vc)
  let p := { p with seq := n }
  if s.switchingTag p.tag then s.capture 32 p else s.inject p

/-- A packet with everything but its kind, addresses and channel clear. -/
def Packet.blank (tag kind vc dest src : Nat) : Packet :=
  ⟨tag, kind, vc, dest, src, 0, 0, 0, false, 0, none, false, 0, 0, false, []⟩

/-! ## Transfers (R115, R116, R374) -/

/-- An operand block of SENDT taken apart. -/
structure Block where
  target : Nat
  doff   : Nat
  dpitch : Nat
  soff   : Nat
  spitch : Nat
  rows   : Nat
  rbytes : Nat
  acc    : Nat
  count  : Bool
  rsv    : Bool
  local? : Option Nat
  deriving DecidableEq, Repr

/-- The fields of a block. Bits that R115's table gives no field, and COUNT above 1, count as reserved ones (log entry 104). -/
def parseBlock (b : List Byte) : Block :=
  let d := field b 8 8
  let r := field b 16 8
  let sh := field b 24 8
  let l := field b 40 8
  let rb := bits sh 15 0
  { target := field b 0 8
    doff := bits d 20 0
    dpitch := if bits d 47 32 = 0 then rb else bits d 47 32
    soff := bits r 20 0
    spitch := if bits r 47 32 = 0 then rb else bits r 47 32
    rows := bits sh 31 16
    rbytes := rb
    acc := field b 32 1
    count := (field b 33 1).testBit 0
    rsv := bits d 31 21 != 0 || bits d 63 48 != 0 || bits r 31 21 != 0 || bits r 63 48 != 0 || bits sh 63 32 != 0 ||
      1 < field b 33 1 || field b 34 6 != 0 || bits l 14 11 != 0 || bits l 63 16 != 0
    local? := if l.testBit 15 then some (bits l 10 0) else none }

/-- Bytes of one element of a transfer (R115); 1 for a plain write without COUNT, for which the manual gives none (log entry 105). -/
def Block.esize (b : Block) : Nat := if b.acc = 2 then 2 else if b.acc = 0 ∧ ¬b.count then 1 else 4

/-- Whether a block's fields let it be sent (R116), its target aside. -/
def Block.ok (b : Block) : Bool :=
  !b.rsv && b.acc ≤ 3 && b.rbytes % b.esize == 0 &&
    (b.rows == 0 || b.rbytes == 0 ||
      ((b.rows - 1) * b.dpitch + b.rbytes + b.doff ≤ Config.scratchBytes && (b.rows - 1) * b.spitch + b.rbytes + b.soff ≤ Config.scratchBytes))

/-- Source and destination offsets of a block's elements, in the order of R106. -/
def Block.elems (b : Block) : List (Nat × Nat) :=
  (List.range b.rows).flatMap fun r => (List.range (b.rbytes / b.esize)).map fun k =>
    (b.soff + r * b.spitch + k * b.esize, b.doff + r * b.dpitch + k * b.esize)

/-- Whether the block moves nothing. -/
def Block.empty (b : Block) : Bool := b.rows == 0 || b.rbytes == 0

/-- The packets of a transfer to another package (R374): at most 4,096 bytes of one row each. -/
def Block.packets (b : Block) (base : Packet) (read : Nat → Byte) (id : Nat) : List Packet :=
  let per := 4096 / b.esize * b.esize
  let rows := (List.range b.rows).flatMap fun r => (List.range ((b.rbytes + per - 1) / per)).map fun k =>
    let off := k * per
    let n := min per (b.rbytes - off)
    { base with off := b.doff + r * b.dpitch + off, ctag := id, payload := (List.range n).map fun j => read (b.soff + r * b.spitch + off + j) }
  rows.dropLast ++ (rows.getLast?.map fun p => { p with last := true }).toList

/-- Starts a transfer of core `k` (R116, R374); `crew`: the position of the crew's SENDT. Answers the state and whether the write engine's INV is set. -/
def startTransfer (s : State) (k : Nat) (b : Block) (crew : Option Pos) : State × Bool :=
  let tag := coreTag s k
  let id := bits b.target 10 0
  if !b.ok || dropped s k b.target then (s.setErr k id 1, true) else
  let dest := handleDest k b.target
  let x : Xfer := ⟨s.net.nextXfer, k, tag, dest, id, b.local?, crew, none, s.podtime⟩
  let read := fun o => Tab.get (0 : Byte) (s.coreAt k).scratch o
  let s1 : State := { s with net := { s.net with xfers := s.net.xfers ++ [x], nextXfer := s.net.nextXfer + 1 } }
  if b.empty then ({ s1 with net := { s1.net with acks := s1.net.acks ++ [⟨x.id, 0⟩] } }, false) else
  if destPkg dest = Config.pkgpos then
    let es := b.elems.map fun e =>
      (⟨destCore dest, e.2, (List.range b.esize).map fun j => read (e.1 + j), b.acc, b.count, id, tag, mkDest Config.pkgpos k, x.id, false, false,
        destCore dest != k && quadOf (destCore dest) == quadOf k⟩ : Elem)
    let es := es.dropLast ++ (es.getLast?.map fun e => { e with last := true }).toList
    ({ s1 with net := { s1.net with elems := s1.net.elems ++ es } }, false)
  else
    if (routePort s tag (destPkg dest)).isNone then (s.setErr k id 4, false) else
    let base := { Packet.blank tag 1 (dataVc s tag (destPkg dest)) dest (mkDest Config.pkgpos k) with acc := b.acc, count := b.count, obj := id, local? := b.local? }
    ((b.packets base read x.id).foldl sendPacket s1, false)

/-! ## Arrivals (R87, R90) -/

/-- Sends one arrival of core `k` at a scope, widened to hold the target; a dropped one sets ERR (R87, R376). A scope byte of an armed operation that is no code of BARV counts as the
number it is (log entry 96). -/
def sendArrival (s : State) (k scope h : Nat) : State :=
  let id := bits h 10 0
  if dropped s k h then s.setErr k id 1 else
  let dest := handleDest k h
  if destPkg dest = Config.pkgpos then
    { s with net := { s.net with arrivals := s.net.arrivals ++ [⟨max scope (scopeOf k (destCore dest)), destCore dest, id, k⟩] } }
  else
    let tag := coreTag s k
    if (routePort s tag (destPkg dest)).isNone then s.setErr k id 4 else
      let x : Xfer := ⟨s.net.nextXfer, k, tag, dest, id, none, none, none, s.podtime⟩
      let s : State := { s with net := { s.net with xfers := s.net.xfers ++ [x], nextXfer := s.net.nextXfer + 1 } }
      sendPacket s { Packet.blank tag 2 4 dest (mkDest Config.pkgpos k) with obj := id, ctag := x.id, last := true }

/-- Sets INV of a core's write engine, outside any instruction. -/
def State.unitInv (s : State) (k : Nat) : State :=
  let c := s.coreAt k
  s.putCore { c with engW := { c.engW with view := c.engW.view.orFlags flagINV, past := c.engW.past.map fun w => { w with before := w.before.orFlags flagINV } } }

/-- Fires one armed operation of core `k` (R89). The reserved bits of its HANDLE and TRANSFER are judged here (log entry 96). -/
def fireArmed (s : State) (k : Nat) (a : Armed) : State :=
  if field a.desc 0 1 = 1 then sendArrival s k (field a.desc 2 1) (field a.desc 8 8)
  else
    let r := startTransfer s k (parseBlock (a.desc.drop 16)) none
    if r.2 then r.1.unitInv k else r.1

/-- Applies one arrival to object `id` of core `k` (R87), firing what is armed on the new phase in ascending slot order (R89). Inside the package the object takes it whatever crew the
core runs (log entry 106). -/
def applyArrival (s : State) (k id : Nat) : State :=
  let c := s.coreAt k
  let o := c.obj id
  let n := objArrive o + 1
  if n < max (objExpect o) 1 then s.putCore (c.setObj id (mkObj (objPhase o) (objErr o) (objExpect o) n)) else
  let ph := !objPhase o
  let fired := c.armed.filter fun a => a.2.obj == id && a.2.phase == ph
  let c := { c.setObj id (mkObj ph (objErr o) (objExpect o) 0) with
    colls := c.colls.map fun k => if k.cdesc.recv = id then { k with flips := k.flips + 1 } else k
    armed := c.armed.filter fun a => !(a.2.obj == id && a.2.phase == ph && !(field a.2.desc 1 1).testBit 0) }
  fired.foldl (fun s a => fireArmed s k a.2) (s.putCore c)

/-- BARV (R87): a release at its scope over all classes, then one arrival. -/
def execBarv (y : Sync) (r : BitVec 5) (sc : Scope) (s : State) : Host.Outcome State Fault Refusal :=
  issueY .S y (fun p s => whenOlder .S p s fun s =>
    if s.core.olderAny p || s.crewSends p then .stall scMem false s else
    .done (sendArrival s s.core.id sc.code (s.x .S r.toNat).toNat) .fall) s

/-- BARRIER_ARRIVAL_APPLY (R87, R90): of the arrivals on their way, the earliest on the narrowest network of its object. -/
def execBarrierArrivalApply (s : State) : Host.Outcome State Fault Refusal :=
  match s.net.arrivals with
  | [] => .next s
  | a :: l =>
    let b := (l.filter fun x => x.core == a.core && x.obj == a.obj).foldl (fun m x => if x.scope < m.scope then x else m) a
    .next (applyArrival { s with net := { s.net with arrivals := s.net.arrivals.erase b } } b.core b.obj)

/-- Whether packets of a core's own SENDTs wait at the injection port (R368). -/
def State.sendWaits (s : State) (k : Nat) : Bool :=
  s.net.wait.any fun p => p.kind == 1 && s.net.xfers.any fun x => x.id == p.ctag && x.core == k && x.crew.isSome

/-- SENDT (R115, R116): its data is handed to the network from its own clock on, and it ends once all of it is handed over; what waits for credits counts in SC_NET (R368). -/
def execSendt (y : Sync) (x : BitVec 4) (s : State) : Host.Outcome State Fault Refusal :=
  issue .W (s.waitsOf .W y) y.sig.toList none (fun p s =>
    if (s.eng .W).begun then (if s.sendWaits s.core.id then .stall scNet false s else .done s .fall) else
    whenOlder .W p s fun s =>
    let off := bits (s.x .W x.toNat).toNat 20 6 * 64
    if Config.scratchBytes ≤ off then .done (s.setInv .W p) .fall else
    let b := parseBlock (s.homeBytes off 48)
    let r := startTransfer s s.core.id b (some p)
    banked .W (s.here ((List.range 48).map (off + ·) ++ b.elems.map (·.1))) s <|
    if r.1.sendWaits s.core.id then .begin r.1
    else .done (if r.2 then r.1.setInv .W p else r.1) .fall) s

/-! ## Elements and acknowledgements -/

/-- Whether core `k` runs a crew that data of this tag may reach (R373). -/
def delivers (s : State) (k tag : Nat) : Bool := (s.coreAt k).crew.isSome && coreTag s k == tag

/-- Acknowledges a transfer to its source: at once inside the package, by a packet on VC 5 to another (R374). -/
def acknowledge (s : State) (e : Elem) (status : Nat) : State :=
  if e.port then
    if (routePort s e.tag (destPkg e.src)).isNone then s else
    sendPacket s { Packet.blank e.tag 4 5 e.src (mkDest Config.pkgpos e.core) with ctag := e.xfer, status := status }
  else { s with net := { s.net with acks := s.net.acks ++ [⟨e.xfer, status⟩] } }

/-- Applies an element at its target's bank as a write or an add, then its counting arrival (R116, R130, R270). -/
def applyElem (s : State) (e : Elem) : State :=
  let l := s.net.elems.erase e
  let s1 : State := { s with net := { s.net with elems := l } }
  if !delivers s e.core e.tag then
    acknowledge { s1 with net := { s1.net with elems := l.filter fun x => !(x.xfer == e.xfer && x.src == e.src) } } e 5 else
  let c := s.coreAt e.core
  let s2 :=
    if (List.range e.bytes.length).any fun j => c.inQueue (e.off + j) then s1.setErr e.core e.obj 1 else
    let old := (List.range e.bytes.length).map fun j => Tab.get (0 : Byte) c.scratch (e.off + j)
    let new := toBytes e.bytes.length (transformAdd e.acc (ofBytes old) (ofBytes e.bytes))
    let mine := c.colls.any fun k => k.cdesc.recv == e.obj
    let h := if mine then c else c.hit ((List.range e.bytes.length).map (e.off + ·))
    let s2 := s1.putCore { h with scratch := Tab.setAll 0 c.scratch (new.zipIdx.map fun b => (e.off + b.2, b.1)) }
    if e.count then applyArrival s2 e.core e.obj else s2
  if e.last then acknowledge s2 e 0 else s2

/-- The elements that may be applied next: of each flow, from one source to one core, the first (R116, R369). -/
def firstElems : List Elem → List Elem
  | [] => []
  | e :: l => e :: (firstElems l).filter fun x => !(x.src == e.src && x.core == e.core)

/-- The port at which an element arrives, as a requester of its bank (R268). -/
def Elem.req (e : Elem) : Nat := if !e.port && e.quad then 5 else 6

/-- Applies an element that its bank serves: the bank has served its port last (R269). -/
def applyTurn (s : State) (e : Elem) : State :=
  let s := applyElem s e
  s.putCore ((s.coreAt e.core).served e.req [e.off])

/-- The elements that may be applied next and whose port's turn has come at their bank (R269). -/
def State.turnElems (s : State) : List Elem := (firstElems s.net.elems).filter fun e => !s.behind e.req (e.core, bankOf e.off)

/-- SENDT_ELEMENT_APPLY (R116, R90, R269): of the elements that may be applied, the one at the lowest bank. -/
def execSendtElementApply (s : State) : Host.Outcome State Fault Refusal :=
  match s.turnElems with
  | [] => .next s
  | e :: l => .next (applyTurn s (l.foldl (fun m x => if bankOf x.off < bankOf m.off then x else m) e))

/-- The abort message a unit sends to a member of a collective (R389). -/
def sendAbort (s : State) (core tag ctag member : Nat) : State :=
  if (routePort s tag member).isNone then s else
  sendPacket s { Packet.blank tag 3 5 (mkDest member core) (mkDest Config.pkgpos core) with acc := 2, ctag := ctag, last := true }

/-- Sends the aborts of a collective to its other members. -/
def sendAborts (s : State) (core : Nat) (k : Coll) : State :=
  match k.ex? with
  | none => s
  | some x => x.grp.foldl (fun s m => if m = Config.pkgpos then s else sendAbort s core (coreTag s core) k.tag m) s

/-- Aborts a collective of a core with a status (R389): aborts go out and sending stops; an aborted one stands. -/
def abortColl (s : State) (core : Nat) (k : Coll) (status : Nat) : State :=
  if k.status ≠ 0 then s else
  let s := sendAborts s core k
  let c := s.coreAt core
  s.putCore { c with colls := c.colls.map fun j => if j = k then { j with status := status } else j }

/-- Ends a transfer with a status (R374, R376, R389): LOCAL's arrival, or the status where it belongs. -/
def endTransfer (s : State) (x : Xfer) (status : Nat) : State :=
  let s : State := { s with net := { s.net with xfers := s.net.xfers.filter fun y => y.id != x.id } }
  match x.coll with
  | some t =>
    let c := s.coreAt x.core
    let s := s.putCore { c with colls := c.colls.map fun k => if k.id = t then { k with sent := k.sent - 1 } else k }
    if status = 0 then s else
    match (s.coreAt x.core).colls.find? fun k => k.id == t with
    | some k => abortColl s x.core k status
    | none => s
  | none =>
    if status ≠ 0 then s.setErr x.core x.obj status else
    match x.local? with
    | some id => applyArrival s x.core id
    | none => s

/-- TRANSFER_ACKNOWLEDGEMENT (R374). -/
def execTransferAcknowledgement (s : State) : Host.Outcome State Fault Refusal :=
  match s.net.acks with
  | [] => .next s
  | a :: l =>
    let s1 : State := { s with net := { s.net with acks := l } }
    match s.net.xfers.find? fun x => x.id == a.xfer with
    | some x => .next (endTransfer s1 x a.status)
    | none => .next s1

/-- A transfer unacknowledged for 10 ms whose timer runs (R376, R395). -/
def State.lost? (s : State) : Option Xfer := s.net.xfers.find? fun x => x.since + 10000000 ≤ s.podtime && !s.timersStop x.tag

/-- ACK_TIMEOUT (R376): the oldest transfer unacknowledged for 10 ms. -/
def execAckTimeout (s : State) : Host.Outcome State Fault Refusal :=
  match s.lost? with
  | some x => .next (endTransfer s x 6)
  | none => .next s

end Sys2Proof.Machine
end

