-- ==== Sys2Proof/Machine/LoadWrite.lean ====
section
/-!
DEFINITION. The load and write engines' own instructions (R99 to R114, R117 to R120); SENDT stands with the network.
-/
namespace Sys2Proof.Machine

/-! ## Operands (R99 to R101) -/

/-- A register pair and the plane register taken apart (R100). -/
structure Shape where
  soff   : Nat
  spitch : Nat
  mpitch : Int
  rows   : Nat
  rbytes : Nat
  planes : Nat
  splane : Nat
  mplane : Int
  deriving DecidableEq, Repr

/-- The shape a pair gives; `z` is the plane register of the three-dimensional forms. -/
def shapeOf (x0 x1 : Word) (z : Option Word) : Shape :=
  let rb := bits x1.toNat 15 0
  { soff := bits x0.toNat 20 0
    spitch := if bits x0.toNat 47 32 = 0 then rb else bits x0.toNat 47 32
    mpitch := signed 32 (bits x1.toNat 63 32)
    rows := bits x1.toNat 31 16
    rbytes := rb
    planes := match z with | none => 1 | some v => bits v.toNat 15 0
    splane := match z with | none => 0 | some v => bits v.toNat 31 16 * 64
    mplane := match z with | none => 0 | some v => signed 32 (bits v.toNat 63 32) }

/-- The shape of the pair `p` of engine `e`. -/
def State.shape (s : State) (e : Eng) (p : BitVec 3) (z : Option (BitVec 4)) : Shape :=
  shapeOf (s.x e (2 * p.toNat)) (s.x e (2 * p.toNat + 1)) (z.map fun r => s.x e r.toNat)

/-- Rows of a shape in access order (R106): memory offset from xm and scratchpad offset. -/
def Shape.lines (h : Shape) : List (Int × Nat) :=
  (List.range h.planes).flatMap fun (z : Nat) => (List.range h.rows).map fun (r : Nat) => ((z : Int) * h.mplane + (r : Int) * h.mpitch, h.soff + z * h.splane + r * h.spitch)

def Shape.empty (h : Shape) : Bool := h.planes == 0 || h.rows == 0 || h.rbytes == 0

/-- The queue slot a word with Q set names (R101), and none for home scratchpad; `ahead`: pops of the pair that W has still to make before the word's own. -/
def qSlot (s : State) (e : Eng) (y : Sync) (q : Bool) (ahead : Eng → Nat) : Chk (Option (Nat × Queue)) :=
  if !q then .ok none else
  let pair := if e = .L then y.sig.map fun t => (Eng.L, t, true) else y.wait.map fun d => (d, Eng.W, false)
  match pair with
  | none => .bad 0x0A 0xFF 0
  | some (d, t, prod) =>
    match s.core.queue? d t with
    | none => .bad 0x0A (pairIdx d.code t.code) 0
    | some k => .ok (some (k.base + k.slot * (if prod then k.prod else (k.cons + ahead d) % k.depth), k))

/-! ## Access order and checks (R102) -/

/-- One byte of an instruction's access order. -/
inductive Touched where
  | mem (a : Word) (mis : Bool)      -- a memory byte; whether its element is misaligned
  | spad (off : Int)                 -- a byte of home scratchpad or of the slot
  | list (off : Nat) (mis : Bool)    -- a byte of an index list
  deriving DecidableEq, Repr

/-- What an instruction touches: a shape fault, or its bytes in access order. -/
inductive Plan where
  | shape (faddr : Word)
  | bytes (l : List Touched)
  deriving DecidableEq, Repr

/-- The place of a checked byte. -/
inductive Place where
  | mem (l : Loc)
  | spad (off : Nat)
  | list (off : Nat)
  deriving DecidableEq, Repr

/-- Checks 1 to 4 of one byte. -/
def checkAcc (s : State) (got : List Walked) (need : Need) (ptr : Word) (slot : Option (Nat × Queue)) : Touched → Chk Place
  | .mem a mis => (checkByte s got need ptr mis a).bind fun l => .ok (.mem l)
  | .spad off =>
    match slot with
    | none => (checkHome s off).bind fun o => .ok (.spad o)
    | some q => (checkSlot q.2 q.1 off).bind fun o => .ok (.spad o)
  | .list off mis => if mis then .bad 0x04 0 (homeAddr off) else (checkHome s off).bind fun o => .ok (.list o)

/-- The places of an instruction's bytes, by kind. -/
def Places.of (l : List Place) : Places where
  mem := l.filterMap fun p => match p with | .mem x => some x | _ => none
  spad := l.filterMap fun p => match p with | .spad x => some x | _ => none
  list := l.filterMap fun p => match p with | .list x => some x | _ => none

/-- A fault address for a byte an instruction's pointer names (R284). -/
def ptrAddr (a : Word) : Word :=
  match window a with
  | .global va => BitVec.ofNat 64 va
  | .own .. | .quad .. => spadAddr a (bits a.toNat 20 0)
  | _ => a

/-- Carries out every check of an instruction (R102), that of its shape first; one that touches nothing resolves without a fault. R102 does not place R101's queue binding among its checks:
it is looked at after the shape and before any byte (log entry 116). -/
def runPlan (s : State) (got : List Walked) (e : Eng) (y : Sync) (q : Bool) (ahead : Eng → Nat) (need : Need) (ptr : Word) (pl : Plan) : Chk Places :=
  match pl with
  | .bytes [] => .ok {}
  | .shape a => .bad 0x09 0 a
  | .bytes l => (qSlot s e y q ahead).bind fun slot => (Chk.each (checkAcc s got need ptr slot) l).bind fun ps => .ok (Places.of ps)

/-- The bytes of a tile (R106); `mis`: the pointer is misaligned for the instruction's elements. -/
def tilePlan (h : Shape) (ptr : Word) (mis : Bool) : Plan :=
  if h.empty then .bytes [] else
  .bytes (h.lines.flatMap fun r => (List.range h.rbytes).flatMap fun b =>
    [.mem (ptr + BitVec.ofInt 64 (r.1 + (b : Nat))) mis, .spad (r.2 + b : Nat)])

/-- The bytes of a structured tile (R108): a row's kept elements and metadata, then its dense row. -/
def sparsePlan (h : Shape) (es : Nat) (ptr : Word) : Plan :=
  if h.empty then .bytes [] else
  if h.rbytes % (8 * es) ≠ 0 then .shape (ptrAddr ptr) else
  .bytes (h.lines.flatMap fun r =>
    ((List.range (h.rbytes / 2 + h.rbytes / es / 8)).map fun b => Touched.mem (ptr + BitVec.ofInt 64 (r.1 + (b : Nat))) false) ++
    (List.range h.rbytes).map fun b => .spad (r.2 + b : Nat))

/-- COUNT and IOFF of the shape register of LDG and STS (R111). -/
def gatherCount (x1 : Word) : Nat := bits x1.toNat 47 32
def gatherList (x1 : Word) : Nat := bits x1.toNat 20 0

/-- The index values of a gather or scatter. -/
def State.indexList (s : State) (x1 : Word) : List Nat := (List.range (gatherCount x1)).map fun i => s.homeNat (gatherList x1 + 4 * i) 4

/-- The bytes of a gather or scatter (R111). -/
def gatherPlan (s : State) (x0 x1 ptr : Word) (es : Nat) : Plan :=
  let io := gatherList x1
  .bytes ((List.range (gatherCount x1)).flatMap fun i =>
    let idx := signed 32 (s.homeNat (io + 4 * i) 4)
    let a := ptr + BitVec.ofInt 64 (idx * es)
    ((List.range 4).map fun b => Touched.list (io + 4 * i + b) (io % 4 != 0)) ++
    ((List.range es).map fun b => Touched.mem (a + BitVec.ofNat 64 b) (a.toNat % es != 0)) ++
    (List.range es).map fun b => .spad (bits x0.toNat 20 0 + i * es + b : Nat))

/-! ## The load engine -/

/-- Whether a byte of the core's scratchpad still waits for older load data of the engine (R275). -/
def State.unfilled (s : State) (off : Nat) : Bool := s.core.loads.any fun l => l.writes.any fun w => w.1 == off

/-- The same of a place. -/
def State.unfilledLoc (s : State) : Loc → Bool
  | .mem _ => false
  | .spad k off => k == s.core.id && s.unfilled off

/-- A load's transfers one after another, each reading memory places and writing scratchpad bytes, and whether one sets INV: a source byte in the core's own scratchpad is read as the
transfers before have left it (R106). -/
def overlay (s : State) (f : List Byte → List Byte × Bool) (units : List (List Loc × List Nat)) : List (Nat × Byte) × Bool :=
  units.foldl (fun t u =>
    let rd (l : Loc) : Byte := match l with
      | .mem _ => s.byteAt l
      | .spad k off => if k = s.core.id then (((t.1.filter fun w => w.1 == off).getLast?).map (·.2)).getD (s.byteAt l) else s.byteAt l
    let r := f (u.1.map rd)
    (t.1 ++ u.2.zip r.1, t.2 || r.2)) ([], false)

/-- Whether a place lies in the focus core's scratchpad. -/
def State.isOwn (s : State) : Loc → Bool
  | .mem _ => false
  | .spad k _ => k == s.core.id

/-- What a load writes, and whether it sets INV: `k` units, each of `m` memory bytes that `f` makes into `n` scratchpad bytes. -/
def loadUnits (s : State) (f : List Byte → List Byte × Bool) (k m n : Nat) (ps : Places) : List (Nat × Byte) × Bool :=
  let unit (i : Nat) : List Loc × List Nat := ((ps.mem.drop (m * i)).take m, (ps.spad.drop (n * i)).take n)
  if ps.mem.any s.isOwn then overlay s f ((List.range k).map unit) else
  let rows := (List.range k).map fun i => ((unit i).2, f ((unit i).1.map s.byteAt))
  (rows.flatMap fun r => r.1.zip r.2.1, rows.any fun r => r.2.2)

/-- The bytes that a load writes which copies units of `n` bytes. -/
def loadBytes (s : State) (k n : Nat) (ps : Places) : List (Nat × Byte) := (loadUnits s (fun b => (b, false)) k n n ps).1

/-- A load's data phase once its checks are complete (R103, R262): older writes of its class first, then the values are fixed and travel to the scratchpad. -/
def loadData (p : Pos) (cls : Nat) (q : Bool) (ps : Places) (data : State → List (Nat × Byte) × Bool) (s : State) : Res :=
  if ps.mem.isEmpty then .done s .fall else
  if s.core.ldz.isSome || ps.list.any s.unfilled || ps.mem.any s.unfilledLoc then .stall scMem false s else
  afterStores p cls s fun s =>
    let d := data s
    let s' := s.mapCore fun c => { c with loads := c.loads ++ [⟨p, q, d.1⟩] }
    .fly (if d.2 then s'.write .L p 1 (fun v => v.orFlags flagINV) else s') .fall

/-- Issue of a load-engine transfer that copies bytes. -/
def loadTile (y : Sync) (m : BitVec 4) (q : Bool) (o : BitVec 4) (plan : State → Plan) (s : State) : Host.Outcome State Fault Refusal :=
  issueY .L y (fun p s =>
    afterCheck .L (ordOf o.toNat) s (runPlan s (s.eng .L).got .L y q (fun _ => 0) .read (s.x .L m.toNat) (plan s)) fun ps =>
      loadData p o.toNat q ps fun s => (if ps.mem.any s.isOwn then loadBytes s ps.mem.length 1 ps else ps.spad.zip (ps.mem.map s.byteAt), false)) s

/-- LDR (R104): x0 discards the value, after the access. -/
def execLdr (y : Sync) (d a : BitVec 4) (sx : Bool) (sz : Size) (o : BitVec 4) (s : State) : Host.Outcome State Fault Refusal :=
  issueY .L y (fun p s => roomFirst .L 1 <|
    afterCheck .L (ordOf o.toNat) s (checkMem s (s.eng .L).got .read (s.x .L a.toNat) sz.bytes) fun ps s =>
      if s.core.ldz.isSome || ps.mem.any s.unfilledLoc then .stall scMem false s else
      afterStores p o.toNat s fun s =>
        let v := s.locsNat ps.mem
        .done (s.writeX .L p d.toNat (if sx then BitVec.ofInt 64 (signed (8 * sz.bytes) v) else BitVec.ofNat 64 v)) .fall) s

/-- LDT (R106). -/
def execLdt (y : Sync) (m : BitVec 4) (p : BitVec 3) (q : Bool) (o : BitVec 4) (s : State) : Host.Outcome State Fault Refusal :=
  loadTile y m q o (fun s => tilePlan (s.shape .L p none) (s.x .L m.toNat) false) s
/-- LDT3 (R106). -/
def execLdt3 (y : Sync) (m : BitVec 4) (p : BitVec 3) (q : Bool) (o z : BitVec 4) (s : State) : Host.Outcome State Fault Refusal :=
  loadTile y m q o (fun s => tilePlan (s.shape .L p (some z)) (s.x .L m.toNat) false) s
/-- LDG (R111): its indices are read once the engine's older transfers have filled the list (R275). -/
def execLdg (y : Sync) (m : BitVec 4) (p : BitVec 3) (q : Bool) (o : BitVec 4) (sz : Size) (s : State) : Host.Outcome State Fault Refusal :=
  issueY .L y (fun pos s =>
    let x1 := s.x .L (2 * p.toNat + 1)
    if (s.eng .L).kept.isNone && s.core.loads.any fun l => l.writes.any fun w => gatherList x1 ≤ w.1 && w.1 < gatherList x1 + 4 * gatherCount x1
    then .stall scMem false s else
    afterCheck .L (ordOf o.toNat) s
      (runPlan s (s.eng .L).got .L y q (fun _ => 0) .read (s.x .L m.toNat) (gatherPlan s (s.x .L (2 * p.toNat)) x1 (s.x .L m.toNat) sz.bytes)) fun ps =>
      loadData pos o.toNat q ps fun s =>
        (if ps.mem.any s.isOwn then loadBytes s (gatherCount x1) sz.bytes ps else ps.spad.zip (ps.mem.map s.byteAt), false)) s

/-- Expands one row of 2:4-structured data (R108): the dense bytes, and whether a group has i0 ≥ i1. -/
def expandRow (es : Nat) (rb : Nat) (row : List Byte) : List Byte × Bool :=
  let n := rb / es
  let kept (k : Nat) : List Byte := (row.drop (k * es)).take es
  let gs := (List.range (n / 4)).map fun g =>
    let meta_ := bits (field row (rb / 2 + g / 2) 1) (4 * (g % 2) + 3) (4 * (g % 2))
    let i0 := meta_ % 4
    let i1 := meta_ / 4
    if i0 < i1 then
      ((List.range 4).flatMap fun j => if j = i0 then kept (2 * g) else if j = i1 then kept (2 * g + 1) else List.replicate es 0, false)
    else (List.replicate (4 * es) 0, true)
  (gs.flatMap (·.1), gs.any (·.2))

/-- LDX (R108). -/
def execLdx (y : Sync) (m : BitVec 4) (p : BitVec 3) (q : Bool) (o : BitVec 4) (sz : Size) (s : State) : Host.Outcome State Fault Refusal :=
  issueY .L y (fun pos s =>
    let h := s.shape .L p none
    let es := sz.bytes
    let row := h.rbytes / 2 + h.rbytes / es / 8
    afterCheck .L (ordOf o.toNat) s (runPlan s (s.eng .L).got .L y q (fun _ => 0) .read (s.x .L m.toNat) (sparsePlan h es (s.x .L m.toNat))) fun ps =>
      loadData pos o.toNat q ps fun s => loadUnits s (expandRow es h.rbytes) h.rows row h.rbytes ps) s

/-! ## Sparse chunks (R109, R110) -/

/-- Header fields of a chunk that R110 refuses with violation 1. -/
def badHeader (b : List Byte) : Bool :=
  decide (field b 4 4 < 16 ∨ 2 < field b 8 1 ∨ field b 9 7 ≠ 0 ∨ field b 0 4 % 2 ^ (field b 8 1) ≠ 0)

/-- Where the decoder stops: the count of dense bytes emitted and the violation, given the dense offset of the first element whose data lie beyond CLEN, if any (R110). -/
def ldzStopAt (dense clen cap : Nat) (beyond : Option Nat) : Nat × Nat :=
  let lim := (4 * clen + 64) * 64
  let stops := (match beyond with | some n => [(n, 2)] | none => []) ++ (if cap < dense then [(cap, 3)] else []) ++ (if lim < dense then [(lim, 4)] else [])
  stops.foldl (fun m x => if x.1 < m.1 ∨ x.1 = m.1 ∧ x.2 < m.2 then x else m) (dense, if stops.isEmpty then 0 else 5)

/-- What the decoder works on: pointer, destination slot, SOFF, element size, bitmap bytes, CLEN, and the count of dense bytes at which CAP, DENSE or the clock bound stops it. -/
structure LdzIn where
  ptr  : Word
  slot : Option (Nat × Queue)
  soff : Nat
  es   : Nat
  nb   : Nat
  clen : Nat
  stop : Nat

/-- Checks and reads chunk bytes. -/
def LdzIn.read (z : LdzIn) (s : State) (at_ n : Nat) : Chk (List Byte) :=
  (Chk.each (checkByte s (s.eng .L).got .read z.ptr false) ((List.range n).map fun k => z.ptr + BitVec.ofNat 64 (at_ + k))).bind fun l => .ok (l.map s.byteAt)

/-- The elements from `i` on in the access order of R102: of each its bitmap byte, with the first element it covers, and its stored value, then its scratchpad bytes. `k` values are stored
before it and `mb` is the bitmap byte in hand. Answers the first element whose data lie beyond CLEN, and the writes. R110 does not say which chunk bytes a decoder reads that stops early:
of the element it stops at it reads the bitmap byte, where that lies within CLEN, and no value (log entry 118). -/
def LdzIn.run (z : LdzIn) (s : State) : Nat → Nat → Nat → Byte → List (Nat × Byte) → Chk (Option Nat × List (Nat × Byte))
  | 0, _, _, _, out => .ok (none, out)
  | fuel + 1, i, k, mb, out =>
    if z.stop < i * z.es then .ok (none, out) else
    if z.clen ≤ 16 + i / 8 then .ok (some i, out) else
    (if i % 8 = 0 then z.read s (16 + i / 8) 1 else .ok [mb]).bind fun m =>
      let mb := m.headD 0
      let bit := mb.toNat.testBit (i % 8)
      let at_ := 16 + z.nb + k * z.es
      if bit && z.clen < at_ + z.es then .ok (some i, out) else
      if z.stop = i * z.es then .ok (none, out) else
      (if bit then z.read s at_ z.es else .ok (List.replicate z.es 0)).bind fun v =>
      (Chk.each (fun (j : Nat) => match z.slot with
          | none => checkHome s ((z.soff + i * z.es + j : Nat) : Int)
          | some t => checkSlot t.2 t.1 ((z.soff + i * z.es + j : Nat) : Int)) (List.range (min z.es (z.stop - i * z.es)))).bind fun offs =>
        z.run s fuel (i + 1) (if bit then k + 1 else k) mb (out ++ offs.zip v)

/-- Starts the decoder: the queue binding, the header, then element after element (R102, R110): the violation, the count of bytes emitted, and the bytes it writes. -/
def chunkStart (s : State) (y : Sync) (q : Bool) (ptr x0 : Word) (cap : Nat) : Chk (Nat × Nat × List (Nat × Byte)) :=
  (qSlot s .L y q fun _ => 0).bind fun slot =>
  ((⟨ptr, slot, 0, 0, 0, 0, 0⟩ : LdzIn).read s 0 16).bind fun b =>
    if badHeader b then .ok (1, 0, []) else
    let dense := field b 0 4
    let clen := field b 4 4
    let es := 2 ^ field b 8 1
    let stop := (ldzStopAt dense clen cap none).1
    let n := dense / es
    let z : LdzIn := ⟨ptr, slot, bits x0.toNat 20 0, es, (n + 7) / 8, clen, stop⟩
    (z.run s (min n (stop / es + 1)) 0 0 0 []).bind fun r =>
      let e := ldzStopAt dense clen cap (r.1.map (· * es))
      .ok (e.2, e.1, r.2)

/-- The end of an LDZ whose decoder has stopped, and which so has resolved (R273): the fault of TRAP, or its bytes and its status; with TRAP set and no violation x(2p + 1) stays as it is
(log entry 98). -/
def ldzEnd (z : Ldz) (pos : Pos) (s : State) : Res :=
  if z.trap && z.code != 0 then
    .trap ⟨0x0B, z.code, BitVec.ofNat 64 z.emitted, 0, ordOf z.cls⟩ false (s.mapCore fun c => { c with ldz := none })
  else
    let place (s : State) : Res :=
      let s := (s.mapCore fun c => { c with ldz := none }).setHome z.writes
      .done (if z.trap then s else s.writeX .L pos (2 * z.pair + 1) (BitVec.ofNat 64 (z.code * 2 ^ 24 + z.emitted))) .fall
    let s := s.resolve .L
    roomFirst .L (if z.trap then 0 else 1) <|
    if z.slot || z.writes.isEmpty then place s else
    whenOlder .L pos s fun s =>
      if s.core.loads.any fun l => l.writes.any fun w => z.writes.any fun v => v.1 == w.1 then .stall scMem false s else place s

/-- LDZ (R110): it pops and its decoder starts, which runs until LDZ_DECODE_DONE or LDZ_WATCHDOG; then the instruction resolves. -/
def execLdz (y : Sync) (m : BitVec 4) (p : BitVec 3) (q : Bool) (o : BitVec 4) (trap : Bool) (s : State) : Host.Outcome State Fault Refusal :=
  issue .L (s.waitsOf .L y) y.sig.toList none (fun pos s =>
    match s.core.ldz with
    | some z => if z.busy then .stall scMem false s else ldzEnd z pos s
    | none =>
      if s.core.olderStore pos o.toNat || !s.core.loads.isEmpty && (s.x .L m.toNat).toNat / 2 ^ 56 ∈ [0xF0, 0xF1] then .stall scMem false s else
      let x1 := s.x .L (2 * p.toNat + 1)
      match chunkStart s y q (s.x .L m.toNat) (s.x .L (2 * p.toNat)) (bits x1.toNat 20 0) with
      | .ok r => .begin (s.mapCore fun c => { c with ldz := some ⟨pos, y, p.toNat, trap, q, r.1, r.2.1, true, r.2.2, o.toNat⟩ })
      | .bad cause detail faddr => .trap ⟨cause, detail, 0, faddr, ordOf o.toNat⟩ false s
      | .walk page =>
        match s.core.crew with
        | none => .stop s
        | some c => needWalk .L c.ctx c.fn page s) s

/-- Stops the decoder and carries its LDZ on. -/
def ldzStop (s : State) (watchdog : Bool) : Host.Outcome State Fault Refusal :=
  match s.core.ldz with
  | none => .next s
  | some z =>
    if z.busy && (z.code == 4) == watchdog then
      issue .L [] z.sync.sig.toList none (ldzEnd { z with busy := false }) (s.mapCore fun c => { c with ldz := some { z with busy := false } })
    else .next s

/-- LDZ_DECODE_DONE (R110): the decoder has finished or cut off its chunk. -/
def execLdzDecodeDone (s : State) : Host.Outcome State Fault Refusal := ldzStop s false
/-- LDZ_WATCHDOG (R110): the clock bound is reached, violation 4. -/
def execLdzWatchdog (s : State) : Host.Outcome State Fault Refusal := ldzStop s true

/-- The pages that a prefetch of these addresses has translated (R112): those not yet known, the ones that an illegal window, the tables or a permission keep out left aside. -/
def prefVas (s : State) (c : Crew) (l : List Word) : List Nat :=
  let va? (a : Word) : Option Nat :=
    match window a with
    | .global va => some va
    | .priv off => if off < c.segSize then some ((c.segBase + off) % 2 ^ 56) else none
    | _ => none
  ((l.filterMap fun a => (va? a).map fun va => va - va % 0x10000).eraseDups).filter fun a =>
    (lookup s [] c.fn c.ctx a).isNone && match fullWalk s c.ctx a with | .hit e => e.r | .fault _ _ => false

/-- One address in each base page that `n` bytes from `a` reach. -/
def pageHeads (a : Word) (n : Nat) : List Word :=
  (List.range ((n + 0xFFFF) / 0x10000 + 1)).map fun k => a + BitVec.ofNat 64 (min (k * 0x10000) (n - 1))

/-- The pages of a shaped range that PREF.T and PREF.MT have translated. -/
def prefPages (s : State) (c : Crew) (h : Shape) (ptr : Word) : List Nat :=
  prefVas s c (h.lines.flatMap fun r => pageHeads (ptr + BitVec.ofInt 64 r.1) h.rbytes)

/-- PREF (R112): no fault and no logical state; a translation it asks for is fetched by a walk (R336), and the memory-side cache holds no state that a program can see (R263). -/
def execPref (y : Sync) (m g : BitVec 4) (lvl : PrefLevel) (s : State) : Host.Outcome State Fault Refusal :=
  issueY .L y (fun _ s =>
    .done (match s.core.crew, lvl with
      | _, .m => s
      | none, _ => s
      | some c, _ =>
        let h := shapeOf 0 (s.x .L g.toNat) none
        if h.empty then s else (prefPages s c h (s.x .L m.toNat)).foldl (fun s a => requestWalk s .L c.fn c.ctx a) s) .fall) s

/-! ## The write engine -/

/-- A position leaves the address unit when its data phase begins (R114). -/
def State.unitDone (s : State) (p : Pos) : State :=
  s.mapCore fun c => { c with unit := { c.unit with checked := c.unit.checked.filter fun u => u.1 != p } }

/-- The bytes a write-engine store touches and the permission it needs; `none` for an instruction the address unit does not check. PUB works in any window its pointer names (log
entry 99). -/
def writePlan (i : Instr) (s : State) (x : Nat → Word) : Option (Sync × Bool × Need × Word × Plan) :=
  let sh (p : BitVec 3) (z : Option (BitVec 4)) : Shape := shapeOf (x (2 * p.toNat)) (x (2 * p.toNat + 1)) (z.map fun r => x r.toNat)
  match i with
  | .stx y _ a sz _ =>
    let ptr := x a.toNat
    some (y, false, .write, ptr, .bytes ((List.range sz.bytes).map fun k => .mem (ptr + BitVec.ofNat 64 k) (ptr.toNat % sz.bytes != 0)))
  | .stt y m p q _ => some (y, q, .write, x m.toNat, tilePlan (sh p none) (x m.toNat) false)
  | .stt3 y m p q _ z => some (y, q, .write, x m.toNat, tilePlan (sh p (some z)) (x m.toNat) false)
  | .sttc y m p q _ _ => some (y, q, .write, x m.toNat, tilePlan (sh p none) (x m.toNat) false)
  | .sts y m p q _ sz => some (y, q, .write, x m.toNat, gatherPlan s (x (2 * p.toNat)) (x (2 * p.toNat + 1)) (x m.toNat) sz.bytes)
  | .red y m p q _ op =>
    let h := sh p none
    let es := redSize op
    some (y, q, .both, x m.toNat,
      if h.empty then .bytes [] else if h.rbytes % es ≠ 0 then .shape (ptrAddr (x m.toNat)) else tilePlan h (x m.toNat) ((x m.toNat).toNat % es != 0))
  | .pub y h _ =>
    let ptr := x h.toNat
    some (y, false, .write, ptr, .bytes ((List.range 8).map fun k => .mem (ptr + BitVec.ofNat 64 k) (ptr.toNat % 64 != 0)))
  | _ => none
where
  /-- Bytes of an element of RED (R113). -/
  redSize : RedOp → Nat
    | .badd => 2
    | .ladd => 8
    | _ => 4

/-- The checks of a write-engine instruction on registers `x` (R102, R114). -/
def checkWrite (i : Instr) (s : State) (got : List Walked) (ahead : Eng → Nat) (x : Nat → Word) : Chk Places :=
  match writePlan i s x with
  | none => .ok {}
  | some (y, q, need, ptr, pl) =>
    match i with
    | .sts _ _ p _ _ _ => (runPlan s got .W y q ahead need ptr pl).bind fun r => .ok { r with idx := s.indexList (x (2 * p.toNat + 1)) }
    | _ => runPlan s got .W y q ahead need ptr pl

/-- A store's data phase (R103): its source has been read, its writes wait in the store buffer. -/
def storeData (p : Pos) (cls : Nat) (ps : Places) (ws : List StoreWrite) (s : State) : Res :=
  if ps.mem.any s.moving then .stall scXlat false s else
  let s := s.unitDone p
  .done (if ps.mem.isEmpty then s else s.addStore p .W cls false ws) .fall

/-- Issue of a store of the write engine: checks, then its data phase on the source bytes. -/
def storeTile (i : Instr) (y : Sync) (cls : Nat) (k : Pos → Places → State → Res) (s : State) : Host.Outcome State Fault Refusal :=
  issueY .W y (fun p s => afterCheck .W (ordOf cls) s (checkWrite i s (s.eng .W).got (fun _ => 0) (s.x .W)) (k p)) s

/-- Copies the source bytes of scratchpad to memory. -/
def copyOut (cls : Nat) (p : Pos) (ps : Places) (s : State) : Res :=
  storeData p cls ps [.bytes (ps.mem.zip (ps.spad.map s.home))] s

/-- STX (R104). -/
def execStx (y : Sync) (r a : BitVec 4) (sz : Size) (o : BitVec 4) (s : State) : Host.Outcome State Fault Refusal :=
  storeTile (.stx y r a sz o) y o.toNat (fun p ps s => storeData p o.toNat ps [.bytes (ps.mem.zip (toBytes sz.bytes (s.x .W r.toNat).toNat))] s) s
/-- STT (R106). -/
def execStt (y : Sync) (m : BitVec 4) (p : BitVec 3) (q : Bool) (o : BitVec 4) (s : State) : Host.Outcome State Fault Refusal :=
  storeTile (.stt y m p q o) y o.toNat (copyOut o.toNat) s
/-- STT3 (R106). -/
def execStt3 (y : Sync) (m : BitVec 4) (p : BitVec 3) (q : Bool) (o z : BitVec 4) (s : State) : Host.Outcome State Fault Refusal :=
  storeTile (.stt3 y m p q o z) y o.toNat (copyOut o.toNat) s
/-- The address unit's check of the word at a position falls where its index list has changed since (log entry 100). -/
def State.recheck (s : State) (p : Pos) (idx : List Nat) : State :=
  s.mapCore fun c => { c with unit := { c.unit with checked := c.unit.checked.filter fun u => u.1 != p || u.2.idx == idx } }

/-- STS (R111): elements in ascending index, so the highest leaves its value. Where its index list has changed since the address unit checked it ahead, its checks are made again. -/
def execSts (y : Sync) (m : BitVec 4) (p : BitVec 3) (q : Bool) (o : BitVec 4) (sz : Size) (s : State) : Host.Outcome State Fault Refusal :=
  issueY .W y (fun pos s =>
    let s := s.recheck pos (s.indexList (s.x .W (2 * p.toNat + 1)))
    afterCheck .W (ordOf o.toNat) s (checkWrite (.sts y m p q o sz) s (s.eng .W).got (fun _ => 0) (s.x .W)) (copyOut o.toNat pos)) s

/-- STTC (R107): suppressed, with INV, when the entry records a NaN (R173, bit 1). -/
def execSttc (y : Sync) (m : BitVec 4) (p : BitVec 3) (q : Bool) (o n : BitVec 4) (s : State) : Host.Outcome State Fault Refusal :=
  storeTile (.sttc y m p q o n) y o.toNat (fun pos ps s =>
    if (Tab.get 0 s.core.dstat n.toNat).getLsbD 1 then .done ((s.unitDone pos).setInv .W pos) .fall else copyOut o.toNat pos ps s) s

/-- What one element becomes under RED (R113). -/
def redVal? (op : RedOp) (old v : Nat) : Nat :=
  match op with
  | .fadd => transformAdd 1 old v
  | .badd => transformAdd 2 old v
  | .iadd => transformAdd 3 old v
  | .imin => if signed 32 v < signed 32 old then v else old
  | .imax => if signed 32 old < signed 32 v then v else old
  | .fmin => (fp32.round 0 true 0 (pickMin (fp32.value old) (fp32.value v))).1
  | .fmax => (fp32.round 0 true 0 (pickMax (fp32.value old) (fp32.value v))).1
  | .ladd => (old + v) % 2 ^ 64
where
  /-- Minimum with −0 < +0; a NaN gives NaN. -/
  pickMin (a b : Val) : Val :=
    if a.isNan || b.isNan then .nan else
    match a.cmp b with | .lt => a | .gt => b | .eq => if a.neg? then a else b
  /-- Maximum with −0 < +0; a NaN gives NaN. -/
  pickMax (a b : Val) : Val :=
    if a.isNan || b.isNan then .nan else
    match a.cmp b with | .lt => b | .gt => a | .eq => if a.neg? then b else a

/-- RED (R113): one element after another in access order. -/
def execRed (y : Sync) (m : BitVec 4) (p : BitVec 3) (q : Bool) (o : BitVec 4) (op : RedOp) (s : State) : Host.Outcome State Fault Refusal :=
  storeTile (.red y m p q o op) y o.toNat (fun pos ps s =>
    let es := writePlan.redSize op
    let src := ps.spad.map s.home
    storeData pos o.toNat ps ((List.range (ps.mem.length / es)).map fun k =>
      .red op ((ps.mem.drop (k * es)).take es) ((src.drop (k * es)).take es)) s) s

/-- The selector PUB leaves (R118). -/
def pubSel (h : Word) : Word :=
  BitVec.ofNat 64 ((h.toNat / 2 + 1) % 2 ^ 63 * 2 + (1 - h.toNat % 2))

/-- PUB (R118): a release over every class, the crew's movement and its SENDTs (R375), then one read-modify-write. -/
def execPub (y : Sync) (h : BitVec 4) (sc : Scope) (s : State) : Host.Outcome State Fault Refusal :=
  storeTile (.pub y h sc) y 0 (fun p ps s => whenOlder .W p s fun s =>
    if ps.mem.any s.moving then .stall scXlat false s else
    if s.core.olderAny p || s.crewSends p then .stall scMem false s else
    .done ((s.unitDone p).setBytes (ps.mem.zip (toBytes 8 (pubSel (BitVec.ofNat 64 (s.locsNat ps.mem))).toNat))) .fall) s

/-! ## BCOPY (R119, R120) -/

/-- Source and destination of each byte, checked byte by byte in ascending order. -/
def copyPlaces (s : State) (got : List Walked) (src dst : Word) (n : Nat) : Chk (List (Loc × Loc)) :=
  Chk.each (fun k =>
    (checkByte s got .read src false (src + BitVec.ofNat 64 k)).bind fun a =>
      (checkByte s got .write dst false (dst + BitVec.ofNat 64 k)).bind fun b => .ok (a, b)) (List.range n)

/-- The page of a migration at one virtual address (R119): whole, aligned on its own size, writable. -/
def migPage (s : State) (got : List Walked) (c : Crew) (a : Word) (va left : Nat) : Chk (Nat × Nat × Nat) :=
  (checkVa s got c va ⟨false, false⟩ (ptrAddr a)).bind fun _ =>
    match lastLeaf s c.ctx va with
    | none => .bad 0x07 1 (ptrAddr a)
    | some (_, b, pa) =>
      if va % 2 ^ b ≠ 0 ∨ left < 2 ^ b then .bad 0x04 0 (ptrAddr a) else
      (checkVa s got c va .write (ptrAddr a)).bind fun _ => .ok (va, pa, b)

/-- The virtual address a migration's pointer names; `none` past the private segment or in another window. -/
def migVa (c : Crew) (a : Word) : Option Nat :=
  match window a with
  | .global va => some va
  | .priv off => if c.segSize ≤ off then none else some (c.segBase + off)
  | _ => none

/-- The whole pages a migration covers, from an address on (R119): `fuel` pages at most. A page that passes the private segment's end faults at the first byte beyond it (R75). -/
def migPages (s : State) (got : List Walked) (c : Crew) : Nat → Word → Nat → Chk (List (Nat × Nat × Nat))
  | 0, _, _ => .ok []
  | fuel + 1, a, left =>
    if left = 0 then .ok [] else
    match migVa c a with
    | none => if (window a).code = 3 then .bad 0x07 1 a else .bad 0x03 0 (ptrAddr a)
    | some va =>
      (migPage s got c a va left).bind fun g =>
        if (window a).code = 3 ∧ c.segBase + c.segSize < va + 2 ^ g.2.2 then .bad 0x07 1 (a + BitVec.ofNat 64 (c.segBase + c.segSize - va)) else
        (migPages s got c fuel (a + BitVec.ofNat 64 (2 ^ g.2.2)) (left - 2 ^ g.2.2)).bind fun l => .ok (g :: l)

/-- The movement a BCOPY asks for, once its checks are complete. -/
def checkCopy (s : State) (got : List Walked) (xd xs xn : Word) (md : CopyMode) : Chk Places :=
  match md with
  | .copy =>
    if xn = 0 then .ok {} else
    if 2 ^ 40 < xn.toNat then .bad 0x09 0 (ptrAddr xs) else (copyPlaces s got xs xd xn.toNat).bind fun l => .ok { move := l }
  | .mig =>
    if xn = 0 then .ok {} else
    match s.core.crew, (window xs).code == 0 || (window xs).code == 3 with
    | some c, true =>
      if xs.toNat % 0x10000 ≠ 0 then .bad 0x04 0 (ptrAddr xs) else
      (migPages s got c (xn.toNat / 0x10000 + 1) xs xn.toNat).bind fun l => .ok { pages := l }
    | _, _ => .bad 0x03 0 (ptrAddr xs)
  | .shd =>
    let n := bits xn.toNat 31 0
    let off := bits xn.toNat 63 32
    if n = 0 then .ok {} else
    if (window xd).code ≠ 0 ∧ (window xd).code ≠ 3 then .bad 0x03 0 (ptrAddr xd) else
    (Chk.each (checkByte s got .read xd (xd.toNat % 64 != 0)) ((List.range 32).map fun k => xd + BitVec.ofNat 64 k)).bind fun hd =>
      let h := hd.map s.byteAt
      if field h 24 8 < off + n then .bad 0x09 0 (ptrAddr xd) else
      let base := if (field h 0 1).testBit 0 then field h 8 8 else field h 16 8
      (copyPlaces s got xs (BitVec.ofNat 64 (base + off)) n).bind fun l => .ok { move := l }

/-- BCOPY (R119): accepted once older than the horizon (R275); the movement runs on. The copy that BCOPY.SHD chose as it resolved stays chosen (R266). -/
def execBcopy (y : Sync) (d x n : BitVec 4) (md : CopyMode) (s : State) : Host.Outcome State Fault Refusal :=
  issueY .W y (fun p s =>
    if md = .shd ∧ (s.eng .W).kept.isNone ∧ ¬(s.core.unit.checked.any fun u => u.1 == p) ∧ s.core.olderStore p 0 then .stall scMem false s else
    afterCheck .W (ordOf 0) s (checkCopy s (s.eng .W).got (s.x .W d.toNat) (s.x .W x.toNat) (s.x .W n.toNat) md) fun r s =>
      if r.move.isEmpty && r.pages.isEmpty then .done (s.unitDone p) .fall else
      whenOlder .W p s fun s =>
        .done ((s.unitDone p).mapCore fun c => { c with copies := c.copies ++ [⟨p, md, r.move, r.pages, (s.x .W d.toNat).toNat % 2⟩] }) .fall) s

/-- The oldest movement that can end: its pages, if any, have all moved, and it writes into no page that still moves (R120). -/
def State.movable (s : State) : Option Copy := s.core.copies.find? fun k => k.pages.isEmpty && !k.move.any fun b => s.moving b.2

/-- BCOPY_MOVE_COMPLETE (R120): the movement makes its bytes in ascending order and ends. -/
def execBcopyMoveComplete (s : State) : Host.Outcome State Fault Refusal :=
  match s.movable with
  | none => .next s
  | some k => .next ((k.move.foldl (fun s b => s.setByte b.2 (s.byteAt b.1)) s.progress).mapCore fun c => { c with copies := c.copies.erase k })

/-! ## The address unit (R114, R277) -/

/-- The engines a word pops from. -/
def wordWaits (w : IWord) (i : Instr) : List Eng :=
  match i with
  | .sync _ ws _ => maskEngs ws
  | .syncV1 _ d _ => d.toList
  | _ => (Eng.ofCode? (fld w 26 3).toNat).toList

/-- What the address unit takes next: position, levels, the instruction, its registers, and the engines that the words before it pop from. -/
structure UnitWork where
  pos   : Pos
  ls    : List Level
  word  : Instr
  view  : View
  waits : List Eng
  deriving DecidableEq, Repr

/-- Pops from an engine that W has still to make before the instruction's own. -/
def UnitWork.ahead (u : UnitWork) (d : Eng) : Nat := u.waits.countP (· == d)

/-- The next memory instruction the address unit has not checked, on its copy of the registers (R277). -/
def State.unitNext (s : State) : Nat → Word → List Level → View → List Eng → Option UnitWork
  | 0, _, _, _, _ => none
  | n + 1, pc, ls, v, ws =>
    if !(s.eng .W).holds pc then none else
    match s.wordAt .W pc with
    | none => none
    | some w =>
      match s.decodeAt .W pc ls w with
      | .illegal _ => none
      | .ok i =>
        let p := s.posAt .W pc ls
        if unitInstr i && !(p == s.pos .W && (s.eng .W).kept.isSome) && !s.core.unit.checked.any fun u => u.1 == p then some ⟨p, ls, i, v, ws⟩ else
        if unitStops i then none else
        let q := stepPast s.core.calldepth pc ls p.index i
        s.unitNext n q.1 q.2 (match unitEval i v.x with | some r => v.setX r.1 r.2 | none => v) (ws ++ wordWaits w i)

/-- Whether the address unit may check an instruction: each as soon as its registers are known, without its wait token (R114). Only a BCOPY.SHD, which reads its header as it resolves, once
and in class 0 (R119), waits until it is W's oldest, its tokens have come and no older write of class 0 has still to perform (R78, R260). -/
def State.unitMay (s : State) (p : Pos) (i : Instr) : Bool :=
  match i with
  | .bcopy y _ _ _ .shd => p == s.pos .W && s.core.canPop .W y.wait.toList && !s.core.olderStore p 0
  | _ => true

/-- What the address unit checks next. -/
def State.unitWork (s : State) : Option UnitWork :=
  let g := s.eng .W
  if s.core.crew = none ∨ s.core.held ∨ s.isIdle .W ∨ g.hold.isSome ∨ s.core.parked then none else
  match s.unitNext 16 g.pc g.loops g.view [] with
  | some w => if (match s.core.freeze with | some f => !(w.pos.lt f.pos) | none => false) ||
      (match s.core.preempt with | some f => !(w.pos.lt f.bound) | none => false) || !s.unitMay w.pos w.word then none else some w
  | none => none

/-- Whether the fifth instruction waits for the window (R114): four have been checked, one of them perhaps as it tried to issue, and have still to begin their data phase. -/
def State.unitFull (s : State) : Bool :=
  4 ≤ s.core.unit.checked.length + if (s.eng .W).kept.isSome && !s.core.unit.checked.any (fun u => u.1 == s.pos .W) then 1 else 0

/-- The checks the address unit makes of one instruction. -/
def unitCheck (s : State) (u : UnitWork) : Chk Places :=
  match u.word with
  | .bcopy _ d a n md => checkCopy s s.core.unit.got (u.view.x d.toNat) (u.view.x a.toNat) (u.view.x n.toNat) md
  | i => checkWrite i s s.core.unit.got u.ahead u.view.x

/-- ORDCLASS of a memory instruction of W (R285). -/
def unitOrd (i : Instr) : Nat :=
  match i with
  | .stx _ _ _ _ o | .stt _ _ _ _ o | .stt3 _ _ _ _ o _ | .sts _ _ _ _ o _ | .sttc _ _ _ _ o _ | .red _ _ _ _ o _ => ordOf o.toNat
  | _ => ordOf 0

/-- ADDRESS_UNIT_CHECK (R114): checks one more instruction ahead, takes its fault at once, or waits for a walk. -/
def execAddressUnitCheck (s : State) : Host.Outcome State Fault Refusal :=
  match s.unitWork with
  | none => .next s
  | some u =>
    if s.unitFull || s.core.unit.wait.isSome then .next s else
    match unitCheck s u with
    | .ok pl => .next (s.mapCore fun c => { c with unit := ⟨c.unit.checked ++ [(u.pos, pl)], none, []⟩ })
    | .bad cause detail faddr =>
      .next (s.began ((s.mapCore fun c => { c with unit := { c.unit with got := [] } }).takeFault u.pos u.ls Eng.W.code ⟨cause, detail, 0, faddr, unitOrd u.word⟩ false false))
    | .walk page =>
      match s.core.crew with
      | none => .next s
      | some c => .next ((requestWalk s .W c.fn c.ctx page).mapCore fun k => { k with unit := { k.unit with wait := some page } })

end Sys2Proof.Machine
end

