-- ==== Sys2Proof/Machine/Pwl.lean ====
section
/-!
DEFINITION. The built-in EXP and LOG tables of VPWL (R151; log entry 10): the exact result as a fixed-point number, the FP32 values within 2 ulp of it, and among them the device's own
choice, which never falls as x rises. Fixed-point numbers are in units of 2^−512.
-/
namespace Sys2Proof.Machine

/-- FP32 encodings numbered so that the number rises with the value; both zeros are 2^31. -/
def rankOfBits (b : Nat) : Nat := if b.testBit 31 then 2 ^ 31 - b % 2 ^ 31 else 2 ^ 31 + b

/-- The encoding of a rank. -/
def bitsOfRank (i : Nat) : Nat := if 2 ^ 31 ≤ i then i - 2 ^ 31 else 2 ^ 32 - i

/-- A finite rank's value. -/
def rankFix (i : Nat) : Int := (fp32.value (bitsOfRank i)).at? (-512)

/-- The exponent of the binade of a magnitude, subnormals with the lowest normal one. -/
def binade (n : Nat) : Nat := max n.log2 386

/-- Bits of the largest FP32 magnitude at most `n`. -/
def magFloor (n : Nat) : Nat := (binade n - 385) * 2 ^ 23 + n >>> (binade n - 23) - 2 ^ 23

/-- Bits of the smallest FP32 magnitude at least `n`. -/
def magCeil (n : Nat) : Nat := if n % 2 ^ (binade n - 23) = 0 then magFloor n else magFloor n + 1

/-- The largest rank whose value is at most `r`, and the smallest whose value is at least `r`. -/
def rankFloor (r : Int) : Nat := if 0 ≤ r then 2 ^ 31 + magFloor r.toNat else 2 ^ 31 - magCeil r.natAbs
def rankCeil (r : Int) : Nat := if 0 ≤ r then 2 ^ 31 + magCeil r.toNat else 2 ^ 31 - magFloor r.natAbs

/-- One unit in the last place at an exact result. -/
def ulpFix (r : Int) : Int := 2 ^ (binade r.natAbs - 23)

/-! ## Exact results -/

/-- The Taylor series of e^x for x ≥ 0: `n` more terms after term `k`, whose value is `t`. -/
def expSeries (x : Nat) : Nat → Nat → Nat → Nat → Nat
  | 0, _, _, sum => sum
  | n + 1, k, t, sum => expSeries x n (k + 1) (t * x / ((k + 1) * 2 ^ 512)) (sum + t)

/-- e^x; from −128 down nothing of it is left. -/
def expFix (x : Int) : Int :=
  if x < -(2 ^ 519) then 0 else
  let e := expSeries x.natAbs 600 0 (2 ^ 512) 0
  if 0 ≤ x then e else ((2 ^ 1024 / e : Nat) : Int)

/-- The series of 2 artanh(z): `n` more terms of odd power `k`, z^k being `t`. -/
def artanhSeries (zz : Nat) : Nat → Nat → Nat → Nat → Nat
  | 0, _, _, sum => 2 * sum
  | n + 1, k, t, sum => artanhSeries zz n (k + 2) (t * zz / 2 ^ 512) (sum + t / k)

/-- ln((1 + z) / (1 − z)), for z = a / b at most 1/3. -/
def lnRatio (a b : Nat) : Nat :=
  let z := a * 2 ^ 512 / b
  artanhSeries (z * z / 2 ^ 512) 200 1 z 0

/-- ln x for x > 0: of its power of two, and of what remains between 1 and 2. -/
def lnFix (x : Nat) : Int :=
  let k : Int := x.log2 - 512
  let p := 2 ^ x.log2
  k * lnRatio 1 3 + lnRatio (x - p) (x + p)

/-! ## The values within 2 ulp -/

/-- The largest rank from `a` on, of `2 ^ n` ranks, at which a condition that holds up to some rank holds. -/
def lastRank (f : Nat → Bool) : Nat → Nat → Nat
  | 0, a => a
  | n + 1, a => if f (a + 2 ^ n) then lastRank f n (a + 2 ^ n) else lastRank f n a

/-- The bounds of the FP32 values within 2 ulp of the result at rank `i` of a rising function. -/
def near (f : Nat → Int) (i : Nat) : Nat × Nat :=
  let r := f i
  (rankCeil (r - 2 * ulpFix r), rankFloor (r + 2 * ulpFix r))

/-- Those bounds as a table that never falls can meet them: just above a power of two no lower than at the last x below it, and, for a negative result just at one, no higher than at
the first x past it. `a` is a rank below every argument. -/
def monoNear (f : Nat → Int) (a i : Nat) : Nat × Nat :=
  let r := f i
  let b : Int := 2 ^ r.natAbs.log2
  let w := near f i
  if 0 ≤ r ∧ r - 2 * ulpFix r < b then (max w.1 (near f (lastRank (fun j => j < i && f j < b) 32 a)).1, w.2)
  else if r < 0 ∧ -b < r + 2 * ulpFix r then (w.1, min w.2 (near f (lastRank (fun j => j ≤ 2 ^ 31 + 0x3F800000 && f j ≤ -b) 32 a + 1)).2)
  else w

/-- The device's choice at rank `i` between two bounds: the highest that `step` lets it reach by then. Whatever `step` is, the choice never falls as `i` rises. -/
def chosen (step : Nat → Nat) (i lo hi : Nat) : Nat :=
  (List.range (hi + 1 - lo)).foldl (fun m k => if step (lo + k) ≤ i then lo + k else m) lo

/-- The result of EXP at a finite argument other than zero, where the exact one is at most the largest finite value. A zero only where the exact result is below the smallest
subnormal; and at least, or at most, the 1 of EXP ±0. -/
def expRank (i : Nat) : Nat :=
  let f := fun j => expFix (rankFix j)
  let least := if f i < 2 ^ 363 then 2 ^ 31 else 2 ^ 31 + 1
  let w := monoNear f (2 ^ 31 - 0x43000000) i
  let one := 2 ^ 31 + 0x3F800000
  if 2 ^ 31 < i then chosen Config.expStep i (max one w.1) (min (2 ^ 31 + 0x7F7FFFFF) w.2) else chosen Config.expStep i (max least w.1) (min one w.2)

/-- The result of LOG at a positive finite argument other than 1. -/
def logRank (i : Nat) : Nat :=
  let w := monoNear (fun j => lnFix (rankFix j).toNat) (2 ^ 31 + 1) i
  chosen Config.logStep i w.1 w.2

end Sys2Proof.Machine
end

