-- ==== Sys2Proof/Machine/Vector.lean ====
section
/-!
DEFINITION. The vector engine's own instructions (R121 to R152).
-/
namespace Sys2Proof.Machine

/-! ## Descriptors and element types (R121, R123) -/

/-- A region descriptor taken apart (R121). -/
structure Desc where
  type   : Nat
  q      : Bool
  count  : Nat
  stride : Int
  base   : Nat
  deriving DecidableEq, Repr

def Desc.of (w : Word) : Desc :=
  ⟨bits w.toNat 63 59, w.getLsbD 58, bits w.toNat 52 37, signed 16 (bits w.toNat 36 21), bits w.toNat 20 0⟩

/-- Descriptor `d` as the V slice's program order leaves it. -/
def State.desc (s : State) (d : BitVec 4) : Desc := Desc.of (Tab.get 0 (s.eng .V).view.descs d.toNat)

def isF (t : Nat) : Bool := t ≤ 4
def isI (t : Nat) : Bool := t == 0x09 || t == 0x0A || t == 0x0B || t == 0x0C
def isScale (t : Nat) : Bool := t == 0x05
def isPacked (t : Nat) : Bool := t == 0x08 || t == 0x06
def isMX (t : Nat) : Bool := t == 0x10 || t == 0x11 || t == 0x12
def isFI (t : Nat) : Bool := isF t || isI t
def isFIS (t : Nat) : Bool := isF t || isI t || isScale t
def isAny (t : Nat) : Bool := isFIS t || isPacked t || isMX t
/-- Both of class F or both of class I. -/
def sameClass (a b : Nat) : Bool := (isF a && isF b) || (isI a && isI b)

/-- DSET (R122). -/
def dsetVal (md : DsetMode) (old x : Word) : Word :=
  match md with
  | .set => x &&& ~~~(0x1F#64 <<< 53)
  | .addb => (old &&& ~~~0x1FFFFF#64) ||| ((old + x) &&& 0x1FFFFF#64)
  | .cnt => (old &&& ~~~(0xFFFF#64 <<< 37)) ||| ((x &&& 0xFFFF#64) <<< 37)

/-- DSET (R122): a pending write of the descriptor; no check, no flag. -/
def execDset (y : Sync) (d a : BitVec 4) (md : DsetMode) (s : State) : Host.Outcome State Fault Refusal :=
  issueY .V y (fun p s => .done (s.write .V p 1 fun v =>
    { v with descs := Tab.set 0 v.descs d.toNat (dsetVal md (Tab.get 0 v.descs d.toNat) (s.x .V a.toNat)) }) .fall) s

/-! ## Regions (R124 to R127) -/

def Region.none : Region := ⟨0, 0, 0, 0, false, 0⟩
/-- Bits and bytes of one element. -/
def Region.width (r : Region) : Nat := codeWidth r.type
def Region.nb (r : Region) : Nat := max 1 (r.width / 8)
/-- Offset of the first byte of element `i`, in the slot or in home scratchpad (R124). -/
def Region.off (r : Region) (i : Nat) : Int :=
  if r.width < 8 then ((r.base + i * r.width / 8 : Nat) : Int) else (r.base : Int) + i * r.stride * r.nb
/-- Scratchpad offset of the first byte of element `i`, once checked. -/
def Region.at (r : Region) (i : Nat) : Nat := (r.origin + r.off i).toNat
/-- The bits of element `i`. -/
def Region.get (s : State) (r : Region) (i : Nat) : Nat :=
  if r.width < 8 then ((s.home (r.at i)).toNat >>> (i * r.width % 8)) % 2 ^ r.width else s.homeNat (r.at i) r.nb
/-- The bits of element `i` of a source, element 0 of one of COUNT 1 (R125). -/
def Region.src (s : State) (r : Region) (i : Nat) : Nat := r.get s (if r.count = 1 then 0 else i)
/-- The value of element `i` of a source. -/
def Region.val (s : State) (r : Region) (i : Nat) : Val := (codeValue r.type (r.src s i)).1
/-- Writes element `i`; in a packed region only the named bits of its byte (R124). -/
def Region.put (s : State) (r : Region) (i v : Nat) : State :=
  if r.width < 8 then
    let sh := i * r.width % 8
    let b := (s.home (r.at i)).toNat
    let m := (2 ^ r.width - 1) * 2 ^ sh
    s.setHome [(r.at i, BitVec.ofNat 8 (b - (b &&& m) + v % 2 ^ r.width * 2 ^ sh))]
  else s.setHome ((toBytes r.nb v).zipIdx.map fun c => (r.at i + c.2, c.1))

/-- How an instruction uses one descriptor. -/
structure VOpnd where
  num   : BitVec 4
  dst   : Bool             -- it is written (R126)
  type  : Nat → Bool
  count : Nat → Bool
  range : Bool             -- every element is checked with it

/-- The slot that operands of a role with Q set address (R126): base and size. -/
def State.slotOf (s : State) (y : Sync) (dst : Bool) : Chk (Nat × Queue) :=
  match (if dst then y.sig else y.wait) with
  | none => .bad 0x0A 0xFF 0
  | some e =>
    let d := if dst then .V else e
    let t := if dst then e else .V
    match s.core.queue? d t with
    | none => .bad 0x0A (pairIdx d.code t.code) 0
    | some q => .ok (q.base + q.slot * (if dst then q.prod else q.cons), q)

/-- Checks that every byte of the elements listed lies where it may (R124, R126). -/
def checkElems (s : State) (y : Sync) (dst : Bool) (r : Region) (is : List Nat) : Chk Unit :=
  if r.slot then
    (s.slotOf y dst).bind fun q =>
      (Chk.each (fun i => Chk.each (fun k => checkSlot q.2 q.1 (r.off i + (k : Nat))) (List.range r.nb)) is).bind fun _ => .ok ()
  else (Chk.each (fun i => Chk.each (fun k => checkHome s (r.off i + (k : Nat))) (List.range r.nb)) is).bind fun _ => .ok ()

/-- The checks of one operand in the order of R127. -/
def checkOpnd (s : State) (y : Sync) (o : VOpnd) : Chk Region :=
  let d := s.desc o.num
  if !o.type d.type then .bad 0x0C 1 0 else
  if d.count = 0 ∨ !o.count d.count then .bad 0x0C 2 0 else
  let r : Region := ⟨d.type, d.count, d.stride, d.base, d.q, 0⟩
  if d.base % r.nb ≠ 0 ∨ r.width < 8 ∧ d.stride ≠ 1 then .bad 0x0C 3 0 else
  (if d.q then (s.slotOf y o.dst).bind fun q => .ok { r with origin := q.1 } else .ok r).bind fun r =>
    (if o.range then checkElems s y o.dst r (List.range d.count) else .ok ()).bind fun _ => .ok r

/-- Operand `k` of those checked. -/
def reg (rs : List Region) (k : Nat) : Region := rs.getD k Region.none

/-- Offsets of the bytes of these elements of an operand. -/
def Region.bytesOf (r : Region) (is : List Nat) : List Nat := is.flatMap fun i => (List.range r.nb).map (r.at i + ·)

/-- Offsets of the bytes that a word reaches: of each operand those of all its elements, of one that index values name those they name (R129). -/
def touched (ops : List VOpnd) (pl : Places) : List Nat :=
  (ops.zip pl.regs).flatMap fun o => o.2.bytesOf (if o.1.range then List.range o.2.count else pl.idx)

/-- The checks of a vector word in the order of R127: its operands, then `more`, which answers index values. -/
def checkOps (s : State) (y : Sync) (ops : List VOpnd) (more : List Region → Chk (List Nat)) : Chk Places :=
  (Chk.each (checkOpnd s y) ops).bind fun rs => (more rs).bind fun ix => .ok { regs := rs, idx := ix }

/-- Issue of a vector instruction: its checks at address generation (R127), then `body` on what they found; what it writes into home scratchpad waits on the horizon (R126), and
`dep` counts the word as deprecated (R354). -/
def vectorOn (y : Sync) (dep : Bool) (ops : State → List VOpnd) (more : State → List Region → Chk (List Nat)) (body : Places → Pos → State → State)
    (s : State) : Host.Outcome State Fault Refusal :=
  issueY .V y (fun p s0 =>
    afterCheck .V 0 s0 (checkOps s0 y (ops s0) (more s0)) fun pl s =>
      banked .V (s0.here (touched (ops s0) pl)) s0 <|
        let go (s : State) : Res := let t := body pl p s; .done (if dep then t.deprecate .V p else t) .fall
        if ((ops s).zip pl.regs).any fun o => o.1.dst && !o.2.slot then whenOlder .V p s go else go s) s

def noMore (_ : State) (_ : List Region) : Chk (List Nat) := .ok []

/-- The same for a word with no index values, whose body takes its operands. -/
def vector (y : Sync) (ops : State → List VOpnd) (body : List Region → Pos → State → State) : State → Host.Outcome State Fault Refusal :=
  vectorOn y false ops noMore fun pl => body pl.regs

/-- A destination and a source of a common count (R125). -/
def vdst (d : BitVec 4) (t : Nat → Bool) : VOpnd := ⟨d, true, t, fun _ => true, true⟩
def vsrc (s : State) (n : BitVec 4) (d : BitVec 4) (t : Nat → Bool) : VOpnd :=
  ⟨d, false, t, fun c => c == (s.desc n).count || c == 1, true⟩
/-! ## Groups (R128, R129) -/

/-- An operand of a group for the bank term: region, and which of its elements index `i` touches. -/
structure Touch where
  r : Region
  f : Nat → Nat

/-- The most distinct 64-byte rows of one bank that a group touches (R129, R267). -/
def bankRows (offs : List Nat) : Nat :=
  let rows := (offs.map (· / 64)).eraseDups
  (rows.map fun r => rows.countP fun q => q % 48 == r % 48).foldl max 0

/-- Counts in SC_BANK the clocks by which the bank term exceeds the rate term (R129). -/
def State.bankClocks (s : State) (rate : Nat) (ts : List Touch) (is : List Nat) : State :=
  let rows := bankRows (ts.flatMap fun t => is.map fun i => t.r.at (t.f i))
  let extra := rows - (is.length + rate - 1) / rate
  s.mapEng .V fun g => { g with sc := Tab.set 0 g.sc scBank ((Tab.get 0 g.sc scBank + extra) % 2 ^ 48) }

/-- Index of a source element: 0 for a broadcast one. -/
def Region.idx (r : Region) (i : Nat) : Nat := if r.count = 1 then 0 else i

/-- The indices of group `g` of `n` elements. -/
def groupIdx (n g : Nat) : List Nat := (List.range (min 128 (n - 128 * g))).map fun k => 128 * g + k

/-- What a run of an instruction over its elements carries: the state, the generator, and the flags of each element. -/
structure VRun where
  s    : State
  seed : BitVec 32
  fl   : List (Nat × BitVec 6)

/-- The results of one group (R128), every read made before any write, with one generator step per result where `steps`. -/
def VRun.results (v : VRun) (steps : Bool) (el : State → Nat → Nat → Nat × BitVec 6) (is : List Nat) : List (Nat × Nat × BitVec 6) × BitVec 32 :=
  is.foldl (fun a i =>
    let sd := if steps then xorshift a.2 else a.2
    let x := el v.s i sd.toNat
    (a.1 ++ [(i, x.1, x.2)], sd)) ([], v.seed)

/-- One group: its reads, then its writes at the elements `wr` names. -/
def VRun.group (v : VRun) (steps : Bool) (el : State → Nat → Nat → Nat × BitVec 6) (d : Region) (wr : Nat → Nat) (is : List Nat) : VRun :=
  let r := v.results steps el is
  { s := r.1.foldl (fun s x => d.put s (wr x.1) x.2.1) v.s, seed := r.2, fl := v.fl ++ r.1.map fun x => (x.1, x.2.2) }

/-- An element-wise instruction over `n` elements. -/
def elementwise (n rate : Nat) (steps : Bool) (el : State → Nat → Nat → Nat × BitVec 6) (d : Region) (wr : Nat → Nat) (ts : List Touch) (s : State) : VRun :=
  (List.range ((n + 127) / 128)).foldl (fun v g =>
    let w := v.group steps el d wr (groupIdx n g)
    { w with s := w.s.bankClocks rate (⟨d, wr⟩ :: ts) (groupIdx n g) }) ⟨s, (s.eng .V).view.seed, []⟩

/-- Enters an instruction's flags and generator steps into the pending writes, when there are any; NF suppresses the flags (R56). -/
def VRun.enter (v : VRun) (p : Pos) (nf : Bool) : State :=
  if (nf || v.fl.all fun f => f.2 == 0) && v.seed == (v.s.eng .V).view.seed then v.s else
  v.s.write .V p 1 fun w => { (if nf then w else w.elemFlags v.fl) with seed := v.seed }

/-- The rounding mode a field selects (R41). -/
def rndMode (r : Rnd) (e : Eng) (s : State) : Nat :=
  match r with
  | .eng => (s.eng e).view.rmode.toNat
  | r => r.code

/-- One element result into a format, in saturating form; the number is that of its generator step. -/
def intoType (t mode r : Nat) (x : Val × BitVec 6) : Nat × BitVec 6 :=
  let y := toCode t mode false r x.1
  (y.1, x.2 ||| y.2)

/-! ## Arithmetic (R132) -/

/-- VMIN and VMAX: −0 below +0, NaN when either is NaN. -/
def Val.pick (mx : Bool) (a b : Val) : Val :=
  if a.isNan || b.isNan then .nan else
  match a.cmp b with
  | .lt => if mx then b else a
  | .gt => if mx then a else b
  | .eq => if a.neg? == mx then b else a

/-- An element-wise arithmetic instruction of one class (R132). The infinity that VABS or VNEG of one gives saturates and sets SAT as any exact infinite result does (log entry 120). -/
def arith (y : Sync) (d : BitVec 4) (srcs : List (BitVec 4)) (r : Rnd) (nf : Bool)
    (f : (mode : Nat) → (xs : List Val) → (c : Val) → Val × BitVec 6) : State → Host.Outcome State Fault Refusal :=
  vector y (fun s => vdst d isFI :: srcs.map fun a => vsrc s d a (sameClass (s.desc d).type)) fun rs p s =>
    let dd := reg rs 0
    let m := if isF dd.type then rndMode r .V s else 0
    (elementwise dd.count 128 (m == 4)
      (fun s i n => intoType dd.type m n (f m (rs.tail.map fun a => a.val s i) (codeValue dd.type (dd.get s i)).1))
      dd id (rs.tail.map fun a => ⟨a, a.idx⟩) s).enter p nf

/-- Value `k` of a list of sources. -/
def arg (xs : List Val) (k : Nat) : Val := xs.getD k .nan

/-- VADD (R132). -/
def execVadd (y : Sync) (d a b : BitVec 4) (r : Rnd) (nf : Bool) : State → Host.Outcome State Fault Refusal :=
  arith y d [a, b] r nf fun m xs _ => Val.add m (arg xs 0) (arg xs 1)
/-- VSUB (R132). -/
def execVsub (y : Sync) (d a b : BitVec 4) (r : Rnd) (nf : Bool) : State → Host.Outcome State Fault Refusal :=
  arith y d [a, b] r nf fun m xs _ => Val.add m (arg xs 0) (arg xs 1).negate
/-- VMUL (R132). -/
def execVmul (y : Sync) (d a b : BitVec 4) (r : Rnd) (nf : Bool) : State → Host.Outcome State Fault Refusal :=
  arith y d [a, b] r nf fun _ xs _ => Val.mul (arg xs 0) (arg xs 1)
/-- VFMA (R132): the product and the sum exact, one rounding. -/
def execVfma (y : Sync) (d a b : BitVec 4) (r : Rnd) (nf : Bool) : State → Host.Outcome State Fault Refusal :=
  arith y d [a, b] r nf fun m xs c =>
    let q := Val.mul (arg xs 0) (arg xs 1)
    let t := Val.add m q.1 c
    (t.1, q.2 ||| t.2)
/-- VMIN (R132). -/
def execVmin (y : Sync) (d a b : BitVec 4) (r : Rnd) (nf : Bool) : State → Host.Outcome State Fault Refusal :=
  arith y d [a, b] r nf fun _ xs _ => (Val.pick false (arg xs 0) (arg xs 1), 0)
/-- VMAX (R132). -/
def execVmax (y : Sync) (d a b : BitVec 4) (r : Rnd) (nf : Bool) : State → Host.Outcome State Fault Refusal :=
  arith y d [a, b] r nf fun _ xs _ => (Val.pick true (arg xs 0) (arg xs 1), 0)
/-- VABS (R132). -/
def execVabs (y : Sync) (d a : BitVec 4) (r : Rnd) (nf : Bool) : State → Host.Outcome State Fault Refusal :=
  arith y d [a] r nf fun _ xs _ => ((arg xs 0).abs, 0)
/-- VNEG (R132). -/
def execVneg (y : Sync) (d a : BitVec 4) (r : Rnd) (nf : Bool) : State → Host.Outcome State Fault Refusal :=
  arith y d [a] r nf fun _ xs _ => ((arg xs 0).negate, 0)

/-! ## Bit patterns, shifts and comparisons (R133 to R138) -/

/-- An instruction that moves or combines bit patterns and sets no flags. -/
def patterns (y : Sync) (ops : State → List VOpnd) (f : List (Nat → Nat) → Nat → Nat) : State → Host.Outcome State Fault Refusal :=
  vector y ops fun rs _ s =>
    (elementwise (reg rs 0).count 128 false (fun s i _ => (f (rs.tail.map fun a => a.src s) i, 0)) (reg rs 0) id
      (rs.tail.map fun a => ⟨a, a.idx⟩) s).s

/-- Bits of element `i` of source `k`. -/
def srcBits (xs : List (Nat → Nat)) (k i : Nat) : Nat := (xs.getD k fun _ => 0) i

/-- VAND, VOR, VXOR (R133). -/
def logic (y : Sync) (d a b : BitVec 4) (f : Nat → Nat → Nat) : State → Host.Outcome State Fault Refusal :=
  patterns y (fun s =>
    let w := codeWidth (s.desc d).type
    [vdst d fun t => isFIS t && codeWidth t ≤ 32, vsrc s d a fun t => isFIS t && codeWidth t == w, vsrc s d b fun t => isFIS t && codeWidth t == w])
    fun xs i => f (srcBits xs 0 i) (srcBits xs 1 i)

/-- VAND (R133). -/
def execVand (y : Sync) (d a b : BitVec 4) : State → Host.Outcome State Fault Refusal := logic y d a b (· &&& ·)
/-- VOR (R133). -/
def execVor (y : Sync) (d a b : BitVec 4) : State → Host.Outcome State Fault Refusal := logic y d a b (· ||| ·)
/-- VXOR (R133). -/
def execVxor (y : Sync) (d a b : BitVec 4) : State → Host.Outcome State Fault Refusal := logic y d a b (· ^^^ ·)

/-- An integer element's value. -/
def intVal (t b : Nat) : Int :=
  match (codeValue t b).1 with
  | .fin n m _ _ => if n then -m else m
  | _ => 0

/-- VSHL, VSHR, VSRA (R134): `f` on the width, the bits and a count in range, `out` on the bits of an element out of range. -/
def shifts (y : Sync) (d a b : BitVec 4) (f : (w t x c : Nat) → Nat) (out : (w t x : Nat) → Nat) : State → Host.Outcome State Fault Refusal :=
  vector y (fun s => [vdst d isI, vsrc s d a fun t => t == (s.desc d).type, vsrc s d b isI]) fun rs _ s =>
    let dd := reg rs 0
    (elementwise dd.count 128 false (fun s i _ =>
      let x := (reg rs 1).src s i
      let c := intVal (reg rs 2).type ((reg rs 2).src s i)
      (if 0 ≤ c ∧ c < dd.width then f dd.width dd.type x c.toNat else out dd.width dd.type x, 0)) dd id
      [⟨reg rs 1, (reg rs 1).idx⟩, ⟨reg rs 2, (reg rs 2).idx⟩] s).s

/-- VSHL (R134). -/
def execVshl (y : Sync) (d a b : BitVec 4) : State → Host.Outcome State Fault Refusal :=
  shifts y d a b (fun w _ x c => (x <<< c) % 2 ^ w) fun _ _ _ => 0
/-- VSHR (R134). -/
def execVshr (y : Sync) (d a b : BitVec 4) : State → Host.Outcome State Fault Refusal :=
  shifts y d a b (fun _ _ x c => x >>> c) fun _ _ _ => 0
/-- VSRA (R134); the sign is the type's, so a UINT8 element has none. -/
def execVsra (y : Sync) (d a b : BitVec 4) : State → Host.Outcome State Fault Refusal :=
  shifts y d a b (fun w t x c => (intVal t x / 2 ^ c % 2 ^ w).toNat) fun w t x => if intVal t x < 0 then 2 ^ w - 1 else 0

/-- Whether a condition holds, and its flags (R135). -/
def condOf (c : Cond) (a b : Val) : Bool × BitVec 6 :=
  if a.isNan || b.isNan then
    match c with
    | .ne | .un => (true, 0)
    | .eq => (false, 0)
    | _ => (false, flagINV)
  else
    let o := a.cmp b
    (match c with
      | .eq => o == .eq | .ne => o != .eq | .lt => o == .lt | .le => o != .gt | .gt => o == .gt | .ge => o != .lt | .un => false, 0)

/-- VCMP (R135). -/
def execVcmp (y : Sync) (d a b : BitVec 4) (c : Cond) (nf : Bool) : State → Host.Outcome State Fault Refusal :=
  vector y (fun s => [vdst d isI, vsrc s d a isFI, vsrc s d b (sameClass (s.desc a).type)]) fun rs p s =>
    (elementwise (reg rs 0).count 128 false (fun s i _ =>
      let r := condOf c ((reg rs 1).val s i) ((reg rs 2).val s i)
      (if r.1 then 1 else 0, r.2)) (reg rs 0) id [⟨reg rs 1, (reg rs 1).idx⟩, ⟨reg rs 2, (reg rs 2).idx⟩] s).enter p nf

/-- VSEL (R136). -/
def execVsel (y : Sync) (d a b m : BitVec 4) : State → Host.Outcome State Fault Refusal :=
  patterns y (fun s => [vdst d isFIS, vsrc s d a fun t => t == (s.desc d).type, vsrc s d b fun t => t == (s.desc d).type, vsrc s d m isI])
    fun xs i => if srcBits xs 2 i ≠ 0 then srcBits xs 0 i else srcBits xs 1 i

/-- VMOV (R137). -/
def execVmov (y : Sync) (d a : BitVec 4) : State → Host.Outcome State Fault Refusal :=
  patterns y (fun s => [vdst d isAny, vsrc s d a fun t => t == (s.desc d).type]) fun xs i => srcBits xs 0 i

/-- VFILL (R138). -/
def execVfill (y : Sync) (d x : BitVec 4) : State → Host.Outcome State Fault Refusal :=
  vector y (fun _ => [vdst d isFIS]) fun rs _ s =>
    let v := (s.x .V x.toNat).toNat
    (elementwise (reg rs 0).count 128 false (fun _ _ _ => (v % 2 ^ (reg rs 0).width, 0)) (reg rs 0) id [] s).s

/-- VIOTA (R138). -/
def execViota (y : Sync) (d x : BitVec 4) (r : Rnd) (nf : Bool) : State → Host.Outcome State Fault Refusal :=
  vector y (fun _ => [vdst d isFI]) fun rs p s =>
    let v := (s.x .V x.toNat).toInt
    let m := rndMode r .V s
    (elementwise (reg rs 0).count 128 (m == 4) (fun _ i n => toCode (reg rs 0).type m false n (.ofInt (v + i))) (reg rs 0) id [] s).enter p nf

/-! ## Conversion and quantisation (R139 to R143) -/

/-- The types VCVT converts between (R139). -/
def isCvt (t : Nat) : Bool := isFIS t || isPacked t

/-- The body of VCVT (R139): a conversion to E8M0 ignores the rounding mode (R47), so it takes no generator step (log entry 16). -/
def cvtBody (ns nf : Bool) (r : Rnd) (rs : List Region) (p : Pos) (s : State) : State :=
  let dd := reg rs 0
  let a := reg rs 1
  let m := rndMode r .V s
  (elementwise dd.count 128 (m == 4 && !isScale dd.type) (fun s i n =>
    let x := codeValue a.type (a.src s i)
    let z := toCode dd.type m ns n x.1
    (z.1, x.2 ||| z.2)) dd id [⟨a, a.idx⟩] s).enter p nf

/-- VCVT (R139). -/
def execVcvt (y : Sync) (d a : BitVec 4) (ns : Bool) (r : Rnd) (nf : Bool) : State → Host.Outcome State Fault Refusal :=
  vector y (fun s => [vdst d isCvt, vsrc s d a isCvt]) (cvtBody ns nf r)

/-- VCVT.V1 (R30, R139), which counts once it is older than the horizon (R354). -/
def execVcvtV1 (y : Sync) (d a : BitVec 4) (r : Rnd) (nf : Bool) : State → Host.Outcome State Fault Refusal :=
  vectorOn y true (fun s => [vdst d isCvt, vsrc s d a isCvt]) noMore fun pl => cvtBody false nf r pl.regs

/-- The element's own format of a microscaled code, and the factor it divides by (R40, R48). -/
def mxElem (t : Nat) : Nat × Int := if t = 0x10 then (0x03, 0) else if t = 0x11 then (0x04, 0) else (0x09, 6)

def mxEmax (t : Nat) : Int := if t = 0x10 then 8 else if t = 0x11 then 15 else 0

/-- The scale code of a block (R48); 0xFF when the block holds a NaN, or an infinity under the non-saturating mode. A block of infinities alone has no finite magnitude and takes scale
0x00 (log entry 126). -/
def blockScale (t : Nat) (nsat : Bool) (vs : List Val) : Nat :=
  if vs.any fun v => v.isNan || (nsat && match v with | .inf _ => true | _ => false) then 0xFF else
  let ls := vs.filterMap fun v => match v with | .fin _ m e _ => if m = 0 then none else some ((m.log2 : Int) + e) | _ => none
  match ls with
  | [] => 0
  | l :: r => (max 0 (min 254 (r.foldl max l - mxEmax t + 127))).toNat

/-- One element of a block with a scale (R48). -/
def blockElem (t scale mode : Nat) (nsat : Bool) (r : Nat) (v : Val) : Nat × BitVec 6 :=
  if scale = 0xFF then (if t = 0x12 then (0, flagINV) else ((if t = 0x10 then e4m3 else e5m2).nan, 0)) else
  toCode (mxElem t).1 mode nsat r (v.scale ((mxElem t).2 - ((scale : Int) - 127)))

/-- The scale of block `k` of a source region. -/
def Region.scale (a : Region) (t : Nat) (n : Nat) (s : State) (k : Nat) : Nat :=
  blockScale t false ((List.range (min 32 (n - 32 * k))).map fun j => (codeValue a.type (a.get s (32 * k + j))).1)

/-- VQNT (R140); where a scale and an element name one byte, a block's scale goes before its elements (log entry 17). -/
def execVqnt (y : Sync) (d a b : BitVec 4) (r : Rnd) (nf : Bool) : State → Host.Outcome State Fault Refusal :=
  vector y (fun s =>
    let n := (s.desc d).count
    [vdst d isMX, ⟨a, false, isF, fun c => c == n, true⟩, ⟨b, true, isScale, fun c => c == (n + 31) / 32, true⟩]) fun rs p s =>
    let dd := reg rs 0
    let src := reg rs 1
    let m := rndMode r .V s
    ((List.range ((dd.count + 127) / 128)).foldl (fun (v : VRun) g =>
      let is := groupIdx dd.count g
      let x := v.results (m == 4) (fun s i n =>
        blockElem dd.type (src.scale dd.type dd.count s (i / 32)) m false n (codeValue src.type (src.get s i)).1) is
      let w := x.1.foldl (fun s e =>
        let s := if e.1 % 32 = 0 then (reg rs 2).put s (e.1 / 32) (src.scale dd.type dd.count v.s (e.1 / 32)) else s
        dd.put s e.1 e.2.1) v.s
      ⟨w.bankClocks 128 [⟨dd, id⟩, ⟨src, id⟩, ⟨reg rs 2, (· / 32)⟩] is, x.2, v.fl ++ x.1.map fun e => (e.1, e.2.2)⟩)
      ⟨s, (s.eng .V).view.seed, []⟩).enter p nf

/-- VDQNT (R141). -/
def execVdqnt (y : Sync) (d a b : BitVec 4) (r : Rnd) (nf : Bool) : State → Host.Outcome State Fault Refusal :=
  vector y (fun s =>
    let n := (s.desc d).count
    [vdst d isF, ⟨a, false, isMX, fun c => c == n, true⟩, ⟨b, false, isScale, fun c => c == (n + 31) / 32, true⟩]) fun rs p s =>
    let dd := reg rs 0
    let m := rndMode r .V s
    (elementwise dd.count 128 (m == 4) (fun s i n =>
      intoType dd.type m n (Val.mul (codeValue (reg rs 1).type ((reg rs 1).get s i)).1 (codeValue 0x05 ((reg rs 2).get s (i / 32))).1)) dd id
      [⟨reg rs 1, id⟩, ⟨reg rs 2, (· / 32)⟩] s).enter p nf

/-- VRSHR (R142). -/
def execVrshr (y : Sync) (d a b : BitVec 4) (r : Rnd) (nf : Bool) : State → Host.Outcome State Fault Refusal :=
  vector y (fun s => [vdst d isI, vsrc s d a isI, vsrc s d b isI]) fun rs p s =>
    let dd := reg rs 0
    let m := rndMode r .V s
    (elementwise dd.count 128 (m == 4) (fun s i n =>
      let c := max 0 (min 63 (signed (reg rs 2).width ((reg rs 2).src s i)))
      toCode dd.type m false n (((reg rs 1).val s i).scale (-c))) dd id
      [⟨reg rs 1, (reg rs 1).idx⟩, ⟨reg rs 2, (reg rs 2).idx⟩] s).enter p nf

/-- min(max(a, lo), hi) on patterns of a type (R143); an infinity that results keeps its pattern (log entry 121). -/
def clampBits (t a lo hi : Nat) : Nat :=
  let v (b : Nat) : Val := (codeValue t b).1
  if (v a).isNan || (v lo).isNan || (v hi).isNan then ((Fmt.ofCode? t).getD fp32).nan else
  let x := if Val.pick true (v a) (v lo) = v a then a else lo
  if Val.pick false (v x) (v hi) = v x then x else hi

/-- VCLAMP (R143). -/
def execVclamp (y : Sync) (d a lo hi : BitVec 4) : State → Host.Outcome State Fault Refusal :=
  vector y (fun s => [vdst d isFI, vsrc s d a fun t => t == (s.desc d).type]) fun rs _ s =>
    let dd := reg rs 0
    let l := (s.x .V lo.toNat).toNat % 2 ^ dd.width
    let h := (s.x .V hi.toNat).toNat % 2 ^ dd.width
    (elementwise dd.count 128 false (fun s i _ => (clampBits dd.type ((reg rs 1).src s i) l h, 0)) dd id [⟨reg rs 1, (reg rs 1).idx⟩] s).s

/-! ## Reductions and scans (R144, R145) -/

/-- A running value with the generator and the flags so far. -/
structure Acc where
  v    : Val
  seed : BitVec 32
  fl   : BitVec 6
  deriving DecidableEq, Repr

/-- One combination (R144, R145): ADD of class F is rounded to FP32, with one generator step under mode 4; the others select or add exactly. -/
def comb (op : CombOp) (fl32 : Bool) (mode : Nat) (a : Acc) (x : Val) : Acc :=
  match op with
  | .add =>
    let s := Val.add mode a.v x
    if !fl32 then { a with v := s.1 } else
    let sd := if mode = 4 then xorshift a.seed else a.seed
    let r := fp32.round mode false sd.toNat s.1
    ⟨fp32.value r.1, sd, a.fl ||| s.2 ||| r.2⟩
  | .min => { a with v := Val.pick false a.v x }
  | .max | .amax => { a with v := Val.pick true a.v x }

/-- Joins pairs of partials, one level of the tree (R51); an absent partial passes its partner through. -/
def joinLevel (op : CombOp) (fl32 : Bool) (mode : Nat) : List (Option Val) → BitVec 32 × BitVec 6 → List (Option Val) × BitVec 32 × BitVec 6
  | a :: b :: l, sf =>
    match a, b with
    | some x, some y =>
      let r := comb op fl32 mode ⟨x, sf.1, sf.2⟩ y
      let t := joinLevel op fl32 mode l (r.seed, r.fl)
      (some r.v :: t.1, t.2)
    | some x, none => let t := joinLevel op fl32 mode l sf; (some x :: t.1, t.2)
    | none, y => let t := joinLevel op fl32 mode l sf; (y :: t.1, t.2)
  | l, sf => (l, sf)

/-- The seven levels. -/
def joinAll (op : CombOp) (fl32 : Bool) (mode : Nat) : Nat → List (Option Val) × BitVec 32 × BitVec 6 → List (Option Val) × BitVec 32 × BitVec 6
  | 0, t => t
  | n + 1, t => joinAll op fl32 mode n (joinLevel op fl32 mode t.1 t.2)

/-- Value of an element as VRED takes it: AMAX takes magnitudes. -/
def redVal (op : CombOp) (v : Val) : Val := if op = .amax then v.abs else v

/-- The lane partials after elements 0 to n − 1 (R144). -/
def partials (op : CombOp) (fl32 : Bool) (mode : Nat) (xs : List Val) (seed : BitVec 32) : List (Option Val) × BitVec 32 × BitVec 6 :=
  xs.zipIdx.foldl (fun t c =>
    match t.1.getD (c.2 % 128) none with
    | none => (t.1.set (c.2 % 128) (some (redVal op c.1)), t.2)
    | some p =>
      let r := comb op fl32 mode ⟨p, t.2.1, t.2.2⟩ (redVal op c.1)
      (t.1.set (c.2 % 128) (some r.v), r.seed, r.fl)) (List.replicate 128 none, seed, 0)

/-- Converts a running value into dd: a generator step of its own when dd is class F and not FP32 (R144, R145), under MIN, MAX and AMAX as under ADD (log entry 97). An
infinite value saturates and sets SAT, into FP32 too (log entry 122). -/
def intoLast (t mode : Nat) (a : Acc) : Nat × Acc :=
  let sd := if mode = 4 && isF t && t != 0 then xorshift a.seed else a.seed
  let r := toCode t (if isF t then mode else 0) false sd.toNat a.v
  (r.1, { a with seed := sd, fl := a.fl ||| r.2 })

/-- VRED (R144). -/
def execVred (y : Sync) (d a : BitVec 4) (op : CombOp) (r : Rnd) (nf : Bool) : State → Host.Outcome State Fault Refusal :=
  vector y (fun s => [⟨d, true, isFI, fun c => c == 1, true⟩, ⟨a, false, sameClass (s.desc d).type, fun _ => true, true⟩]) fun rs p s =>
    let dd := reg rs 0
    let n := (reg rs 1).count
    let m := rndMode r .V s
    let t := joinAll op (isF dd.type) m 7
      (partials op (isF dd.type) m ((List.range n).map fun i => (codeValue (reg rs 1).type ((reg rs 1).get s i)).1) (s.eng .V).view.seed)
    let z := intoLast dd.type m ⟨((t.1.headD none).getD .nan), t.2.1, t.2.2⟩
    let s := (List.range ((n + 127) / 128)).foldl (fun s g =>
      s.bankClocks 128 (⟨reg rs 1, id⟩ :: if n ≤ 128 * g + 128 then [⟨dd, fun _ => 0⟩] else []) (groupIdx n g)) s
    VRun.enter ⟨dd.put s 0 z.1, z.2.seed, [(0, z.2.fl)]⟩ p nf

/-- One group of VSCAN: the running value goes on from the group before. -/
def scanGroup (op : CombOp) (dd a : Region) (mode : Nat) (v : VRun × Option Val) (is : List Nat) : VRun × Option Val :=
  let xs := is.map fun i => (i, (codeValue a.type (a.get v.1.s i)).1)
  let r := xs.foldl (fun (t : List (Nat × Nat × BitVec 6) × BitVec 32 × Option Val) x =>
    let c : Acc := match t.2.2 with
      | none => ⟨x.2, t.2.1, 0⟩
      | some w => comb op (isF dd.type) mode ⟨w, t.2.1, 0⟩ x.2
    let z := intoLast dd.type mode c
    (t.1 ++ [(x.1, z.1, z.2.fl)], z.2.seed, some c.v)) ([], v.1.seed, v.2)
  (⟨(r.1.foldl (fun s x => dd.put s x.1 x.2.1) v.1.s).bankClocks 16 [⟨dd, id⟩, ⟨a, id⟩] is, r.2.1, v.1.fl ++ r.1.map fun x => (x.1, x.2.2)⟩, r.2.2)

/-- VSCAN (R145). -/
def execVscan (y : Sync) (d a : BitVec 4) (op : CombOp) (r : Rnd) (nf : Bool) : State → Host.Outcome State Fault Refusal :=
  vector y (fun s => [vdst d isFI, ⟨a, false, sameClass (s.desc d).type, fun c => c == (s.desc d).count, true⟩]) fun rs p s =>
    let n := (reg rs 0).count
    ((List.range ((n + 127) / 128)).foldl (fun v g => scanGroup op (reg rs 0) (reg rs 1) (rndMode r .V s) v (groupIdx n g))
      (⟨s, (s.eng .V).view.seed, []⟩, none)).1.enter p nf

/-! ## Division and roots (R146) -/

def quotient (a b : Val) : Val × BitVec 6 :=
  if a.isNan || b.isNan then (.nan, 0) else
  match a, b with
  | .inf _, .inf _ => (.nan, flagINV)
  | .inf x, b => (.inf (x != b.neg?), 0)
  | a, .inf y => (.zero (a.neg? != y), 0)
  | a, b =>
    if b.isZero then (if a.isZero then (.nan, flagINV) else (.inf (a.neg? != b.neg?), flagDZ)) else
    if a.isZero then (.zero (a.neg? != b.neg?), 0) else (Val.quot a b, 0)

def rootOf (a : Val) : Val × BitVec 6 :=
  match a with
  | .nan => (.nan, 0)
  | .inf n => if n then (.nan, flagINV) else (.inf false, 0)
  | v => if v.isZero then (v, 0) else if v.neg? then (.nan, flagINV) else (v.root, 0)

def recipRoot (a : Val) : Val × BitVec 6 :=
  match a with
  | .nan => (.nan, 0)
  | .inf n => if n then (.nan, flagINV) else (.zero false, 0)
  | v => if v.isZero then (.inf v.neg?, flagDZ) else if v.neg? then (.nan, flagINV) else (v.rroot, 0)

/-- An instruction of R146: class F only, rounded once into dd. -/
def divide (y : Sync) (d : BitVec 4) (srcs : List (BitVec 4)) (r : Rnd) (nf : Bool) (f : List Val → Val × BitVec 6) : State → Host.Outcome State Fault Refusal :=
  vector y (fun s => vdst d isF :: srcs.map fun a => vsrc s d a isF) fun rs p s =>
    let dd := reg rs 0
    let m := rndMode r .V s
    (elementwise dd.count 32 (m == 4) (fun s i n => intoType dd.type m n (f (rs.tail.map fun a => a.val s i))) dd id
      (rs.tail.map fun a => ⟨a, a.idx⟩) s).enter p nf

/-- VRCP (R146). -/
def execVrcp (y : Sync) (d a : BitVec 4) (r : Rnd) (nf : Bool) : State → Host.Outcome State Fault Refusal :=
  divide y d [a] r nf fun xs => quotient (.ofInt 1) (arg xs 0)
/-- VRSQRT (R146). -/
def execVrsqrt (y : Sync) (d a : BitVec 4) (r : Rnd) (nf : Bool) : State → Host.Outcome State Fault Refusal :=
  divide y d [a] r nf fun xs => recipRoot (arg xs 0)
/-- VSQRT (R146). -/
def execVsqrt (y : Sync) (d a : BitVec 4) (r : Rnd) (nf : Bool) : State → Host.Outcome State Fault Refusal :=
  divide y d [a] r nf fun xs => rootOf (arg xs 0)
/-- VDIV (R146). -/
def execVdiv (y : Sync) (d a b : BitVec 4) (r : Rnd) (nf : Bool) : State → Host.Outcome State Fault Refusal :=
  divide y d [a, b] r nf fun xs => quotient (arg xs 0) (arg xs 1)

/-! ## Gather, scatter and lane flags (R147, R148) -/

/-- The signed index that index region `b` holds at `i`. -/
def indexAt (s : State) (b : Region) (i : Nat) : Int := signed 32 (b.get s i)

/-- The checks of R147 after R127's: the index values, then the table elements they name; it answers the indices. -/
def checkTable (s : State) (y : Sync) (dst : Bool) (t b : Region) : Chk (List Nat) :=
  (Chk.each (fun i => let x := indexAt s b i; if x < 0 ∨ (t.count : Int) ≤ x then .bad 0x0C 4 0 else .ok x.toNat) (List.range b.count)).bind fun is =>
    (checkElems s y dst t is).bind fun _ => .ok is

/-- VGTH (R147). -/
def execVgth (y : Sync) (d a b : BitVec 4) : State → Host.Outcome State Fault Refusal :=
  vectorOn y false (fun s => [vdst d isFIS, ⟨a, false, fun t => t == (s.desc d).type, fun _ => true, false⟩,
      ⟨b, false, fun t => t == 0x0C, fun c => c == (s.desc d).count, true⟩])
    (fun s rs => checkTable s y false (reg rs 1) (reg rs 2)) fun pl _ s =>
      let rs := pl.regs
      let ix (i : Nat) : Nat := pl.idx.getD i 0
      (elementwise (reg rs 0).count 128 false (fun s i _ => ((reg rs 1).get s (ix i), 0)) (reg rs 0) id [⟨reg rs 1, ix⟩, ⟨reg rs 2, id⟩] s).s

/-- VSCT (R147). -/
def execVsct (y : Sync) (d a b : BitVec 4) : State → Host.Outcome State Fault Refusal :=
  vectorOn y false (fun s => [⟨d, true, isFIS, fun _ => true, false⟩, ⟨a, false, fun t => t == (s.desc d).type, fun _ => true, true⟩,
      ⟨b, false, fun t => t == 0x0C, fun c => c == (s.desc a).count, true⟩])
    (fun s rs => checkTable s y true (reg rs 0) (reg rs 2)) fun pl _ s =>
      let rs := pl.regs
      let ix (i : Nat) : Nat := pl.idx.getD i 0
      (elementwise (reg rs 2).count 128 false (fun s i _ => ((reg rs 1).get s i, 0)) (reg rs 0) ix [⟨reg rs 1, id⟩, ⟨reg rs 2, id⟩] s).s

/-- VFLG (R148). -/
def execVflg (y : Sync) (d : BitVec 4) (clr : BitVec 6) : State → Host.Outcome State Fault Refusal :=
  vector y (fun _ => [⟨d, true, fun t => t == 0x0A, fun c => c == 128, true⟩]) fun rs p s =>
    let s1 := (elementwise 128 128 false (fun s i _ => ((Tab.get 0 (s.eng .V).view.lanes i).toNat, 0)) (reg rs 0) id [] s).s
    if clr = 0 then s1 else s1.write .V p 1 fun v => { v with lanes := Tab.setAll 0 v.lanes ((List.range 128).map fun l => (l, Tab.get 0 v.lanes l &&& ~~~clr)) }

/-! ## The piecewise-polynomial unit (R149 to R151) -/

/-- A valid segment's breakpoint, origin and coefficients, by its index (R149). -/
def segment? (pwl : Tab Byte) (n : Nat) : Option (List Val) :=
  let b := (List.range 32).map fun k => Tab.get 0 pwl (32 * n + k)
  let f (k : Nat) : Val := fp32.value (field b (4 * k) 4)
  if field b 24 1 = 1 ∧ field b 25 7 = 0 ∧ (f 0).isNan = false then some ((List.range 6).map f) else none

/-- A step of the user table, rounded to nearest-even FP32 (R150). -/
def pwlRound (x : Val × BitVec 6) : Val × BitVec 6 :=
  let r := fp32.round 0 false 0 x.1
  (fp32.value r.1, x.2 ||| r.2)

/-- The user table (R150). -/
def pwlUser (s : State) (x : Val) : Val × BitVec 6 :=
  if x.isNan then (.nan, 0) else
  let segs := (List.range 64).filterMap (segment? s.core.pwl)
  match segs with
  | [] => (.nan, flagINV)
  | g0 :: _ =>
    let g := ((segs.filter fun g => (arg g 0).cmp x != .gt).getLast?).getD g0
    let t := pwlRound (Val.add 0 x (arg g 1).negate)
    [arg g 4, arg g 3, arg g 2].foldl (fun y c =>
      let q := Val.mul y.1 t.1
      let z := Val.add 0 q.1 c
      let r := pwlRound (z.1, q.2 ||| z.2)
      (r.1, y.2 ||| r.2)) (arg g 5, t.2)

/-- Bits of a value that FP32 holds. -/
def fp32Bits (x : Val) : BitVec 32 := BitVec.ofNat 32 (fp32.round 0 true 0 x).1

/-- The built-in EXP (R151). -/
def pwlExp (x : Val) : Val × BitVec 6 :=
  match x with
  | .nan => (.nan, 0)
  | .inf n => (if n then .zero false else .inf false, 0)
  | v =>
    if v.isZero then (.ofInt 1, 0) else
    let b := fp32Bits v
    if v.neg? = false ∧ 0x42B17218 ≤ b.toNat then (.inf false, flagOVF ||| flagINX) else
    let y := bitsOfRank (expRank (rankOfBits b.toNat))
    (fp32.value y, flagINX ||| flagIf (y == 0) flagUNF)

/-- The built-in LOG (R151). -/
def pwlLog (x : Val) : Val × BitVec 6 :=
  match x with
  | .nan => (.nan, 0)
  | .inf n => if n then (.nan, flagINV) else (.inf false, 0)
  | v =>
    if v.isZero then (.inf true, flagDZ) else if v.neg? then (.nan, flagINV) else
    if v.cmp (.ofInt 1) = .eq then (.zero false, 0) else (fp32.value (bitsOfRank (logRank (rankOfBits (fp32Bits v).toNat))), flagINX)

/-- VPWL (R150, R151): mode and generator take part only in the final conversion. -/
def execVpwl (y : Sync) (d a : BitVec 4) (t : PwlTable) (ns : Bool) (r : Rnd) (nf : Bool) : State → Host.Outcome State Fault Refusal :=
  vector y (fun s => [vdst d isF, vsrc s d a isF]) fun rs p s =>
    let dd := reg rs 0
    let m := rndMode r .V s
    (elementwise dd.count 32 (m == 4) (fun s i n =>
      let x := (reg rs 1).val s i
      let v := match t with | .user => pwlUser s x | .exp => pwlExp x | .log => pwlLog x
      let z := toCode dd.type m ns n v.1
      (z.1, v.2 ||| z.2)) dd id [⟨reg rs 1, (reg rs 1).idx⟩] s).enter p nf

end Sys2Proof.Machine
end

