-- ==== Sys2Proof/Machine/Matrix.lean ====
section
/-!
DEFINITION. The matrix engine's own instructions (R153 to R178) but for the tile registers.
-/
namespace Sys2Proof.Machine

/-! ## Operands in the scratchpad (R155 to R158) -/

/-- An operand register taken apart, with the space its bytes lie in. -/
structure MOpnd where
  q      : Bool
  step   : Nat
  pitch  : Nat
  base   : Nat
  slot   : Option (Nat × Nat)      -- with Q set: base and size of the slot, when the pair is bound
  deriving DecidableEq, Repr

/-- The slot of a matrix word with Q set (R155): of a word in execution, the one it took when it popped. -/
def matSlot (s : State) (y : Sync) (dst : Bool) : Option (Nat × Nat) :=
  if dst then y.sig.bind fun t => (s.core.queue? .M t).map fun q => (q.base + q.slot * q.prod, q.slot)
  else y.wait.bind fun d => (s.core.queue? d .M).map fun q => (q.base + q.slot * s.core.takenBy (s.pos .M) (pairIdx d.code Eng.M.code) q.cons, q.slot)

/-- What register `n` of M reads; a number past 15 reads as zero (R157). -/
def State.mReg (s : State) (n : Nat) : Nat := if n < 16 then (s.x .M n).toNat else 0

/-- Operand register `n` with a packed row size (R155). -/
def State.mOpnd (s : State) (y : Sync) (n : Nat) (dst : Bool) (packed : Nat) : MOpnd :=
  let v := s.mReg n
  { q := v.testBit 63
    step := match bits v 62 61 with | 0 => 0 | 1 => 1 | 2 => 3 | _ => 5
    pitch := if bits v 47 32 = 0 then packed else bits v 47 32
    base := bits v 20 0
    slot := matSlot s y dst }

/-- Address of byte `b` of row `r` (R156). -/
def MOpnd.addr (o : MOpnd) (r b : Nat) : Nat :=
  let a := o.base + r * o.pitch + b
  if o.step = 0 then a else a - a % 1024 + (a % 1024 + 64 * o.step * r) % 1024

/-- The scratchpad offset of a byte of the operand's space; `none` where R158 gives the byte a fate. -/
def MOpnd.place (s : State) (o : MOpnd) (a : Nat) : Option Nat :=
  if o.q then
    match o.slot with
    | none => none
    | some (b, n) => if a < n then some (b + a) else none
  else if a < Config.scratchBytes ∧ !s.core.inQueue a then some a else none

/-- Bytes at addresses of the operand's space; a failed one reads as zero (R158). -/
def MOpnd.read (s : State) (o : MOpnd) (as : List Nat) : List Byte :=
  as.map fun a => match o.place s a with | some x => s.home x | none => 0

/-- INV when the operand has no queue or a byte among these fails (R158). -/
def MOpnd.fate (s : State) (o : MOpnd) (as : List Nat) : BitVec 6 :=
  flagIf ((o.q && o.slot.isNone) || as.any fun a => (o.place s a).isNone) flagINV

/-- Addresses of the `n` bytes of a row. -/
def MOpnd.row (o : MOpnd) (r n : Nat) : List Nat := (List.range n).map (o.addr r)

/-- The writes of bytes at addresses of the operand's space; a failed one is discarded (R158). -/
def MOpnd.writes (s : State) (o : MOpnd) (l : List (Nat × Byte)) : List (Nat × Byte) :=
  l.filterMap fun c => (o.place s c.1).map fun x => (x, c.2)

/-- Scale register of an operand (R157): phase, pitch and base. -/
structure ScaleReg where
  phase : Nat
  pitch : Nat
  base  : Nat
  deriving DecidableEq, Repr

def State.scaleReg (s : State) (n : Nat) : ScaleReg :=
  let v := s.mReg (n + 1)
  ⟨bits v 52 48, bits v 47 32, bits v 20 0⟩

/-- Address of the scale of element `k` of row `r`. -/
def ScaleReg.addr (c : ScaleReg) (r k : Nat) : Nat := c.base + r * c.pitch + (c.phase + k) / 32

/-- Counts in SC_BANK of M the clocks by which the bank term exceeds `c` (R161). -/
def State.bankTerm (s : State) (c : Nat) (offs : List Nat) : State :=
  s.mapEng .M fun g => { g with sc := Tab.set 0 g.sc scBank ((Tab.get 0 g.sc scBank + (bankRows offs - c)) % 2 ^ 48) }

/-- Enters the flags M sets into its pending writes, unless NF suppresses them (R56). -/
def State.mFlags (s : State) (p : Pos) (nf : Bool) (f : BitVec 6) : State :=
  if nf || f == 0 then s else s.write .M p 1 fun v => v.orFlags f

/-! ## Formats (R57 to R61, R159, R160) -/

/-- The entry a slot selects (R61). -/
def State.fmtEntry (s : State) (slot : Nat) : Nat :=
  let v := (s.eng .M).view
  let n := if v.fmtlvl.toNat = 4 then 0 else (((s.eng .M).loops.reverse[v.fmtlvl.toNat]?).map (·.index)).getD 0
  (Tab.get fmtDefault s.core.fmt ((v.fmtbase.toNat + slot + v.fmtstride.toNat * n) % 64)).toNat

def entA (e : Nat) : Nat := bits e 28 24
def entB (e : Nat) : Nat := bits e 23 19
def entD (e : Nat) : Nat := bits e 18 14

/-- Accumulation as INT32 (R159). -/
def intAcc (a : Nat) : Bool := a == 0x08 || a == 0x09 || a == 0x0A || a == 0x06

/-- Elements of a K-group by AFMT (R160). -/
def groupK (a : Nat) : Nat := if codeWidth a = 16 then 24 else if a = 0x08 then 96 else 48

/-- Elements of a packed row, from the least significant end of each byte (R38). -/
def rowElems (code n : Nat) (b : List Byte) : List Nat :=
  let w := codeWidth code
  (List.range n).map fun k => if w < 8 then (field b (k * w / 8) 1 >>> (k * w % 8)) % 2 ^ w else field b (k * w / 8) (w / 8)

/-! ## Accumulator windows (R154) -/

structure Win where
  nrows : Nat
  ncols : Nat                     -- as the register gives it, at most 64
  col   : Nat
  row   : Nat
  deriving DecidableEq, Repr

def Win.of (w : Word) : Win :=
  ⟨min 1024 (bits w.toNat 42 32), min 64 (bits w.toNat 24 18), bits w.toNat 17 12, bits w.toNat 9 0⟩

/-- Columns of the window that the store has. -/
def Win.cols (w : Win) : Nat := min w.ncols (64 - w.col)
/-- Key of window element (i, j). -/
def Win.key (w : Win) (i j : Nat) : Nat := 64 * ((w.row + i) % 1024) + w.col + j
/-- The keys of a window, row by row. -/
def Win.keys (w : Win) : List (Nat × Nat) := (List.range w.nrows).flatMap fun i => (List.range w.cols).map fun j => (i, j)

/-- Writes accumulator elements. -/
def Core.setAcc (c : Core) (l : List (Nat × BitVec 32)) : Core := { c with acc := Tab.setAll 0 c.acc l }

/-! ## Sums (R49, R50) -/

/-- The combined scale of a product (R50). -/
def comboScale (ea eb : Nat) : Val × BitVec 6 :=
  if ea = 0xFF ∨ eb = 0xFF then (.nan, 0) else
  let c : Int := ea + eb - 254
  if 127 < c then (.fin false 0xFFFFFF 104 false, flagOVF) else if c < -149 then (.zero false, flagUNF) else (.fin false 1 c false, 0)

/-- The exact sum of a group's products; opposed infinities give NaN and INV (R49). -/
def groupSum (ps : List Val) : Val × BitVec 6 :=
  let has (n : Bool) : Bool := ps.any fun v => v == .inf n
  if has true && has false then (.nan, flagINV) else
  match ps with
  | [] => (.zero false, 0)
  | v :: l => (l.foldl (fun a x => (Val.add 0 a x).1) v, 0)

/-- One FP32 step of R49: rounded to nearest-even with saturation, only overflow flagged; an infinity propagates. -/
def accRound (v : Val) : Val × BitVec 6 :=
  match v with
  | .fin .. => let r := fp32.round 0 false 0 v; (fp32.value r.1, r.2 &&& flagOVF)
  | v => (v, 0)

/-- FP32 bits of a value FP32 holds, infinities kept. -/
def accBits (v : Val) : BitVec 32 := BitVec.ofNat 32 (fp32.round 0 true 0 v).1

/-- c + g of R49 in FP32. -/
def fpStep (c : BitVec 32) (ps : List Val) : BitVec 32 × BitVec 6 :=
  let g := groupSum ps
  let r := accRound g.1
  let t := Val.add 0 (fp32.value c.toNat) r.1
  let u := accRound t.1
  (accBits u.1, g.2 ||| r.2 ||| t.2 ||| u.2)

/-- c + g of R49 in INT32. -/
def intStep (c : BitVec 32) (ps : List Int) : BitVec 32 × BitVec 6 :=
  let v := c.toInt + ps.sum
  if v < -2 ^ 31 then (BitVec.ofInt 32 (-2 ^ 31), flagSAT) else if 2 ^ 31 - 1 < v then (BitVec.ofInt 32 (2 ^ 31 - 1), flagSAT) else (BitVec.ofInt 32 v, 0)

/-! ## Operand rows -/

/-- One operand row at fetch: element values with their scale codes, by position; a sparse row lists only stored positions. -/
structure MRow where
  els : List (Nat × Val × Nat)
  fl  : BitVec 6
  deriving DecidableEq, Repr

/-- Elements of a dense row (R160) with the scales of R157 for a microscaled format. -/
def denseRow (s : State) (o : MOpnd) (sc : ScaleReg) (code k bytes r : Nat) : MRow :=
  let raw := rowElems code k (o.read s (o.row r bytes))
  let mx := isMX code
  let scales := if mx then (o.read s ((List.range k).map (sc.addr r))).map (·.toNat) else List.replicate k 127
  { els := (raw.zip scales).zipIdx.map fun e => (e.2, (codeValue code e.1.1).1, e.1.2)
    fl := o.fate s (o.row r bytes) ||| (if mx then o.fate s ((List.range k).map (sc.addr r)) else 0) |||
      orAll (raw.map fun b => (codeValue code b).2) }

/-- Elements of a bitmap-sparse row (R165). -/
def sparseRow (s : State) (o : MOpnd) (code r : Nat) : MRow :=
  let b := o.read s (o.row r 64)
  let byte := codeWidth code == 8
  let n := if byte then 96 else 48
  let bm := if byte then 12 else 6
  let cap := if byte then 52 else 29
  let es := codeWidth code / 8
  let set_ := (List.range n).filter fun p => (field b (p / 8) 1).testBit (p % 8)
  { els := (set_.take cap).zipIdx.map fun e => (e.1, (codeValue code (field b (bm + es * e.2) es)).1, 127)
    fl := o.fate s (o.row r 64) ||| flagIf (cap < set_.length) flagINV }

/-- Pairs of elements at positions both rows hold. -/
def matchRows (a b : MRow) : List ((Val × Nat) × (Val × Nat)) :=
  a.els.filterMap fun x => (b.els.find? fun y => y.1 == x.1).map fun y => (x.2, y.2)

/-- One output element: its new bits, its flags, and the products it formed. -/
def macElem (int mx dense : Bool) (a b : MRow) (c : BitVec 32) : BitVec 32 × BitVec 6 × Nat :=
  let ps := if dense then (a.els.map (·.2)).zip (b.els.map (·.2)) else matchRows a b
  if int then
    let i (v : Val) : Int := match v with | .fin n m _ _ => if n then -m else m | _ => 0
    let r := intStep c (ps.map fun p => i p.1.1 * i p.2.1)
    (r.1, r.2, ps.length)
  else
    let qs := ps.map fun p =>
      let x := Val.mul p.1.1 p.2.1
      if mx then
        let sc := comboScale p.1.2 p.2.2
        let y := Val.mul x.1 sc.1
        (y.1, x.2 ||| sc.2 ||| y.2)
      else x
    let r := fpStep c (qs.map (·.1))
    (r.1, orAll (qs.map (·.2)) ||| r.2, ps.length)

/-- Block element (i, j)'s key (R154). -/
def blockKey (xc : Nat) (i j : Nat) : Nat := 64 * ((bits xc 9 0 + i) % 1024) + 16 * bits xc 17 16 + j

/-- The block operation of R163 on rows already fetched. -/
def macBlock (s : State) (p : Pos) (nf int mx dense : Bool) (xc k : Nat) (ra rb : List MRow) (lines : List Nat) : State :=
  let out := ra.zipIdx.flatMap fun a => rb.zipIdx.map fun b =>
    (blockKey xc a.2 b.2, macElem int mx dense a.1 b.1 (Tab.get 0 s.core.acc (blockKey xc a.2 b.2)))
  let most := (out.map (·.2.2.2)).foldl max 0
  let c := if dense then 1 else max 1 ((most + k - 1) / k)
  let fl := orAll (ra.map (·.fl)) ||| orAll (rb.map (·.fl)) ||| orAll (out.map (·.2.2.1))
  let s := (s.bankTerm c lines).mapCore fun x => { x.setAcc (out.map fun o => (o.1, o.2.1)) with idle := 0 }
  s.mFlags p nf (fl &&& (flagINV ||| flagOVF ||| flagUNF ||| flagSAT))

/-- Scratchpad bytes an operand's rows touch, for the bank term. -/
def MOpnd.lines (s : State) (o : MOpnd) (bytes : Nat) : List Nat :=
  (List.range 16).flatMap fun r => (o.row r bytes).filterMap (o.place s)

/-- The waiting requests with one more: oldest first, the lower core first at equal times (R417). -/
def withAsk (l : List (Nat × Nat)) (a : Nat × Nat) : List (Nat × Nat) :=
  let first (b : Nat × Nat) : Bool := b.1 < a.1 || b.1 == a.1 && b.2 < a.2
  l.filter first ++ a :: l.filter fun b => !first b

/-- The matrix engine asks the governor for leave, once (R177). -/
def State.askLeave (s : State) : State :=
  if s.core.leave = .asked then s else
  { (s.mapCore fun c => { c with leave := .asked }) with
    hub := { s.hub with gov := { s.hub.gov with asks := withAsk (s.hub.gov.asks.filter (·.2 != s.core.id)) (s.podtime, s.core.id) } } }

/-- Leave (R177): a heavy instruction that is next to issue asks for leave before it pops, whether or not its token has come; a token that is missing is the cause it counts (R255). -/
def heavy (y : Sync) (run : State → Host.Outcome State Fault Refusal) (s : State) : Host.Outcome State Fault Refusal :=
  match s.gate .M with
  | .go =>
    if s.core.leave = .held then run s else
    .next (if s.core.canPop .M y.wait.toList then s.askLeave.stallOn .M scLeave false else s.askLeave.stallOn .M (s.core.popCause .M y.wait.toList) true)
  | _ => run s

/-- MMA, MMAS and MMAT (R162 to R167): which AFMT the instruction accepts, and whether its rows are sparse. -/
def macInstr (y : Sync) (c a b : BitVec 4) (slot : BitVec 3) (nf sparse : Bool) (ok : Nat → Bool) : State → Host.Outcome State Fault Refusal :=
  heavy y (issueY .M y fun p s =>
    let e := s.fmtEntry slot.toNat
    if !ok (entA e) then .done ((s.mFlags p nf flagINV).mapCore fun x => { x with idle := 0 }) .fall else
    whenOlder .M p s fun s =>
      let k := groupK (entA e)
      let na := if sparse then 64 else if entA e = 0x06 then 12 else 48
      let nb := if sparse then 64 else 48
      let oa := s.mOpnd y a.toNat false na
      let ob := s.mOpnd y b.toNat false nb
      let row (o : MOpnd) (r : BitVec 4) (code n i : Nat) : MRow :=
        if sparse then sparseRow s o code i else denseRow s o (s.scaleReg r.toNat) code k n i
      let scaleLines (o : MOpnd) (r : BitVec 4) : List Nat :=
        if isMX (entA e) then (List.range 16).flatMap fun i => ((List.range k).map ((s.scaleReg r.toNat).addr i)).filterMap (o.place s) else []
      let lines := oa.lines s na ++ ob.lines s nb ++ scaleLines oa a ++ scaleLines ob b
      banked .M (s.here lines) s <| .done (macBlock s p nf (intAcc (entA e)) (isMX (entA e)) (!sparse) (s.x .M c.toNat).toNat k
        ((List.range 16).map (row oa a (entA e) na)) ((List.range 16).map (row ob b (entB e) nb)) lines) .fall)

/-- MMA (R163). -/
def execMma (y : Sync) (c a b : BitVec 4) (slot : BitVec 3) (nf : Bool) : State → Host.Outcome State Fault Refusal :=
  macInstr y c a b slot nf false fun f => f != 0x06
/-- MMAS (R165, R166). -/
def execMmas (y : Sync) (c a b : BitVec 4) (slot : BitVec 3) (nf : Bool) : State → Host.Outcome State Fault Refusal :=
  macInstr y c a b slot nf true fun f => [0x01, 0x02, 0x03, 0x04, 0x09, 0x0A].contains f
/-- MMAT (R167). -/
def execMmat (y : Sync) (c a b : BitVec 4) (slot : BitVec 3) (nf : Bool) : State → Host.Outcome State Fault Refusal :=
  macInstr y c a b slot nf false fun f => f == 0x06

/-- MZERO (R169). -/
def execMzero (y : Sync) (w : BitVec 4) : State → Host.Outcome State Fault Refusal :=
  issueY .M y fun p s => whenOlder .M p s fun s =>
    let n := Win.of (s.x .M w.toNat)
    .done (s.mapCore fun c => c.setAcc (n.keys.map fun k => (n.key k.1 k.2, 0))) .fall

/-- MLDA (R170). The clocks that its bank term adds are taken over all its rows against one clock a row (log entry 124). -/
def execMlda (y : Sync) (w r : BitVec 4) : State → Host.Outcome State Fault Refusal :=
  issueY .M y fun p s => whenOlder .M p s fun s =>
    let n := Win.of (s.x .M w.toNat)
    let o0 := s.mOpnd y r.toNat false (4 * n.ncols)
    let o := { o0 with base := o0.base / 4 * 4 }
    let rows := List.range n.nrows
    let addrs := rows.flatMap fun i => o.row i (4 * n.cols)
    banked .M (s.here (addrs.filterMap (o.place s))) s <|
    let s := s.bankTerm (max 1 n.nrows) (addrs.filterMap (o.place s))
    .done ((s.mapCore fun c => c.setAcc (n.keys.map fun k =>
        (n.key k.1 k.2, BitVec.ofNat 32 (ofBytes (o.read s ((List.range 4).map fun b => o.addr k.1 (4 * k.2 + b)))))) ).mFlags p false (o.fate s addrs)) .fall

/-! ## Draining (R171 to R174) -/

/-- What one drained element gives: its bits and flags, and how it counts in the drain-status entry (R173). -/
structure Drained where
  val  : Nat
  fl   : BitVec 6
  sat  : Bool
  inf  : Bool
  nan  : Bool
  deriving DecidableEq, Repr

/-- Counts of one element. SATN counts every element that overflows under NSAT, to the largest finite value too (log entry 123). -/
def drained (dfmt : Nat) (nsat nanBlock : Bool) (v : Val) (r : Nat × BitVec 6) : Drained where
  val := r.1
  fl := r.2
  sat := r.2 &&& flagSAT != 0 || (nsat && r.2 &&& flagOVF != 0)
  inf := match v with | .inf _ => true | _ => false
  nan := nanBlock || v.isNan || (codeValue dfmt r.1).1.isNan

/-- Drains one row of values: elements, scales of a microscaled row (R172), and the generator after its steps (R44). -/
def drainRow (dfmt mode : Nat) (nsat : Bool) (vs : List Val) (seed : BitVec 32) : List Drained × List Nat × BitVec 32 :=
  let mx := isMX dfmt
  let scales := if mx then (List.range ((vs.length + 31) / 32)).map fun k => blockScale dfmt false ((vs.drop (32 * k)).take 32) else []
  let r := vs.zipIdx.foldl (fun (t : List Drained × BitVec 32) v =>
    let sd := if mode = 4 then xorshift t.2 else t.2
    let sc := scales.getD (v.2 / 32) 0
    let x := if mx then blockElem dfmt sc mode false sd.toNat v.1 else toCode dfmt mode nsat sd.toNat v.1
    (t.1 ++ [drained dfmt (nsat && !mx) (mx && sc == 0xFF) v.1 x], sd)) ([], seed)
  (r.1, scales, r.2)

/-- A row of elements packed (R38); `last` is the old value of a last byte only half of which is written. -/
def packRow (w : Nat) (vs : List Nat) (last : Byte) : List Byte :=
  if w < 8 then
    (List.range ((vs.length * w + 7) / 8)).map fun k =>
      let per := 8 / w
      let v := (List.range per).foldl (fun a j => a + (vs.getD (per * k + j) 0) % 2 ^ w * 2 ^ (w * j)) 0
      let have_ := min per (vs.length - per * k) * w
      BitVec.ofNat 8 (v + last.toNat / 2 ^ have_ * 2 ^ have_ % 256 * (if have_ < 8 then 1 else 0))
  else vs.flatMap (toBytes (w / 8))

/-- A drain-status entry (R173). -/
def drainEntry (l : List Drained) : Word :=
  let n (f : Drained → Bool) : Nat := min 0xFFFF (l.countP f)
  let b (k i : Nat) : Nat := if k = 0 then 0 else 2 ^ i
  let sat := n (·.sat)
  let inf := n (·.inf)
  let nan := n (·.nan)
  BitVec.ofNat 64 (sat * 2 ^ 40 + inf * 2 ^ 24 + nan * 2 ^ 8 + b sat 3 + b inf 2 + b nan 1 + 1)

/-- The value of an accumulator element as the entry has it read (R159). -/
def accVal (int : Bool) (b : BitVec 32) : Val := if int then .ofInt b.toInt else fp32.value b.toNat

/-- All rows of a window drained: results and scales by row, and the generator. -/
def drainRows (s : State) (e mode : Nat) (n : Win) (seed : BitVec 32) : List (List Drained × List Nat) × BitVec 32 :=
  (List.range n.nrows).foldl (fun t i =>
    let vs := (List.range n.cols).map fun j => accVal (intAcc (entA e)) (Tab.get 0 s.core.acc (n.key i j))
    let r := drainRow (entD e) mode (e.testBit 10) vs t.2
    (t.1 ++ [(r.1, r.2.1)], r.2.2)) ([], seed)

/-- The bytes a drained row leaves at its addresses: scales, then packed elements; the kept half of a last byte is as the rows before left it (R171). -/
def drainBytes (o : MOpnd) (sc : ScaleReg) (width len : Nat) (old : Nat → Byte) (rows : List (List Drained × List Nat)) : List (Nat × Byte) :=
  rows.zipIdx.foldl (fun out x =>
    let out := out ++ x.1.2.zipIdx.map fun k => (sc.base + x.2 * sc.pitch + k.2, BitVec.ofNat 8 k.1)
    let at_ := o.addr x.2 (len - 1)
    let last := ((out.filter fun b => b.1 == at_).getLast?.map (·.2)).getD (old at_)
    out ++ (o.row x.2 len).zip (packRow width (x.1.1.map (·.val)) last)) []

/-- MDRAIN (R171 to R173). -/
def execMdrain (y : Sync) (w r : BitVec 4) (slot : BitVec 3) (n : BitVec 4) (nf : Bool) : State → Host.Outcome State Fault Refusal :=
  issueY .M y fun p s => whenOlder .M p s fun s =>
    let e := s.fmtEntry slot.toNat
    let mode := if bits e 13 11 = 7 then (s.eng .M).view.rmode.toNat else bits e 13 11
    let win := Win.of (s.x .M w.toNat)
    let width := codeWidth (entD e)
    let len := (win.cols * width + 7) / 8
    let o := s.mOpnd y r.toNat true len
    let d := drainRows s e mode win (s.eng .M).view.seed
    let out := drainBytes o (s.scaleReg r.toNat) width len (fun a => (o.read s [a]).headD 0) d.1
    let all := d.1.flatMap (·.1)
    let offs := out.filterMap fun b => o.place s b.1
    let s1 := (s.bankTerm (max 1 win.nrows) offs).setHome (o.writes s out)
    let s2 := s1.mapCore fun c => { c with dstat := Tab.set 0 c.dstat n.toNat (drainEntry all) }
    let fl := if nf then 0 else orAll (all.map (·.fl)) ||| o.fate s (out.map (·.1))
    banked .M (s.here offs) s <| .done (if fl = 0 ∧ d.2 = (s.eng .M).view.seed then s2 else s2.write .M p 1 fun v => { v.orFlags fl with seed := d.2 }) .fall

/-- MSTAT (R174). -/
def execMstat (y : Sync) (d : BitVec 4) (clr : Bool) (n : BitVec 4) : State → Host.Outcome State Fault Refusal :=
  issueY .M y fun p s =>
    let read (s : State) : State := s.writeX .M p d.toNat (Tab.get 0 s.core.dstat n.toNat)
    if clr then whenOlder .M p s fun s => .done ((read s).mapCore fun c => { c with dstat := Tab.set 0 c.dstat n.toNat 0 }) .fall
    else .done (read s) .fall

end Sys2Proof.Machine
end

