-- ==== Sys2Proof/Machine/Tiles.lean ====
section
/-!
DEFINITION. Factored tile registers (R179 to R206).
-/
namespace Sys2Proof.Machine

/-! ## Descriptors and storage (R179 to R182) -/

/-- A tile descriptor taken apart (R179). -/
structure TDesc where
  units : Nat
  rank  : Nat
  pol   : Nat
  cap   : Nat
  fact  : Bool
  etype : Nat
  cols  : Nat
  rows  : Nat
  deriving DecidableEq, Repr

def TDesc.of (w : Word) : TDesc :=
  let v := w.toNat
  ⟨bits v 55 48, bits v 47 42, bits v 41 40, bits v 39 34, v.testBit 33, bits v 32 28, bits v 27 21, bits v 20 14⟩

def TDesc.word (d : TDesc) : Word :=
  BitVec.ofNat 64 (d.units * 2 ^ 48 + d.rank * 2 ^ 42 + d.pol * 2 ^ 40 + d.cap * 2 ^ 34 + (if d.fact then 2 ^ 33 else 0) +
    d.etype * 2 ^ 28 + d.cols * 2 ^ 21 + d.rows * 2 ^ 14)

/-- A tile register when the crew starts (R179). -/
def Tile.start : Tile := ⟨0x0000018228100000, []⟩

/-- Units of the pool (R182). -/
def poolUnits : Nat := 192

def State.tile (s : State) (t : BitVec 4) : Tile := Tab.get Tile.start s.core.tiles t.toNat
def State.tdesc (s : State) (t : BitVec 4) : TDesc := TDesc.of (s.tile t).desc
def Core.setTile (c : Core) (t : BitVec 4) (x : Tile) : Core := { c with tiles := Tab.set Tile.start c.tiles t.toNat x }

/-- Free units of the core's pool (R182). -/
def Core.poolFree (c : Core) : Nat := poolUnits - (c.tiles.map fun t => (TDesc.of t.2.desc).units).sum

/-- ETYPE codes a form accepts (R181). -/
def facType (t : Nat) : Bool := t == 0x00 || t == 0x01 || t == 0x02
def denseType (t : Nat) : Bool := isF t || isI t || isPacked t

def denseUnits (rows cols w : Nat) : Nat := (rows * cols * w + 8191) / 8192
def facUnits (rows cols k w : Nat) : Nat := ((rows + cols) * k * w + 8191) / 8192

/-! ## Values (R180) -/

abbrev Mat := List (List Val)

/-- A tile's value: dense elements row by row, or the factors U and V by rows. -/
inductive TVal where
  | dense (a : Mat)
  | fact (u v : Mat)
  deriving DecidableEq, Repr

/-- Cuts a list into rows of `n`. -/
def rowsOf {α : Type} (n k : Nat) (l : List α) : List (List α) := (List.range k).map fun i => (l.drop (i * n)).take n

/-- A tile's value from its descriptor and stored bits. -/
def Tile.val (t : Tile) : TVal :=
  let d := TDesc.of t.desc
  let x (b : BitVec 32) : Val := (codeValue d.etype b.toNat).1
  if d.fact then .fact (rowsOf d.rank d.rows (t.elems.map x)) (rowsOf d.cols d.rank ((t.elems.drop (d.rows * d.rank)).map x))
  else if d.rank = 0 then .dense (List.replicate d.rows (List.replicate d.cols (.zero false)))
  else .dense (rowsOf d.cols d.rows (t.elems.map x))

/-- Flags reading a tile's elements sets: INV for a TER2 element 0b10 (R181). -/
def Tile.readFlags (t : Tile) : BitVec 6 :=
  orAll (t.elems.map fun b => (codeValue (TDesc.of t.desc).etype b.toNat).2)

/-- An exact sum of exact products with their flags (R53). -/
def sumProds (l : List (Val × Val)) : Val × BitVec 6 :=
  let ps := l.map fun p => Val.mul p.1 p.2
  let s := groupSum (ps.map (·.1))
  (s.1, orAll (ps.map (·.2)) ||| s.2)

/-- A matrix of results with all their flags. -/
def matOf (l : List (List (Val × BitVec 6))) : Mat × BitVec 6 := (l.map fun r => r.map (·.1), orAll (l.flatMap fun r => r.map (·.2)))

def transpose (n : Nat) (m : Mat) : Mat := (List.range n).map fun j => m.map fun r => r.getD j (.zero false)

/-- The exact product of A and B, with `n` columns. -/
def matMul (a b : Mat) (n : Nat) : Mat × BitVec 6 :=
  let bt := transpose n b
  matOf (a.map fun r => bt.map fun c => sumProds (r.zip c))

/-- The elements of a value as a dense matrix (R180). -/
def TVal.elems (v : TVal) (cols : Nat) : Mat × BitVec 6 :=
  match v with
  | .dense a => (a, 0)
  | .fact u w => matMul u w cols

/-- Multiplies every element by a scalar. -/
def matScale (x : Val) (m : Mat) : Mat × BitVec 6 := matOf (m.map fun r => r.map fun v => Val.mul x v)

/-! ## Recompression (R201, R202) -/

/-- rn: rounded once to FP32 by nearest-even with saturation; sets no flag. -/
def rn (v : Val) : Val := fp32.value (fp32.round 0 false 0 v).1
def rnAdd (a b : Val) : Val := rn (Val.add 0 a b).1
def rnMul (a b : Val) : Val := rn (Val.mul a b).1
def rnDiv (a b : Val) : Val := if a.isZero then .zero (a.neg? != b.neg?) else rn (Val.quot a b)
def rnSqrt (a : Val) : Val := if a.isZero then a else rn a.root
def dot (a b : List Val) : Val := rn (sumProds (a.zip b)).1
/-- rn(c × x + s × y), both products and their sum exact. -/
def rnLin (c x s y : Val) : Val := rn (Val.add 0 (Val.mul c x).1 (Val.mul s y).1).1
def ltZero (a : Val) : Bool := a.neg? && !a.isZero

/-- Takes the parts along earlier columns out of a column (R201's inner loop): the column and its row of R so far. -/
def mgsCol : List (List Val) → List Val → List Val × List Val
  | [], x => (x, [])
  | q :: qs, x =>
    let r := dot q x
    let t := mgsCol qs (x.zipWith (fun a b => rnLin (.ofInt 1) a r.negate b) q)
    (t.1, r :: t.2)

/-- Modified Gram-Schmidt of columns: the columns of Q, and for each column j the entries R[0][j] to R[j][j]. -/
def mgs : List (List Val) → List (List Val) → List (List Val) → List (List Val) × List (List Val)
  | [], qs, rs => (qs, rs)
  | x :: xs, qs, rs =>
    let t := mgsCol qs x
    let r := rnSqrt (dot t.1 t.1)
    mgs xs (qs ++ [t.1.map fun v => if r.isZero then .zero false else rnDiv v r]) (rs ++ [t.2 ++ [r]])

/-- Row i of R from the columns' entries. -/
def rRow (rs : List (List Val)) (i : Nat) : List Val := rs.map fun c => c.getD i (.zero false)

/-- One rotation's cosine and sine from a, b and g (R201). -/
def rotation (a b g : Val) : Val × Val :=
  let z := rnDiv (rnAdd b a.negate) (rnMul (.ofInt 2) g)
  let az := z.abs
  let t0 := if az.cmp (.fin false 1 60 false) != .lt then rnDiv (.fin false 1 (-1) false) az
    else rnDiv (.ofInt 1) (rnAdd az (rnSqrt (rnAdd (.ofInt 1) (rnMul z z))))
  let t := if ltZero z then t0.negate else t0
  let c := rnDiv (.ofInt 1) (rnSqrt (rnAdd (.ofInt 1) (rnMul t t)))
  (c, rnMul c t)

/-- Rotates columns p and q of a list of columns. -/
def rotate (c sn : Val) (p q : Nat) (m : Mat) : Mat :=
  let x := m.getD p []
  let y := m.getD q []
  (m.set p (x.zipWith (fun a b => rnLin c a sn.negate b) y)).set q (x.zipWith (fun a b => rnLin sn a c b) y)

/-- One cyclic sweep over the columns of W and Jm. -/
def sweep (k : Nat) (wj : Mat × Mat) : Mat × Mat :=
  ((List.range k).flatMap fun p => ((List.range k).filter (p < ·)).map fun q => (p, q)).foldl (fun wj pq =>
    let x := wj.1.getD pq.1 []
    let y := wj.1.getD pq.2 []
    let g := dot x y
    if g.isZero then wj else
    let r := rotation (dot x x) (dot y y) g
    (rotate r.1 r.2 pq.1 pq.2 wj.1, rotate r.1 r.2 pq.1 pq.2 wj.2)) wj

/-- Places an index after every one whose value is not smaller. -/
def insertDesc (en : List Val) (i : Nat) : List Nat → List Nat
  | [] => [i]
  | j :: l => if (arg en j).cmp (arg en i) = .lt then i :: j :: l else j :: insertDesc en i l

/-- What recompression answers: U' by columns, V' by rows, resid as FP32 bits, and INV for non-finite factors. -/
structure Recomp where
  u     : Mat
  v     : Mat
  resid : Nat
  inv   : Bool
  deriving DecidableEq, Repr

def Val.finite : Val → Bool
  | .fin .. => true
  | _ => false

/-- R201 and R202 on the columns of U and the rows of V; `cap` limits the components kept when R189 truncates. -/
def recompress (u v : Mat) (k : Nat) (tol : BitVec 32) : Recomp :=
  if k = 0 then ⟨[], [], 0, false⟩ else
  if !((u ++ v).all fun r => r.all Val.finite) then ⟨u, v, 0, true⟩ else
  let tv := fp32.value tol.toNat
  let tolv := if tv.isNan || tv.neg? then .zero false else tv
  let qu := mgs u [] []
  let qv := mgs v [] []
  let w := (List.range k).map fun j => (List.range k).map fun i => dot (rRow qu.2 i) (rRow qv.2 j)
  let jm := (List.range k).map fun j => (List.range k).map fun i => if i = j then .ofInt 1 else .zero false
  let wj := (List.range 8).foldl (fun x _ => sweep k x) (w, jm)
  let en := wj.1.map fun c => dot c c
  let perm := (List.range k).foldl (fun l i => insertDesc en i l) []
  let sumOf (l : List Val) : Val := rn (groupSum l).1
  let total := sumOf en
  let tail (r : Nat) : Val := sumOf ((perm.drop r).map (arg en))
  let lim := rn (Val.mul tolv (rnSqrt total)).1
  let r := if total.isZero then 0 else ((List.range (k + 1)).find? fun r => (rnSqrt (tail r)).cmp lim != .gt).getD k
  let row (q : List (List Val)) (e : Nat) : List Val := q.map fun c => c.getD e (.zero false)
  let keep := perm.take r
  let m := (u.headD []).length
  let n := (v.headD []).length
  ⟨keep.map fun j => (List.range m).map fun e => dot (row qu.1 e) (wj.1.getD j []),
   keep.map fun j => (List.range n).map fun e => dot (row qv.1 e) (wj.2.getD j []),
   if total.isZero then 0 else (fp32.round 0 false 0 (rnDiv (rnSqrt (tail r)) (rnSqrt total))).1, false⟩

/-- The matrix engine's tolerance register (R185). -/
def State.tolv (s : State) : BitVec 32 := (s.eng .M).view.tol

/-- The source of TRCMP, TFACT and TTOL as columns of U and rows of V (R201, R203), and its rank. -/
def svdSource (t : Tile) : Mat × Mat × Nat :=
  let d := TDesc.of t.desc
  match t.val with
  | .fact u v => (transpose d.rank u, v, d.rank)
  | .dense a =>
    if d.rank = 0 then ([], [], 0) else
    let b := a.map fun r => r.map rn
    let eye (n : Nat) : Mat := (List.range n).map fun l => (List.range n).map fun i => if i = l then .ofInt 1 else .zero false
    if d.rows ≤ d.cols then (eye d.rows, b, d.rows) else (transpose d.cols b, eye d.cols, d.cols)

/-! ## The result's fate (R183, R188 to R190) -/

/-- A matrix rounded once into ETYPE (R188). -/
def roundMat (t : Nat) (m : Mat) : List (BitVec 32) × BitVec 6 :=
  let l := m.flatMap fun r => r.map fun v => toCode t 0 false 0 v
  (l.map fun x => BitVec.ofNat 32 x.1, orAll (l.map (·.2)))

/-- What is written into td: form, rank, elements and flags. -/
structure TOut where
  fact  : Bool
  rank  : Nat
  elems : List (BitVec 32)
  fl    : BitVec 6
  deriving DecidableEq, Repr

/-- A result's outcome for td (R188, R189): `none` with the rank for an overflow under trap. `raw`: the loaded bits of TLD; `pre`: factors already recompressed. -/
def outcome (d : TDesc) (tol : BitVec 32) (v : TVal) (raw : Option (List (BitVec 32))) (pre : Bool) (fl : BitVec 6) : Except Nat TOut :=
  match v with
  | .dense a =>
    match raw with
    | some b => .ok ⟨false, 63, b, fl⟩
    | none => let r := roundMat d.etype a; .ok ⟨false, 63, r.1, fl ||| r.2⟩
  | .fact u w =>
    let k := w.length
    if k ≤ d.cap then
      match raw with
      | some b => .ok ⟨true, k, b, fl⟩
      | none =>
        let x := roundMat d.etype u
        let y := roundMat d.etype w
        .ok ⟨true, k, x.1 ++ y.1, fl ||| x.2 ||| y.2⟩
    else if d.pol = 0 then .error k
    else if d.pol = 1 then
      let p := matMul u w d.cols
      let r := roundMat d.etype p.1
      .ok ⟨false, 63, r.1, fl ||| p.2 ||| r.2⟩
    else
      let z : Recomp := if pre then ⟨transpose k u, w, 0, false⟩ else
        recompress ((transpose k u).map fun c => c.map rn) (w.map fun r => r.map rn) k tol
      let kept := min z.v.length d.cap
      let x := roundMat d.etype (transpose d.rows (z.u.take kept))
      let y := roundMat d.etype (z.v.take kept)
      .ok ⟨true, kept, (if kept = 0 then [] else x.1) ++ y.1,
        fl ||| x.2 ||| y.2 ||| flagIf z.inv flagINV ||| flagIf (d.cap < z.v.length) flagSAT⟩

/-- Units an outcome takes (R182). -/
def TOut.units (o : TOut) (d : TDesc) : Nat :=
  if o.fact then facUnits d.rows d.cols o.rank (codeWidth d.etype) else denseUnits d.rows d.cols (codeWidth d.etype)

/-- The reservation of a result that resolves at issue (R183). -/
def worstUnits (d : TDesc) (fact : Bool) : Nat :=
  let w := codeWidth d.etype
  if !fact then denseUnits d.rows d.cols w else
  if d.pol = 2 then facUnits d.rows d.cols d.cap w else max (denseUnits d.rows d.cols w) (facUnits d.rows d.cols d.cap w)

/-- A result of a tile instruction: a mismatch of R187, or an exact value. -/
inductive TRes where
  | mismatch
  | val (v : TVal) (raw : Option (List (BitVec 32))) (pre : Bool) (fl : BitVec 6)
  deriving DecidableEq, Repr

/-- Writes a tile and its flags once older than the horizon; the instruction has resolved (R190). -/
def writeTile (t : BitVec 4) (d : TDesc) (o : TOut) (p : Pos) (s : State) : Res :=
  whenOlder .M p (s.resolve .M) fun s =>
    .done (((s.mapCore fun c => { c.setTile t ⟨{ d with units := o.units d, rank := o.rank, fact := o.fact }.word, o.elems⟩ with tileRun := none })).mFlags p false o.fl) .fall

/-- An instruction that changes a tile's storage (R183). -/
def storageInstr (i : Instr) : Bool :=
  match i with
  | .tconf .. | .tld .. | .tadd .. | .tsub .. | .tmul .. | .tscal .. | .txp .. | .trcmp .. | .tdense .. | .tfact .. => true
  | _ => false

/-- Whether the word after M's oldest one is such an instruction, which waits while that one executes (R183). -/
def State.poolWaits (s : State) : Bool :=
  let g := s.eng .M
  let q := endTest s.core.calldepth g.pc g.loops
  g.holds q.1 && match s.wordAt .M q.1 with
    | none => false
    | some w => match s.decodeAt .M q.1 q.2 w with
      | .ok i => storageInstr i
      | .illegal _ => false

/-- A clock in which the instruction in execution still computes: a tile instruction after it waits (R183, R255). -/
def tileBusy (s : State) : Res := if s.poolWaits then .stall scPool false s else .stop s

/-- A clock in which a tile instruction is held counts first that one after it waits (R183, R255). -/
def poolFirst (r : Res) : Res :=
  match r with
  | .stall c b s => if scRank scPool < scRank c ∧ s.poolWaits then .stall scPool false s else .stall c b s
  | r => r

/-- An instruction whose result stands in td (R183, R187 to R190). One that resolves at execution pops as it begins. -/
def tileBody (i : Instr) (t : BitVec 4) (f : State → TRes) (p : Pos) (s : State) : Res :=
  match f s with
  | .mismatch => .done (s.mFlags p false flagINV) .fall
  | .val v raw pre fl =>
    let d := s.tdesc t
    let room := s.core.poolFree + d.units
    let fact := match v with | .fact .. => true | .dense _ => false
    let finish (s : State) : Res :=
      match outcome d s.tolv v raw pre fl with
      | .error k => .trap ⟨0x0D, 0, BitVec.ofNat 64 k, 0, 0⟩ false (s.mapCore fun c => { c with tileRun := none })
      | .ok o =>
        if room < o.units d then .trap ⟨0x0E, 0, BitVec.ofNat 64 (o.units d), 0, 0⟩ false (s.mapCore fun c => { c with tileRun := none })
        else writeTile t d o p s
    if fact && d.pol == 0 then
      match s.core.tileRun with
      | none => .begin (s.mapCore fun c => { c with tileRun := some ⟨p, i, true⟩ })
      | some r => if r.busy then tileBusy s else finish s
    else if room < worstUnits d fact then .trap ⟨0x0E, 0, BitVec.ofNat 64 (worstUnits d fact), 0, 0⟩ false s
    else finish s

/-! ## The instructions -/

/-- Whether td has a shape, and its type takes a factored result when there is one (R187). -/
def fits (d : TDesc) (rows cols : Nat) (fact : Bool) : Bool := d.rows == rows && d.cols == cols && (!fact || facType d.etype)

/-- TADD and TSUB (R196). -/
def tileAdd (neg : Bool) (t a b r : BitVec 4) (s : State) : TRes :=
  let da := s.tdesc a
  let db := s.tdesc b
  let fact := da.fact && db.fact
  if !fits (s.tdesc t) da.rows da.cols fact || da.rows != db.rows || da.cols != db.cols then .mismatch else
  let x := (s.x .M r.toNat).toNat
  let al := if r = 0 then .ofInt 1 else fp32.value (x % 2 ^ 32)
  let be0 := if r = 0 then .ofInt 1 else fp32.value (x / 2 ^ 32)
  let be := if neg then be0.negate else be0
  let rf := (s.tile a).readFlags ||| (s.tile b).readFlags
  match (s.tile a).val, (s.tile b).val with
  | .fact ua va, .fact ub vb =>
    let va' := matScale al va
    let vb' := matScale be vb
    .val (.fact (ua.zipWith (· ++ ·) ub) (va'.1 ++ vb'.1)) none false (va'.2 ||| vb'.2)
  | va, vb =>
    let ea := va.elems da.cols
    let eb := vb.elems db.cols
    let m := matOf (ea.1.zipWith (fun ra rb => ra.zipWith (fun x y => sumProds [(al, x), (be, y)]) rb) eb.1)
    .val (.dense m.1) none false (rf ||| ea.2 ||| eb.2 ||| m.2)

/-- TSCAL (R197). -/
def tileScal (t a r : BitVec 4) (s : State) : TRes :=
  let da := s.tdesc a
  if !fits (s.tdesc t) da.rows da.cols da.fact then .mismatch else
  let x := fp32.value ((s.x .M r.toNat).toNat % 2 ^ 32)
  match (s.tile a).val with
  | .fact u v => let w := matScale x v; .val (.fact u w.1) none false w.2
  | .dense m => let w := matScale x m; .val (.dense w.1) none false ((s.tile a).readFlags ||| w.2)

/-- TXP (R198). -/
def tileXp (t a : BitVec 4) (s : State) : TRes :=
  let da := s.tdesc a
  if !fits (s.tdesc t) da.cols da.rows da.fact then .mismatch else
  match (s.tile a).val with
  | .fact u v => .val (.fact (transpose da.cols v) (transpose da.rank u)) none false 0
  | .dense m => .val (.dense (transpose da.cols m)) none false (s.tile a).readFlags

/-- TMUL (R199). -/
def tileMul (t a b : BitVec 4) (s : State) : TRes :=
  let da := s.tdesc a
  let db := s.tdesc b
  if !fits (s.tdesc t) da.rows db.cols (da.fact || db.fact) || da.cols != db.rows then .mismatch else
  let rf := (s.tile a).readFlags ||| (s.tile b).readFlags
  match (s.tile a).val, (s.tile b).val with
  | .fact u1 v1, .fact u2 v2 =>
    let c0 := matMul v1 u2 db.rank
    let c := c0.1.map fun r => r.map rn
    if da.rank ≤ db.rank then let w := matMul c v2 db.cols; .val (.fact u1 w.1) none false (c0.2 ||| w.2)
    else let w := matMul u1 c db.rank; .val (.fact w.1 v2) none false (c0.2 ||| w.2)
  | .fact u1 v1, .dense m => let w := matMul v1 m db.cols; .val (.fact u1 w.1) none false (rf ||| w.2)
  | .dense m, .fact u2 v2 => let w := matMul m u2 db.rank; .val (.fact w.1 v2) none false (rf ||| w.2)
  | .dense m, .dense n => let w := matMul m n db.cols; .val (.dense w.1) none false (rf ||| w.2)

/-- TDENSE (R200). -/
def tileDense (t a : BitVec 4) (s : State) : TRes :=
  let da := s.tdesc a
  if !fits (s.tdesc t) da.rows da.cols false then .mismatch else
  let e := (s.tile a).val.elems da.cols
  .val (.dense e.1) none false ((s.tile a).readFlags ||| e.2)

/-- TRCMP and TFACT (R201 to R203); reading the elements of TFACT's source sets no flag. -/
def tileRcmp (fact : Bool) (t a : BitVec 4) (s : State) : TRes :=
  let da := s.tdesc a
  if da.fact != fact || !fits (s.tdesc t) da.rows da.cols true then .mismatch else
  let x := svdSource (s.tile a)
  let z := recompress x.1 x.2.1 x.2.2 s.tolv
  .val (.fact (if z.u.isEmpty then List.replicate da.rows [] else transpose da.rows z.u) z.v) none true
    (flagIf z.inv flagINV)

/-- The parts of a tile's scratchpad image: operand register, rows, elements of a row (R195). -/
def imageParts (d : TDesc) (r : BitVec 4) (k : Nat) : List (Nat × Nat × Nat) :=
  if d.fact then [(r.toNat, d.rows, k), (r.toNat + 1, k, d.cols)] else [(r.toNat, d.rows, d.cols)]

/-- TLD (R195). -/
def tileLoad (y : Sync) (t r kx : BitVec 4) (s : State) : TRes :=
  let d := s.tdesc t
  let xk := (s.x .M kx.toNat).toNat
  if d.fact && (xk / 128 != 0 || 64 < xk) then .mismatch else
  let w := codeWidth d.etype
  let parts := (imageParts d r xk).map fun q =>
    let n := (q.2.2 * w + 7) / 8
    let o := s.mOpnd y q.1 false n
    let used := q.2.1 != 0 && n != 0
    let raw := if used then (List.range q.2.1).flatMap fun i => rowElems d.etype q.2.2 (o.read s (o.row i n)) else []
    (raw, if used then o.fate s ((List.range q.2.1).flatMap fun i => o.row i n) else 0)
  let raw := parts.flatMap (·.1)
  let x (l : List Nat) : List Val := l.map fun b => (codeValue d.etype b).1
  let v : TVal := if d.fact then .fact (rowsOf xk d.rows (x raw)) (rowsOf d.cols xk (x (raw.drop (d.rows * xk)))) else .dense (rowsOf d.cols d.rows (x raw))
  .val v (some (raw.map (BitVec.ofNat 32))) false (orAll (parts.map (·.2)))

/-- Offsets of the bytes that TLD reads. -/
def tileLoadOffs (y : Sync) (t r kx : BitVec 4) (s : State) : List Nat :=
  let d := s.tdesc t
  (imageParts d r ((s.x .M kx.toNat).toNat % 128)).flatMap fun q =>
    let n := (q.2.2 * codeWidth d.etype + 7) / 8
    let o := s.mOpnd y q.1 false n
    ((List.range q.2.1).flatMap fun i => o.row i n).filterMap (o.place s)

/-- The descriptor TCONF stores (R193), and whether it was replaced. -/
def tconfWord (x : Word) (ovf : BitVec 2) : TDesc × Bool :=
  let c := TDesc.of x
  let bad := bits x.toNat 63 56 != 0 || bits x.toNat 13 0 != 0 || c.rows == 0 || 64 < c.rows || c.cols == 0 || 64 < c.cols ||
    c.cap == 0 || 32 < c.cap || !(if c.fact then facType c.etype else denseType c.etype)
  let c := if bad then { TDesc.of Tile.start.desc with pol := 3 } else c
  ({ c with units := 0, rank := 0, pol := if c.pol = 3 then ovf.toNat else c.pol }, bad)

/-- The body of TCONF (R193). -/
def tconfBody (i : Instr) (t r : BitVec 4) (chk : Bool) (p : Pos) (s : State) : Res :=
  let write (s : State) : Res :=
    whenOlder .M p (s.resolve .M) fun s =>
      let c := tconfWord (s.x .M r.toNat) (s.eng .M).view.ovfpol
      .done ((s.mapCore fun k => { k.setTile t ⟨c.1.word, []⟩ with tileRun := none }).mFlags p false (flagIf c.2 flagINV)) .fall
  if !chk then write s else
  match s.core.tileRun with
  | none => .begin (s.mapCore fun c => { c with tileRun := some ⟨p, i, true⟩ })
  | some q =>
    if q.busy then tileBusy s else
    if (s.tdesc t).rank ≠ 0 then .trap ⟨0x0F, 0, BitVec.ofNat 64 (s.tdesc t).rank, 0, 0⟩ false (s.mapCore fun c => { c with tileRun := none })
    else write s

/-- Issue of a tile instruction that changes storage; one in execution has made its pops. -/
def issueTile (y : Sync) (body : Pos → State → Res) (s : State) : Host.Outcome State Fault Refusal :=
  issue .M (s.waitsOf .M y) y.sig.toList none (fun p s => poolFirst (body p s)) s

/-- A tile instruction that changes storage; TILE_EXECUTION_END carries it on through this one place. -/
def tileStep (i : Instr) : State → Host.Outcome State Fault Refusal :=
  match i with
  | .tconf y t r chk => issueTile y (tconfBody i t r chk)
  | .tld y t r k => issueTile y fun p s => banked .M (s.here (tileLoadOffs y t r k s)) s (tileBody i t (tileLoad y t r k) p s)
  | .tadd y t a b r => issueTile y (tileBody i t (tileAdd false t a b r))
  | .tsub y t a b r => issueTile y (tileBody i t (tileAdd true t a b r))
  | .tmul y t a b => issueTile y (tileBody i t (tileMul t a b))
  | .tscal y t a r => issueTile y (tileBody i t (tileScal t a r))
  | .txp y t a => issueTile y (tileBody i t (tileXp t a))
  | .trcmp y t a => issueTile y (tileBody i t (tileRcmp true t a))
  | .tdense y t a => issueTile y (tileBody i t (tileDense t a))
  | .tfact y t a => issueTile y (tileBody i t (tileRcmp false t a))
  | _ => .next

/-- TCONF (R193). -/
def execTconf (y : Sync) (t r : BitVec 4) (chk : Bool) : State → Host.Outcome State Fault Refusal := tileStep (.tconf y t r chk)
/-- TLD (R195). -/
def execTld (y : Sync) (t r k : BitVec 4) : State → Host.Outcome State Fault Refusal := tileStep (.tld y t r k)
/-- TADD (R196). -/
def execTadd (y : Sync) (t a b r : BitVec 4) : State → Host.Outcome State Fault Refusal := tileStep (.tadd y t a b r)
/-- TSUB (R196). -/
def execTsub (y : Sync) (t a b r : BitVec 4) : State → Host.Outcome State Fault Refusal := tileStep (.tsub y t a b r)
/-- TMUL (R199). -/
def execTmul (y : Sync) (t a b : BitVec 4) : State → Host.Outcome State Fault Refusal := tileStep (.tmul y t a b)
/-- TSCAL (R197). -/
def execTscal (y : Sync) (t a r : BitVec 4) : State → Host.Outcome State Fault Refusal := tileStep (.tscal y t a r)
/-- TXP (R198). -/
def execTxp (y : Sync) (t a : BitVec 4) : State → Host.Outcome State Fault Refusal := tileStep (.txp y t a)
/-- TRCMP (R201). -/
def execTrcmp (y : Sync) (t a : BitVec 4) : State → Host.Outcome State Fault Refusal := tileStep (.trcmp y t a)
/-- TDENSE (R200). -/
def execTdense (y : Sync) (t a : BitVec 4) : State → Host.Outcome State Fault Refusal := tileStep (.tdense y t a)
/-- TFACT (R203). -/
def execTfact (y : Sync) (t a : BitVec 4) : State → Host.Outcome State Fault Refusal := tileStep (.tfact y t a)

/-- TILE_EXECUTION_END (R190): the instruction in execution makes its checks and writes its result or faults. -/
def execTileExecutionEnd (s : State) : Host.Outcome State Fault Refusal :=
  match s.core.tileRun with
  | none => .next s
  | some r => if r.busy then tileStep r.word (s.mapCore fun c => { c with tileRun := some { r with busy := false } }) else .next s

/-- Parts of a tile's image with their elements (R195): a factored tile of rank 0 has none. -/
def Tile.image (t : Tile) (r : BitVec 4) : List (Nat × List (List Nat)) :=
  let d := TDesc.of t.desc
  if d.fact then
    if d.rank = 0 then [] else
    [(r.toNat, rowsOf d.rank d.rows (t.elems.map (·.toNat))), (r.toNat + 1, rowsOf d.cols d.rank ((t.elems.drop (d.rows * d.rank)).map (·.toNat)))]
  else [(r.toNat, if d.rank = 0 then List.replicate d.rows (List.replicate d.cols 0) else rowsOf d.cols d.rows (t.elems.map (·.toNat)))]

/-- TST (R195): only a write into home scratchpad waits on the horizon. The unused bits of the last byte of a packed row are written as zero (log entry 125). -/
def execTst (y : Sync) (t r : BitVec 4) : State → Host.Outcome State Fault Refusal :=
  issueY .M y fun p s =>
    let d := s.tdesc t
    let w := codeWidth d.etype
    let out := ((s.tile t).image r).map fun q =>
      let n := ((q.2.headD []).length * w + 7) / 8
      let o := s.mOpnd y q.1 true n
      (o, q.2.zipIdx.flatMap fun row => (o.row row.2 n).zip (packRow w row.1 0))
    let write (s : State) : Res :=
      banked .M (s.here (out.flatMap fun q => (q.1.writes s q.2).map (·.1))) s <| .done ((s.setHome (out.flatMap fun q => q.1.writes s q.2)).mFlags p false (orAll (out.map fun q => q.1.fate s (q.2.map (·.1))))) .fall
    if out.any fun q => !q.1.q then whenOlder .M p s write else write s

/-- TMMA (R205); a dense tile without storage adds +0. -/
def execTmma (y : Sync) (c a b : BitVec 4) (slot : BitVec 3) (nf : Bool) : State → Host.Outcome State Fault Refusal :=
  heavy y (issueY .M y fun p s =>
    let d := s.tdesc a
    let bf := entB (s.fmtEntry slot.toNat)
    if !isF d.etype || !(bf == 0x02 || bf == 0x01) then
      .done ((s.mFlags p nf flagINV).mapCore fun x => { x with idle := 0 }) .fall
    else whenOlder .M p s fun s =>
      let w := Win.of (s.x .M c.toNat)
      let n := w.cols
      let o := s.mOpnd y b.toNat false (2 * d.cols)
      let bt : Mat := (List.range n).map fun j => (rowElems bf d.cols (o.read s (o.row j (2 * d.cols)))).map fun e => (codeValue bf e).1
      let addrs := (List.range n).flatMap fun j => o.row j (2 * d.cols)
      let (u, g, f1, prods) : Mat × Mat × BitVec 6 × Nat :=
        match (s.tile a).val with
        | .fact u v =>
          let x := v.map fun r => bt.map fun col => (let q := sumProds (r.zip col); let z := bf16.round 0 false 0 q.1
            (bf16.value z.1, q.2 ||| (z.2 &&& (flagOVF ||| flagSAT))))
          (u, transpose n (x.map fun r => r.map (·.1)), orAll (x.flatMap fun r => r.map (·.2)), d.rank * d.cols * n + d.rows * d.rank * n)
        | .dense m => if d.rank = 0 then ([], [], 0, d.rows * d.cols * n) else (m, bt, 0, d.rows * d.cols * n)
      let out := (List.range d.rows).flatMap fun i => (List.range n).map fun j =>
        let qs := ((u.getD i []).zip (g.getD j [])).map fun q => Val.mul q.1 q.2
        let r := fpStep (Tab.get 0 s.core.acc (w.key i j)) (qs.map (·.1))
        (w.key i j, r.1, orAll (qs.map (·.2)) ||| r.2)
      banked .M (s.here (addrs.filterMap (o.place s))) s <|
      let s := (s.bankTerm (max 1 ((prods + 6143) / 6144)) (addrs.filterMap (o.place s))).mapCore fun x => { x.setAcc (out.map fun q => (q.1, q.2.1)) with idle := 0 }
      .done (s.mFlags p nf ((f1 ||| o.fate s addrs ||| orAll (out.map (·.2.2))) &&& (flagINV ||| flagOVF ||| flagUNF ||| flagSAT))) .fall)

/-- TRANK (R194). -/
def execTrank (y : Sync) (d a : BitVec 4) : State → Host.Outcome State Fault Refusal :=
  issueY .M y (setReg .M d.toNat fun s => (s.tile a).desc)

/-- TTOL (R204): non-finite elements set INV, and no other flag is set, the reading of a TER2 element's included. -/
def execTtol (y : Sync) (d a : BitVec 4) : State → Host.Outcome State Fault Refusal :=
  issueY .M y fun p s =>
    let x := svdSource (s.tile a)
    let z := recompress x.1 x.2.1 x.2.2 s.tolv
    let v : Word := if x.2.2 = 0 then 0 else if z.inv then BitVec.allOnes 64 else BitVec.ofNat 64 (z.resid * 2 ^ 32 + z.v.length)
    let s := s.writeX .M p d.toNat v
    .done (if z.inv then s.setInv .M p else s) .fall

/-- Bytes of a tile's image (R195). -/
def TDesc.imageBytes (d : TDesc) : Nat :=
  let w := codeWidth d.etype
  if d.fact then d.rows * ((d.rank * w + 7) / 8) + d.rank * ((d.cols * w + 7) / 8) else d.rows * ((d.cols * w + 7) / 8)

/-- Whether a tile's rows, each packed into whole bytes, fit in its units in the crew block (R321). Those of a packed type may not; its elements then follow one another without the rows'
unused bits (log entry 101). -/
def TDesc.rowsFit (d : TDesc) : Bool := d.imageBytes ≤ 1024 * d.units

end Sys2Proof.Machine
end

