-- ==== Sys2Proof/Machine/Save.lean ====
section
/-!
DEFINITION. The end of a drain, the composite fault record, the save area and the crew block, placing and resuming a crew, and teardown
(R278 to R292, R304, R319 to R330, R339, R360, R427).
-/
namespace Sys2Proof.Machine

/-! ## Sparse images -/

/-- Bytes at an offset of an image, zeros left out. -/
def imgBytes (o : Nat) (l : List Byte) : Tab Byte := (l.zipIdx.map fun b => (o + b.2, b.1)).filter fun b => b.2 != 0

/-- A table's values, `w` bytes each, from an offset of an image. -/
def imgTab {α : Type} (o w : Nat) (f : α → Nat) (t : Tab α) : Tab Byte := t.flatMap fun k => imgBytes (o + w * k.1) (toBytes w (f k.2))

/-- `n` bytes of an image as a number. -/
def imgNat (t : Tab Byte) (o n : Nat) : Nat := ofBytes (Tab.slice 0 t o n)

/-- Values of `w` bytes that an image holds in `n` bytes from an offset, zero ones left out. -/
def imgWords (t : Tab Byte) (o n w : Nat) : Tab Nat :=
  let ks := ((t.filter fun b => o ≤ b.1 && b.1 < o + n).map fun b => (b.1 - o) / w).eraseDups
  ks.map fun k => (k, imgNat t (o + w * k) w)

/-- What a region of a function's memory holds (R318: a guest's addresses pass through stage 2); a byte that stage 2 does not map reads 0. -/
def readRegion (s : State) (fn a n : Nat) : Tab Byte :=
  (pagePieces a n).flatMap fun p =>
    match guestPa s fn p.2.1 with
    | none => []
    | some (pa, _, _) => (s.mem.filter fun c => pa ≤ c.1 && c.1 < pa + p.2.2).map fun c => (p.1 + (c.1 - pa), c.2)

/-- Writes an image over a region of a function's memory; what stage 2 does not map is not written. -/
def writeRegion (s : State) (fn a n : Nat) (t : Tab Byte) : State :=
  let t := Tab.norm 0 t
  (pagePieces a n).foldl (fun s p =>
    match guestPa s fn p.2.1 with
    | none => s
    | some (pa, _, _) =>
      { s with mem := s.mem.filter (fun c => c.1 < pa) ++
          (t.filter fun b => p.1 ≤ b.1 && b.1 < p.1 + p.2.2).map (fun b => (pa + (b.1 - p.1), b.2)) ++
          s.mem.filter fun c => pa + p.2.2 ≤ c.1 }) s

/-! ## Discarding younger work (R278, R281) -/

/-- Drops an engine's work that is not earlier than a position. -/
def Engine.cut (g : Engine) (f : Pos) : Engine :=
  match g.past.find? fun w => !w.pos.lt f with
  | none => { g with flights := [], past := [], laps := [], begun := false }
  | some w => { g with view := w.before, flights := [], past := [], laps := [], begun := false }

/-- A queue's consumer pointer without the takes of words not earlier than a position (R288). -/
def Core.consBefore (c : Core) (f : Pos) (k cons : Nat) : Nat :=
  match c.takes.find? fun t => t.2.1 == k && !t.1.lt f with
  | some t => t.2.2
  | none => cons

/-- Discards everything not earlier than a position once the older words are complete (R281). -/
def Core.cut (c : Core) (f : Pos) : Core :=
  { c with
    engS := c.engS.cut f
    engL := c.engL.cut f
    engV := c.engV.cut f
    engM := c.engM.cut f
    engW := c.engW.cut f
    tok := []
    follow := []
    queues := c.queues.map fun q => (q.1, { q.2 with cons := c.consBefore f q.1 q.2.cons })
    takes := []
    stores := c.stores.filter fun e => e.pos.lt f
    loads := c.loads.filter fun e => e.pos.lt f
    ldz := none
    tileRun := none
    collAsk := none }

/-- The focus core's job is being switched out by easy-all, whose cores never wait on the network (R395). -/
def State.switching (s : State) : Bool := s.switchingTag (coreTag s s.core.id)

/-- No transfer of the focus core and no accepted collective is outstanding (R90, R375, R391). Easy-all waits for neither its collectives nor the network (R395, R396): only for what is inside the package. -/
def State.netQuiet (s : State) : Bool :=
  if s.switching then
    s.net.xfers.all (fun x => x.core != s.core.id || destPkg x.dest != Config.pkgpos && !s.net.acks.any fun a => a.xfer == x.id) &&
      s.net.elems.all fun e => e.core != s.core.id
  else s.core.colls.isEmpty && s.net.xfers.all fun x => x.core != s.core.id

/-- Every word earlier than a position has completed, with its memory writes performed. -/
def State.doneTo (s : State) (f : Pos) : Bool :=
  let c := s.core
  (Eng.all.all fun b => s.reached b f && (c.eng b).flights.all fun w => !w.pos.lt f) &&
    c.stores.all (fun e => !e.pos.lt f) && c.loads.all (fun e => !e.pos.lt f) && (c.ldz.filter fun z => z.pos.lt f).isNone &&
    (c.tileRun.filter fun t => t.pos.lt f).isNone && c.copies.isEmpty

/-- Every word earlier than a position has completed and its writes have committed and performed (R279, R327). -/
def State.drainedTo (s : State) (f : Pos) : Bool :=
  s.doneTo f && (Eng.all.all fun b => (s.core.eng b).past.all fun w => !w.pos.lt f) && s.netQuiet

/-! ## The composite fault record (R285 to R288) -/

/-- QCPTR: the consumer pointer of each queue of the slice set, in its queue table's order. -/
def Core.qcptr (c : Core) : List Byte :=
  match c.crew with
  | none => []
  | some w => w.set.queues.map fun q => BitVec.ofNat 8 ((((c.queues.find? fun x => x.1 == pairIdx q.1 q.2.1).map (·.2.cons)).getD 0))

/-- LCOUNT of each active level, outermost first. -/
def countBytes (ls : List Level) : List Byte := padTo 16 ((ls.reverse.take 4).flatMap fun l => toBytes 4 l.count)

/-- LWORD of each active level. -/
def wordBytes (p : Pos) : List Byte := padTo 16 ((p.iter.take 4).flatMap fun w => toBytes 4 w.1)

/-- One snapshot with its FLT and REPL bits, and S's SPC as R360 rewrites it above depth 0. -/
def finalSnap (snap : List Byte) (flt repl : Bool) (spc : Option Nat) : List Byte :=
  let st := field snap 24 1 + (if flt then 1 else 0) + (if repl then 2 else 0)
  (match spc with | some v => toBytes 4 v | none => snap.take 4) ++ (snap.drop 4).take 20 ++ [BitVec.ofNat 8 st] ++ (snap.drop 25).take 39

/-- The 512 bytes of a record (R285 to R288). `stuck`: the drain ended without progress (R282). -/
def recordOf (s : State) (f : Freeze) (stuck : Bool) : List Byte :=
  let fl := (if f.sliceset || stuck then 0 else 1) + (if f.after then 2 else 0) + (if f.first.isSome then 4 else 0) + (if f.sliceset then 8 else 0)
  let up := 0 < f.pos.call
  let spc := if up then some (((s.eng .S).pc.toNat - 0x780000000000) / 4) else none
  let snap (e : Eng) : List Byte :=
    finalSnap ((f.snaps.drop (64 * (e.code - 1))).take 64) (f.eng == e.code) (f.repl.contains e.code) (if e = .S then spc else none)
  let head := [1, 0, BitVec.ofNat 8 f.cause, BitVec.ofNat 8 f.detail, BitVec.ofNat 8 (if up then 1 else f.eng), BitVec.ofNat 8 fl, BitVec.ofNat 8 f.ord,
      BitVec.ofNat 8 (min 4 f.pos.iter.length)] ++ toBytes 4 f.pos.index ++ toBytes 4 0 ++ iterBytes f.pos.iter ++ toBytes 8 f.faddr.toNat ++
    toBytes 8 f.aux.toNat ++ toBytes 4 f.pos.index ++ toBytes 4 0 ++ iterBytes f.pos.iter ++ countBytes f.levels ++ wordBytes f.pos ++
    toBytes 8 f.tfreeze.toNat ++ toBytes 4 (s.core.time - f.tfreeze).toNat ++ toBytes 4 s.core.calldepth ++ toBytes 8 0
  let first := match f.first with
    | none => List.replicate 32 0
    | some x => [BitVec.ofNat 8 x.cause, BitVec.ofNat 8 x.eng, BitVec.ofNat 8 x.detail, 0] ++ toBytes 4 x.pos.index ++ toBytes 8 x.faddr.toNat ++ iterBytes x.pos.iter
  head ++ Eng.all.flatMap snap ++ first ++ padTo 32 s.core.qcptr

/-! ## The crew block (R321, R322) -/

/-- Bytes of the save area's header and of a crew block (R319). -/
def saveHeader : Nat := 0x4000
def blockBytes : Nat := 0x1F8000

/-- NSLOT (R319). -/
def Ctx.nslot (x : Ctx) : Nat := min 384 ((x.saveSize - saveHeader) / blockBytes)

/-- Where a stopped crew restarts: RINDEX, RITER, LCOUNT, LWORD, as R322 and R285 lay them out. -/
structure RestartAt where
  index : Nat
  nloop : Nat
  iter  : List Byte
  count : List Byte
  word  : List Byte
  levels : List Level
  deriving DecidableEq, Repr

/-- The control registers that a block holds, in its order (R321). -/
def blockRegs : List Nat := List.range 0x20 ++ (List.range 0x10).map (0x40 + ·)

/-- A tile's packed image, padded to its units (R195, R321). -/
def tileImage (t : Tile) : List Byte :=
  let d := TDesc.of t.desc
  let w := codeWidth d.etype
  let rows := (t.image 0).flatMap (·.2)
  padTo (1024 * d.units) (if d.rowsFit then rows.flatMap fun row => packRow w row 0 else packRow w rows.flatten 0)

/-- The tile contents of a core from an offset, in register order. -/
def tileImages (c : Core) : List Nat → Nat → Tab Byte
  | [], _ => []
  | k :: ks, o =>
    let t := Tab.get Tile.start c.tiles k
    if (TDesc.of t.desc).units = 0 then tileImages c ks o else
    imgBytes o (tileImage t) ++ tileImages c ks (o + 1024 * (TDesc.of t.desc).units)

/-- Descriptor `k` as logical state holds it at a position (R253); above depth 0 the value stands (log entry 22). -/
def logicalDesc (c : Crew) (up : Bool) (index k : Nat) (w : Word) : Word :=
  if !up && c.set.views.any (fun v => v.num == k && v.from_ ≤ index && index < v.to_) then w &&& ~~~(BitVec.ofNat 64 (2 ^ 58)) else w

/-- Features whose state is live in the focus core (R324); V1's is the context's. -/
def State.feat (s : State) : Nat :=
  (if s.core.tiles.isEmpty then 0 else 1) + (if s.core.armed.any fun a => field a.2.desc 0 1 == 2 then 8 else 0) +
    (if (List.range 64).any fun n => (segment? s.core.pwl n).isSome then 16 else 0)

/-- Registers of an engine that a block holds; `u` gives those that hold no defined value (R321). -/
def savedRegs (e : Eng) (v : View) (u : Nat → Word) : List Byte :=
  (List.range (if e = .S then 32 else 16)).flatMap fun r => toBytes 8 (if slicePrivate e r then u r else v.x r).toNat

/-- The crew block of the focus core's crew, and the state after drawing its undefined values. -/
def crewBlock (s : State) (w : Crew) (kind lslot : Nat) (at_ : RestartAt) (record : List Byte) : Tab Byte × State :=
  let c := s.core
  let up := 0 < c.calldepth
  let u (e : Eng) (r : Nat) : Word := Config.freeValue (s.free + 2 * e.code + r % 2)
  let hd := [BitVec.ofNat 8 kind, BitVec.ofNat 8 (if w.group = 1 then 0xFF else quadOf c.id), 0, 0] ++ toBytes 4 w.num ++ [BitVec.ofNat 8 lslot] ++
    toBytes 7 0 ++ toBytes 4 at_.index ++ toBytes 4 c.calldepth ++ [BitVec.ofNat 8 at_.nloop] ++ toBytes 7 0 ++ at_.iter ++ at_.count ++ at_.word ++ c.qcptr
  (imgBytes 0 hd ++ imgBytes 0x400 record ++
    imgBytes 0x600 (Eng.all.flatMap fun e => savedRegs e (c.eng e).view (u e)) ++
    imgBytes 0x900 (Eng.all.flatMap fun e => blockRegs.flatMap fun n =>
      toBytes 8 (match CtlReg.ofCode? n with | some r => (ctlRead s e r).toNat | none => 0)) ++
    imgBytes 0x1080 ((List.range 16).flatMap fun k => toBytes 8 (logicalDesc w up at_.index k (Tab.get 0 c.engV.view.descs k)).toNat) ++
    imgTab 0x1100 1 (·.toNat) c.engV.view.lanes ++
    imgBytes 0x1180 ((List.range 64).flatMap fun k => toBytes 4 (Tab.get fmtDefault c.fmt k).toNat) ++
    imgTab 0x1280 8 (·.toNat) c.dstat ++
    imgBytes 0x1300 ((List.range 16).flatMap fun k => toBytes 8 (Tab.get Tile.start c.tiles k).desc.toNat) ++
    imgTab 0x1400 1 (·.toNat) c.pwl ++
    c.armed.flatMap (fun a => imgBytes (0x1C00 + 64 * a.1) (padTo 64 a.2.desc)) ++
    imgTab 0x2C00 8 (fun a => 2 ^ 63 + (if a.phase then 2 ^ 11 else 0) + a.obj) c.armed ++
    imgTab 0x4000 8 (·.toNat) c.barriers ++
    imgTab 0x8000 4 (·.toNat) c.acc ++
    tileImages c (List.range 16) 0x48000 ++
    imgTab 0x78000 1 (·.toNat) c.scratch,
   { s with free := s.free + 16 })

/-! ## The context's header (R319, R320, R325) -/

def State.launch? (s : State) (serial : Nat) : Option Launch := s.hub.launches.find? fun l => l.serial == serial

def State.setLaunch (s : State) (l : Launch) : State :=
  { s with hub := { s.hub with launches := s.hub.launches.map fun k => if k.serial = l.serial then l else k } }

/-- FEATLIVE of a context (R324, R325). -/
def Ctx.featLive (x : Ctx) : Nat := (x.slots.foldl (fun m k => m ||| k.2.feat) 0) ||| (if x.depcnt = 0 then 0 else 64)

/-- The bit map of the slots that satisfy a condition, 48 bytes. -/
def slotMap (l : Tab Slot) (f : Slot → Bool) : List Byte := toBytes 48 ((l.filter fun k => f k.2).map fun k => 2 ^ k.1).sum

/-- A launch record (R320). -/
def launchRecord (l : Launch) : List Byte :=
  padTo 64 l.args ++ padTo 64 (l.cmd.take 64) ++ padTo 16 ((l.cmd.drop 64).take 16) ++ toBytes 4 l.next ++ toBytes 4 l.ended ++ [1] ++ toBytes 47 0 ++
    padTo 56 (l.pipe.flatMap fun w => toBytes 8 w.toNat)

/-- Writes the header of a context's save area (R319). -/
def State.writeHeader (s : State) (k : Nat) : State :=
  match s.ctx? k with
  | none => s
  | some x =>
    let hd := [1, 0, BitVec.ofNat 8 Config.revision, 0] ++ toBytes 4 x.nslot ++ toBytes 8 x.featLive ++ toBytes 8 x.depcnt.toNat ++ toBytes 8 0 ++
      slotMap x.slots (fun _ => true) ++ slotMap x.slots (·.waits)
    let recs := (List.range 48).flatMap fun n =>
      match s.hub.launches.find? fun l => l.ctx == k && l.lslot == n with
      | some l => imgBytes (4096 + 256 * n) (launchRecord l)
      | none => []
    writeRegion s x.fn x.save saveHeader (imgBytes 0 hd ++ recs)

/-! ## Freeing a core (R178, R329, R427) -/

/-- The governor takes a core's leave and its request back (R178). -/
def State.dropLeave (s : State) (k : Nat) : State :=
  { s with hub := { s.hub with gov := { s.hub.gov with asks := s.hub.gov.asks.filter (·.2 != k), granted := s.hub.gov.granted.filter (· != k) } } }

/-- A core whose crew has left it; it keeps its scratchpad, caches and error count. -/
def Core.freed (c : Core) : Core :=
  { Core.reset c.id with owner := c.crew.map (·.ctx), scratch := c.scratch, opcache := c.opcache, tlb := c.tlb, out := c.out }

/-- A core zeroed for a new owner (R427). -/
def Core.zeroed (c : Core) : Core := { Core.reset c.id with tlb := c.tlb, out := c.out }

/-- What still waits for a core's transfers and walks is dropped when its crew leaves. -/
def State.dropTraffic (s : State) (k : Nat) : State :=
  { s with
    net := { s.net with xfers := s.net.xfers.filter fun x => x.core != k }
    dies := s.dies.map fun d => (d.1, { d.2 with walks := d.2.walks.map fun w => { w with waiters := w.waiters.filter fun x => x.1 != k } }) }

/-- The focus core's crew leaves it. Of a job that is switched out, the transfers to other packages and the frozen collectives stay with the package (R395, R396). -/
def State.freeCore (s : State) : State :=
  let k := s.core.id
  let s1 := ((s.mapCore Core.freed).dropLeave k).dropTraffic k
  if s.switching then
    { s1 with net := { s1.net with xfers := s.net.xfers }
              gang := { s1.gang with frozen := s1.gang.frozen ++ s.core.colls.map fun c => ⟨k, c⟩ } }
  else s1

/-! ## Saving a crew (R323, R329, R330) -/

/-- The lowest free slot of a context (R323). -/
def Ctx.freeSlot? (x : Ctx) : Option Nat := (List.range x.nslot).find? fun k => !x.slots.any fun e => e.1 == k

/-- Whether the focus core's crew has a slot to go to; without one it stays stopped on its core (log entry 23). -/
def State.slotReady (s : State) : Bool :=
  match s.core.crew with
  | none => false
  | some w => match s.ctx? w.ctx with
    | none => false
    | some x => x.freeSlot?.isSome

/-- Saves the focus core's crew in the lowest free slot and frees its core. `waits`: its record waits for the host; `plug`: for the plug-in; `yields`: it rejoins its launch's queue. -/
def State.saveCrew (s : State) (kind : Nat) (at_ : RestartAt) (record : List Byte) (waits plug yields : Bool) : State :=
  match s.core.crew with
  | none => s
  | some w =>
    match s.ctx? w.ctx with
    | none => s
    | some x =>
      match x.freeSlot? with
      | none => s
      | some k =>
        let lslot := ((s.launch? w.launch).map (·.lslot)).getD 0
        let s := s.core.ended.foldl (fun s k => s.fill s.core.id k.spoiled) s
        let (blk, s) := crewBlock s w kind lslot at_ record
        let s := writeRegion s x.fn (x.save + saveHeader + k * blockBytes) blockBytes blk
        let slot : Slot := ⟨w.launch, w.num, kind, waits, plug, s.podtime, quadOf s.core.id, s.feat, if 0 < s.core.calldepth then at_.levels else []⟩
        let s := s.putCtx w.ctx { x with slots := x.slots.filter (fun e => e.1 < k) ++ [(k, slot)] ++ x.slots.filter fun e => k < e.1 }
        let s := if yields then { s with hub := { s.hub with launches := s.hub.launches.map fun l => if l.serial = w.launch then { l with yielded := l.yielded ++ [w.num] } else l } } else s
        let s := s.writeHeader w.ctx
        let s := if waits then s.interrupt w.fn 2 else s
        s.freeCore

/-- A crew that stands on its core and still waits for the host leaves it: its slot keeps the header and the record, and takes what its collectives and the network have changed (R330,
R403). -/
def State.saveStanding (s : State) (k : Nat) : State :=
  match s.core.crew with
  | none => s
  | some w =>
    match s.ctx? w.ctx with
    | none => s
    | some x =>
      let at_ := x.save + saveHeader + k * blockBytes
      let old := readRegion s x.fn at_ 0x600
      let s := s.core.ended.foldl (fun s k => s.fill s.core.id k.spoiled) s
      let (blk, s) := crewBlock s w 2 0 ⟨0, 0, [], [], [], []⟩ []
      ((writeRegion s x.fn at_ blockBytes (old ++ blk.filter fun b => 0x600 ≤ b.1)).writeHeader w.ctx).freeCore

/-! ## Placing a crew (R304) -/

/-- The scratchpad a new crew finds: zeros after another owner; after a crew of its context, each byte zero or as it was left, which no one may rely on (R427; log entry 6). -/
def State.startScratch (s : State) (c : Core) (ctx : Nat) : Tab Byte × State :=
  if c.owner = some ctx then
    ((c.scratch.zipIdx.filter fun b => (Config.freeValue (s.free + b.2)).getLsbD 0).map (·.1), { s with free := s.free + c.scratch.length })
  else ([], s)

/-- A core's storage before a crew of a context runs there (R304 step 1, R427). -/
def Core.fresh (c : Core) (w : Crew) (scratch : Tab Byte) : Core :=
  { Core.reset c.id with crew := some w, owner := some w.ctx, scratch := scratch, opcache := if c.owner = some w.ctx then c.opcache else [],
                         tlb := c.tlb, out := c.out }

/-- An engine at the start of its slice, with the argument registers (R62, R304). -/
def startEngine (w : Crew) (args : List Byte) (e : Eng) : Engine :=
  let sl := w.set.slices.getD (e.code - 1) (0, 0)
  let a := BitVec.ofNat 64 (w.set.code + sl.1)
  { Engine.reset with
    view := { View.start w.num with regs := ((List.range 8).map fun i => (i + 1, BitVec.ofNat 64 (field args (8 * i) 8))).filter fun r => r.2 != 0 }
    pc := a
    base := a
    len := sl.2 }

/-- A segment's record is 32 bytes (R149, R215). -/
def pwlSegment (l : List Byte) : List Byte := padTo 32 (l.take 32)

/-- Tables at their starting values, then the descriptor's records in order (R248, R304). -/
def Core.startTables (c : Core) (set : SliceSet) : Core :=
  { c with fmt := set.fmtRec.foldl (fun t r => Tab.set fmtDefault t (r.1 % 64) (fmtStore r.2).1) []
           pwl := set.pwlRec.foldl (fun t r => Tab.setAll 0 t ((pwlSegment r.2).zipIdx.map fun b => (32 * (r.1 % 64) + b.2, b.1))) [] }

/-- The table of token counts a list gives, in pair order. -/
def tokTab (l : List Nat) : Tab Nat := (l.zipIdx.map fun x => (x.2, x.1)).filter fun x => x.2 != 0

/-- A new crew on a core (R304). -/
def Core.start (c : Core) (w : Crew) (args : List Byte) (tok : List Nat) (scratch : Tab Byte) : Core :=
  let c := (c.fresh w scratch).startTables w.set
  { c with engS := startEngine w args .S, engL := startEngine w args .L, engV := startEngine w args .V, engM := startEngine w args .M,
           engW := startEngine w args .W, tok := tokTab tok }

/-! ## Resuming (R289 to R291, R329, R360) -/

/-- What a stopped crew's block says of its restart. -/
structure Back where
  after : Bool
  index : Nat
  nloop : Nat
  iter  : List Nat
  count : List Nat
  word  : List Nat
  depth : Nat
  qc    : List Nat
  spc   : List Nat               -- the snapshots' SPC, and TOKIN and TOKOUT of each
  tokin : List (List Nat)
  tokout : List (List Nat)
  deriving DecidableEq, Repr

/-- Reads the restart information of a block: of its header for RSTKIND 1, of its record for 2. -/
def backOf (b : Tab Byte) : Back :=
  let four (o : Nat) : List Nat := (List.range 4).map fun k => imgNat b (o + 4 * k) 4
  let snap (k : Nat) : Nat := 0x480 + 64 * k
  let bytes (o n : Nat) : List Nat := (Tab.slice 0 b o n).map (·.toNat)
  if imgNat b 0 1 = 2 then
    { after := (imgNat b 0x405 1).testBit 1, index := imgNat b 0x430 4, nloop := imgNat b 0x407 1, iter := four 0x438, count := four 0x448, word := four 0x458,
      depth := imgNat b 0x474 4, qc := bytes 0x5E0 10, spc := (List.range 5).map fun k => imgNat b (snap k) 4,
      tokin := (List.range 5).map fun k => bytes (snap k + 32) 4, tokout := (List.range 5).map fun k => bytes (snap k + 36) 4 }
  else
    { after := false, index := imgNat b 16 4, nloop := imgNat b 24 1, iter := four 32, count := four 48, word := four 64, depth := imgNat b 20 4,
      qc := bytes 80 10, spc := [], tokin := [], tokout := [] }

/-- LEN of a loop word (R19). -/
def loopLen (w : Nat) : Nat := if bits w 22 16 = 0x32 then bits w 10 0 else bits w 6 0

/-- The levels an engine rebuilds (R290), innermost first. -/
def rebuilt (s : State) (w : Crew) (e : Eng) (b : Back) : List Level :=
  ((List.range (min 4 b.nloop)).filterMap fun n =>
    (w.set.loops.find? fun r => r.index == b.word.getD n 0).bind fun r =>
      let o := r.offs.getD (e.code - 1) 0xFFFFFFFF
      if o = 0xFFFFFFFF then none else
      let a := w.set.code + (w.set.slices.getD (e.code - 1) (0, 0)).1 + 4 * o
      let raw := match ctxPa s w.ctx a false with | some pa => s.memNat pa 4 | none => 0
      some ⟨BitVec.ofNat 64 (a + 4), BitVec.ofNat 64 (a + 4 * loopLen raw), b.count.getD n 0 - b.iter.getD n 0, b.iter.getD n 0, 0, r.index, b.count.getD n 0⟩).reverse

/-- The levels of S above depth 0 (R360): those kept with the slot, else rebuilt in the procedure that holds the reported word (log entry 22). -/
def rebuiltCall (s : State) (w : Crew) (b : Back) (pc : Nat) (kept : List Level) : List Level :=
  if kept.length = min 4 b.nloop then kept else
  let base := pc - 4 * procIndex s w.ctx (BitVec.ofNat 64 pc)
  ((List.range (min 4 b.nloop)).map fun n =>
    let a := base + 4 * b.word.getD n 0
    let raw := match ctxPa s w.ctx a false with | some pa => s.memNat pa 4 | none => 0
    (⟨BitVec.ofNat 64 (a + 4), BitVec.ofNat 64 (a + 4 * loopLen raw), b.count.getD n 0 - b.iter.getD n 0, b.iter.getD n 0, b.depth, b.word.getD n 0, b.count.getD n 0⟩ : Level)).reverse

/-- An engine placed at a word of its slice with its levels; one past an end word it runs the end test (R290). -/
def Engine.placeAt (g : Engine) (pc : Word) (ls : List Level) : Engine :=
  match ls with
  | l :: _ =>
    if l.stop + 4 = pc then let r := endTest 0 l.stop ls; { g with pc := r.1, loops := r.2 } else { g with pc := pc, loops := ls }
  | [] => { g with pc := pc, loops := [] }

/-- The queues a restart binds: consumer pointers QCPTR, producer pointers ahead by the counts given (R289, R360). -/
def boundQueues (set : SliceSet) (qc live : List Nat) : Tab Queue :=
  (set.queues.zipIdx.filterMap fun q =>
    (qcw? q.1.2.2).map fun n =>
      let k := pairIdx q.1.1 q.1.2.1
      (k, { n with cons := qc.getD q.2 0, prod := (qc.getD q.2 0 + live.getD k 0) % n.depth })).mergeSort (fun a b => a.1 ≤ b.1)

/-- The bytes of a bound queue's slots that are not live: offsets of home scratchpad. -/
def deadSlots (t : Tab Queue) (live : List Nat) : List Nat :=
  t.flatMap fun q => (List.range q.2.depth).flatMap fun n =>
    if (n + q.2.depth - q.2.cons) % q.2.depth < live.getD q.1 0 then [] else (List.range q.2.slot).map fun b => q.2.base + n * q.2.slot + b

/-- The view of an engine that a block holds; the registers without a defined value are `u`'s. -/
def loadView (b : Tab Byte) (e : Eng) (up : Bool) (u : Nat → Word) : View :=
  let o := if e = .S then 0x600 else 0x700 + 128 * (e.code - 2)
  let r (n : Nat) : Nat := imgNat b (0x900 + 384 * (e.code - 1) + 8 * n) 8
  { regs := (List.range (if e = .S then 32 else 16)).filterMap fun k =>
      let v := if !up && slicePrivate e k then u k else BitVec.ofNat 64 (imgNat b (o + 8 * k) 8)
      if k = 0 ∨ v = 0 then none else some (k, v)
    flags := BitVec.ofNat 6 (r 0)
    rmode := BitVec.ofNat 3 (r 1)
    seed := BitVec.ofNat 32 (r 2)
    tol := BitVec.ofNat 32 (r 3)
    fmtlvl := BitVec.ofNat 3 (r 4)
    ovfpol := BitVec.ofNat 2 (r 5)
    fmtbase := BitVec.ofNat 6 (r 6)
    fmtstride := BitVec.ofNat 6 (r 7)
    prelvl := BitVec.ofNat 3 (r 0x12)
    descs := if e = .V then (imgWords b 0x1080 128 8).map fun k => (k.1, BitVec.ofNat 64 k.2) else []
    lanes := if e = .V then (imgWords b 0x1100 128 1).map fun k => (k.1, BitVec.ofNat 6 k.2) else [] }

/-- The stall counters a block holds (R71). -/
def loadCounters (b : Tab Byte) (e : Eng) : Tab Nat :=
  (List.range 14).filterMap fun k =>
    let v := imgNat b (0x900 + 384 * (e.code - 1) + 8 * (0x20 + k)) 8
    if v = 0 then none else some (k, v % 2 ^ 48)

/-- The tiles a block holds, each from its place in the contents (R206); a reserved bit of a descriptor reads as zero (R6, R179). -/
def loadTiles (b : Tab Byte) : List Nat → Nat → Tab Tile
  | [], _ => []
  | k :: ks, o =>
    let d := TDesc.of (BitVec.ofNat 64 (imgNat b (0x1300 + 8 * k) 8))
    let n := 1024 * d.units
    let img := Tab.slice 0 b o n
    let cut (rows cols at_ : Nat) : List Nat :=
      let rb := (cols * codeWidth d.etype + 7) / 8
      (List.range rows).flatMap fun i => rowElems d.etype cols ((img.drop (at_ + i * rb)).take rb)
    let elems := if d.fact then cut d.rows d.rank 0 ++ cut d.rank d.cols (d.rows * ((d.rank * codeWidth d.etype + 7) / 8)) else
      if d.rank = 0 then [] else if d.rowsFit then cut d.rows d.cols 0 else rowElems d.etype (d.rows * d.cols) img
    let t : Tile := ⟨d.word, elems.map (BitVec.ofNat 32)⟩
    (if t = Tile.start then [] else [(k, t)]) ++ loadTiles b ks (o + n)

/-- The armed operations a block holds. -/
def loadArmed (b : Tab Byte) : Tab Armed :=
  (List.range 64).filterMap fun k =>
    let v := imgNat b (0x2C00 + 8 * k) 8
    if v.testBit 63 then some (k, ⟨v % 2048, v.testBit 11, Tab.slice 0 b (0x1C00 + 64 * k) 64⟩) else none

/-- A saved crew loaded on a core (R289, R329, R360); `live`: FEATLIVE (R325). -/
def Core.resumed (c : Core) (s : State) (w : Crew) (b : Tab Byte) (live : Nat) (kept : List Level) : Core × State :=
  let k := backOf b
  let up := 0 < k.depth
  let p := if k.after then k.index + 1 else k.index
  let rec_ := w.set.restarts.getD p ⟨[], [], []⟩
  let u (e : Eng) (r : Nat) : Word := Config.freeValue (s.free + 2 * e.code + r % 2)
  let inTok := tokTab ((List.range 20).map fun i =>
    (Eng.all.flatMap fun d => Eng.all.filterMap fun e =>
      if d ≠ e ∧ pairIdx d.code e.code = i then some ((k.tokin.getD (e.code - 1) []).getD (((Eng.all.filter (· != e)).idxOf d)) 0) else none).headD 0)
  let tok := if up then inTok else tokTab rec_.tok
  let liveOf := if up then (List.range 20).map fun i => Tab.get 0 tok i else rec_.live
  let qs := boundQueues w.set k.qc liveOf
  let dead := deadSlots qs liveOf
  let eng (e : Eng) : Engine :=
    let g := startEngine w [] e
    let view := loadView b e up (u e)
    let view := if e = .V ∧ !up then { view with descs := w.set.views.foldl (fun t v =>
      if v.from_ ≤ p ∧ p < v.to_ then Tab.set 0 t v.num (Tab.get 0 t v.num ||| BitVec.ofNat 64 (2 ^ 58)) else t) view.descs } else view
    let g := { g with view := view, sc := loadCounters b e }
    if up then
      if e = .S then
        let pc := 0x780000000000 + 4 * k.spc.getD 0 0
        let at_ := if k.after then endTest k.depth (BitVec.ofNat 64 pc) (rebuiltCall s w k pc kept) else (BitVec.ofNat 64 pc, rebuiltCall s w k pc kept)
        { g with pc := at_.1, loops := at_.2, call := 1 }
      else { g with pc := g.base + BitVec.ofNat 64 (4 * k.spc.getD (e.code - 1) 0) }
    else g.placeAt (g.base + BitVec.ofNat 64 (4 * rec_.rpc.getD (e.code - 1) 0)) (rebuilt s w e k)
  let scratch := imgWords b 0x78000 Config.scratchBytes 1
  let scratch := Tab.setAll 0 (scratch.map fun x => (x.1, BitVec.ofNat 8 x.2)) (dead.zipIdx.map fun d => (d.1, (Config.freeValue (s.free + 16 + d.2)).setWidth 8))
  ({ c.fresh w scratch with
      engS := eng .S, engL := eng .L, engV := eng .V, engM := eng .M, engW := eng .W
      calldepth := k.depth
      parked := up
      tok := tok
      queues := qs
      barriers := Tab.norm 0 ((imgWords b 0x4000 0x4000 8).map fun x => (x.1, BitVec.ofNat 64 x.2 &&& 0x8FFFFFFFFFFFFFFF))   -- bits 62:60 read as zero (R6, R84)
      armed := if live.testBit 3 then loadArmed b else (loadArmed b).filter fun a => field a.2.desc 0 1 != 2
      fmt := (List.range 64).filterMap fun n =>
        let v := BitVec.ofNat 32 (imgNat b (0x1180 + 4 * n) 4)
        if v = fmtDefault then none else some (n, v)
      pwl := if live.testBit 4 then (imgWords b 0x1400 0x800 1).map fun x => (x.1, BitVec.ofNat 8 x.2) else []
      acc := (imgWords b 0x8000 0x40000 4).map fun x => (x.1, BitVec.ofNat 32 x.2)
      dstat := (imgWords b 0x1280 0x80 8).map fun x => (x.1, BitVec.ofNat 64 x.2)
      tiles := if live.testBit 0 then loadTiles b (List.range 16) 0x48000 else []
      time := BitVec.ofNat 64 (imgNat b (0x900 + 8 * 0x10) 8) },
   { s with free := s.free + 16 + dead.length })

/-- FEATLIVE as the save area's header holds it (R325). -/
def State.featHeader (s : State) (x : Ctx) : Nat := imgNat (readRegion s x.fn x.save 16) 8 8

/-! ## Teardown (R339, R371, R391, R427) -/

/-- Removes a context's cached translations and decoded words (R337, R339, R357). -/
def State.forget (s : State) (k : Nat) : State :=
  let core (c : Core) : Core :=
    { c with tlb := c.tlb.filter (fun e => e.ctx != k), opcache := (c.opcache.map fun x => (x.1, x.2.filter fun e => e.ctx != k)).filter fun x => !x.2.isEmpty }
  { s with
    core := core s.core
    others := s.others.map core
    quads := (s.quads.map fun q => (q.1, q.2.filter fun e => e.ctx != k)).filter fun q => !q.2.isEmpty
    dies := s.dies.map fun d => (d.1, { d.2 with walks := d.2.walks.filter (fun w => w.ctx != k), pwc := d.2.pwc.filter fun e => e.ctx != k }) }

/-- Whether a core belongs to a context: it runs a crew of it or ran its last one. -/
def Core.belongs (c : Core) (k : Nat) : Bool :=
  c.owner == some k || (match c.crew with | some w => w.ctx == k | none => false)

/-- Removes a tag's job when no context of the package holds it (R371). -/
def State.dropJob (s : State) (tag : Nat) : State :=
  if s.ctxs.any fun c => c.2.job == tag then s else
  { s with net := { s.net with jobs := s.net.jobs.filter (fun j => j.1 != tag), held := s.net.held.filter fun h => h.packet.tag != tag } }

/-- Drops the cores kept for launches that are gone. -/
def State.tidyResv (s : State) : State :=
  { s with hub := { s.hub with resv := s.hub.resv.filter fun r => s.hub.launches.any fun l => l.serial == r.2 || (l.pipeId == r.2 && l.pipeId != 0) } }

/-- The loader's records that the code blocks over a root table carry end (R2, R352). -/
def State.dropCode (s : State) (fn root : Nat) : State := { s with codeBlocks := s.codeBlocks.filter fun b => !(b.1 == fn && b.2.1 == root) }

/-- A context is torn down (R339). -/
def State.teardown (s : State) (k : Nat) : State :=
  match s.ctx? k with
  | none => s
  | some x =>
    let mine := s.cores.filter fun c => c.belongs k
    let s := mine.foldl (fun s c => c.colls.foldl (fun s l => sendAborts s c.id l) s) s
    let s := mine.foldl (fun s c => ((s.putCore c.zeroed).dropLeave c.id).dropTraffic c.id) s
    let halt (q : CmdQueue) : CmdQueue := if q.ctx = k then { q with halt := true, err := 0, busy := none } else q
    let f := s.func x.fn
    let s := s.setFunc x.fn { f with queues := f.queues.map fun q => (q.1, halt q.2) }
    let s := ({ s with hub := { s.hub with launches := s.hub.launches.filter fun l => l.ctx != k } } : State).tidyResv
    let s := ((s.forget k).dropCtx k).dropCode x.fn x.root
    if x.job = 0 then s else s.dropJob x.job

end Sys2Proof.Machine
end

