-- ==== Sys2Proof/Machine/Events.lean ====
section
/-!
DEFINITION. The events of a core and its memory system: illegal words, commits, performances, walks, line fills, deadlock, the end of a drain,
the end of a crew, leave, and the moves of a migration.
-/
namespace Sys2Proof.Machine

/-! ## Decode and fetch -/

/-- An illegal word among those that an engine has decoded (R273, R274): its position, levels, word and code. -/
structure IllegalAt where
  pos  : Pos
  ls   : List Level
  word : IWord
  code : Nat
  deriving DecidableEq, Repr

/-- The first illegal word of an engine's next 17 words, as far as it is known that they will execute. -/
def State.illegalFrom (s : State) (e : Eng) : Nat → Word → List Level → Option IllegalAt
  | 0, _, _ => none
  | n + 1, pc, ls =>
    if !(s.eng e).holds pc && !(e == .S && 0 < s.core.calldepth) then none else
    match s.wordAt e pc with
    | none => none
    | some w =>
      match s.decodeAt e pc ls w with
      | .illegal d => some ⟨s.posAhead e (16 - n) pc ls, ls, w, d⟩
      | .ok i =>
        if endsRun i then none else
        let q := stepPast s.core.calldepth pc ls (s.mapAt e pc).2 i
        s.illegalFrom e n q.1 q.2

/-- The illegal word that an engine's decoder has found, which no freeze or boundary keeps from being reached. -/
def State.illegal? (s : State) (e : Eng) : Option IllegalAt :=
  let g := s.eng e
  if s.core.crew.isNone ∨ s.core.held ∨ s.isIdle e ∨ g.hold.isSome ∨ s.heldByCall e ∨ s.core.parked && (e != .S || s.core.calldepth == 0) then none else
  (s.illegalFrom e 17 g.pc g.loops).filter fun x =>
    (match s.core.freeze with | some f => x.pos.lt f.pos | none => true) && match s.core.preempt with | some f => x.pos.lt f.bound | none => true

/-- ILLEGAL_INSTRUCTION (R29, R273, R284): the decoder of an engine finds the illegal word `w`, with detail `d`, among its decoded words. -/
def execIllegalInstruction (e : Eng) (w : IWord) (d : Nat) (s : State) : Host.Outcome State Fault Refusal :=
  match s.illegal? e with
  | none => .next s
  | some x =>
    if x.word = w ∧ x.code = d then .next (s.began (s.takeFault x.pos x.ls e.code ⟨0x01, d, w.setWidth 64, 0, 0⟩ false false)) else .next s

/-- Puts an entry at the front of its set of 8 ways (R356). -/
def Core.opFill (c : Core) (o : OpEntry) : Core :=
  let k := bits o.addr.toNat 10 2
  let old := (Tab.get [] c.opcache k).filter fun x => !(x.ctx == o.ctx && x.isa == o.isa && x.eng == o.eng && va56 x.addr == va56 o.addr)
  { c with opcache := Tab.set [] c.opcache k ((o :: old).take 8) }

/-- The entries of a fetched line; a word that the feature mask hides never enters (R341, R356). -/
def State.lineEntries (s : State) (e : Eng) (c : Crew) (pa line : Nat) : List OpEntry :=
  (List.range 16).filterMap fun k =>
    let a := BitVec.ofNat 64 (line + 4 * k)
    let w := BitVec.ofNat 32 (s.memNat (pa + 4 * k) 4)
    let m := s.mapAt e a
    if decode e s.featMask w = decode e 0 w then some ⟨c.ctx, c.set.isa, e, a, w, m.2, m.1⟩ else none

/-- The line that a fetch has translated enters the cache, or the fetch faults, once the engine may issue (R74, R284). -/
def State.fillLine (s : State) (e : Eng) (c : Crew) (a : Walked) : State :=
  let pc := (s.eng e).pc
  let va := va56 pc
  let bad (d : Nat) : State := if s.gate e = .go then s.began (s.trapAt e ⟨0x02, d, 0, pc, 0⟩ false) else s
  match a with
  | .fault _ _ => bad 2
  | .hit t =>
    if t.x then
      let line := va - va % 64
      s.mapCore fun k => (s.lineEntries e c (t.pa + (line - t.page)) line).foldl Core.opFill k
    else bad 3

/-- FETCH_LINE_FILL (R356): the line that holds the engine's next word, with its execute check (R74). Its address goes through the TLBs as a data access does, and waits for a walk
(R335, R336). -/
def execFetchLineFill (e : Eng) (s : State) : Host.Outcome State Fault Refusal :=
  match s.core.crew with
  | none => .next s
  | some c =>
    if s.isIdle e ∨ s.core.held ∨ (s.eng e).wait.isSome then .next s else
    match lookup s (s.eng e).got c.fn c.ctx (va56 (s.eng e).pc) with
    | none =>
      let page := va56 (s.eng e).pc - va56 (s.eng e).pc % 0x10000
      .next ((requestWalk s e c.fn c.ctx page).mapEng e fun g => { g with wait := some page })
    | some a => .next (s.fillLine e c a)

/-! ## Commits and performances -/

/-- PENDING_WRITE_COMMIT (R276): the oldest pending write of an engine, once its instruction is older than the horizon; a deprecated word counts (R354). -/
def execPendingWriteCommit (e : Eng) (s : State) : Host.Outcome State Fault Refusal :=
  match (s.eng e).past with
  | [] => .next s
  | w :: l =>
    if s.older e w.pos then
      let t := (s.progress.mapEng e fun g => { g with past := l }).mapCore fun c => { c with takes := c.takes.filter fun t => !t.1.lt w.pos }
      .next (if w.dep then countDeprecated t else t)
    else .next s

/-- The first store that is held and older than the horizon. -/
def State.releasable (s : State) : Option StoreEntry := s.core.stores.find? fun e => !e.released && s.older e.eng e.pos

/-- HORIZON_WRITE_RELEASE (R275): a held store may perform. -/
def execHorizonWriteRelease (s : State) : Host.Outcome State Fault Refusal :=
  match s.releasable with
  | none => .next s
  | some x => .next (s.progress.mapCore fun c => { c with stores := c.stores.map fun e => if e = x then { e with released := true } else e })

/-- Makes one write of a store at its point of coherence (R113, R258). -/
def State.perform (s : State) (w : StoreWrite) : State :=
  match w with
  | .bytes l => s.setBytes l
  | .red op l v => s.setBytes (l.zip (toBytes v.length (redVal? op (s.locsNat l) (ofBytes v))))

/-- Places that a store's writes name. -/
def StoreEntry.locs (e : StoreEntry) : List Loc :=
  e.writes.flatMap fun w => match w with | .bytes l => l.map (·.1) | .red _ l _ => l

/-- The first store that may perform: released, with no older store of its class before it (R240, R260), and into no page that BCOPY.MIG still moves (R120). -/
def State.performable (s : State) : Option StoreEntry :=
  s.core.stores.find? fun e => e.released && !s.core.olderStore e.pos e.cls && !e.locs.any s.moving

/-- STORE_PERFORM (R258): its elements in access order. -/
def execStorePerform (s : State) : Host.Outcome State Fault Refusal :=
  match s.performable with
  | none => .next s
  | some x => .next (x.writes.foldl State.perform (s.progress.mapCore fun c => { c with stores := c.stores.erase x }))

/-- Places a load's data and finishes its instruction (R103). -/
def State.placeLoad (s : State) (l : LoadData) : State :=
  let t := (s.setHome l.writes).mapCore fun c => ({ c with loads := c.loads.erase l }.served 1 (l.writes.map fun (w : Nat × Byte) => w.1))
  s.began (t.finish .L l.pos)

/-- The load data whose turn has come at every bank that it writes (R269). -/
def State.returnable (s : State) : Option LoadData :=
  s.placeable.filter fun l => (l.writes.map fun w => bankOf w.1).eraseDups.all fun b => !s.behind 1 (s.core.id, b)

/-- LOAD_DATA_RETURN (R262, R103): the load engine's turn at the banks decides when (R269). -/
def execLoadDataReturn (s : State) : Host.Outcome State Fault Refusal :=
  match s.returnable with
  | none => .next s
  | some l => .next (s.placeLoad l)

/-- A bank of the focus core serves the word of engine `e` of core `k` that waits there. -/
def State.serveWord (s : State) (k : Nat) (e : Eng) (bank : Nat) : State :=
  let here := s.core.id
  let t := (s.focusOn k).mapEng e fun g => { g with banks := g.banks.map fun l => l.filter (· != (here, bank)) }
  (t.focusOn here).mapCore fun c => c.servedAt (if k = here then bankReq e else 5) [bank]

/-- The engine, with its core, whose word requester `r` stands for at a bank of the focus core. -/
def State.wordAtBank (s : State) (r bank : Nat) : Option (Nat × Eng) :=
  ((s.cores.filter fun c => if r = 5 then quadOf c.id == quadOf s.core.id && c.id != s.core.id else c.id == s.core.id).flatMap fun c => Eng.all.map fun e => (c.id, e)).find? fun w =>
    (r == 5 || bankReq w.2 == r) && (s.focusOn w.1).waiting w.2 (s.core.id, bank)

/-- BANK_SERVE (R269, R270): of the requesters waiting at a bank of the focus core, the first after the one served last. An element is applied there, load data are placed once their turn
has come at all their banks, and a word issues once every bank it waits at has served it. -/
def execBankServe (bank : Nat) (s : State) : Host.Outcome State Fault Refusal :=
  let waits := s.waitsAt s.core.id bank
  match (List.range 7).map (fun k => (Tab.get 6 s.core.bankPtr bank + 1 + k) % 7) |>.find? fun r => waits.contains r with
  | none => .next s
  | some r =>
    match s.wordAtBank r bank with
    | some w => .next (s.serveWord w.1 w.2 bank)
    | none =>
      if r = 1 then match s.returnable with
        | some l => .next (s.placeLoad l)
        | none => .next s
      else match s.elemOf s.core.id (r == 5) with
        | some e => .next (applyTurn s e)
        | none => .next s

/-! ## Translation (R335, R336) -/

/-- MEMORY_CHECKS_COMPLETE (R83): the answer an engine's oldest word waited for has come; the word makes its checks with it when it issues next. -/
def execMemoryChecksComplete (e : Eng) (s : State) : Host.Outcome State Fault Refusal :=
  match (s.eng e).wait, s.core.crew with
  | some page, some c => if (lookup s (s.eng e).got c.fn c.ctx page).isSome then .next (s.mapEng e fun g => { g with wait := none }) else .next s
  | _, _ => .next s

/-- Gives an engine, and the address unit when it waits for the page, the answer of a walk. -/
def Core.answer (c : Core) (e : Eng) (page : Nat) (a : Walked) : Core :=
  let g := c.eng e
  let c := if g.wait = some page then c.setEng e { g with got := g.got ++ [a] } else c
  if e = .W ∧ c.unit.wait = some page then { c with unit := { c.unit with wait := none, got := c.unit.got ++ [a] } } else c

/-- Serves one waiter of a walk: its core's TLB and its quad's, and its answer. -/
def State.serveWalk (s : State) (page : Nat) (a : Walked) (w : Nat × Eng) : State :=
  let c := s.coreAt w.1
  let c := c.answer w.2 page a
  match a with
  | .fault _ _ => s.putCore c
  | .hit t =>
    let s := s.putCore { c with tlb := tlbFill 1024 c.tlb t }
    let q := quadOf w.1
    { s with quads := Tab.set [] s.quads q (tlbFill 8192 (Tab.get [] s.quads q) t) }

/-- PAGE_WALK_COMPLETE (R332 to R336): the oldest walk of a die. -/
def execPageWalkComplete (die : Nat) (s : State) : Host.Outcome State Fault Refusal :=
  let d := s.die die
  match d.walks with
  | [] => .next s
  | w :: l =>
    match s.ctx? w.ctx with
    | none => .next (s.setDie die { d with walks := l })
    | some x =>
      let st := walkStart d.pwc w.fn w.ctx w.page x.root
      let a := walkFrom s w.fn w.ctx w.page st.1 st.2
      let new := (walkTables (readEntry s w.fn) w.page st.1 st.2).map fun t =>
        (⟨w.fn, w.ctx, t.1, w.page >>> (if t.1 = 3 then 21 else if t.1 = 2 then 30 else 43), t.2⟩ : PwcEntry)
      let pwc := match a with
        | .hit _ => new ++ d.pwc.filter fun p => !new.contains p
        | .fault _ _ => d.pwc
      .next (w.waiters.foldl (fun s v => s.serveWalk w.page a v) (s.setDie die { d with walks := l, pwc := pwc }))

/-! ## Calls (R358) -/

/-- CALL_UNPARK (R358). -/
def execCallUnpark (s : State) : Host.Outcome State Fault Refusal :=
  if s.core.parked ∧ s.core.calldepth = 0 ∧ s.core.drained then
    .next ((s.mapCore fun c => { c with parked := false }).mapEng .S fun g => { g with call := 0 })
  else .next s

/-! ## The end of a crew (R96, R309) -/

/-- A completion (R309): COMPVAL to COMPADDR in a context with COMPL, then the interrupt with IRQ. -/
def State.complete (s : State) (fn ctx : Nat) (cmd : List Byte) : State :=
  let fl := field cmd 1 1
  let s := if fl.testBit 2 then (ctxWrite s ctx (field cmd 64 8) (toBytes 8 (field cmd 72 8))).getD s else s
  if fl.testBit 3 then s.interrupt fn 0 else s

/-- A crew of a launch has ended (R309). -/
def State.crewEnded (s : State) (serial : Nat) : State :=
  match s.launch? serial with
  | none => s
  | some l =>
    if field l.cmd 4 4 ≤ l.ended + 1 then
      let s := s.complete l.fn l.ctx l.cmd
      ({ s with hub := { s.hub with launches := s.hub.launches.filter fun k => k.serial != serial } } : State).tidyResv
    else s.setLaunch { l with ended := l.ended + 1 }

/-- Whether the focus core's HALT may complete (R96, R280): it waits for every element of the crew's older SENDTs, those that easy-all keeps with the package too (R375, R396). -/
def State.haltReady (s : State) : Bool :=
  s.core.halting && s.gate .S == .go && s.drainedTo (s.pos .S) && s.core.colls.isEmpty && !s.crewSends (s.pos .S)

/-- HALT_COMPLETE (R96, R280). -/
def execHaltComplete (s : State) : Host.Outcome State Fault Refusal :=
  match s.core.crew with
  | none => .next s
  | some w => if s.haltReady then .next ((s.mapCore fun c => c.cut (s.pos .S)).freeCore.crewEnded w.launch) else .next s

/-! ## Slice-set faults (R228, R282) -/

/-- The earlier of two positions with what goes with them. -/
def earlier {α : Type} (a b : Pos × α) : Pos × α := if b.1.lt a.1 then b else a

/-- The oldest instruction not yet complete in any engine, with its levels. -/
def State.oldestOpen (s : State) : Option (Pos × List Level) :=
  let l := Eng.all.flatMap fun e =>
    let g := s.eng e
    (g.flights.map fun f => (f.pos, f.levels)) ++ (if s.isIdle e then [] else [(s.pos e, g.loops)])
  match l with
  | [] => none
  | x :: l => some (l.foldl earlier x)

/-- Every engine has been blocked for 65,536 of its turns, and nothing was pushed, appended or popped meanwhile (R228). -/
def Core.deadlocked (c : Core) : Bool := Eng.all.all fun e => 65536 ≤ Tab.get 0 c.blocked e.code

/-- SLICE_DEADLOCK (R228, R282). With every instruction complete, F is where S stands (log entry 102). -/
def execSliceDeadlock (s : State) : Host.Outcome State Fault Refusal :=
  if s.core.deadlocked ∧ s.core.crew.isSome ∧ s.core.freeze.isNone then
    let f := s.oldestOpen.getD (s.pos .S, [])
    .next (s.began (s.takeFault f.1 f.2 0 ⟨0x13, 0, 0, 0, 0⟩ false true))
  else .next s

/-! ## The end of a drain (R281, R330, R339) -/

/-- Where a frozen crew restarts. -/
def Freeze.restart (f : Freeze) : RestartAt := ⟨f.pos.index, min 4 f.pos.iter.length, iterBytes f.pos.iter, countBytes f.levels, wordBytes f.pos, f.levels⟩

/-- Ends the drain: the record is written and the crew saved; a record that is not resumable tears the context down (R282, R339). -/
def State.endDrain (s : State) (f : Freeze) (stuck : Bool) : State :=
  match s.core.crew with
  | none => s
  | some w =>
    let s := s.mapCore fun c => c.cut f.pos
    let rec_ := recordOf s f stuck
    let code := f.aux.toNat
    let yields := f.cause == 0x10 && code == 0
    let plug := f.cause == 0x10 && 1 ≤ code && code ≤ 0x3FF && (s.func w.fn).plugin == 1
    let dead := f.sliceset || stuck
    let s := s.saveCrew 2 f.restart rec_ (dead || (f.cause != 0x14 && !yields && !plug)) plug (yields && !dead)
    if dead then s.teardown w.ctx else s

/-- FAULT_DRAIN_END (R281). -/
def execFaultDrainEnd (s : State) : Host.Outcome State Fault Refusal :=
  match s.core.freeze with
  | none => .next s
  | some f => if s.drainedTo f.pos ∧ s.slotReady then .next (s.endDrain f false) else .next s

/-- SLICE_SET_DRAIN_TIMEOUT (R282). -/
def execSliceSetDrainTimeout (s : State) : Host.Outcome State Fault Refusal :=
  match s.core.freeze with
  | none => .next s
  | some f => if f.slices ∧ 65536 ≤ f.stuck ∧ s.slotReady then .next (s.endDrain f true) else .next s

/-! ## Leave (R177, R178, R417, R418) -/

/-- Whether `n` leaves fit: b + 3 n is at most LIMIT, or 60% of it while a die is hot; b is the mean of the samples, 0 before the first (log entry 30). -/
def Gov.fits (g : Gov) (n : Nat) : Bool :=
  let k : Int := max 1 g.samples.length
  decide (100 * (g.samples.sum + 3 * n * k) ≤ (if g.hot.isEmpty then 100 else 60) * g.limit * k)

/-- Grants leave to the oldest request, when the budget allows it (R417). -/
def State.grantOne (s : State) : State :=
  let g := s.hub.gov
  match g.asks with
  | [] => s
  | (_, k) :: l =>
    if ¬g.fits (g.granted.length + 1) then s else
    let s := s.putCore { s.coreAt k with leave := .held, idle := 0 }
    { s with hub := { s.hub with gov := { g with asks := l, granted := g.granted ++ [k] } } }

/-- LEAVE_GRANT (R177, R417): to the core that asked first. -/
def execLeaveGrant (core : Nat) (s : State) : Host.Outcome State Fault Refusal :=
  if (s.hub.gov.asks.head?.map (·.2)) = some core then .next s.grantOne else .next s

/-- LEAVE_IDLE_RELEASE (R178). -/
def execLeaveIdleRelease (s : State) : Host.Outcome State Fault Refusal :=
  if s.core.leave = .held ∧ 4096 ≤ s.core.idle then .next ((s.mapCore fun c => { c with leave := .none }).dropLeave s.core.id) else .next s

/-- An alarm has been raised: the module accepts nothing until a cold reset (R426). -/
def State.alarmed (s : State) : Bool := s.health.sec.testBit 0

/-! ## Migration (R119, R338, R424) -/

/-- The free list of a tier. -/
def Health.free (h : Health) (second : Bool) : List Nat := if second then h.free2 else h.free1

def Health.setFree (h : Health) (second : Bool) (l : List Nat) : Health := if second then { h with free2 := l } else { h with free1 := l }

/-- The group or package that a memory device belongs to. -/
def deviceUnit (n : Nat) : Out := if n < 48 then .group (n / 4) else .package (n - 48)

/-- A page that is never free: one that was retired, and every page of a unit out of service (R420, R421, R424; log entry 129). -/
def Health.gone (h : Health) (page : Nat) : Bool := h.drive.retired.contains page || h.outs.contains (deviceUnit (Config.controllerOf page))

/-- Zeroes pages and adds them to a tier's list, retired ones left out (R424). -/
def State.addFree (s : State) (second : Bool) (pa n : Nat) : State :=
  let s : State := { s with mem := s.mem.filter fun c => c.1 < pa || pa + 0x10000 * n ≤ c.1 }
  { s with health := s.health.setFree second (s.health.free second ++ ((List.range n).map fun k => pa + 0x10000 * k).filter fun a => !s.health.gone a) }

/-- The free pages a page of `n` base pages moves to: the earliest added, when they form an aligned rising run (log entry 24). -/
def targetRun (l : List Nat) (n : Nat) : Option Nat :=
  match l with
  | [] => none
  | a :: _ => if a % (0x10000 * n) = 0 ∧ l.take n = (List.range n).map (fun k => a + 0x10000 * k) then some a else none

/-- A place after the page at `pa` has moved to `dst`: its contents are there now. -/
def Loc.moved (pa b dst : Nat) : Loc → Loc
  | .mem a => if pa ≤ a ∧ a < pa + 2 ^ b then .mem (dst + (a - pa)) else .mem a
  | .spad k o => .spad k o

/-- The pages that a migration has still to move, after another has moved the one at `pa`: it stands at `dst` now. -/
def movedPages (pa dst : Nat) (l : List (Nat × Nat × Nat)) : List (Nat × Nat × Nat) := l.map fun g => (g.1, if g.2.1 = pa then dst else g.2.1, g.2.2)

/-- Checked places of an instruction after the move of a page. -/
def Places.moved (pa b dst : Nat) (p : Places) : Places :=
  { p with mem := p.mem.map (Loc.moved pa b dst), move := p.move.map fun m => (m.1.moved pa b dst, m.2.moved pa b dst), pages := movedPages pa dst p.pages }

/-- A store's write after the move of a page. -/
def StoreWrite.moved (pa b dst : Nat) : StoreWrite → StoreWrite
  | .bytes l => .bytes (l.map fun w => (w.1.moved pa b dst, w.2))
  | .red op l v => .red op (l.map (Loc.moved pa b dst)) v

/-- Whether an answer of a walk still holds after the move of the page at `pa`. -/
def Walked.keeps (pa b : Nat) : Walked → Bool
  | .hit e => !(e.pa < pa + 2 ^ b && pa < e.pa + 2 ^ e.bits)
  | .fault _ _ => true

/-- An engine whose checked word names places of a page that has moved. -/
def Engine.moved (pa b dst : Nat) (g : Engine) : Engine :=
  { g with kept := g.kept.map (Places.moved pa b dst), got := g.got.filter (Walked.keeps pa b) }

/-- A core whose accesses, checked before a page moved, reach the page where it is now (R120: during MIG any access sees the pages' contents). -/
def Core.pageMoved (pa b dst : Nat) (c : Core) : Core :=
  { c with
    engS := c.engS.moved pa b dst
    engL := c.engL.moved pa b dst
    engV := c.engV.moved pa b dst
    engM := c.engM.moved pa b dst
    engW := c.engW.moved pa b dst
    stores := c.stores.map fun e => { e with writes := e.writes.map (StoreWrite.moved pa b dst) }
    copies := c.copies.map fun k => { k with move := k.move.map (fun m => (m.1.moved pa b dst, m.2.moved pa b dst)), pages := movedPages pa dst k.pages }
    unit := { c.unit with checked := c.unit.checked.map (fun u => (u.1, u.2.moved pa b dst)), got := c.unit.got.filter (Walked.keeps pa b) } }

/-- Removes every cached translation of a function into a page (R338: under a virtual function the leaf is stage 2's, which every context of the function may map). -/
def State.forgetPlace (s : State) (fn pa b : Nat) : State :=
  let keep (e : TlbEntry) : Bool := !(e.fn == fn && e.pa < pa + 2 ^ b && pa < e.pa + 2 ^ e.bits)
  let core (c : Core) : Core := { c with tlb := c.tlb.filter keep }
  { s with
    core := core s.core
    others := s.others.map core
    quads := (s.quads.map fun q => (q.1, q.2.filter keep)).filter fun q => !q.2.isEmpty }

/-- Whether an answer to a word that has not yet been checked is one that an invalidation removes. -/
def Walked.stale (keep : TlbEntry → Bool) (page bytes : Nat) : Walked → Bool
  | .hit e => !keep e
  | .fault p _ => page ≤ p && p < page + bytes

/-- Removes answers that words of a core have obtained and not used. -/
def Core.dropGot (c : Core) (out : Walked → Bool) : Core :=
  let f (g : Engine) : Engine := { g with got := g.got.filter fun w => !out w }
  { c with engS := f c.engS, engL := f c.engL, engV := f c.engV, engM := f c.engM, engW := f c.engW, unit := { c.unit with got := c.unit.got.filter fun w => !out w } }

/-- Removes a range of a context from a core's TLB and decoded-operation cache. -/
def Core.purge (c : Core) (keep : TlbEntry → Bool) (ctx page bytes : Nat) : Core :=
  { c with tlb := c.tlb.filter keep, opcache := (c.opcache.map fun x => (x.1, x.2.filter fun e => !(e.ctx == ctx && page ≤ va56 e.addr && va56 e.addr < page + bytes))).filter fun x => !x.2.isEmpty }

/-- Removes a page's cached translations of a context, those that a word has obtained and not yet been checked with among them (R337). -/
def State.forgetPages (s : State) (ctx page bytes : Nat) : State :=
  let keep (e : TlbEntry) : Bool := !(e.ctx == ctx && e.page < page + bytes && page < e.page + 2 ^ e.bits)
  let core (c : Core) : Core := (if c.crew.any fun w => w.ctx == ctx then c.dropGot (Walked.stale keep page bytes) else c).purge keep ctx page bytes
  { s with
    core := core s.core
    others := s.others.map core
    quads := (s.quads.map fun q => (q.1, q.2.filter keep)).filter fun q => !q.2.isEmpty
    dies := s.dies.map fun d => (d.1, { d.2 with pwc := d.2.pwc.filter fun p =>
      let sh := if p.level = 3 then 21 else if p.level = 2 then 30 else 43
      !(p.ctx == ctx && p.tag * 2 ^ sh < page + bytes && page < (p.tag + 1) * 2 ^ sh) }) }

/-- Moves one page to a run of free pages: contents, leaf entry, translations, and the page left joins its tier's list. -/
def State.movePage (s : State) (ctx va pa b tier dst : Nat) : State :=
  let n := 2 ^ (b - 16)
  let leaf := (lastLeaf s ctx va).map fun e => (e.1, s.memNat e.1 8)
  let bytes := s.mem.filter fun c => pa ≤ c.1 && c.1 < pa + 2 ^ b
  let s : State := { s with mem := s.mem.filter (fun c => c.1 < dst) ++ bytes.map (fun c => (dst + (c.1 - pa), c.2)) ++ s.mem.filter fun c => dst + 2 ^ b ≤ c.1 }
  let s := match leaf with
    | none => s
    | some (a, raw) => s.setMemBytes a (toBytes 8 (raw - bits raw 51 8 * 256 + dst))
  let s : State := { s with health := s.health.setFree (tier == 1) ((s.health.free (tier == 1)).drop n),
                            core := s.core.pageMoved pa b dst, others := s.others.map (Core.pageMoved pa b dst) }
  let fn := match s.ctx? ctx with | some c => c.fn | none => 0
  let s := s.forgetPages ctx va (2 ^ b)
  (if fn = 0 then s else s.forgetPlace fn pa b).addFree (Config.secondTier pa) pa n

/-- MIGRATION_PAGE_MOVE (R119, R424): the next page of the oldest migration; with no room in the target tier it stays, with a record of KIND 6. A page that
lies in the target tier already moves as any other, to a free page of that tier (log entry 119). -/
def execMigrationPageMove (s : State) : Host.Outcome State Fault Refusal :=
  match s.core.copies.find? (fun k => !k.pages.isEmpty), s.core.crew with
  | some k, some w =>
    match k.pages with
    | [] => .next s
    | (va, pa, b) :: l =>
      let s1 := s.mapCore fun c => { c with copies := c.copies.map fun x => if x = k then { x with pages := l } else x }
      match targetRun (s.health.free (k.tier == 1)) (2 ^ (b - 16)) with
      | none => .next (s1.logEvent 6 (if k.tier = 1 then 3 else 2) w.ctx 0 pa)
      | some dst => .next (s1.movePage w.ctx va pa b k.tier dst)
  | _, _ => .next s

end Sys2Proof.Machine
end

