-- ==== Sys2Proof/Machine/Health.lean ====
section
/-!
DEFINITION. Units taken out of service and the reasons for replacement (R408, R421, R423).
-/
namespace Sys2Proof.Machine

/-- Working cores, quads with four of them, and ports in service (R408). -/
def State.workingCores (s : State) : Nat := Config.cores - (s.cores.filter (·.out)).length
def State.wholeQuads (s : State) : Nat := 96 - ((s.cores.filter (·.out)).map fun c => quadOf c.id).eraseDups.length
def State.portsUp (s : State) : Nat := (s.net.ports.filter (·.2.service)).length

/-- Adds reasons to WHY and sets REQ (R423); a change raises vector 5 (R408). -/
def State.replace (s : State) (why : Nat) : State :=
  let n := s.health.why ||| why ||| (if why = 0 then 0 else 1)
  if n = s.health.why then s else ({ s with health := { s.health with why := n } }).interrupt 0 5

def State.setHealth (s : State) (h : Health) : State := { s with health := h }

/-- Moves to a stage; 2, 6 and 0xFF raise vector 5 (R408). -/
def State.toStage (s : State) (n : Nat) : State :=
  let t := s.setHealth { s.health with stage := n, since := s.podtime }
  if (n = 2 ∨ n = 6 ∨ n = 0xFF) ∧ n ≠ s.health.stage then t.interrupt 0 5 else t

/-- The reasons that the count of units in service gives (R423); ports count once the host is admitted. -/
def State.countReasons (s : State) : State :=
  s.replace ((if s.health.otp.killed then 64 else 0) + (if s.workingCores < 372 then 2 else 0) + (if s.health.outs.any fun o => match o with | .die _ => true | _ => false then 4 else 0) +
    (if s.health.outs.any fun o => match o with | .group _ | .package _ => true | _ => false then 8 else 0) +
    (if s.health.stage = 6 ∧ s.portsUp < 28 then 16 else 0) + (if 64 < s.health.drive.retired.length then 128 else 0))

/-- The cores of a unit. -/
def Out.cores : Out → List Nat
  | .core k => [k]
  | .quad q => (List.range 4).map (4 * q + ·)
  | .die d => (List.range 96).map (96 * d + ·)
  | _ => []

/-- UNIT and LOC of a log record about a unit (R422). -/
def Out.unit : Out → Nat
  | .core _ => 1 | .quad _ => 6 | .die _ => 7 | .link _ => 5 | .group _ => 2 | .package _ => 3

def Out.loc : Out → Nat
  | .core k => mkDest Config.pkgpos k
  | .quad q => mkDest Config.pkgpos (4 * q)
  | .die d => mkDest Config.pkgpos (96 * d)
  | .link p => p
  | .group g => 4 * g
  | .package n => 48 + n

/-- Takes a unit out of service: its cores are never free, its port carries nothing (R306, R369, R421). -/
def State.takeOut (s : State) (o : Out) : State :=
  let s := o.cores.foldl (fun s k => s.putCore { s.coreAt k with out := true }) s
  match o with
  | .link p =>
    let x := Tab.get Port.reset s.net.ports p
    { s with net := { s.net with ports := Tab.set Port.reset s.net.ports p { x with service := false, out := [], ahead := [] } } }
  | _ => s

/-- The host is admitted once every port is in service or mapped out (R416). -/
def State.admitWhenReady (s : State) : State :=
  if s.health.stage = 5 ∧ (List.range 32).all fun p => (Tab.get Port.reset s.net.ports p).service || s.health.outs.contains (.link p) then
    (s.toStage 6).countReasons
  else s

/-- Maps a unit out: now, and on the drive for every later boot, with a record of KIND 3 (R421); the last port admits the host. -/
def State.mapOutAt (s : State) (o : Out) (loc : Nat) : State :=
  if s.health.outs.contains o then s else
  let s := s.takeOut o
  let h := s.health
  let s : State := { s with health := { h with outs := h.outs ++ [o], drive := { h.drive with outs := h.drive.outs ++ [o] } } }
  (s.logEvent 3 o.unit 0 loc 0).countReasons.admitWhenReady

def State.mapOut (s : State) (o : Out) : State := s.mapOutAt o o.loc

end Sys2Proof.Machine
end

