-- ==== Sys2Proof/Machine/Router.lean ====
section
/-!
DEFINITION. The hub router (R366 to R373): packets received, delivered, captured and advanced; gang markers (R397, R398, R405); ready and abort messages
of collectives (R385, R389); a link that fails (R369).
-/
namespace Sys2Proof.Machine

def State.port (s : State) (p : Nat) : Port := Tab.get Port.reset s.net.ports p

def State.setPort (s : State) (p : Nat) (x : Port) : State := { s with net := { s.net with ports := Tab.set Port.reset s.net.ports p x } }

/-- Acknowledges a packet's transfer to its source (R374). -/
def ackPacket (s : State) (p : Packet) (status : Nat) : State :=
  if (routePort s p.tag (destPkg p.src)).isNone then s else
  sendPacket s { Packet.blank p.tag 4 5 p.src p.dest with ctag := p.ctag, status := status, last := true }

/-! ## Ready and abort messages (R385, R389) -/

/-- The package that a ready message comes from. -/
def ReadyMsg.pkg (r : ReadyMsg) : Nat := destPkg r.packet.src

/-- Whether a collective waits for a ready message of this TAG and sender. -/
def Coll.awaits (k : Coll) (ctag pkg : Nat) : Bool :=
  k.tag == ctag && k.status == 0 && !(k.ready.any fun r => r.pkg == pkg) && match k.ex? with | some x => x.receivers.contains pkg | none => false

/-- A ready message arrives: matched to the first collective of its job and TAG that waits for its sender, held, or, with the hold full, sent back (R385); one of a job that is being
switched out is captured at the hold's port (R395, R398). -/
def takeReady (s : State) (p : Packet) : State :=
  if s.switchingTag p.tag then s.capture 33 p else
  let r : ReadyMsg := ⟨s.net.nextXfer, p⟩
  let s : State := { s with net := { s.net with nextXfer := s.net.nextXfer + 1 } }
  match (s.cores.filter fun c => coreTag s c.id == p.tag).find? fun c => c.colls.any fun k => k.awaits p.ctag r.pkg with
  | some c =>
    match c.colls.find? fun k => k.awaits p.ctag r.pkg with
    | some k => s.putCore { c with colls := c.colls.map fun j => if j = k then { j with ready := j.ready ++ [r] } else j }
    | none => s
  | none =>
    if (s.net.held.filter fun h => h.packet.tag == p.tag).length < 64 then { s with net := { s.net with held := s.net.held ++ [r] } }
    else if (routePort s p.tag r.pkg).isNone then s
    else sendPacket s { Packet.blank p.tag 3 5 p.src p.dest with acc := 3, ctag := p.ctag, last := true }


/-- The hold was full: the message is repeated after 10 µs (R385; log entry 25). -/
def handleFull (s : State) (p : Packet) : State :=
  (s.cores.filter fun c => coreTag s c.id == p.tag).foldl (fun s c =>
    s.putCore { c with colls := c.colls.map fun k =>
      if k.tag = p.ctag then { k with told := k.told.filter (· != destPkg p.src), retry := s.podtime + 10000 } else k }) s

/-- Whether a package is a member of a collective's group. -/
def Coll.member (k : Coll) (pkg : Nat) : Bool := match k.ex? with | some x => x.grp.contains pkg | none => false

/-- An abort message arrives for a job's collectives of a TAG whose group holds its sender (R389), one that its job's resume has put back and not yet thawed among them (R403). -/
def handleAbort (s : State) (p : Packet) : State :=
  (s.cores.filter fun c => coreTag s c.id == p.tag).foldl (fun s c =>
    (c.colls.filter fun k => k.tag == p.ctag && k.member (destPkg p.src)).foldl (fun s k => abortColl s c.id k 8) s) s

/-! ## Late packets (R405) -/

/-- A late packet: dropped, counted, logged, and the job's saved state corrupt (R405). -/
def State.late (s : State) (port : Nat) (p : Packet) (cause : Nat) : State :=
  ((s.countLate p.tag).markCorrupt p.tag cause).logFlit 5 5 0 port 0 (headerFlit p)

/-- Whether a job is parked here and no resume of it has been accepted (R405). -/
def State.parkedHere (s : State) (tag : Nat) : Bool :=
  (s.gang.parked? tag).isSome && !(s.gang.gtag == tag && (s.gang.state == 4 || s.gang.state == 5))

/-- A ready message for a job of this package (R371, R385); where the job is parked it is late, at the hold's port (R405). -/
def handleReady (s : State) (p : Packet) : State :=
  if !s.net.jobs.any (fun j => j.1 == p.tag) then s.discardPacket else
  if s.parkedHere p.tag then s.late 33 p 2 else takeReady s p

/-- READY_MESSAGE (R385); while its job is resuming and its hold's records have not entered, the sender waits (R403). -/
def execReadyMessage (p : Packet) (s : State) : Host.Outcome State Fault Refusal :=
  if p.kind = 3 ∧ p.acc = 1 ∧ ¬s.alarmed ∧ ¬(s.gang.gtag = p.tag ∧ s.gang.state = 4) then .next (handleReady s p) else .next s

/-! ## Delivery (R373, R374) -/

/-- Bytes of one element of a data packet (R115): of a collective's plain writes, its own element (R386). -/
def packetElem (s : State) (p : Packet) : Nat :=
  if p.acc = 2 then 2 else if p.acc ≠ 0 then 4 else if !p.count then 1 else
  match (s.coreAt (destCore p.dest)).colls.find? fun k => k.cdesc.recv == p.obj with
  | some k => max 1 (collWidth k.cdesc.etype)
  | none => 4

/-- The elements of a data packet, in order. -/
def packetElems (p : Packet) (n : Nat) : List Elem :=
  let es := (List.range (p.payload.length / n)).map fun k =>
    (⟨destCore p.dest, p.off + k * n, (p.payload.drop (k * n)).take n, p.acc, p.count, p.obj, p.tag, p.src, p.ctag, false, true, false⟩ : Elem)
  es.dropLast ++ (es.getLast?.map fun e => { e with last := p.last }).toList

/-- Delivers a packet whose destination is this package, when its tag is bound here (R371). -/
def deliver (s : State) (p : Packet) : State :=
  if !s.net.jobs.any (fun j => j.1 == p.tag) then s.discardPacket else
  let k := destCore p.dest
  match p.kind with
  | 1 => if delivers s k p.tag then { s with net := { s.net with elems := s.net.elems ++ packetElems p (packetElem s p) } } else ackPacket s p 5
  | 2 => if delivers s k p.tag then ackPacket (applyArrival s k p.obj) p 0 else ackPacket s p 5
  | 3 => if p.acc = 1 then handleReady s p else if p.acc = 2 then handleAbort s p else handleFull s p
  | _ => { s with net := { s.net with acks := s.net.acks ++ [⟨p.ctag, p.status⟩] } }

/-! ## Buffers (R366, R368, R372) -/

/-- Bytes of packets in a virtual channel of a port. -/
def vcBytes (l : List Packet) : Nat := (l.map recBytes).sum

/-- Whether a packet has room in its channel of an input buffer. -/
def State.bufFits (s : State) (port : Nat) (p : Packet) : Bool :=
  let l := Tab.get [] (s.port port).bufs p.vc
  vcBytes l + recBytes p ≤ 32768 && vcBytes (l.filter fun q => q.tag == p.tag) + recBytes p ≤ s.jcap p.tag

/-- Puts a packet into a channel of an input buffer. -/
def State.enterBuf (s : State) (port : Nat) (p : Packet) : State :=
  let x := s.port port
  s.setPort port { x with bufs := Tab.set [] x.bufs p.vc (Tab.get [] x.bufs p.vc ++ [p]) }

/-- The head of a channel leaves its buffer: delivered here, or, when the next router has credits for it, put on the link of its route (R368, R369). -/
def advanceHead (s : State) (port vc : Nat) : State :=
  let x := s.port port
  match Tab.get [] x.bufs vc with
  | [] => s
  | p :: l =>
    let s1 := s.setPort port { x with bufs := Tab.set [] x.bufs vc l }
    if destPkg p.dest = Config.pkgpos then deliver s1 p else
    match routePort s p.tag (destPkg p.dest) with
    | some q => if s.canEmit q p then putOut s1 q p else s
    | none => s1.discardPacket

/-- Whether the head of a channel of an input buffer can leave it. -/
def State.headMoves (s : State) (port vc : Nat) : Bool :=
  match Tab.get [] (s.port port).bufs vc with
  | [] => false
  | p :: _ => destPkg p.dest == Config.pkgpos || match routePort s p.tag (destPkg p.dest) with | some q => s.canEmit q p | none => true

/-- The router beyond an output port has freed the oldest packet of a channel: its credits return, and what waits for them goes out. -/
def State.creditBack (s : State) (port vc : Nat) : State :=
  let x := s.port port
  (s.setPort port { x with ahead := match x.ahead.find? fun a => a.1 == vc with | some a => x.ahead.erase a | none => x.ahead }).flush

/-- PACKET_ADVANCE (R368): for a port below 32, the head of a channel of its input buffer advances; for 32 + q, credits of a channel return from the router beyond output port q. -/
def execPacketAdvance (port vc : Nat) (s : State) : Host.Outcome State Fault Refusal :=
  .next (if port < 32 then advanceHead s port vc else s.creditBack (port - 32) vc)

/-! ## Gang markers and late packets (R397, R398, R405) -/

/-- A gang marker arrives on an input link (R398, R405). -/
def markerArrives (s : State) (port : Nat) (p : Packet) : State :=
  let g := s.gang
  if g.gtag = p.tag ∧ g.state = 2 then
    if g.ended.contains port then s.late port p 1
    else if p.off ≠ g.at_ ∨ !bareMarker p then s.late port p 5
    else { s with gang := { g with marked := g.marked ++ [port], ended := g.ended ++ [port] } }
  else if (g.parked? p.tag).isSome then s.late port p (if g.gtag = p.tag ∧ (g.state = 4 ∨ g.state = 5) then 5 else 2)
  else if g.gtag = p.tag ∧ g.state = 1 then s.late port p 5
  else s.discardPacket

/-- GANG_MARKER_ARRIVAL (R398). -/
def execGangMarkerArrival (port : Nat) (p : Packet) (s : State) : Host.Outcome State Fault Refusal :=
  if p.kind = 5 ∧ ¬s.alarmed then .next (markerArrives s port p) else .next s

/-! ## Reception (R367, R398, R403, R405) -/

/-- Whether a port accepts no packet of this tag because the job is resuming (R403). -/
def State.holdsBack (s : State) (port tag : Nat) : Bool :=
  s.gang.gtag == tag && (s.gang.state == 4 || s.gang.state == 5 && !(Tab.get [] s.gang.enter port).isEmpty)

/-- More than 8 exhausted retransmissions in one hour map a link out (R421). -/
def State.exhausted (s : State) (port : Nat) : State :=
  let l := (s.health.retrans.filter fun x => s.podtime < x.2 + 3600000000000) ++ [(port, s.podtime)]
  let s : State := { s with health := { s.health with retrans := l } }
  if 8 < (l.filter fun x => x.1 == port).length then s.mapOut (.link port) else s

/-- PACKET_RECEIVE (R367): `badCrcs` transmissions of the packet failed their CRC. -/
def execPacketReceive (port : Nat) (p : Packet) (badCrcs : Nat) (s : State) : Host.Outcome State Fault Refusal :=
  if 32 ≤ port ∨ (s.port port).service = false ∨ s.alarmed then .next s else
  if 8 < badCrcs then .next (s.discardPacket.exhausted port) else
  if p.kind = 0 ∨ 5 < p.kind ∨ p.reservedSet ∨ 4096 < p.payload.length then .next s.discardPacket else
  if p.kind = 5 then .next (markerArrives s port p) else
  if ¬s.net.jobs.any (fun j => j.1 == p.tag) then .next s.discardPacket else
  if s.switchingTag p.tag then
    if s.gang.ended.contains port then .next (s.late port p 1) else .next (s.capture port p)
  else if s.holdsBack port p.tag then .next s
  else if s.parkedHere p.tag then .next (s.late port p 2)
  else if s.bufFits port p then
    let fresh := (Tab.get [] (s.port port).bufs p.vc).isEmpty
    let s := s.enterBuf port p
    .next (if fresh ∧ destPkg p.dest = Config.pkgpos then advanceHead s port p.vc else s)
  else .next s

/-- LINK_FAILURE (R369, R421): the packets on the link are lost, the firmware maps it out, and what waits to be sent takes the routes that remain. -/
def execLinkFailure (p : Nat) (s : State) : Host.Outcome State Fault Refusal :=
  if 32 ≤ p then .next s else .next (s.mapOut (.link p)).flush

end Sys2Proof.Machine
end

