-- ==== Sys2Proof/Machine/Collective.lean ====
section
/-!
DEFINITION. The collective unit (R97, R98, R378 to R391): COLL and RLINV, acceptance, steps, completion, aborts; and the jobs' binding (R370, R371).
-/
namespace Sys2Proof.Machine

/-! ## COLL (R97, R383) -/

/-- Checks one pointer of COLL: global or crew-private window, aligned on 64, then `n` readable bytes. -/
def collPtr (s : State) (ptr : Word) (n : Nat) : Chk Places :=
  match window ptr with
  | .global _ => go
  | .priv _ => go
  | _ => .bad 0x03 0 ptr
where
  /-- Alignment, then each byte. -/
  go : Chk Places :=
    if ptr.toNat % 64 ≠ 0 then .bad 0x04 0 (match window ptr with | .global va => BitVec.ofNat 64 va | _ => ptr) else
    (Chk.each (checkByte s (s.eng .S).got .read ptr false) ((List.range n).map fun k => ptr + BitVec.ofNat 64 k)).bind fun _ => .ok {}

/-- COLL (R383): once every older word has completed and its writes have performed, the pointers are checked, descriptor first, and the descriptor waits for the unit. -/
def execColl (y : Sync) (d a : BitVec 5) (s : State) : Host.Outcome State Fault Refusal :=
  issueY .S y (fun p s =>
    if ¬s.doneTo p ∨ s.crewSends p then .stall scOther false s else
    let x := s.x .S d.toNat
    let l := s.x .S a.toNat
    afterCheck .S (ordOf 0) s ((collPtr s x 64).bind fun _ => collPtr s l 16) fun _ s =>
      if 16 ≤ s.core.colls.length ∨ s.core.collAsk.isSome then .stall scNet false s else
      .fly (s.mapCore fun c => { c with collAsk := some ⟨p, x.toNat, l.toNat⟩ }) .fall) s

/-- RLINV (R98): after every older COLL has been accepted; one slot or all. -/
def execRlinv (y : Sync) (slot : Option (BitVec 3)) (s : State) : Host.Outcome State Fault Refusal :=
  issueY .S y (fun p s =>
    if s.core.collAsk.isSome then .stall scNet false s else
    whenOlder .S p s fun s =>
      .done (s.mapCore fun c => { c with ranks := match slot with | none => [] | some k => c.ranks.filter fun r => r.1 != k.toNat }) .fall) s

/-! ## Acceptance (R379, R382, R383, R385) -/

/-- Bytes that the unit reads through a pointer of the focus core's crew; `none` where one cannot be read. -/
def ptrRead (s : State) (ptr n : Nat) : Option (List Byte) :=
  match s.core.crew with
  | none => none
  | some w => (List.range n).mapM fun k =>
      match window (BitVec.ofNat 64 (ptr + k)) with
      | .global va => (ctxPa s w.ctx va false).map s.memByte
      | .priv off => if off < w.segSize then (ctxPa s w.ctx ((w.segBase + off) % 2 ^ 56) false).map s.memByte else none
      | _ => none

/-- A rank-list cache slot as the state holds it: address, context, NAXES, extents, entries. -/
def rankSlot (addr ctx : Nat) (ext ents : List Nat) : List Nat := [addr, ctx, ext.length] ++ ext ++ ents

/-- Entries of a filled slot. -/
def slotEnts (l : List Nat) : List Nat := l.drop (3 + l.getD 2 0)

/-- Fills a slot: other slots go in ascending order until at most 16,384 entries remain (R379). -/
def fillSlot (t : Tab (List Nat)) (k : Nat) (l : List Nat) : Tab (List Nat) :=
  let others := t.filter fun r => r.1 != k
  let rec trim : Tab (List Nat) → Tab (List Nat)
    | [] => []
    | r :: rs => if 16384 < ((r :: rs).map fun x => (slotEnts x.2).length).sum + (slotEnts l).length then trim rs else r :: rs
  Tab.set [] (trim others) k l

/-- The rank list a COLL names: extents and entries, and the state with its slot filled; `none`: refused with status 3. -/
def rankList (s : State) (ptr slot : Nat) : Option (List Nat × List Nat × State) :=
  let ctx := match s.core.crew with | some w => w.ctx | none => 0
  let hit := Tab.get [] s.core.ranks slot
  if hit.take 2 = [ptr, ctx] then some ((hit.drop 3).take (hit.getD 2 0), slotEnts hit, s) else
  match (ptrRead s ptr 16).bind rankHeader with
  | none => none
  | some ext =>
    let n := listProd ext
    match ptrRead s (ptr + 16) (4 * n) with
    | none => none
    | some b =>
      let ents := (List.range n).map fun k => field b (4 * k) 4
      if ranksOk (jobPkgs s (coreTag s s.core.id)) ents then
        some (ext, ents, s.mapCore fun c => { c with ranks := fillSlot c.ranks slot (rankSlot ptr ctx ext ents) })
      else none

/-- Copies byte runs inside a core's scratchpad, in order. -/
def copyRuns (s : State) (core : Nat) (l : List (List (Nat × Nat) × List (Nat × Nat))) : State :=
  l.foldl (fun s m =>
    let c := s.coreAt core
    let offs (r : List (Nat × Nat)) : List Nat := r.flatMap fun x => (List.range x.2).map (x.1 + ·)
    s.putCore { c with scratch := Tab.setAll 0 c.scratch ((offs m.2).zip ((offs m.1).map fun o => Tab.get 0 c.scratch o)) }) s

/-- A status, when not 0, and the completion arrival to DONE (R377, R390). -/
def collEnd (s : State) (core done status : Nat) : State :=
  applyArrival (if status = 0 then s else s.setErr core done status) core done

/-- Sends the ready messages a collective still owes (R385). -/
def tellReady (s : State) (core : Nat) (k : Coll) : State :=
  match k.ex? with
  | none => s
  | some x =>
    let owed := x.senders.filter fun m => !k.told.contains m
    let r := owed.foldl (fun (t : State × List Nat) m =>
      if (routePort t.1 (coreTag t.1 core) m).isNone then t else
        (sendPacket t.1 { Packet.blank (coreTag t.1 core) 3 5 (mkDest m core) (mkDest Config.pkgpos core) with
          acc := 1, ctag := k.tag, off := x.work k.cdesc, obj := k.cdesc.recv, last := true }, t.2 ++ [m])) (s, k.told)
    let c := r.1.coreAt core
    r.1.putCore { c with colls := c.colls.map fun j => if j = k then { j with told := r.2, retry := s.podtime + 10000 } else j }

/-- Takes the oldest held ready message of this TAG from each member awaited (R385). -/
def matchHeld (s : State) (tag ctag : Nat) : List Nat → List ReadyMsg × State
  | [] => ([], s)
  | m :: ms =>
    match s.net.held.find? fun h => h.packet.tag == tag && h.packet.ctag == ctag && h.pkg == m with
    | none => matchHeld s tag ctag ms
    | some h =>
      let r := matchHeld { s with net := { s.net with held := s.net.held.erase h } } tag ctag ms
      (h :: r.1, r.2)

/-- Whether a range of home scratchpad serves as a buffer: below 0x18_0000 and outside every bound queue region (R376, code 10). -/
def bufOk (c : Core) (off n : Nat) : Bool :=
  off + n ≤ Config.scratchBytes && !c.queues.any fun q => overlap off n q.2.base (q.2.slot * q.2.depth)

/-- The focus core's crew drains for a forced pre-emption (R328). -/
def State.forcedOut (s : State) : Bool :=
  s.core.freeze.any fun f => f.cause == 0x14 || f.first.any fun x => x.cause == 0x14

/-- COLL_ACCEPT (R383): once the COLL is older than the horizon. One accepted while a forced pre-emption drains aborts with status 9 at once (R391). -/
def execCollAccept (s : State) : Host.Outcome State Fault Refusal :=
  match s.core.collAsk with
  | none => .next s
  | some a =>
    if ¬s.older .S a.pos ∨ 16 ≤ s.core.colls.length then .next s else
    let k := s.core.id
    let tag := coreTag s k
    let b := (ptrRead s a.desc 64).getD []
    let c := CDesc.of b
    let s := s.mapCore fun x => { x with collAsk := none }
    let refuse (s : State) (st : Nat) : Host.Outcome State Fault Refusal := .next ((collEnd s k c.done st).finish .S a.pos)
    match rankList s a.list c.slot with
    | none => refuse s 3
    | some (ext, ents, s) =>
      match derive c ext ents with
      | none => refuse s 2
      | some x =>
        if c.recv = c.done ∨ s.core.colls.any (fun j => [j.cdesc.recv, j.cdesc.done].any fun o => o == c.recv || o == c.done) then refuse s 2 else
        if ¬bufOk s.core c.src x.bytesA ∨ ¬bufOk s.core c.dst x.bytesB then refuse s 10 else
        let s := s.mapCore fun d => d.setObj c.recv (mkObj (objPhase (d.obj c.recv)) 0 x.expect 0)
        let s := copyRuns s k (x.before c)
        let (ready, s) := matchHeld s tag c.tag x.receivers
        let j : Coll := ⟨s.net.nextXfer, c.tag, b, a.list, ext, ents, 0, 0, [], ready, 0, 0, s.podtime, s.podtime + 10000, s.switching,
          [(c.src, x.bytesA), (c.dst, x.bytesB)], []⟩
        let s : State := { s with net := { s.net with nextXfer := s.net.nextXfer + 1 } }
        let s := s.mapCore fun d => { d with colls := d.colls ++ [j], ended := d.ended.filter fun k => k.cdesc.done != c.done }
        let s := if s.switching then s else if s.forcedOut then abortColl s k j 9 else tellReady s k j
        .next (s.finish .S a.pos)

/-! ## Steps (R386, R388) -/

/-- A collective that owes ready messages and whose time to repeat has come (R385). -/
def State.owesReady (s : State) : Option Coll :=
  s.core.colls.find? fun k => k.status == 0 && !k.frozen && k.retry ≤ s.podtime &&
    match k.ex? with | some x => x.senders.any fun m => !k.told.contains m | none => false

/-- READY_RETRY (R385). -/
def execReadyRetry (s : State) : Host.Outcome State Fault Refusal :=
  match s.owesReady with
  | none => .next s
  | some k => .next (tellReady s s.core.id k)

/-- The member that a collective may send its next piece to: heard from, and on a ring after the flip of the step before. -/
def Coll.next? (k : Coll) : Option (Ex × ReadyMsg) :=
  match k.ex? with
  | none => none
  | some x =>
    if k.status ≠ 0 ∨ k.frozen ∨ x.sends ≤ k.step ∨ (x.isRing ∧ k.flips < k.step) then none else
    (k.ready.find? fun r => r.pkg == x.target k.step).map fun r => (x, r)

/-- The packets that carry bytes to destination runs, at most 4,096 bytes each, no element split (R374). -/
def runPackets (base : Packet) (w : Nat) : List (Nat × Nat) → List Byte → List Packet
  | [], _ => []
  | (off, n) :: l, b =>
    let per := 4096 / w * w
    ((List.range ((n + per - 1) / per)).map fun k =>
      { base with off := off + k * per, payload := ((b.take n).drop (k * per)).take per }) ++ runPackets base w l (b.drop n)

/-- The bytes that a transfer sends: those of the runs, in order; of an element that the crew has written since acceptance, free values (R384). -/
def sendBytes (s : State) (c : Core) (k : Coll) (runs : List (Nat × Nat)) : List Byte :=
  let bad := k.spoiled
  (runs.flatMap fun u => (List.range u.2).map (u.1 + ·)).zipIdx.map fun o =>
    if bad.contains o.1 then (Config.freeValue (s.free + o.2)).setWidth 8 else Tab.get 0 c.scratch o.1

/-- Starts a collective's next transfer toward a member (R374, R386). -/
def sendPiece (s : State) (core : Nat) (k : Coll) (x : Ex) (r : ReadyMsg) : State :=
  let tag := coreTag s core
  if (routePort s tag r.pkg).isNone then abortColl s core k 4 else
  let c := s.coreAt core
  let t := x.transfer k.cdesc k.step
  let bytes := sendBytes s c k t.1
  let id := s.net.nextXfer
  let base := { Packet.blank tag 1 (dataVc s tag r.pkg) r.packet.src (mkDest Config.pkgpos core) with acc := t.2.2, count := true, obj := r.packet.obj, ctag := id }
  let ps := runPackets base x.w (t.2.1.map fun u => (r.packet.off + u.1, u.2)) bytes
  let ps := ps.dropLast ++ (ps.getLast?.map fun p => { p with last := true }).toList
  let s := s.putCore { c with colls := c.colls.map fun j => if j = k then { j with step := j.step + 1, sent := j.sent + 1, since := s.podtime } else j }
  let s : State := { s with free := s.free + (if k.dirty = [] then 0 else bytes.length), net := { s.net with
    xfers := s.net.xfers ++ [⟨id, core, tag, r.packet.src, r.packet.obj, none, none, some k.id, s.podtime⟩], nextXfer := id + 1 } }
  ps.foldl sendPacket s

/-- The first collective of the focus core that can send. -/
def State.collSends (s : State) : Option (Coll × Ex × ReadyMsg) :=
  s.core.colls.findSome? fun k => k.next?.map fun r => (k, r)

/-- COLL_STEP (R386, R388). -/
def execCollStep (s : State) : Host.Outcome State Fault Refusal :=
  match s.collSends with
  | none => .next s
  | some (k, x, r) => .next (sendPiece s s.core.id k x r)

/-! ## Ends (R389, R390) -/

/-- Whether a collective is at its end: its transfers have ended and, unless it was aborted, every element has come. -/
def Coll.over (k : Coll) : Bool :=
  !k.frozen && k.sent == 0 &&
    match k.ex? with
    | none => true
    | some x => k.status != 0 || (x.sends ≤ k.step && x.waits ≤ k.flips)

/-- Whether elements of a collective have reached this package for core `k` and wait to be applied (R390). -/
def State.collElems (s : State) (core : Nat) (k : Coll) : Bool :=
  s.net.elems.any (fun e => e.core == core && e.count && e.obj == k.cdesc.recv) ||
    s.net.ports.any fun p => p.2.bufs.any fun b => b.2.any fun q => q.kind == 1 && q.count && q.obj == k.cdesc.recv && q.dest == mkDest Config.pkgpos core

/-- The first collective of the focus core that is at its end. -/
def State.collOver (s : State) : Option Coll := s.core.colls.find? fun k => k.over && !s.collElems s.core.id k

/-- What a collective leaves in its core's scratchpad at its end: its last local copy, and free values where its elements are undefined (R384, R386, R389). -/
def collLeaves (s : State) (core : Nat) (k : Coll) : State :=
  if k.status ≠ 0 then s.fill core (k.spoiled ++ k.aborted) else
  let s := s.fill core k.spoiled
  match k.ex? with
  | some x =>
    let last := x.after k.cdesc
    if last = [] then s else
    let s := copyRuns s core last
    s.fill core (k.spoiled.filter fun o => k.cdesc.dst ≤ o && o < k.cdesc.dst + x.bytesB)
  | none => s

/-- COLL_COMPLETION_ARRIVAL (R390). -/
def execCollCompletionArrival (s : State) : Host.Outcome State Fault Refusal :=
  match s.collOver with
  | none => .next s
  | some k =>
    let s2 := (collLeaves s s.core.id k).mapCore fun c => { c with colls := c.colls.erase k, ended := c.ended ++ [{ k with dirty := [] }] }
    .next (collEnd s2 s.core.id k.cdesc.done k.status)

/-- COLL_ABORT (R389): an abort for the focus core's collective of a TAG. -/
def execCollAbort (tag : Nat) (s : State) : Host.Outcome State Fault Refusal :=
  match s.core.colls.find? fun k => k.tag == tag && !k.frozen with
  | none => .next s
  | some k => .next (abortColl s s.core.id k 8)

/-- Whether a collective waits for a ready message or for a flip; else it waits for acknowledgements alone. -/
def Coll.waiting (k : Coll) : Bool :=
  match k.ex? with
  | none => false
  | some x => k.step < x.sends || k.flips < x.waits

/-- A collective of the focus core one of whose waits, for a ready message, a flip or an acknowledgement, has lasted 50 ms (R389). -/
def State.collLate (s : State) : Option Coll :=
  if s.timersStop (coreTag s s.core.id) then none else s.core.colls.find? fun k => k.status == 0 && !k.frozen &&
    (k.waiting && k.since + 50000000 ≤ s.podtime || s.net.xfers.any fun x => x.coll == some k.id && x.core == s.core.id && x.since + 50000000 ≤ s.podtime)

/-- COLL_STEP_TIMEOUT (R389). -/
def execCollStepTimeout (s : State) : Host.Outcome State Fault Refusal :=
  match s.collLate with
  | none => .next s
  | some k => .next (abortColl s s.core.id k 7)

/-! ## Jobs (R370, R371) -/

/-- Ends a command of the job registers. -/
def State.jobResult (s : State) (r : Nat) : State := { s with net := { s.net with jresult := r } }

/-- The packages of a job's bitmap of 1 KiB in physical memory. -/
def bitmapPkgs (s : State) (a : Nat) : List Nat :=
  (s.mem.filter fun c => a ≤ c.1 && c.1 < a + 1024).flatMap fun c =>
    (List.range 8).filterMap fun b => if c.2.getLsbD b then some (8 * (c.1 - a) + b) else none

/-- BIND (R370, R371): OP 1 of JCMD. -/
def execBind (v : Word) (s : State) : Host.Outcome State Fault Refusal :=
  let n := v.toNat
  let ctx := bits n 43 32
  let tag := bits n 15 0
  let a := s.net.jarg.toNat
  if ¬s.admitted ∨ ¬v.getLsbD 63 ∨ bits n 55 52 ≠ 1 then .next s else
  let s := { s with net := { s.net with jcmd := BitVec.ofNat 64 (bits n 55 52 * 2 ^ 52 + ctx * 2 ^ 32 + tag) } }
  match s.ctx? ctx with
  | none => .next (s.jobResult 0x01)
  | some x =>
    if tag = 0 then .next (s.jobResult 0x01) else
    let set := bitmapPkgs s a
    if a % 64 ≠ 0 ∨ 2 ^ 52 < a + 1024 ∨ ¬set.contains Config.pkgpos then .next (s.jobResult 0x02) else
    if x.job ≠ 0 then .next (s.jobResult 0x03) else
    match s.net.jobs.find? fun j => j.1 == tag with
    | some j =>
      if j.2.pkgs = set then .next ((s.putCtx ctx { x with job := tag }).jobResult 0) else .next (s.jobResult 0x04)
    | none =>
      let s := s.putCtx ctx { x with job := tag }
      .next (({ s with net := { s.net with jobs := s.net.jobs ++ [(tag, ⟨set, 16384⟩)] } } : State).jobResult 0)

/-- UNBIND (R370, R371): OP 2 of JCMD. -/
def execUnbind (v : Word) (s : State) : Host.Outcome State Fault Refusal :=
  let n := v.toNat
  let ctx := bits n 43 32
  if ¬s.admitted ∨ ¬v.getLsbD 63 ∨ bits n 55 52 ≠ 2 then .next s else
  let s := { s with net := { s.net with jcmd := BitVec.ofNat 64 (bits n 55 52 * 2 ^ 52 + ctx * 2 ^ 32 + bits n 15 0) } }
  match s.ctx? ctx with
  | none => .next (s.jobResult 0x01)
  | some x =>
    if bits n 15 0 = 0 then .next (s.jobResult 0x01) else
    if x.job = 0 then .next (s.jobResult 0x05) else
    .next (((s.putCtx ctx { x with job := 0 }).dropJob x.job).jobResult 0)

end Sys2Proof.Machine
end

