-- ==== Sys2Proof/Machine/Sched.lean ====
section
/-!
DEFINITION. The command queues and the front end (R297 to R303, R309, R312, R314), the scheduler (R304 to R313) and pre-emption (R327, R328).
-/
namespace Sys2Proof.Machine

/-! ## Queue registers (R297, R298) -/

def Func.queue (f : Func) (q : Nat) : CmdQueue := Tab.get CmdQueue.reset f.queues q

def State.queue (s : State) (fn q : Nat) : CmdQueue := (s.func fn).queue q

def State.setQueue (s : State) (fn q : Nat) (x : CmdQueue) : State :=
  let f := s.func fn
  s.setFunc fn { f with queues := Tab.set CmdQueue.reset f.queues q x }

/-- Whether a register of queue `q` of a function exists and answers. -/
def State.queueReg (s : State) (fn q : Nat) : Bool := s.admitted && fn < 33 && q < 16

/-- QCFG_WRITE (R297). -/
def execQcfgWrite (fn q : Nat) (v : Word) (s : State) : Host.Outcome State Fault Refusal :=
  if ¬s.queueReg fn q then .next s else
  let x := s.queue fn q
  let n := v.toNat
  if x.en then
    .next (if n.testBit 63 then s else
      let s := s.setQueue fn q { x with en := false }
      { s with hub := { s.hub with current := s.hub.current.filter fun t => !(t.fn == fn && t.q == q) } }) else
  let y := { x with
    logsz := if bits n 55 52 < 4 then 4 else bits n 55 52
    ctx := bits n 43 32
    proc := bits n 31 16
    pcap := bits n 1 0 }
  .next (s.setQueue fn q (if n.testBit 63 then
    { y with en := true, head := 0, tail := 0, halt := false, err := 0, busy := none, pipe := [], pipeN := 0, pipeAt := 0, pipeId := 0, pipePrio := 0, pipeRecv := 0, pipeLast := 0 } else y))

/-- QBASE_WRITE (R297). -/
def execQbaseWrite (fn q : Nat) (v : Word) (s : State) : Host.Outcome State Fault Refusal :=
  if ¬s.queueReg fn q ∨ (s.queue fn q).en then .next s else
  .next (s.setQueue fn q { s.queue fn q with base := bits v.toNat 55 12 * 4096 })

/-! ## Containment (R314) -/

/-- A queue stops with an error; all but code 0x20 contain the queue's process. -/
def State.queueError (s : State) (fn q err : Nat) : State :=
  let x := s.queue fn q
  let s : State := { s with hub := { s.hub with current := s.hub.current.filter fun t => !(t.fn == fn && t.q == q) } }
  if err = 0x20 then s.setQueue fn q { x with halt := true, err := err, busy := none } else
  let mine := (List.range 16).filter fun k => (s.queue fn k).proc == x.proc
  let used := (s.hub.launches.filter fun l => l.fn == fn && l.proc == x.proc).map (·.ctx)
  let ctxs := (((mine.filter fun k => (s.queue fn k).en).map fun k => (s.queue fn k).ctx) ++ used).eraseDups.filter fun k =>
    match s.ctx? k with | some c => c.fn == fn | none => false
  let s := ctxs.foldl State.teardown s
  let s := mine.foldl (fun s k => s.setQueue fn k { s.queue fn k with halt := true, err := if k = q then err else 0, busy := none }) s
  let s : State := { s with hub := { s.hub with current := s.hub.current.filter fun t => !(t.fn == fn && mine.contains t.q) } }
  s.interrupt fn 1

/-- DOORBELL (R298). One beyond the ring stops the queue and leaves TAIL as it was (log entry 127). -/
def execDoorbell (fn q : Nat) (v : Word) (s : State) : Host.Outcome State Fault Refusal :=
  let x := s.queue fn q
  if ¬s.queueReg fn q ∨ ¬x.en ∨ x.halt then .next s else
  let tail : BitVec 32 := v.setWidth 32
  if 2 ^ x.logsz < (tail - x.head).toNat then .next (s.queueError fn q 0x01) else .next (s.setQueue fn q { x with tail := tail })

/-! ## Taking commands (R299 to R301) -/

/-- The context of a queue, when it is one of the function's. -/
def State.queueCtx (s : State) (fn : Nat) (x : CmdQueue) : Option Ctx := (s.ctx? x.ctx).filter fun c => c.fn == fn

/-- The next slot of a queue's ring. -/
def State.slotBytes (s : State) (x : CmdQueue) : Option (List Byte) := ctxRead s x.ctx (x.base + x.head.toNat % 2 ^ x.logsz * 128) 128

/-- Whether the front end may take the next command of a queue: a LAUNCH waits for a launch record, a PIPE for its launches (R312, R320). -/
def State.takeable (s : State) (fn : Nat) (x : CmdQueue) : Bool :=
  x.en && !x.halt && !(s.func fn).susp && x.busy.isNone && x.head != x.tail &&
    match s.queueCtx fn x, s.slotBytes x with
    | some _, some b =>
      if field b 0 1 = 1 then (s.hub.launches.filter fun l => l.ctx == x.ctx).length < 48
      else if field b 0 1 = 4 ∧ 2 ≤ field b 1 1 ∧ field b 1 1 ≤ 8 then field b 1 1 < (x.tail - x.head).toNat
      else true
    | _, _ => true

/-- The queue served next: the first after the one served last, by function and then queue. -/
def State.nextQueue (s : State) : Option (Nat × Nat) :=
  let order := (List.range (33 * 16)).map fun k => (s.hub.rr + k) % (33 * 16)
  (order.find? fun k => s.takeable (k / 16) (s.queue (k / 16) (k % 16))).map fun k => (k / 16, k % 16)

/-- Whether the bytes of a list outside the ranges given (first, count) are all zero. -/
def zeroBut (b : List Byte) (l : List (Nat × Nat)) : Bool :=
  b.zipIdx.all fun x => x.1 == 0 || l.any fun r => r.1 ≤ x.2 && x.2 < r.1 + r.2

/-- Whether a command sets a reserved bit (R300, R302). -/
def commandReserved (b : List Byte) : Bool :=
  match field b 0 1 with
  | 0 => !zeroBut b [(0, 1)]
  | 1 => 32 ≤ field b 1 1 || 4 ≤ field b 2 1 || 16 ≤ field b 38 1 || field b 60 4 != 0 || field b 80 48 != 0
  | 2 => !zeroBut b [(0, 2), (64, 16)] || field b 1 1 &&& 0xF3 != 0
  | 3 => !zeroBut b [(0, 1), (8, 16)]
  | _ => !zeroBut b [(0, 2), (8, if 2 ≤ field b 1 1 ∧ field b 1 1 ≤ 8 then 8 * (field b 1 1 - 1) else 56)]

/-- FRONT_END_CONSUME (R299): the next command of the next queue is read and its operation and reserved bits checked. -/
def execFrontEndConsume (s : State) : Host.Outcome State Fault Refusal :=
  if s.hub.current.isSome then .next s else
  match s.nextQueue with
  | none => .next s
  | some (fn, q) =>
    let x := s.queue fn q
    let s : State := { s with hub := { s.hub with rr := (16 * fn + q + 1) % (33 * 16) } }
    match s.queueCtx fn x with
    | none => .next (s.queueError fn q 0x14)
    | some _ =>
      match s.slotBytes x with
      | none => .next (s.queueError fn q 0x02)
      | some b =>
        if 4 < field b 0 1 then .next (s.queueError fn q 0x10) else
        if commandReserved b then .next (s.queueError fn q 0x11) else
        .next { s with hub := { s.hub with current := some ⟨fn, q, b⟩ } }

/-- The command taken, when it has this operation and its queue still runs; a queue disabled meanwhile drops it. -/
def State.taken (s : State) (op : Nat) : Option (Taken × CmdQueue) :=
  match s.hub.current with
  | none => none
  | some t => if field t.bytes 0 1 = op then some (t, s.queue t.fn t.q) else none

/-- The command in hand leaves the front end. -/
def State.dropCurrent (s : State) : State := { s with hub := { s.hub with current := none } }

/-- The command in hand is consumed (R299). -/
def State.consume (s : State) (t : Taken) : State :=
  let x := s.queue t.fn t.q
  (s.setQueue t.fn t.q { x with head := x.head + 1, busy := none }).dropCurrent

/-- Carries out the command taken of one operation. -/
def withCommand (op : Nat) (s : State) (f : Taken → CmdQueue → State → State) : Host.Outcome State Fault Refusal :=
  match s.taken op with
  | none => .next s
  | some (t, x) =>
    if ¬x.en ∨ x.halt ∨ (s.func t.fn).susp then .next s.dropCurrent else .next (f t x s)

/-- A command other than the LAUNCH that a pipeline expects breaks its sequence (R312). -/
def inSequence (t : Taken) (x : CmdQueue) (s : State) (k : State) : State := if 0 < x.pipeN then s.queueError t.fn t.q 0x18 else k

/-- NOP_COMMAND (R300). -/
def execNopCommand (s : State) : Host.Outcome State Fault Refusal := withCommand 0 s fun t x s => inSequence t x s (s.consume t)

/-- DRAIN (R300): the queue holds until every earlier command has completed. -/
def execDrain (s : State) : Host.Outcome State Fault Refusal :=
  withCommand 2 s fun t x s =>
    if (field t.bytes 1 1).testBit 2 ∧ field t.bytes 64 8 % 8 ≠ 0 then s.queueError t.fn t.q 0x15 else
    inSequence t x s <| (s.setQueue t.fn t.q { x with busy := some t.bytes }).dropCurrent

/-- Whether a queue's DRAIN may complete. -/
def State.drainDone (s : State) (fn q : Nat) : Bool :=
  (match (s.queue fn q).busy with | some b => field b 0 1 == 2 | none => false) && !s.hub.launches.any fun l => l.fn == fn && l.queue == q

/-- A held command of a queue ends (R299). -/
def State.endBusy (s : State) (fn q : Nat) : State :=
  let x := s.queue fn q
  s.setQueue fn q { x with head := x.head + 1, busy := none }

/-- DRAIN_COMPLETION (R300, R309). -/
def execDrainCompletion (fn q : Nat) (s : State) : Host.Outcome State Fault Refusal :=
  match (s.queue fn q).busy with
  | none => .next s
  | some b =>
    if s.drainDone fn q ∧ (s.queue fn q).en ∧ ¬(s.func fn).susp then .next ((s.complete fn (s.queue fn q).ctx b).endBusy fn q) else .next s

/-- WAITMEM (R300): the queue holds until the doubleword reaches VAL. -/
def execWaitmem (s : State) : Host.Outcome State Fault Refusal :=
  withCommand 3 s fun t x s =>
    let a := field t.bytes 8 8
    if a % 8 ≠ 0 ∨ (ctxRead s x.ctx a 8).isNone then s.queueError t.fn t.q 0x15 else
    inSequence t x s <| (s.setQueue t.fn t.q { x with busy := some t.bytes }).dropCurrent

/-- WAITMEM_POLL (R300): the doubleword is read as an acquire. -/
def execWaitmemPoll (fn q : Nat) (s : State) : Host.Outcome State Fault Refusal :=
  let x := s.queue fn q
  match x.busy with
  | none => .next s
  | some b =>
    if field b 0 1 ≠ 3 ∨ ¬x.en ∨ (s.func fn).susp then .next s else
    match ctxRead s x.ctx (field b 8 8) 8 with
    | none => .next (s.queueError fn q 0x15)
    | some d => if field b 16 8 ≤ ofBytes d then .next (s.endBusy fn q) else .next s

/-! ## PIPE and LAUNCH (R302, R303, R311, R312) -/

/-- A stage-queue header in a context: occupancy and depth (R311). -/
def stageQueue (s : State) (ctx : Nat) (a : Word) : Option (Nat × Nat) :=
  if a.toNat % 64 ≠ 0 then none else
  (ctxRead s ctx a.toNat 20).map fun b =>
    let d := max 1 (field b 16 4)
    (min ((field b 8 8 + 2 ^ 64 - field b 0 8) % 2 ^ 64) d, d)

/-- PIPE (R312): the launches that follow it form a pipeline. -/
def execPipe (s : State) : Host.Outcome State Fault Refusal :=
  withCommand 4 s fun t x s =>
    let n := field t.bytes 1 1
    if 0 < x.pipeN ∨ n < 2 ∨ 8 < n then s.queueError t.fn t.q 0x18 else
    let jq := (List.range (n - 1)).map fun k => BitVec.ofNat 64 (field t.bytes (8 + 8 * k) 8)
    if jq.any (fun a => (stageQueue s x.ctx a).isNone) then s.queueError t.fn t.q 0x19 else
    (s.setQueue t.fn t.q { x with pipe := jq, pipeN := n, pipeAt := 0, pipeId := 0, pipePrio := 0 }).consume t

/-- The validated slice-set descriptor at an address of a context. -/
def Ctx.set? (x : Ctx) (a : Nat) : Option SliceSet := (x.objs.flatMap (·.sets)).find? fun d => d.addr == a

/-- The initial token counts of a launch (R302, R303); `none` where an override breaks R254's checks 3 and 6. -/
def launchTokens (d : SliceSet) (b : List Byte) : Option (List Nat) :=
  if ¬(field b 1 1).testBit 0 then some d.tokInit else
  let given (k : Nat) : Bool := (field b 36 3).testBit k
  let tok := (List.range 20).map fun k => if given k then field b (40 + k) 1 else d.tokInit.getD k 0
  if (List.range 20).any (fun k => given k && 63 < tok.getD k 0) then none else
  if d.queues.any fun q =>
      let fw := pairIdx q.1 q.2.1
      let bw := pairIdx q.2.1 q.1
      given fw && tok.getD fw 0 != 0 || given bw && (match qcw? q.2.2 with | some n => n.depth < tok.getD bw 0 | none => false) then none
  else some tok

/-- Whether some quad holds as many working cores as a group has (R301). -/
def State.groupFits (s : State) (g : Nat) : Bool :=
  (List.range 96).any fun q => g ≤ ((List.range 4).filter fun i => !(s.coreAt (4 * q + i)).out).length

/-- The error of a LAUNCH, in the order of R301, or what its launch starts with: argument bytes and token counts. -/
def checkLaunch (s : State) (x : CmdQueue) (c : Ctx) (b : List Byte) : Except Nat (List Byte × List Nat) :=
  let fl := field b 1 1
  let n := field b 4 4
  let g := field b 3 1
  if n = 0 ∨ n % g ≠ 0 then .error 0x12 else
  if g ≠ 1 ∧ g ≠ 2 ∧ g ≠ 4 then .error 0x13 else
  match (if field b 8 8 % 64 = 0 then c.set? (field b 8 8) else none) with
  | none => .error 0x14
  | some d =>
    match (if field b 16 8 % 64 = 0 then ctxRead s x.ctx (field b 16 8) 64 else none) with
    | none => .error 0x15
    | some args =>
      if fl.testBit 2 ∧ field b 64 8 % 8 ≠ 0 then .error 0x15 else
      match launchTokens d b with
      | none => .error 0x16
      | some tok =>
        if fl.testBit 1 ∧ (field b 24 8 % 0x10000 ≠ 0 ∨ field b 32 4 = 0 ∨ 2 ^ 56 < field b 24 8 + n * field b 32 4 * 0x10000) then .error 0x17 else
        let prio := min (field b 2 1 % 4) x.pcap
        if fl.testBit 4 then
          if x.pipeN = 0 ∨ field b 39 1 ≠ x.pipeAt ∨ (0 < x.pipeAt ∧ prio ≠ x.pipePrio) then .error 0x18
          else if s.groupFits g then .ok (args, tok) else .error 0x20
        else if 0 < x.pipeN then .error 0x18
        else if s.groupFits g then .ok (args, tok) else .error 0x20

/-- The lowest launch record of a context that is free (R320). -/
def State.freeRecord (s : State) (ctx : Nat) : Nat :=
  ((List.range 48).find? fun k => !s.hub.launches.any fun l => l.ctx == ctx && l.lslot == k).getD 0

/-- LAUNCH (R303). -/
def execLaunch (s : State) : Host.Outcome State Fault Refusal :=
  withCommand 1 s fun t x s =>
    match s.queueCtx t.fn x with
    | none => s.queueError t.fn t.q 0x14
    | some c =>
      match checkLaunch s x c t.bytes with
      | .error e => s.queueError t.fn t.q e
      | .ok (args, tok) =>
        let piped := (field t.bytes 1 1).testBit 4
        let prio := min (field t.bytes 2 1 % 4) x.pcap
        let serial := s.hub.serial
        let id := if piped then (if x.pipeAt = 0 then serial else x.pipeId) else 0
        let l : Launch :=
          { serial := serial, ctx := x.ctx, fn := t.fn, queue := t.q, proc := x.proc, cmd := t.bytes, args := args, tok := tok, prio := prio, next := 0, ended := 0,
            lslot := s.freeRecord x.ctx, pipe := if piped then x.pipe else [], stage := if piped then x.pipeAt else 0, pipeId := id,
            start := s.podtime, last := if piped ∧ 0 < x.pipeAt then x.pipeLast else s.podtime, recv := if piped ∧ 0 < x.pipeAt then x.pipeRecv else 0, yielded := [] }
        let s : State := { s with hub := { s.hub with launches := s.hub.launches ++ [l], serial := serial + 1 } }
        let y := if ¬piped then x else
          if x.pipeAt + 1 = x.pipeN then { x with pipe := [], pipeN := 0, pipeAt := 0, pipeId := 0, pipePrio := 0, pipeRecv := 0, pipeLast := 0 }
          else { x with pipeAt := x.pipeAt + 1, pipeId := id, pipePrio := prio, pipeRecv := l.recv, pipeLast := l.last }
        (s.setQueue t.fn t.q y).consume t

/-! ## Placement (R304 to R306) -/

def Launch.ncrew (l : Launch) : Nat := field l.cmd 4 4
def Launch.group (l : Launch) : Nat := field l.cmd 3 1

/-- What of a launch the scheduler treats as one (R312). -/
def Launch.unit (l : Launch) : Nat := if l.pipeId = 0 then l.serial else l.pipeId

/-- Crew `num` of a launch. -/
def crewOf (x : Ctx) (l : Launch) (num placed : Nat) : Option Crew :=
  (x.set? (field l.cmd 8 8)).map fun d =>
    let size := if (field l.cmd 1 1).testBit 1 then field l.cmd 32 4 * 0x10000 else 0
    { ctx := l.ctx, fn := l.fn, launch := l.serial, num := num, ncrew := l.ncrew, segBase := field l.cmd 24 8 + num * size, segSize := size,
      prio := l.prio, group := l.group, placed := placed, set := d }

/-- The saved crews of a launch that may resume: pre-empted ones in CREW order, then yielded ones (R308). -/
def readySlots (x : Ctx) (l : Launch) : List (Nat × Nat) :=
  let mine := (x.slots.filter fun k => k.2.launch == l.serial && !k.2.waits && !k.2.plug).map fun k => (k.2.num, k.1)
  let back := mine.filter fun k => !l.yielded.contains k.1
  back.mergeSort (fun a b => a.1 ≤ b.1) ++ l.yielded.filterMap fun n => mine.find? fun k => k.1 == n

/-- The job of a context is being put back on the package, and its crews take their cores without starting (R403). -/
def State.resuming (s : State) (x : Ctx) : Bool := x.job != 0 && s.gang.gtag == x.job && s.gang.state == 5

/-- Whether crews of a context may be placed now (R316, R343, R395, R403). -/
def State.runnable (s : State) (x : Ctx) : Bool := !x.held && !(s.func x.fn).susp && (!s.timersStop x.job || s.resuming x)

/-- Whether a launch has a crew to place now, cores aside. -/
def State.pending (s : State) (l : Launch) : Bool :=
  match s.ctx? l.ctx with
  | none => false
  | some x => s.runnable x && (!(readySlots x l).isEmpty || (l.next < l.ncrew && x.freeSlot?.isSome))

/-- A core's crew is already being taken off it. -/
def Core.leaving (c : Core) : Bool := c.preempt.isSome || c.freeze.isSome

/-- Whether the pre-emptions that a launch triggered are still in progress (R310). -/
def State.triggered (s : State) (unit : Nat) : Bool := s.hub.resv.any fun r => r.2 == unit && (s.coreAt r.1).leaving

/-- Whether the cores freed for a launch, or a pipeline, wait for others yet to be freed: those of its trigger, or of its job's resume (R310, R403). -/
def State.keeps (s : State) (unit : Nat) : Bool :=
  s.triggered unit || s.hub.launches.any fun l => l.unit == unit && match s.ctx? l.ctx with | some x => s.gang.state == 4 && s.gang.gtag == x.job | none => false

/-- Whether a core is freed for a launch. -/
def State.freedFor (s : State) (unit k : Nat) : Bool := s.hub.resv.any fun r => r.1 == k && r.2 == unit

/-- Whether a core is free for a launch: no crew, working, not kept for another. -/
def State.coreFree (s : State) (unit k : Nat) : Bool :=
  let c := s.coreAt k
  c.crew.isNone && !c.out && s.hub.resv.all fun r => r.1 != k || r.2 == unit || !s.keeps r.2

/-- The core a single crew takes: one that its launch's trigger freed, else by R306 (R310). -/
def State.singleCore (s : State) (unit : Nat) : Option Nat :=
  let busy := (s.cores.filter (·.crew.isSome)).map fun c => quadOf c.id
  let all := (List.range Config.cores).filter (s.coreFree unit)
  let own := all.filter (s.freedFor unit)
  let free := if own.isEmpty then all else own
  match free.find? fun k => busy.contains (quadOf k) with
  | some k => some k
  | none => free.head?

/-- The cores of group `p` of size `g` in a quad. -/
def groupCores (q g p : Nat) : List Nat := (List.range g).map (4 * q + g * p + ·)

/-- The cores a new group takes: those that its launch's trigger freed, else by R306 (R310). -/
def State.groupPlace (s : State) (unit g : Nat) : Option (List Nat) :=
  let fit := ((List.range 96).flatMap fun q => (List.range (4 / g)).map fun p => groupCores q g p).filter fun l => l.all (s.coreFree unit)
  match fit.find? fun l => l.any (s.freedFor unit) with
  | some l => some l
  | none => fit.head?

/-- The home quad of a group: the one it left, or, when too few of its cores work, the lowest with enough (R421). -/
def State.homeQuad (s : State) (g q : Nat) : Nat :=
  let works (q : Nat) : Bool := (List.range (4 / g)).any fun p => (groupCores q g p).all fun k => !(s.coreAt k).out
  if works q then q else ((List.range 96).find? works).getD q

/-- The cores that members of a group return to in their home quad; a pair goes beside the members that still run (R306). -/
def State.groupReturn (s : State) (l : Launch) (quad : Nat) (nums : List Nat) : Option (List Nat) :=
  let g := l.group
  let q := s.homeQuad g quad
  let k := (nums.headD 0) / g
  let mates := s.cores.filter fun c => match c.crew with | some w => w.launch == l.serial && w.num / g == k | none => false
  if mates.any (fun c => c.preempt.isSome || c.freeze.isSome) then none else
  ((List.range (4 / g)).filter fun p => mates.all fun c => (groupCores q g p).contains c.id).findSome? fun p =>
    let cs := nums.map fun n => 4 * q + g * p + n % g
    if cs.all (s.coreFree l.unit) then some cs else none

/-- What a launch would do with free cores: crews by number, with the slot of a saved one, and the core each takes. -/
structure Offer where
  launch : Launch
  crews  : List (Nat × Option Nat)
  cores  : List Nat
  deriving DecidableEq, Repr

/-- The offer of a launch, when it can use free cores: of its resuming groups, in their order, the first whose home quad can take it, else its next new one (R306, R308). -/
def State.offer (s : State) (l : Launch) : Option Offer :=
  match s.ctx? l.ctx with
  | none => none
  | some x =>
    if ¬s.runnable x then none else
    let g := l.group
    let ready := readySlots x l
    let quad (k : Nat) : Nat := match (x.slots.find? fun e => e.1 == k) with | some e => e.2.quad | none => 0
    let back := if g ≤ 1 then ready.head?.bind fun m => (s.singleCore l.unit).map fun c => (⟨l, [(m.1, some m.2)], [c]⟩ : Offer) else
      (ready.map fun m => m.1 / g).eraseDups.findSome? fun n =>
        let mem := ready.filter fun m => m.1 / g == n
        (s.groupReturn l (quad ((mem.map (·.2)).headD 0)) (mem.map (·.1))).map fun cs => (⟨l, mem.map fun m => (m.1, some m.2), cs⟩ : Offer)
    match back with
    | some o => some o
    | none =>
      if l.ncrew ≤ l.next ∨ x.freeSlot?.isNone then none else
      if g ≤ 1 then (s.singleCore l.unit).map fun c => ⟨l, [(l.next, none)], [c]⟩ else
      (s.groupPlace l.unit g).map fun cs => ⟨l, (List.range g).map fun i => (l.next + i, none), cs⟩

/-- Puts a crew on a core, from its start or from its slot (R304, R329). -/
def State.placeOn (s : State) (l : Launch) (num : Nat) (slot : Option Nat) (core : Nat) (held : Bool) : State :=
  match s.ctx? l.ctx with
  | none => s
  | some x =>
    match crewOf x l num (s.hub.recvs + 1) with
    | none => s
    | some w =>
      let c := s.coreAt core
      match slot with
      | none =>
        let (scr, s) := s.startScratch c l.ctx
        s.putCore { c.start w l.args l.tok scr with held := held }
      | some k =>
        let blk := readRegion s x.fn (x.save + saveHeader + k * blockBytes) blockBytes
        let kept := match (x.slots.find? fun e => e.1 == k) with | some e => e.2.levels | none => []
        let (c, s) := c.resumed s w blk (s.featHeader x) kept
        (s.putCore { c with held := held }).putCtx l.ctx { x with slots := x.slots.filter fun e => e.1 != k }

/-- The translations that a kernel's PRIME field prefetches for a crew with these argument bytes (R305, R112): BYTES from argument register ARG on, at LEVEL 1 or 2; the memory-side cache of
LEVEL 0 holds no state that a program can see (R263). -/
def primePages (s : State) (c : Crew) (args : List Byte) : List Nat :=
  let v := c.set.prime.toNat
  let n := bits v 47 16
  let arg := bits v 3 0
  if n = 0 ∨ arg = 0 ∨ 8 < arg ∨ (bits v 7 6 ≠ 1 ∧ bits v 7 6 ≠ 2) then [] else
  prefVas s c (pageHeads (BitVec.ofNat 64 (field args (8 * (arg - 1)) 8)) n)

/-- Primes a die for the first crew of a launch placed there: its prefetch asks for translations and changes no logical state (R305). -/
def State.prime (s : State) (l : Launch) (core : Nat) : State :=
  let d := s.die (dieOf core)
  if d.primed.contains l.serial then s else
  let s := s.setDie (dieOf core) { d with primed := d.primed ++ [l.serial] }
  match (s.coreAt core).crew with
  | none => s
  | some c => ((primePages s c l.args).foldl (fun s a => requestWalk s .L c.fn c.ctx a) (s.focusOn core)).focusOn s.core.id

/-- Carries out an offer. -/
def State.accept (s : State) (o : Offer) : State :=
  let l := o.launch
  let hold := match s.ctx? l.ctx with | some x => s.resuming x | none => false
  let s := (o.crews.zip o.cores).foldl (fun s m => (s.placeOn l m.1.1 m.1.2 m.2 hold).prime l m.2) s
  let fresh := (o.crews.filter fun m => m.2.isNone).length
  let back := (o.crews.filter fun m => m.2.isSome).map (·.1)
  let n := s.hub.recvs + 1
  let upd (k : Launch) : Launch :=
    if k.serial = l.serial then { k with next := k.next + fresh, yielded := k.yielded.filter (fun m => !back.contains m), recv := n, last := s.podtime }
    else if k.unit = l.unit then { k with recv := n, last := s.podtime } else k
  let s := (s.func l.fn).queues.foldl (fun s q =>
    if l.pipeId ≠ 0 ∧ q.2.pipeId = l.pipeId then s.setQueue l.fn q.1 { q.2 with pipeRecv := n, pipeLast := s.podtime } else s) s
  { s with hub := { s.hub with launches := s.hub.launches.map upd, recvs := n, resv := s.hub.resv.filter fun r => !o.cores.contains r.1 } }

/-! ## Choosing (R308, R313) -/

/-- Effective priority (R308). -/
def Launch.eff (l : Launch) (now : Nat) : Nat := min 3 (l.prio + (now - l.last) / 10000000)

/-- Input fill of a pipeline stage as occupancy and depth; `none` where the stage is not eligible (R313). -/
def State.stageFill (s : State) (l : Launch) : Option (Nat × Nat) :=
  let n := l.pipe.length
  let input := if l.stage = 0 then some (0, 1) else stageQueue s l.ctx (l.pipe.getD (l.stage - 1) 0)
  let room := if l.stage = n then true else
    match stageQueue s l.ctx (l.pipe.getD l.stage 0) with | some (o, d) => o < d | none => false
  match input with
  | some (o, d) => if (l.stage = 0 ∨ 1 ≤ o) ∧ room then some (o, d) else none
  | none => none

/-- The offer of a pipeline: of the eligible stages that can use free cores, the one of highest fill, the higher stage on a tie (R313). -/
def State.pipeOffer (s : State) (ls : List Launch) : Option Offer :=
  let cand := ls.filterMap fun l => (s.stageFill l).bind fun f => (s.offer l).map fun o => (f, o)
  let best (a b : (Nat × Nat) × Offer) : (Nat × Nat) × Offer :=
    if a.1.1 * b.1.2 < b.1.1 * a.1.2 ∨ (a.1.1 * b.1.2 = b.1.1 * a.1.2 ∧ a.2.launch.stage ≤ b.2.launch.stage) then b else a
  match cand with
  | [] => none
  | x :: l => some (l.foldl best x).2

/-- Every pending unit that can use free cores, in the order its first launch started. -/
def State.offers (s : State) : List Offer :=
  ((s.hub.launches.map Launch.unit).eraseDups).filterMap fun u =>
    let ls := s.hub.launches.filter fun l => l.unit == u
    match ls with
    | [l] => if l.pipeId = 0 then s.offer l else s.pipeOffer ls
    | ls => s.pipeOffer ls

/-- `a` goes before `b` in the scheduler's choice. -/
def before (now : Nat) (a b : Offer) : Bool :=
  let ea := a.launch.eff now
  let eb := b.launch.eff now
  eb < ea || (ea == eb && (a.launch.recv < b.launch.recv || a.launch.recv == b.launch.recv && a.launch.unit ≤ b.launch.unit))

/-- The offer chosen of these (R308, R310): first one of a launch whose trigger freed the cores. -/
def State.pick (s : State) (os : List Offer) : Option Offer :=
  match os.find? fun o => o.cores.any (s.freedFor o.launch.unit) with
  | some o => some o
  | none =>
    let os := os.filter fun o => !os.any fun p => p.launch.fn == o.launch.fn && p.launch.queue == o.launch.queue && p.launch.unit < o.launch.unit &&
      o.launch.eff s.podtime ≤ p.launch.eff s.podtime
    (os.mergeSort (before s.podtime)).head?

/-- The offer that takes free cores next. -/
def State.choose (s : State) : Option Offer := s.pick s.offers

/-- Places the crews of a job's contexts that free cores can take, up to `n` offers (R403 step 1). -/
def State.placeJob (tag : Nat) : Nat → State → State
  | 0, s => s
  | n + 1, s =>
    match s.pick (s.offers.filter fun o => (s.ctx? o.launch.ctx).any fun x => x.job == tag) with
    | none => s
    | some o => State.placeJob tag n (s.accept o)

/-- CORE_FREE_DISPATCH (R308): a free core goes to one pending launch. -/
def execCoreFreeDispatch (core : Nat) (s : State) : Host.Outcome State Fault Refusal :=
  if Config.cores ≤ core ∨ (s.coreAt core).crew.isSome ∨ (s.coreAt core).out then .next s else
  match s.choose with
  | none => .next s
  | some o => .next (s.accept o)

/-! ## Pre-emption (R327, R328) -/

/-- The oldest word not issued in any engine, with its levels. A HALT that waits counts as not issued, as a BWAIT or SEND that stalls does; any other word that has begun has issued (R328). -/
def State.oldestUnissued (s : State) : Pos × List Level :=
  let next (e : Eng) : Option (Pos × List Level) :=
    let g := s.eng e
    if s.isIdle e then none else
    if g.begun && !(e == .S && s.core.halting) then
      let q := endTest s.core.calldepth g.pc g.loops
      if g.holds q.1 || e == .S && 0 < s.core.calldepth then some (s.posAhead e 1 q.1 q.2, q.2) else none
    else some (s.pos e, g.loops)
  match Eng.all.filterMap next with
  | [] => (s.pos .S, (s.eng .S).loops)
  | x :: l => l.foldl earlier x

/-- The focus core's collectives abort with a status, unless easy-all has frozen them (R391). -/
def State.abortAll (s : State) (status : Nat) : State :=
  if s.switching then s else s.core.colls.foldl (fun s k => abortColl s s.core.id k status) s

/-- Forces the pre-emption of the focus core's crew (R328, R391): its collectives abort with status 9, unless easy-all has frozen them. -/
def State.forceUnwind (s : State) : State :=
  let f := s.oldestUnissued
  ((s.abortAll 9).mapCore fun c => { c with preempt := none }).takeFault f.1 f.2 0 ⟨0x14, 0, 0, 0, 0⟩ false false

/-- Levels of an engine that belong to the kernel, outermost first. -/
def Engine.kernelLoops (g : Engine) : List Level := (g.loops.filter fun l => l.depth == 0).reverse

/-- Logical index just after the last of an engine's words at offsets `lo` to `hi`, words that Iluja inserted left out. -/
def State.afterWords (s : State) (e : Eng) (lo hi : Nat) : Nat :=
  let g := s.eng e
  ((List.range g.len).filterMap fun o =>
    let m := s.mapAt e (g.base + BitVec.ofNat 64 (4 * o))
    if lo ≤ o ∧ o ≤ hi ∧ !m.1 then some (m.2 + 1) else none).foldl max 0

/-- Logical index just after the last body word of the loop of word `v`, over the copies of all engines, those that stand elsewhere included (R327). -/
def State.afterBody (s : State) (v : Nat) : Nat :=
  let copy (e : Eng) : Nat :=
    let g := s.eng e
    match s.core.crew.bind fun c => c.set.loops.find? fun r => r.index == v with
    | none => 0
    | some r =>
      let o := r.offs.getD (e.code - 1) 0xFFFFFFFF
      if g.len ≤ o then 0 else
      match (s.wordAt e (g.base + BitVec.ofNat 64 (4 * o))).map fun w => decode e s.featMask w with
      | some (.ok (.loop _ _ _ len)) => s.afterWords e (o + 1) (o + len.toNat)
      | some (.ok (.loopi _ _ _ len)) => s.afterWords e (o + 1) (o + len.toNat)
      | _ => 0
  let stands (e : Eng) : Nat :=
    let g := s.eng e
    ((g.loops.filter fun l => l.depth == 0 && l.word == v).map fun l => s.afterWords e (g.offOf l.start) (g.offOf l.stop)).foldl max 0
  (Eng.all.map fun e => max (copy e) (stands e)).foldl max (v + 1)

/-- Whether an engine's slice holds a copy of the loop of a word. -/
def State.hasCopy (s : State) (e : Eng) (word : Nat) : Bool :=
  match s.core.crew with
  | none => false
  | some c => c.set.loops.any fun r => r.index == word && r.offs.getD (e.code - 1) 0xFFFFFFFF != 0xFFFFFFFF

/-- The youngest iteration of the innermost loop of `ref` (outermost first) that an engine has begun (R327): the one it is in, or the last one of the activation it has gone through
most recently. `copy`: it holds a copy of the loop. -/
def State.begunIn (s : State) (e : Eng) (copy : Bool) : List Level → List Level → Option (List (Nat × Nat))
  | [], _ => some []
  | r :: rs, ks =>
    let last (l : List Level) : List (Nat × Nat) := l.map fun x => (x.word, x.count - 1)
    match ks with
    | k :: ks =>
      if k.word = r.word then
        match s.begunIn e copy rs ks with
        | some v => some ((k.word, k.index) :: v)
        | none => if copy && 0 < k.index then some ((k.word, k.index - 1) :: last rs) else none
      else if copy && r.word < (s.pos e).index then some (last (r :: rs)) else none
    | [] => if copy && (s.isIdle e || r.word < (s.pos e).index) then some (last (r :: rs)) else none

/-- The passes of backward transfers that an engine makes outside its loop of level `lvl`. -/
def State.outerLaps (s : State) (e : Eng) (lvl : Nat) : List Lap := (s.pos e).laps.filter fun l => l.outer ≤ lvl

/-- The boundary B of R327 with the levels active there; `none`: no loop of the level is active. -/
def State.boundary (s : State) : Option (Pos × List Level) :=
  let lvl := s.core.engS.view.prelvl.toNat
  let copies := Eng.all.filterMap fun e =>
    if s.isIdle e then none else
    let ls := (s.eng e).kernelLoops
    (ls[lvl]?).map fun l => ((⟨0, l.word, iterOf (ls.take lvl).reverse, s.outerLaps e lvl⟩ : Pos), ls.take (lvl + 1))
  if lvl = 4 then none else
  match copies with
  | [] => none
  | x :: l =>
    let young := l.foldl (fun a b => if a.1.lt b.1 then b else a) x
    let ref := young.2
    let laps := young.1.laps
    match ref[lvl]? with
    | none => none
    | some v =>
      let begun := (Eng.all.filter fun e => s.outerLaps e lvl == laps).filterMap fun e => s.begunIn e (s.hasCopy e v.word) ref (s.eng e).kernelLoops
      let top := begun.foldl (fun a b => if (⟨0, 0, a, []⟩ : Pos).lt ⟨0, 0, b, []⟩ then b else a) (ref.map fun k => (k.word, k.index))
      let m := (top.getD lvl (0, 0)).2
      let outer := (ref.take lvl).zipWith (fun k w => ({ k with index := w.2 } : Level)) top
      if m + 1 < v.count then
        some (⟨0, v.word + 1, top.take lvl ++ [(v.word, m + 1)], laps⟩, (outer ++ [{ v with index := m + 1 }]).reverse)
      else
        some (⟨0, s.afterBody v.word, top.take lvl, laps⟩, outer.reverse)

/-- Requests the pre-emption of the focus core's crew (R327). A request during a fault drain takes effect with the record. -/
def State.requestHere (s : State) : State :=
  if s.core.crew.isNone ∨ s.core.preempt.isSome ∨ s.core.freeze.isSome then s else
  if s.core.stands.isSome then s.mapCore fun c => { c with preempt := some ⟨s.pos .S, [], s.podtime⟩ } else
  match s.boundary with
  | none => s.forceUnwind
  | some (b, ls) => s.mapCore fun c => { c with preempt := some ⟨b, ls, s.podtime⟩ }

/-- Requests the pre-emption of the crew on a core. -/
def State.request (s : State) (k : Nat) : State := ((s.focusOn k).requestHere).focusOn s.core.id

/-- Cores that run the crews of a crew's group: a group is pre-empted whole (R306). -/
def State.groupOf (s : State) (c : Core) : List Nat :=
  match c.crew with
  | none => []
  | some w => if w.group ≤ 1 then [c.id] else
      (s.cores.filter fun d => match d.crew with | some v => v.launch == w.launch && v.num / w.group == w.num / w.group | none => false).map (·.id)

/-- Requests the pre-emption of every crew that satisfies a condition, groups whole. -/
def State.requestAll (s : State) (f : Crew → Bool) : State :=
  ((s.cores.filter fun c => match c.crew with | some w => f w | none => false).flatMap s.groupOf).eraseDups.foldl State.request s

/-- Whether a crew being pre-empted can be saved: one that stands with its slot once the network is quiet, another once it has drained to its boundary and has a slot (R327). -/
def State.savable (s : State) : Bool :=
  match s.core.preempt, s.core.stands with
  | none, _ => false
  | some _, some _ => s.netQuiet
  | some f, none => s.core.freeze.isNone && s.drainedTo f.bound && s.slotReady

/-- PREEMPT_BOUNDARY_SAVE (R327 step 5). -/
def execPreemptBoundarySave (s : State) : Host.Outcome State Fault Refusal :=
  match s.core.preempt with
  | none => .next s
  | some f =>
    if !s.savable then .next s else
    match s.core.stands with
    | some k => .next (s.saveStanding k)
    | none =>
    let n := min 4 f.bound.iter.length
    let at_ : RestartAt := ⟨f.bound.index, n, iterBytes f.bound.iter, countBytes f.levels, wordBytes f.bound, f.levels⟩
    .next ((s.mapCore fun c => c.cut f.bound).saveCrew 1 at_ [] false false false)

/-- DEADLINE of the focus core's context in nanoseconds. -/
def State.deadline (s : State) : Nat :=
  match s.core.crew with
  | none => 20000
  | some w => match s.ctx? w.ctx with
    | some x => 1000 * x.deadline
    | none => 20000

/-- Whether a pre-emption has to be forced: the drain has passed DEADLINE; of a crew that stands with its slot, only collectives are left (R328). -/
def State.forceable (s : State) : Bool :=
  match s.core.preempt, s.core.stands with
  | none, _ => false
  | some f, some _ => f.since + s.deadline ≤ s.podtime && !s.switching && s.core.colls.any (·.status == 0)
  | some f, none => s.core.freeze.isNone && f.since + s.deadline ≤ s.podtime

/-- PREEMPT_FORCE (R328). -/
def execPreemptForce (s : State) : Host.Outcome State Fault Refusal :=
  if !s.forceable then .next s else .next (if s.core.stands.isSome then s.abortAll 9 else s.forceUnwind)

/-- Running crews with their cores. -/
def State.running (s : State) : List (Core × Crew) := s.cores.filterMap fun c => c.crew.map fun w => (c, w)

/-- The cores whose crews a trigger of this launch pre-empts (R310); a crew already being pre-empted is not taken again. -/
def State.victims (s : State) (l : Launch) : List Nat :=
  let low := s.running.filter fun r => r.2.prio < l.prio && !r.1.leaving
  match low with
  | [] => []
  | x :: more =>
    if l.group ≤ 1 then
      let v := more.foldl (fun a b => if b.2.prio < a.2.prio ∨ (b.2.prio = a.2.prio ∧ a.2.placed < b.2.placed) then b else a) x
      s.groupOf v.1
    else
      let top (q : Nat) : Nat := ((s.running.filter fun r => quadOf r.1.id == q).map fun r => r.2.prio + 1).foldl max 0
      let fits := (List.range 96).filter fun q => (List.range (4 / l.group)).any fun p => (groupCores q l.group p).all fun k => !(s.coreAt k).out
      match fits with
      | [] => []
      | q :: qs =>
        let v := qs.foldl (fun a b => if top b < top a then b else a) q
        if l.prio < top v then [] else (low.filter fun r => quadOf r.1.id == v).flatMap fun r => s.groupOf r.1

/-- The launch that triggers a pre-emption now (R310): the first that started and has waited 1 ms, with the cores it takes. -/
def State.trigger (s : State) : Option (Launch × List Nat) :=
  s.hub.launches.findSome? fun l =>
    if s.pending l ∧ l.last + 1000000 ≤ s.podtime ∧ ¬s.triggered l.unit then
      match s.victims l with
      | [] => none
      | v => some (l, v.eraseDups)
    else none

/-- PREEMPT_TRIGGER (R310). -/
def execPreemptTrigger (s : State) : Host.Outcome State Fault Refusal :=
  match s.trigger with
  | none => .next s
  | some (l, v) =>
    let s := v.foldl State.request s
    .next { s with hub := { s.hub with resv := s.hub.resv.filter (fun r => !v.contains r.1) ++ v.map fun k => (k, l.unit) } }

end Sys2Proof.Machine
end

