-- ==== Sys2Proof/Machine/Contexts.lean ====
section
/-!
DEFINITION. The context registers and their operations (R315 to R325, R337, R339), virtual functions (R340 to R344), and the plug-in's answer (R330).
-/
namespace Sys2Proof.Machine

/-! ## The context registers (R315 to R317) -/

/-- Ends a context command with its result. -/
def State.ctxResult (s : State) (fn r : Nat) : State := s.setFunc fn { s.func fn with cresult := r, cbusy := none }

/-- The writable fields of CCMD. -/
def ccmdFields (v : Word) : Word := BitVec.ofNat 64 (bits v.toNat 55 52 * 2 ^ 52 + bits v.toNat 43 32 * 2 ^ 32 + bits v.toNat 11 0)

/-- A context that belongs to a function. -/
def State.ownCtx (s : State) (fn k : Nat) : Option Ctx := (s.ctx? k).filter fun c => c.fn == fn

/-- A write to CCMD with GO and an operation; dropped while BUSY and before the host is admitted. -/
def ctxCommand (op fn : Nat) (v : Word) (s : State) (f : State → State) : Host.Outcome State Fault Refusal :=
  if ¬s.admitted ∨ 33 ≤ fn ∨ ¬v.getLsbD 63 ∨ bits v.toNat 55 52 ≠ op ∨ (s.func fn).cbusy.isSome then .next s else
  .next (f (s.setFunc fn { s.func fn with ccmd := ccmdFields v }))

/-- CTX of a command. -/
def cmdCtx (v : Word) : Nat := bits v.toNat 43 32

/-! ## CREATE (R318, R319) -/

/-- FEATLIVE names only features that the device has and the function does not mask (R325, R341). -/
def State.featOk (s : State) (fn live : Nat) : Bool :=
  live < 256 && live &&& (255 - Config.features.toNat) == 0 && live &&& (s.func fn).vffeat.toNat == 0

/-- Whether byte `o` of a save area's header is reserved (R319, R320). -/
def headerReserved (o : Nat) : Bool :=
  o == 3 || 24 ≤ o && o < 32 || 128 ≤ o && o < 4096 || 4096 ≤ o && 153 ≤ o % 256 && o % 256 < 200

/-- Whether an adopted header is well formed (R319): its FORMAT, and no reserved bit set, those of the launch records among them. -/
def headerOk (h : Tab Byte) : Bool := imgNat h 0 2 == 1 && h.all fun b => b.2 == 0 || !headerReserved b.1

/-- The reserved bits of a crew block's byte `o`: of its header, of its record and the record's snapshots, and of the space before the barrier objects (R285, R286, R287, R321, R322). -/
def blockReserved (o : Nat) : Nat :=
  let r := o - 0x400
  let t := (r - 128) % 64
  if o < 0x400 then (if o = 2 ∨ o = 3 ∨ 9 ≤ o ∧ o < 16 ∨ 25 ≤ o ∧ o < 32 ∨ 90 ≤ o then 0xFF else 0)
  else if r < 128 then (if r = 5 then 0xF0 else if r = 6 then 0x70 else if 12 ≤ r ∧ r < 16 ∨ 52 ≤ r ∧ r < 56 ∨ 120 ≤ r then 0xFF else 0)
  else if r < 448 then (if t = 24 then 0xE0 else if t = 25 then 0xF8 else if t = 31 ∨ 41 ≤ t then 0xFF else 0)
  else if 0x2E00 ≤ o ∧ o < 0x4000 then 0xFF else 0

/-- Whether a crew block has no reserved bit set (R6); its record counts with RSTKIND 2 alone. -/
def blockOk (b : Tab Byte) : Bool :=
  b.all fun x => (0x400 ≤ x.1 && x.1 < 0x600 && imgNat b 0 1 != 2) || x.2.toNat &&& blockReserved x.1 == 0

/-- The blocks that USEDMAP names have no reserved bit set. -/
def blocksOk (s : State) (fn save n : Nat) (h : Tab Byte) : Bool :=
  (List.range n).all fun i => !(imgNat h 32 48).testBit i || blockOk (readRegion s fn (save + saveHeader + i * blockBytes) 0x4000)

/-- The launches of an adopted context, from the records in use (R320). -/
def adoptLaunches (s : State) (k fn : Nat) (objs : List Obj) (h : Tab Byte) : List Launch :=
  (((List.range 48).filter fun n => (imgNat h (4096 + 256 * n + 152) 1).testBit 0).zipIdx).map fun n =>
    let o := 4096 + 256 * n.1
    let cmd := padTo 128 (Tab.slice 0 h (o + 64) 80)
    let pipe := (List.range 7).map fun i => BitVec.ofNat 64 (imgNat h (o + 200 + 8 * i) 8)
    let piped := (field cmd 1 1).testBit 4
    let set := (objs.flatMap (·.sets)).find? fun d => d.addr == field cmd 8 8
    { serial := s.hub.serial + n.2, ctx := k, fn := fn, queue := 16, proc := 65536, cmd := cmd, args := Tab.slice 0 h o 64,
      tok := match set with | some d => (launchTokens d cmd).getD [] | none => [],
      prio := field cmd 2 1 % 4, next := imgNat h (o + 144) 4, ended := imgNat h (o + 148) 4, lslot := n.1,
      pipe := if piped then pipe.filter (· != 0) else [], stage := if piped then field cmd 39 1 else 0,
      pipeId := if piped then s.hub.serial + n.2 - field cmd 39 1 else 0, start := s.podtime, last := s.podtime, recv := 0, yielded := [] }

/-- Features whose state is live in a crew block (R324). -/
def blockFeat (b : Tab Byte) : Nat :=
  (if (List.range 16).any fun k => imgNat b (0x1300 + 8 * k) 8 != Tile.start.desc.toNat then 1 else 0) +
    (if (loadArmed b).any fun a => field a.2.desc 0 1 == 2 then 8 else 0) +
    (if (List.range 64).any fun n => (segment? ((b.filter fun x => 0x1400 ≤ x.1).map fun x => (x.1 - 0x1400, x.2)) n).isSome then 16 else 0)

/-- The slots of an adopted context, from USEDMAP, FAULTMAP and the blocks' headers (R319, R322). -/
def adoptSlots (s : State) (fn save n : Nat) (ls : List Launch) (h : Tab Byte) : Tab Slot :=
  ((List.range n).filter fun i => (imgNat h 32 48).testBit i).map fun i =>
    let b := readRegion s fn (save + saveHeader + i * blockBytes) 0x2E00
    let serial := ((ls.find? fun l => l.lslot == imgNat b 8 1).map (·.serial)).getD 0
    (i, { launch := serial, num := imgNat b 4 4, kind := imgNat b 0 1, waits := (imgNat h 80 48).testBit i, plug := false, since := 0, quad := imgNat b 1 1,
          feat := blockFeat b &&& imgNat h 8 8, levels := [] })

/-- A context descriptor's bytes at a physical or guest physical address. -/
def ctxDescriptor (s : State) (fn a : Nat) : Option (List Byte) :=
  if a % 64 ≠ 0 ∨ 2 ^ 52 ≤ a then none else
  match guestPa s fn a with
  | some (pa, true, _) => some (s.memBytes pa 64)
  | _ => none

/-- The lowest context identifier that is free (log entry 27). -/
def State.freeCtx (s : State) : Option Nat := (List.range 4096).find? fun k => k != 0 && !s.ctxs.any fun c => c.1 == k

/-- The objects an adopted context finds: what its code blocks carry, or those of a context of this function over the same root table (log entry 26). -/
def State.adoptObjs (s : State) (fn root : Nat) : List Obj :=
  match s.codeBlocks.find? fun b => b.1 == fn && b.2.1 == root with
  | some b => b.2.2
  | none => ((s.ctxs.find? fun c => c.2.fn == fn && c.2.root == root).map (·.2.objs)).getD []

/-- CREATE (R316, R318). -/
def execCreate (fn : Nat) (v : Word) (s : State) : Host.Outcome State Fault Refusal :=
  ctxCommand 1 fn v s fun s =>
    match s.freeCtx with
    | none => s.ctxResult fn 0x02
    | some k =>
      match ctxDescriptor s fn (s.func fn).carg.toNat with
      | none => s.ctxResult fn 0x03
      | some d =>
        let root := field d 0 8
        let save := field d 8 8
        let size := field d 16 8
        if 2 ≤ field d 24 1 ∨ field d 25 1 ≠ 0 ∨ (d.drop 28).any (· != 0) ∨ root % 0x10000 ≠ 0 ∨ save % 0x10000 ≠ 0 then s.ctxResult fn 0x03 else
        if size < saveHeader + blockBytes then s.ctxResult fn 0x05 else
        let dl := if field d 26 2 = 0 then 20 else min 1000 (field d 26 2)
        let objs := s.adoptObjs fn root
        let x : Ctx := { fn := fn, root := root, save := save, saveSize := size, deadline := dl, depcnt := 0, held := false, job := 0, slots := [], objs := [] }
        if field d 24 1 = 0 then (s.putCtx k x).setFunc fn { s.func fn with newctx := k, cresult := 0, cbusy := none } else
        let h := readRegion s fn save saveHeader
        if ¬headerOk h ∨ ¬blocksOk s fn save x.nslot h then s.ctxResult fn 0x05 else
        if ¬s.featOk fn (imgNat h 8 8) then s.ctxResult fn 0x04 else
        let ls := adoptLaunches s k fn objs h
        let y := { x with depcnt := BitVec.ofNat 64 (imgNat h 16 8), held := true, objs := objs, slots := adoptSlots s fn save x.nslot ls h }
        let s := s.putCtx k y
        let s : State := { s with hub := { s.hub with launches := s.hub.launches ++ ls, serial := s.hub.serial + ls.length + 1 } }
        s.setFunc fn { s.func fn with newctx := k, cresult := 0, cbusy := none }

/-! ## DESTROY, SAVE, RESTORE, SWITCH (R316, R325, R339, R344) -/

/-- Acts on a context of the function; unknown gives 0x02. -/
def onCtx (s : State) (fn k : Nat) (f : Ctx → State) : State :=
  match s.ownCtx fn k with
  | none => s.ctxResult fn 0x02
  | some x => f x

/-- DESTROY (R339). -/
def execDestroy (fn : Nat) (v : Word) (s : State) : Host.Outcome State Fault Refusal :=
  ctxCommand 2 fn v s fun s => onCtx s fn (cmdCtx v) fun _ => (s.teardown (cmdCtx v)).ctxResult fn 0

/-- No crew of a context holds a core. -/
def State.allSaved (s : State) (k : Nat) : Bool := s.cores.all fun c => match c.crew with | some w => w.ctx != k | none => true

/-- Holds a context and requests the pre-emption of its crews (R316). -/
def State.startSave (s : State) (k : Nat) : State :=
  match s.ctx? k with
  | none => s
  | some x => (s.putCtx k { x with held := true }).requestAll fun w => w.ctx == k

/-- Makes a context runnable. -/
def State.release? (s : State) (k : Nat) : State :=
  match s.ctx? k with
  | none => s
  | some x => s.putCtx k { x with held := false }

/-- A command in progress whose crews are all saved: SAVE, SWITCH before its commit point, or VFSUSP. -/
def State.ctxReady (s : State) (fn : Nat) : Bool :=
  match (s.func fn).cbusy with
  | none => false
  | some c =>
    if c.op = 8 then s.cores.all fun k => match k.crew with | some w => w.fn != c.ctx % 32 + 1 | none => true
    else c.phase == 0 && !(s.func fn).susp && s.allSaved c.ctx

/-- Ends a command in progress: a SWITCH passes its commit point and restores its second context (R344). -/
def State.endCtx (s : State) (fn : Nat) : State :=
  if ¬s.ctxReady fn then s else
  match (s.func fn).cbusy with
  | none => s
  | some c =>
    if c.op = 8 then (((s.ctxs.filter fun x => x.2.fn == c.ctx % 32 + 1).map (·.1)).foldl State.writeHeader s).ctxResult fn 0 else
    let s := s.writeHeader c.ctx
    (if c.op = 5 then s.release? c.ctx2 else s).ctxResult fn 0

/-- Starts a command that saves a context. -/
def State.beginSave (s : State) (fn op k k2 : Nat) (was : Bool) : State :=
  let s := s.setFunc fn { s.func fn with cbusy := some ⟨op, k, k2, if was then 1 else 0, 0⟩ }
  (s.startSave k).endCtx fn

/-- SAVE (R316): done when every crew of the context is saved; while it runs, a later turn carries it on. -/
def execSave (fn : Nat) (v : Word) (s : State) : Host.Outcome State Fault Refusal :=
  match (s.func fn).cbusy with
  | some c => .next (if c.op = 3 then s.endCtx fn else s)
  | none => ctxCommand 3 fn v s fun s => onCtx s fn (cmdCtx v) fun x => s.beginSave fn 3 (cmdCtx v) 0 x.held

/-- RESTORE (R316, R325). -/
def execRestore (fn : Nat) (v : Word) (s : State) : Host.Outcome State Fault Refusal :=
  ctxCommand 4 fn v s fun s => onCtx s fn (cmdCtx v) fun x =>
    if ¬s.featOk fn (s.featHeader x) then s.ctxResult fn 0x04 else (s.release? (cmdCtx v)).ctxResult fn 0

/-- SWITCH (R316, R344): SAVE of CTX and RESTORE of CTX2; while it runs, a later turn carries it on. -/
def execSwitch (fn : Nat) (v : Word) (s : State) : Host.Outcome State Fault Refusal :=
  match (s.func fn).cbusy with
  | some c => .next (if c.op = 5 then s.endCtx fn else s)
  | none => ctxCommand 5 fn v s fun s => onCtx s fn (cmdCtx v) fun x => onCtx s fn (bits v.toNat 11 0) fun x2 =>
      if ¬s.featOk fn (s.featHeader x2) then s.ctxResult fn 0x04 else s.beginSave fn 5 (cmdCtx v) (bits v.toNat 11 0) x.held

/-! ## RESUME and INVAL (R289, R330, R337) -/

/-- The host, or the plug-in, resumes the crew of a slot: it may be placed again, or, where it stands on its core after a resume of its job, it starts there (R330, R403). -/
def State.wake (s : State) (ctx slot : Nat) : State :=
  match s.ctx? ctx with
  | none => s
  | some x =>
    match s.cores.find? fun c => c.stands == some slot && match c.crew with | some w => w.ctx == ctx | none => false with
    | some c => (s.putCore { c with stands := none, held := s.gang.state == 5 && s.gang.gtag == x.job }).putCtx ctx { x with slots := x.slots.filter fun e => e.1 != slot }
    | none => s.putCtx ctx { x with slots := x.slots.map fun y => if y.1 = slot then (slot, { y.2 with waits := false, plug := false }) else y }

/-- RESUME (R289, R330): the crew in a slot with a resumable record may be placed again; a block with a reserved bit set holds none (R6, log entry 130). The record's bytes in the block stay as they are until the slot is used again (log entry 107). -/
def execResume (fn : Nat) (v : Word) (s : State) : Host.Outcome State Fault Refusal :=
  ctxCommand 6 fn v s fun s => onCtx s fn (cmdCtx v) fun x =>
    let k := (s.func fn).carg.toNat
    match x.slots.find? fun e => e.1 == k with
    | none => s.ctxResult fn 0x06
    | some e =>
      let b := readRegion s x.fn (x.save + saveHeader + k * blockBytes) 0x4000
      if e.2.kind ≠ 2 ∨ ¬(imgNat b 0x405 1).testBit 0 ∨ ¬blockOk b then s.ctxResult fn 0x06 else
      ((s.wake (cmdCtx v) k).writeHeader (cmdCtx v)).ctxResult fn 0

/-- INVAL (R337). -/
def execInval (fn : Nat) (v : Word) (s : State) : Host.Outcome State Fault Refusal :=
  ctxCommand 7 fn v s fun s => onCtx s fn (cmdCtx v) fun _ =>
    let a := (s.func fn).carg.toNat
    (s.forgetPages (cmdCtx v) (bits a 55 16 * 0x10000) ((a % 0x10000 + 1) * 0x10000)).ctxResult fn 0

/-! ## Virtual functions (R340 to R344) -/

/-- Rolls a SWITCH back that has not reached its commit point: its context is as before, and the command waits (R344). -/
def State.rollBack (s : State) (f : Nat) : State :=
  match (s.func f).cbusy with
  | none => s
  | some c =>
    if c.op ≠ 5 ∨ c.phase ≠ 0 then s else
    let s := if c.arg = 0 then s.release? c.ctx else s
    s.setFunc f { s.func f with cbusy := some { c with phase := 1 } }

/-- VFSUSP (R343): while it runs, a later turn carries it on. -/
def execVfsusp (fn : Nat) (v : Word) (s : State) : Host.Outcome State Fault Refusal :=
  match (s.func fn).cbusy with
  | some c => .next (if c.op = 8 then s.endCtx fn else s)
  | none => ctxCommand 8 fn v s fun s =>
      if fn ≠ 0 then s.ctxResult fn 0x01 else
      let f := cmdCtx v % 32 + 1
      let s := s.rollBack f
      let s := s.setFunc f { s.func f with susp := true }
      let s := s.setFunc 0 { s.func 0 with cbusy := some ⟨8, cmdCtx v, 0, 0, 0⟩ }
      (s.requestAll fun w => w.fn == f).endCtx 0

/-- VFRES (R343): the function runs on, and a SWITCH that was rolled back starts again (R344). -/
def execVfres (fn : Nat) (v : Word) (s : State) : Host.Outcome State Fault Refusal :=
  ctxCommand 9 fn v s fun s =>
    if fn ≠ 0 then s.ctxResult fn 0x01 else
    let f := cmdCtx v % 32 + 1
    let s := (s.setFunc f { s.func f with susp := false }).ctxResult 0 0
    match (s.func f).cbusy with
    | some c => if c.op = 5 ∧ c.phase = 1 then s.beginSave f 5 c.ctx c.ctx2 (c.arg != 0) else s
    | none => s

/-- Whether a function holds a context. -/
def State.holdsCtx (s : State) (fn : Nat) : Bool := s.ctxs.any fun c => c.2.fn == fn

/-- VFFEAT_WRITE (R340): ignored while the function holds a context. -/
def execVffeatWrite (vf : Nat) (v : Word) (s : State) : Host.Outcome State Fault Refusal :=
  if ¬s.admitted ∨ 32 ≤ vf ∨ s.holdsCtx (vf + 1) then .next s else
  .next (s.setFunc (vf + 1) { s.func (vf + 1) with vffeat := v.setWidth 8 })

/-- S2ROOT_WRITE (R340): ignored while the function holds a context. -/
def execS2rootWrite (vf : Nat) (v : Word) (s : State) : Host.Outcome State Fault Refusal :=
  if ¬s.admitted ∨ 32 ≤ vf ∨ s.holdsCtx (vf + 1) then .next s else
  .next (s.setFunc (vf + 1) { s.func (vf + 1) with s2root := bits v.toNat 51 16 * 0x10000 })

/-- FUNCTION_LEVEL_RESET (R342): its acceptance point, at which FLR becomes 1; while it is in progress, a later turn completes it. -/
def execFunctionLevelReset (vf : Nat) (s : State) : Host.Outcome State Fault Refusal :=
  if 32 ≤ vf ∨ s.alarmed then .next s else
  let fn := vf + 1
  if (s.func fn).flr then .next (s.setFunc fn { s.func fn with flr := false }) else
  let s := ((s.ctxs.filter fun c => c.2.fn == fn).map (·.1)).foldl State.teardown s
  let f := s.func fn
  let s := s.setFunc fn { Func.reset with vffeat := f.vffeat, s2root := f.s2root, plugin := f.plugin, flr := true }
  .next { s with hub := { s.hub with current := s.hub.current.filter fun t => t.fn != fn } }

/-! ## Advisory and plug-in (R330, R355) -/

/-- DEPSTAT_WRITE (R355): writing 1 to PEND clears the advisory. -/
def execDepstatWrite (fn : Nat) (v : Word) (s : State) : Host.Outcome State Fault Refusal :=
  if s.admitted ∧ fn < 33 ∧ v.getLsbD 63 then .next (s.setFunc fn { s.func fn with pend := false }) else .next s

/-- POLICY_PLUGIN_DONE (R330, R413): the plug-in resumes the crew of a slot, or keeps it there. -/
def execPolicyPluginDone (resume : Bool) (ctx slot : Nat) (s : State) : Host.Outcome State Fault Refusal :=
  if resume && (s.ctx? ctx).any (fun x => x.slots.any fun e => e.1 == slot && e.2.plug) then .next (s.wake ctx slot) else .next s

end Sys2Proof.Machine
end

