-- ==== Sys2Proof/Machine/Gang.lean ====
section
/-!
DEFINITION. Easy-all (R392 to R406): the gang registers' commands, the switch time, the basin, and the resume.
-/
namespace Sys2Proof.Machine

/-! ## Commands (R393, R394) -/

/-- The tag of a job that some context is bound to. -/
def State.jobBound (s : State) (tag : Nat) : Bool := s.ctxs.any fun c => c.2.job == tag

/-- An operation is in progress (R394). -/
def Gang.busy (g : Gang) : Bool := g.state == 1 || g.state == 2 || g.state == 4 || g.state == 5

/-- A basin's base lies in the first tier, its size is large enough, and it meets no parked job's basin (R394). -/
def Gang.basinOk (g : Gang) : Bool :=
  Config.firstTier g.base && 256 ≤ g.size &&
    g.park.all fun p => p.2.state == 0 || !(g.base < p.2.base + p.2.size * 0x10000 && p.2.base < g.base + g.size * 0x10000)

/-- Starts a command with GO set: its fields are stored, and RESULT answers (R393). Nothing else changes on a non-zero RESULT. -/
def gangCommand (op : Nat) (v : Word) (s : State) (check : Nat → Nat) (act : Nat → State → State) : Host.Outcome State Fault Refusal :=
  let n := v.toNat
  if ¬s.admitted ∨ ¬v.getLsbD 63 ∨ bits n 55 52 ≠ op then .next s else
  let tag := bits n 15 0
  let r := if tag = 0 then 0x01 else check tag
  let s : State := { s with gang := { s.gang with op := op, tag := tag, result := r } }
  if r ≠ 0 then .next s else .next (act tag { s with gang := { s.gang with gtag := tag } })

/-- The check of OUT (R394). -/
def State.checkOut (s : State) (tag : Nat) : Nat :=
  let g := s.gang
  if ¬s.jobBound tag then 0x02
  else if g.time.toNat < s.podtime + 50000 then 0x03
  else if ¬g.basinOk then 0x04
  else if g.busy ∨ (g.parked? tag).isSome ∨ 8 ≤ (g.park.filter fun p => p.2.state != 0).length then 0x05
  else 0

/-- EASY_ALL (R394, R395): OP 1 of GCMD; the operation is armed for its switch time. -/
def execEasyAll (v : Word) (s : State) : Host.Outcome State Fault Refusal :=
  gangCommand 1 v s s.checkOut fun _ s =>
    let g := s.gang
    { s with gang := { g with
        state := 1, late := 0, cause := 0, at_ := g.time.toNat, obase := g.base, osize := g.size, caps := [], enter := [], inset := [], ended := [],
        marked := [], sent := [], frozen := [], placed := [] } }

/-- The check of IN (R394). -/
def State.checkIn (s : State) (tag : Nat) : Nat :=
  let g := s.gang
  if g.time.toNat < s.podtime + 500000 then 0x03
  else if g.busy then 0x05
  else match g.parked? tag with
    | none => 0x06
    | some (_, p) => if p.state = 6 then 0x07 else 0

/-- The crews of a parked job that go back to the cores they held: launch, number, slot, core (R403); one that waits for the host among them, which starts only once the host resumes
it (R330). -/
def State.returning (s : State) (p : Park) : List (Launch × Nat × Nat × Nat) :=
  p.placed.filterMap fun w =>
    match s.ctx? w.ctx, s.hub.launches.find? fun l => l.serial == w.launch with
    | some x, some l =>
      if (s.coreAt w.core).out then none else
      (x.slots.find? fun e => e.2.launch == w.launch && e.2.num == w.num).map fun e => (l, w.num, e.1, w.core)
    | _, _ => none

/-- Requests the pre-emption of whatever crew runs on these cores, groups whole. -/
def State.clearCores (s : State) (ks : List Nat) : State :=
  ((ks.flatMap fun k => s.groupOf (s.coreAt k)).eraseDups).foldl State.request s

/-- IN (R403): the resume is armed, and the cores of the job's crews are cleared and kept for them. -/
def execGangIn (v : Word) (s : State) : Host.Outcome State Fault Refusal :=
  gangCommand 2 v s s.checkIn fun tag s =>
    let g := s.gang
    match g.parked? tag with
    | none => s
    | some (_, p) =>
      let back := s.returning p
      let ks := back.map fun b => b.2.2.2
      let s : State := { s with gang := { g with state := 4, late := p.late, cause := p.cause, at_ := g.time.toNat, enter := [] } }
      let s := s.clearCores ks
      { s with hub := { s.hub with resv := s.hub.resv.filter (fun r => !ks.contains r.1) ++ back.map fun b => (b.2.2.2, b.1.unit) } }

/-- The check of DISCARD (R394). -/
def State.checkDiscard (s : State) (tag : Nat) : Nat :=
  let g := s.gang
  if g.busy ∧ (g.gtag ≠ tag ∨ g.state = 2 ∨ g.state = 5) then 0x05
  else if (g.parked? tag).isNone ∧ ¬(g.gtag = tag ∧ (g.state = 1 ∨ g.state = 4)) then 0x06
  else 0

/-- Empties a parked entry. -/
def Gang.unpark (g : Gang) (i : Nat) : Gang := { g with park := Tab.set Park.reset g.park i Park.reset }

/-- What of the network a job held: its transfers and its held ready messages. -/
def State.dropTag (s : State) (tag : Nat) : State :=
  { s with net := { s.net with xfers := s.net.xfers.filter (fun x => x.tag != tag), held := s.net.held.filter fun h => h.packet.tag != tag } }

/-- DISCARD (R406). The basin's bytes stay in memory as they were written (log entry 117). -/
def execDiscard (v : Word) (s : State) : Host.Outcome State Fault Refusal :=
  let busy := s.gang.busy
  let st := s.gang.state
  gangCommand 3 v s s.checkDiscard fun tag s =>
    if busy ∧ st = 1 then ({ s with gang := { s.gang with state := 0 } } : State).gangInterrupt
    else if busy then
      let ks := match s.gang.parked? tag with | some (_, p) => (s.returning p).map fun (b : Launch × Nat × Nat × Nat) => b.2.2.2 | none => []
      ({ s with gang := { s.gang with state := 3 }
                hub := { s.hub with resv := s.hub.resv.filter fun r => !ks.contains r.1 } } : State).gangInterrupt
    else
      match s.gang.parked? tag with
      | none => s
      | some (i, p) =>
        let s := (((s.ctxs.filter fun c => c.2.job == tag).map (·.1)).foldl State.teardown s).dropTag tag
        ({ s with gang := { s.gang.unpark i with state := 0, enter := [], late := p.late, cause := p.cause } } : State).gangInterrupt

/-! ## The switch time (R395 to R398) -/

/-- The members that a collective has sent to. -/
def Coll.sentTo (k : Coll) : List Nat :=
  match k.ex? with
  | none => []
  | some x => (List.range k.step).map x.target

/-- The ready messages that a core's frozen collectives return to the hold (R398). -/
def Core.returned (c : Core) : List ReadyMsg := c.colls.flatMap fun k => k.ready.filter fun r => !k.sentTo.contains r.pkg

/-- A collective frozen (R395). -/
def Coll.freeze (k : Coll) : Coll := { k with frozen := true, ready := k.ready.filter fun r => k.sentTo.contains r.pkg }

/-- The packets of a tag in a port's buffers, by ascending channel and then arrival. -/
def Port.packetsOf (p : Port) (tag : Nat) : List Packet := p.bufs.flatMap fun b => b.2.filter fun q => q.tag == tag

/-- A port's buffers without a tag's packets. -/
def Port.without (p : Port) (tag : Nat) : Port :=
  { p with bufs := (p.bufs.map fun b => (b.1, b.2.filter fun q => q.tag != tag)).filter fun b => b.2 != [] }

/-- GANG_SWITCH_TIME (R395): the router, the collective units and the scheduler stop for the job. -/
def execGangSwitchTime (s : State) : Host.Outcome State Fault Refusal :=
  let g := s.gang
  if g.state ≠ 1 ∨ s.podtime < g.at_ then .next s else
  let tag := g.gtag
  let up := s.net.ports.filter fun p => p.2.service
  let inset := (up.filter fun p => (jobPkgs s tag).contains p.2.neighbour).map (·.1)
  let mine := s.cores.filter fun c => coreTag s c.id == tag
  let placed := mine.filterMap fun c => c.crew.map fun w => (⟨w.ctx, w.launch, w.num, c.id⟩ : Placed)
  let back := mine.flatMap Core.returned
  let bufd := s.net.ports.map fun p => (p.1, p.2.packetsOf tag)
  let hold := (back ++ s.net.held.filter fun h => h.packet.tag == tag).mergeSort fun a b => a.at_ ≤ b.at_
  let inj := s.net.wait.filter fun p => p.tag == tag
  let s1 : State := { s with
    gang := { g with state := 2, inset := inset, placed := placed, ended := ((up.map (·.1)).filter fun p => !inset.contains p) ++ [33] }
    net := { s.net with ports := (s.net.ports.map fun p => (p.1, p.2.without tag)), wait := s.net.wait.filter (fun p => p.tag != tag)
                        held := s.net.held.filter fun h => h.packet.tag != tag } }
  let s2 := mine.foldl (fun s c => s.putCore { s.coreAt c.id with colls := c.colls.map Coll.freeze }) s1
  let s3 := bufd.foldl (fun s b => b.2.foldl (fun s p => s.capture b.1 p) s) s2
  let s4 := inj.foldl (fun s p => s.capture 32 p) s3
  let s5 := hold.foldl (fun s h => s.capture 33 h.packet) s4
  .next (s5.requestAll fun w => match s5.ctx? w.ctx with | some x => x.job == tag | none => false)

/-- The marker of a link (R397). -/
def State.marker (s : State) (port : Nat) : Packet :=
  { Packet.blank s.gang.gtag 5 7 (mkDest (s.port port).neighbour 0) (mkDest Config.pkgpos 0) with off := s.gang.at_ }

/-- Whether a link still owes its marker and can send it (R368, R397). -/
def State.owesMarker (s : State) (port : Nat) : Bool :=
  s.gang.state == 2 && s.gang.inset.contains port && !s.gang.sent.contains port && (!(s.port port).service || s.canEmit port (s.marker port))

/-- GANG_MARKER_SEND (R397): the marker follows the job's last flit on a link to a package of its set; a link that has gone out of service carries none. -/
def execGangMarkerSend (port : Nat) (s : State) : Host.Outcome State Fault Refusal :=
  let g := s.gang
  if ¬s.owesMarker port then .next s else
  let p := s.marker port
  .next ({ (if (s.port port).service then putOut s port p else s) with gang := { g with sent := g.sent ++ [port] } })

/-- GANG_MARKER_TIMEOUT (R405): a marker is missing 1 ms after the switch time. -/
def execGangMarkerTimeout (s : State) : Host.Outcome State Fault Refusal :=
  let g := s.gang
  if g.state ≠ 2 ∨ s.podtime < g.at_ + 1000000 then .next s else
  match g.inset.filter fun p => !g.ended.contains p with
  | [] => .next s
  | l => .next (({ s with gang := { g with ended := g.ended ++ l } } : State).markCorrupt g.gtag 3)

/-! ## The basin (R399 to R402) -/

/-- The packets of a port in recorded order: by ascending channel and then arrival (R399). -/
def recorded (l : List Packet) : List Packet := (List.range 8).flatMap fun vc => l.filter fun p => p.vc == vc

/-- STEP of a collective record (R402; log entry 29). -/
def Coll.stepField (k : Coll) : Nat :=
  match k.ex? with
  | none => 0xFFFF
  | some x => if x.sends ≤ k.step then 0xFFFF else if x.isRing then x.first + k.step else 0

/-- JNEXT of a collective record (R402; log entry 29). -/
def Coll.nextField (k : Coll) : Nat :=
  match k.ex? with
  | none => 0
  | some x => match x.kind with | .allToAll .. => if k.step + 1 < x.p then k.step + 1 else 0 | _ => 0

/-- A frozen collective's record (R402). The local copy of a reduce-scatter is made at its end (R386). -/
def collRecord (f : Frozen) : List Byte :=
  let k := f.coll
  let kind := match k.ex? with | some x => x.kind.code | none => 0
  let ready := match k.ex? with | some x => x.senders.all fun m => k.told.contains m | none => true
  let copied := match k.ex? with | some x => (match x.kind with | .reduceScatter _ => false | _ => true) | none => true
  padTo 256 (padTo 64 k.desc ++ toBytes 8 k.list ++ toBytes 2 (mkDest 0 f.core) ++ toBytes 1 kind ++ toBytes 1 ((if copied then 2 else 0) + if ready then 1 else 0) ++
    toBytes 2 k.stepField ++ toBytes 2 0 ++ toBytes 4 k.nextField ++ toBytes 4 k.sent)

/-- Frozen collectives in ascending core and then acceptance order (R401). -/
def sortFrozen (l : List Frozen) : List Frozen := l.mergeSort fun a b => a.core ≤ b.core

/-- A port's entry of the basin's header (R401). -/
def portEntry (g : Gang) (off n k port : Nat) : List Byte :=
  let ended := if g.inset.contains port then g.marked.contains port else g.ended.contains port || port == 32
  padTo 32 (toBytes 8 (if k = 0 then 0 else off) ++ toBytes 8 n ++ toBytes 4 k ++
    toBytes 1 ((if ended then 1 else 0) + if g.inset.contains port then 2 else 0))

/-- The packet records and port entries of a basin, ports in order from an offset. -/
def basinPorts (g : Gang) : Nat → List Nat → List Byte × List Byte
  | _, [] => ([], [])
  | off, port :: ports =>
    let ps := recorded (Tab.get [] g.caps port)
    let recs := ps.flatMap packetRecord
    let r := basinPorts g (off + recs.length) ports
    (recs ++ r.1, portEntry g off recs.length ps.length port ++ r.2)

/-- The basin's bytes, its header first (R401). -/
def basinBytes (g : Gang) (now : Nat) : List Byte :=
  let fs := sortFrozen g.frozen
  let r := basinPorts g (0x1000 + 256 * fs.length) (List.range 34)
  let head := toBytes 2 1 ++ toBytes 2 g.gtag ++ toBytes 1 (if g.cause = 0 then 1 else 2) ++ toBytes 1 g.cause ++ toBytes 2 0 ++ toBytes 8 g.at_ ++
    toBytes 8 now ++ toBytes 4 fs.length
  padTo 0x1000 (padTo 64 head ++ r.2) ++ fs.flatMap collRecord ++ r.1

/-- Every capture has ended, every marker has gone out, and no crew of the job holds a core (R400). -/
def State.switchedOut (s : State) : Bool :=
  s.gang.state == 2 && s.gang.inset.all (fun p => s.gang.ended.contains p && s.gang.sent.contains p) && s.cores.all fun c => coreTag s c.id != s.gang.gtag

/-- SWITCH_OUT_COMPLETE (R400): the basin is written and the job parked. -/
def execSwitchOutComplete (s : State) : Host.Outcome State Fault Refusal :=
  if ¬s.switchedOut then .next s else
  let g := s.gang
  let s := s.setMemBytes g.obase (basinBytes g s.podtime)
  let st := if g.cause = 0 then 3 else 6
  let i := ((List.range 8).find? fun k => (Tab.get Park.reset g.park k).state == 0).getD 0
  let p : Park := ⟨st, g.late, g.cause, g.gtag, g.obase, g.osize, g.placed, g.caps.map (fun c => (c.1, recorded c.2)), sortFrozen g.frozen⟩
  .next ({ s with gang := { g with state := st, park := Tab.set Park.reset g.park i p, caps := [], frozen := [], placed := [], inset := [], ended := [],
                                   marked := [], sent := [] } } : State).gangInterrupt

/-! ## The resume (R403) -/

/-- The packet of a record: as captured, while the basin still holds its record as it was written; else as its bytes say (log entry 108). -/
def recordPacket (known : List Packet) (b : List Byte) : Packet :=
  match known.find? fun p => packetRecord p == b with
  | some p => p
  | none =>
    let f := fun k => Config.paramField k ((b.drop 16).take 32)
    ⟨field b 0 2, field b 2 1, field b 3 1, field b 4 4, field b 8 4, field b 14 2, f 0, f 1, f 2 != 0, f 3, if f 4 = 0 then none else some (f 4 - 1), f 5 != 0, f 6, f 7,
      false, (b.drop 64).take (field b 12 2)⟩

/-- `n` packet records that begin at an address. -/
def State.records (s : State) (known : List Packet) : Nat → Nat → List Packet
  | 0, _ => []
  | n + 1, a =>
    let len := 64 * (1 + (ofBytes (s.memBytes (a + 12) 2) + 63) / 64)
    recordPacket known (s.memBytes a len) :: State.records s known n (a + len)

/-- The packets of each port as the basin of a parked job holds them (R399, R401). -/
def State.basinCaps (s : State) (p : Park) : Tab (List Packet) :=
  (List.range 34).filterMap fun port =>
    let e := s.memBytes (p.base + 64 + 32 * port) 32
    let n := field e 16 4
    if n = 0 then none else some (port, s.records (p.caps.flatMap (·.2)) n (p.base + field e 0 8))

/-- A collective as its record in the basin holds it (R402): what the record gives no field, the unit kept (log entry 108). -/
def recordColl (f : Frozen) (b : List Byte) : Frozen :=
  if collRecord f == b then f else
  let k := { f.coll with desc := b.take 64, list := field b 64 8, sent := field b 84 4 }
  let step := match k.ex? with
    | none => k.step
    | some x => if field b 76 2 = 0xFFFF then x.sends else if x.isRing then field b 76 2 - x.first else field b 80 4 - 1
  ⟨destCore (field b 72 2 % 2 ^ 9), { k with step := step }⟩

/-- The collectives of a parked job as its basin holds them. -/
def State.basinColls (s : State) (p : Park) : List Frozen :=
  (p.frozen.take (ofBytes (s.memBytes (p.base + 24) 4))).zipIdx.map fun f => recordColl f.1 (s.memBytes (p.base + 0x1000 + 256 * f.2) 256)

/-- Steps 1 and 2 may be done: the resume time has come and every core of a returning crew is free. -/
def State.resumeReady (s : State) : Bool :=
  s.gang.state == 4 && s.gang.at_ ≤ s.podtime &&
    match s.gang.parked? s.gang.gtag with
    | none => false
    | some (_, p) => (s.returning p).all fun b => (s.coreAt b.2.2.2).crew.isNone

/-- Places one returning crew, not yet started; the slot of one that waits for the host stays. -/
def State.putBack (s : State) (b : Launch × Nat × Nat × Nat) : State :=
  let l := b.1
  let slots := match s.ctx? l.ctx with | some x => x.slots | none => []
  let s := (s.placeOn l b.2.1 (some b.2.2.1) b.2.2.2 true).prime l b.2.2.2
  let s := if (slots.find? fun e => e.1 == b.2.2.1).any fun e => e.2.waits || e.2.plug then
      match s.ctx? l.ctx with
      | some x => (s.putCore { s.coreAt b.2.2.2 with stands := some b.2.2.1 }).putCtx l.ctx { x with slots := slots }
      | none => s
    else s
  let n := s.hub.recvs + 1
  { s with hub := { s.hub with
      recvs := n
      launches := s.hub.launches.map fun k => if k.serial = l.serial then { k with recv := n, last := s.podtime, yielded := k.yielded.filter (· != b.2.1) } else k
      resv := s.hub.resv.filter fun r => r.1 != b.2.2.2 } }

/-- The extents and ranks that the unit reads again from a collective's list; undefined where the list has changed (R402), here as read. -/
def State.reread (s : State) (k : Coll) : List Nat × List Nat :=
  match (ptrRead s k.list 16).bind rankHeader with
  | none => (k.ext, k.ranks)
  | some ext =>
    match ptrRead s (k.list + 16) (4 * listProd ext) with
    | none => (k.ext, k.ranks)
    | some b => (ext, (List.range (listProd ext)).map fun i => field b (4 * i) 4)

/-- Puts a frozen collective back into the unit of its core, and takes the held ready messages it waits for (R385, R403). -/
def State.rejoin (s : State) (f : Frozen) : State :=
  let s := s.focusOn f.core
  if s.core.crew.isNone then s else
  let r := s.reread f.coll
  let k := { f.coll with ext := r.1, ranks := r.2 }
  let want := match k.ex? with | some x => x.receivers.filter fun m => !k.ready.any fun p => p.pkg == m | none => []
  let (more, s) := matchHeld s (coreTag s s.core.id) k.tag want
  s.mapCore fun c => { c with colls := c.colls ++ [{ k with ready := k.ready ++ more }] }

/-- A record re-enters its port: an input buffer, as if just arrived, or the router, as if just handed over by a core (R403). -/
def State.reenter (s : State) (port : Nat) (p : Packet) : State :=
  if 32 ≤ port then s.inject p
  else
    let fresh := (Tab.get [] (s.port port).bufs p.vc).isEmpty
    let s := s.enterBuf port p
    if fresh ∧ destPkg p.dest = Config.pkgpos then advanceHead s port p.vc else s

/-- The records of a port that have room re-enter in order; the rest wait (R372, R403). -/
def State.reenterAll (port : Nat) : List Packet → State → List Packet × State
  | [], s => ([], s)
  | p :: l, s => if port < 32 ∧ ¬s.bufFits port p then (p :: l, s) else State.reenterAll port l (s.reenter port p)

/-- Every port's records that have room re-enter, those of the injection port before anything that the others bring about (R404). -/
def State.reinject (s : State) : State :=
  ((s.gang.enter.filter fun e => 32 ≤ e.1) ++ s.gang.enter.filter fun e => e.1 < 32).foldl (fun s e =>
    let r := State.reenterAll e.1 e.2 s
    { r.2 with gang := { r.2.gang with enter := Tab.set [] r.2.gang.enter e.1 r.1 } }) s

/-- Some record that waits has room now. -/
def State.canEnter (s : State) : Bool :=
  s.gang.state == 5 && s.gang.enter.any fun e => match e.2 with | p :: _ => 32 ≤ e.1 || s.bufFits e.1 p | [] => false

/-- GANG_RESUME_TIME (R403 steps 1 to 3): contexts and collectives are restored, the job's other crews take the cores that are free, and the records re-enter. -/
def execGangResumeTime (s : State) : Host.Outcome State Fault Refusal :=
  if s.gang.state = 5 then .next s.reinject else
  if ¬s.resumeReady then .next s else
  match s.gang.parked? s.gang.gtag with
  | none => .next s
  | some (_, p) =>
    let tag := s.gang.gtag
    let here := s.core.id
    let back := s.returning p
    let s : State := { s with ctxs := s.ctxs.map fun c => if c.2.job = tag then (c.1, { c.2 with held := false }) else c }
    let s := back.foldl State.putBack s
    let s := State.placeJob tag Config.cores { s with gang := { s.gang with state := 5 } }
    let caps := s.basinCaps p
    let hold := Tab.get [] caps 33
    let s : State := { s with net := { s.net with
      held := s.net.held ++ hold.zipIdx.map fun q => ⟨s.net.nextXfer + q.2, q.1⟩
      nextXfer := s.net.nextXfer + hold.length } }
    let s := ((s.basinColls p).foldl State.rejoin s).focusOn here
    .next ({ s with gang := { s.gang with enter := caps.filter fun c => c.1 != 33 } } : State).reinject

/-- GANG_RESUME_COMPLETE (R403 step 4): the crews start and the collectives thaw. The basin's bytes stay in memory as they were written (log entry 117). -/
def execGangResumeComplete (s : State) : Host.Outcome State Fault Refusal :=
  if s.gang.state ≠ 5 ∨ ¬s.gang.enter.isEmpty then .next s else
  match s.gang.parked? s.gang.gtag with
  | none => .next s
  | some (i, _) =>
    let tag := s.gang.gtag
    let thaw (k : Coll) : Coll := { k with frozen := false, since := s.podtime, retry := s.podtime + 10000 }
    let s := (s.cores.filter fun c => coreTag s c.id == tag).foldl (fun s c =>
      s.putCore { s.coreAt c.id with held := c.stands.isSome, colls := c.colls.map thaw }) s
    let s : State := { s with net := { s.net with xfers := s.net.xfers.map fun x => if x.tag = tag then { x with since := s.podtime } else x } }
    .next ({ s with gang := { s.gang.unpark i with state := 0 } } : State).gangInterrupt

end Sys2Proof.Machine
end

