-- ==== Sys2Proof/Machine/Iluja.lean ====
section
/-!
DEFINITION. Iluja (R232 to R247): a plain kernel becomes five slices, token counts, queues and a slice map, or is refused with a code of R247.
-/
namespace Sys2Proof.Machine

/-! ## The plain words -/

/-- A word of a plain kernel: the engine of its class (S for a class that names none) and its instruction, `none` when illegal (R234). -/
structure PWord where
  raw : IWord
  eng : Eng
  ins : Option Instr
  deriving DecidableEq, Repr

def plainWord (w : IWord) : PWord :=
  match classEngine w with
  | none => ⟨w, .S, none⟩
  | some e => match decode e 0 w with
    | .ok i => ⟨w, e, some i⟩
    | .illegal _ => ⟨w, e, none⟩

/-- Whether a word is of the long format, and its common opcode (R10, R14). -/
def longFormat (w : IWord) : Bool := fld w 26 3 == 7
def opcodeOf (w : IWord) : Nat := if longFormat w then 0 else (fld w 16 7).toNat

/-- A word with a non-zero wait or signal field (R234). -/
def marked (w : IWord) : Bool := !longFormat w && (fld w 26 3 != 0 || fld w 23 3 != 0)

/-- A word that only slicing places (R234): SYNC, SYNC.V1, FOLLOW, BRF, SEND, QBIND, or a marked word. -/
def onlySlicing (w : IWord) : Bool :=
  marked w || match classEngine w with
  | none => false
  | some c => [0x30, 0x31, 0x34, 0x35].contains (opcodeOf w) || c == .S && [0x6A, 0x6C].contains (opcodeOf w)

/-- A loop word that R19 makes illegal: count or body length zero. -/
def badLoop (w : IWord) : Bool :=
  (classEngine w).isSome && (opcodeOf w == 0x32 && fld w 0 11 == 0 || opcodeOf w == 0x33 && (fld w 0 7 == 0 || fld w 7 9 == 0))

/-! ## Registers and known values (R233, R238) -/

/-- A common-group word that forms a value: destination, sources, function. -/
def arith? : Instr → Option (Nat × List Nat × (List Word → Word)) := fun i =>
  let t (d a b : BitVec 5) (f : Word → Word → Word) : Option (Nat × List Nat × (List Word → Word)) :=
    some (d.toNat, [a.toNat, b.toNat], fun l => f (l.getD 0 0) (l.getD 1 0))
  let u (d a : BitVec 5) (f : Word → Word) : Option (Nat × List Nat × (List Word → Word)) := some (d.toNat, [a.toNat], fun l => f (l.getD 0 0))
  match i with
  | .add _ _ d a b w => t d a b (aluAdd w)
  | .sub _ _ d a b w => t d a b (aluSub w)
  | .mul _ _ d a b w => t d a b (aluMul w)
  | .mulh _ _ d a b w => t d a b (aluMulh w)
  | .mulhu _ _ d a b w => t d a b (aluMulhu w)
  | .div _ _ d a b w => t d a b (aluDiv w)
  | .divu _ _ d a b w => t d a b (aluDivu w)
  | .rem _ _ d a b w => t d a b (aluRem w)
  | .remu _ _ d a b w => t d a b (aluRemu w)
  | .and _ _ d a b w => t d a b (aluAnd w)
  | .or _ _ d a b w => t d a b (aluOr w)
  | .xor _ _ d a b w => t d a b (aluXor w)
  | .andn _ _ d a b w => t d a b (aluAndn w)
  | .shl _ _ d a b w => t d a b (aluShl w)
  | .shr _ _ d a b w => t d a b (aluShr w)
  | .sra _ _ d a b w => t d a b (aluSra w)
  | .slt _ _ d a b w => t d a b (aluSlt w)
  | .sltu _ _ d a b w => t d a b (aluSltu w)
  | .min _ _ d a b w => t d a b (aluMin w)
  | .max _ _ d a b w => t d a b (aluMax w)
  | .minu _ _ d a b w => t d a b (aluMinu w)
  | .maxu _ _ d a b w => t d a b (aluMaxu w)
  | .sel _ _ d a b => some (d.toNat, [d.toNat, a.toNat, b.toNat], fun l => if l.getD 0 0 = 0 then l.getD 2 0 else l.getD 1 0)
  | .clz _ _ d a w => u d a (aluClz w)
  | .popc _ _ d a w => u d a (aluPopc w)
  | .addi _ _ d a k => u d a fun x => aluAdd false x (k.signExtend 64)
  | .andi _ _ d a k => u d a fun x => aluAnd false x (k.signExtend 64)
  | .ori _ _ d a k => u d a fun x => aluOr false x (k.signExtend 64)
  | .xori _ _ d a k => u d a fun x => aluXor false x (k.signExtend 64)
  | .shli _ _ d a k => u d a fun x => aluShl false x (k.setWidth 64)
  | .shri _ _ d a k => u d a fun x => aluShr false x (k.setWidth 64)
  | .srai _ _ d a k => u d a fun x => aluSra false x (k.setWidth 64)
  | .slti _ _ d a k => u d a fun x => aluSlt false x (k.signExtend 64)
  | .sltiu _ _ d a k => u d a fun x => aluSltu false x (k.signExtend 64)
  | .li _ d k => some (d.toNat, [], fun _ => k.signExtend 64)
  | .lih _ d k => some (d.toNat, [d.toNat], fun l => (l.getD 0 0 <<< 17) ||| k.setWidth 64)
  | _ => none

/-- Integer registers that other words name, those named through another register's field included (R233). -/
def otherNames : Instr → List Nat
  | .loop _ _ s _ | .crw _ _ s _ | .fence _ s _ | .binit _ s _ | .barv _ s _ | .fmtw _ s _ | .pwlw _ s _ | .callr _ s | .callx _ s _
  | .beqz _ s _ | .bnez _ s _ | .bltz _ s _ | .bgez _ s _ | .bgtz _ s _ | .blez _ s _ => [s.toNat]
  | .crr _ _ d _ => [d.toNat]
  | .ld _ d a _ _ | .lda _ d a _ _ | .amo _ d a _ _ | .sptest _ d a | .spcast _ d a _ => [d.toNat, a.toNat]
  | .st _ s a _ _ | .stl _ s a _ _ | .arm _ s a _ | .coll _ s a => [s.toNat, a.toNat]
  | .cas _ d a b _ => [d.toNat, a.toNat, b.toNat]
  | .btry _ d _ _ | .mstat _ d _ _ => [d.toNat]
  | .ldr _ d a _ _ _ => [d.toNat, a.toNat]
  | .stx _ s a _ _ => [s.toNat, a.toNat]
  | .ldt _ m p _ _ | .ldg _ m p _ _ _ | .ldx _ m p _ _ _ | .ldz _ m p _ _ _ | .stt _ m p _ _ | .sts _ m p _ _ _ | .sttc _ m p _ _ _
  | .red _ m p _ _ _ => [m.toNat, 2 * p.toNat, 2 * p.toNat + 1]
  | .ldt3 _ m p _ _ z | .stt3 _ m p _ _ z => [m.toNat, 2 * p.toNat, 2 * p.toNat + 1, z.toNat]
  | .pref _ m g _ => [m.toNat, g.toNat]
  | .sendt _ x => [x.toNat]
  | .pub _ h _ => [h.toNat]
  | .bcopy _ d s n _ => [d.toNat, s.toNat, n.toNat]
  | .dset _ _ s _ | .vfill _ _ s | .viota _ _ s _ _ => [s.toNat]
  | .vclamp _ _ _ lo hi => [lo.toNat, hi.toNat]
  | .mma _ c a b _ _ => [c.toNat, a.toNat, b.toNat, a.toNat + 1, b.toNat + 1]
  | .mmas _ c a b _ _ | .mmat _ c a b _ _ => [c.toNat, a.toNat, b.toNat]
  | .mzero _ w => [w.toNat]
  | .mdrain _ w s _ _ _ => [w.toNat, s.toNat, s.toNat + 1]
  | .mlda _ w s => [w.toNat, s.toNat]
  | .tconf _ _ s _ | .tscal _ _ _ s | .tadd _ _ _ _ s | .tsub _ _ _ _ s => [s.toNat]
  | .tld _ _ s k => [s.toNat, s.toNat + 1, k.toNat]
  | .tst _ _ s => [s.toNat, s.toNat + 1]
  | .trank _ d _ | .ttol _ d _ => [d.toNat]
  | .tmma _ c _ b _ _ => [c.toNat, b.toNat]
  | _ => []

def namesOf (i : Instr) : List Nat := match arith? i with | some a => a.1 :: a.2.1 | none => otherNames i

/-- Integer registers of its engine that a word writes; a callee may change any register of S. -/
def writesOf (i : Instr) : List Nat :=
  let l := match arith? i with
    | some a => [a.1]
    | none => match i with
      | .crr _ _ d _ | .ld _ d _ _ _ | .lda _ d _ _ _ | .amo _ d _ _ _ | .cas _ d _ _ _ | .sptest _ d _ | .spcast _ d _ _ => [d.toNat]
      | .btry _ d _ _ | .mstat _ d _ _ | .trank _ d _ | .ttol _ d _ | .ldr _ d _ _ _ _ => [d.toNat]
      | .ldz _ _ p _ _ false => [2 * p.toNat + 1]
      | .addpc _ => [30]
      | .call _ | .callr .. | .callx .. => List.range 32
      | _ => []
  l.filter (· != 0)

/-- A register that only slices use (R233). -/
def PWord.reserved (w : PWord) : Bool :=
  match w.ins with
  | none => false
  | some i => (namesOf i).any fun r => slicePrivate w.eng r

/-! ## Loops and branches (R235, R236) -/

/-- A loop of the plain kernel: its word, its last body word, whether its count is a register's, and how many loops hold it. -/
structure ILoop where
  idx  : Nat
  last : Nat
  reg  : Bool
  lev  : Nat
  deriving DecidableEq, Repr

def ILoop.holds (l : ILoop) (i : Nat) : Bool := l.idx < i && i ≤ l.last

/-- The loops of a kernel by index; `none`: a loop that R68 makes illegal or that runs past the kernel (code 8). -/
def findLoops (ws : List PWord) : Option (List ILoop) :=
  ws.zipIdx.foldlM (fun ls w =>
    match w.1.ins with
    | some (.loop _ _ _ len) => add ls w.2 len.toNat true
    | some (.loopi _ _ _ len) => add ls w.2 len.toNat false
    | _ => some ls) []
where
  add (ls : List ILoop) (i len : Nat) (reg : Bool) : Option (List ILoop) :=
    let outer := ls.filter (·.holds i)
    if ws.length ≤ i + len ∨ 4 ≤ outer.length ∨ outer.any (fun o => o.last < i + len) then none else
    some (ls ++ [⟨i, i + len, reg, outer.length⟩])

/-- The offset of an S branch or J. -/
def branchOff : Instr → Option Int
  | .beqz _ _ o | .bnez _ _ o | .bltz _ _ o | .bgez _ _ o | .bgtz _ _ o | .blez _ _ o => some o.toInt
  | .j o => some o.toInt
  | _ => none

/-- The branches of a kernel: index and target. -/
def findBranches (ws : List PWord) : List (Nat × Int) :=
  ws.zipIdx.filterMap fun w => (w.1.ins.bind branchOff).map fun o => (w.2, (w.2 : Int) + o)

/-- Whether a target lies in a loop's body. -/
def ILoop.holdsInt (l : ILoop) (t : Int) : Bool := (l.idx : Int) < t && t ≤ l.last

/-- The words between a branch and its target (R236). -/
def between (b : Nat × Int) (j : Nat) : Bool :=
  if (b.1 : Int) < b.2 then b.1 < j && (j : Int) < b.2 else b.2 ≤ (j : Int) && j ≤ b.1

/-- A kernel as Iluja holds it. -/
structure Kernel where
  ws    : List PWord
  loops : List ILoop
  brs   : List (Nat × Int)
  scr   : List (Nat × Nat)              -- `.scratch` regions: offset, size
  deriving DecidableEq, Repr

def Kernel.n (k : Kernel) : Nat := k.ws.length
def Kernel.engOf (k : Kernel) (i : Nat) : Eng := (k.ws[i]?.map (·.eng)).getD .S
def Kernel.insOf (k : Kernel) (i : Nat) : Option Instr := k.ws[i]?.bind (·.ins)
def Kernel.loopAt (k : Kernel) (i : Nat) : Option ILoop := k.loops.find? fun l => l.idx == i
def Kernel.target (k : Kernel) (i : Nat) : Option Int := (k.brs.find? fun b => b.1 == i).map (·.2)

/-- The loops that hold a word, outermost first. -/
def Kernel.enc (k : Kernel) (i : Nat) : List ILoop := k.loops.filter (·.holds i)

/-- The innermost loop that holds both words. -/
def Kernel.common (k : Kernel) (i j : Nat) : Option ILoop := ((k.enc i).filter (·.holds j)).getLast?

/-- A loop that holds no loop. -/
def Kernel.innermost (k : Kernel) (l : ILoop) : Bool := !k.loops.any fun m => l.holds m.idx

/-- A register of an engine as one number. -/
def regKey (e : Eng) (r : Nat) : Nat := 32 * e.code + r

/-- The registers that the word at an index writes. -/
def Kernel.writesAt (k : Kernel) (i : Nat) : List Nat :=
  match k.ws[i]? with
  | some ⟨_, e, some ins⟩ => (writesOf ins).map (regKey e)
  | _ => []

/-- Loop bodies and backward spans, and forward branches with their targets, with what is written inside (R238). -/
def Kernel.spans (k : Kernel) : List (Nat × Nat × List Nat) :=
  let ws (a b : Nat) : List Nat := (List.range (b + 1 - a)).flatMap fun j => k.writesAt (a + j)
  k.loops.map (fun l => (l.idx + 1, l.last, ws (l.idx + 1) l.last)) ++
    k.brs.filterMap fun b => if b.2 ≤ b.1 then some (b.2.toNat, b.1, ws b.2.toNat b.1) else none
def Kernel.skips (k : Kernel) : List (Nat × List Nat) :=
  k.brs.filterMap fun b => if (b.1 : Int) < b.2 then
    some (b.2.toNat, (List.range (min k.n b.2.toNat - (b.1 + 1))).flatMap fun j => k.writesAt (b.1 + 1 + j)) else none

/-- Last write of each register before a word, with its value when known. -/
abbrev Known := Tab (Option (Nat × Option Word))

/-- What Iluja knows of a register at word `i` (R238). -/
def knownAt (sp : List (Nat × Nat × List Nat)) (sk : List (Nat × List Nat)) (m : Known) (i key : Nat) : Option Word :=
  if key % 32 = 0 then some 0 else
  match Tab.get none m key with
  | some (k, some v) =>
    if sp.all (fun s => !s.2.2.contains key || i < s.1 || s.2.1 < i && s.2.1 < k) &&
       sk.all (fun s => !s.2.contains key || i < s.1 || s.1 ≤ k) then some v else none
  | _ => none

/-- Carries the known values past word `i`. -/
def Kernel.learn (k : Kernel) (sp : List (Nat × Nat × List Nat)) (sk : List (Nat × List Nat)) (m : Known) (i : Nat) : Known :=
  match k.ws[i]? with
  | some ⟨_, e, some ins⟩ =>
    let val := (arith? ins).bind fun a => (a.2.1.mapM fun r => knownAt sp sk m i (regKey e r)).map a.2.2
    (writesOf ins).foldl (fun m r => Tab.set none m (regKey e r) (some (i, val))) m
  | _ => m

/-- The known values before each word. -/
def Kernel.knowns (k : Kernel) : List Known :=
  ((List.range k.n).foldl (fun (p : List Known × Known) i => (p.1 ++ [p.2], k.learn k.spans k.skips p.2 i)) ([], [])).1

/-- Words from which control comes to word `j`. -/
def Kernel.preds (k : Kernel) (j : Nat) : List Nat :=
  (if j = 0 then [] else
    match k.insOf (j - 1) with
    | some (.j _) | some (.halt _) => []
    | _ => [j - 1]) ++
  (k.loops.filter (fun l => l.idx + 1 == j)).map (·.last) ++ (k.brs.filter fun b => b.2 == (j : Int)).map (·.1)

/-- The words that last set descriptor `d`, or change its base, on some way to the words given. -/
def Kernel.setters (k : Kernel) (d : BitVec 4) : Nat → List Nat → List Nat → List Nat
  | 0, _, _ => []
  | _, [], _ => []
  | f + 1, j :: todo, seen =>
    if seen.contains j then k.setters d f todo seen else
    match k.insOf j with
    | some (.dset _ d' _ .cnt) => if d' = d then k.setters d f (k.preds j ++ todo) (j :: seen) else k.setters d f (k.preds j ++ todo) (j :: seen)
    | some (.dset _ d' _ _) => if d' = d then j :: k.setters d f todo (j :: seen) else k.setters d f (k.preds j ++ todo) (j :: seen)
    | _ => k.setters d f (k.preds j ++ todo) (j :: seen)

/-- What Iluja knows of a descriptor at word `i` (R238): the value that every DSET.SET reaching it gives, with no ADDB after it. -/
def Kernel.knownDesc (k : Kernel) (ks : List Known) (i : Nat) (d : BitVec 4) : Option Word :=
  let l := (k.setters d (4 * k.n + 4) (k.preds i) []).map fun j =>
    match k.insOf j with
    | some (.dset _ _ s .set) => knownAt k.spans k.skips (ks.getD j []) j (regKey .V s.toNat)
    | _ => none
  match l with
  | some v :: r => if r.all (· == some v) then some v else none
  | _ => none

/-! ## Accesses (R238, R239) -/

/-- What a word accesses: home scratchpad by region (`none`: every region), memory by ordering class, movements of no class, and the tables. -/
structure WAcc where
  scr   : List (Option Nat × Bool)
  mem   : List (Nat × Bool)
  moves : Bool
  acq   : Bool
  rel   : Bool
  fence : Option Nat
  fmtW  : Bool
  fmtR  : Bool
  pwlW  : Bool
  pwlR  : Bool
  dstW  : Bool
  dstR  : Bool
  deriving DecidableEq, Repr

def WAcc.none : WAcc := ⟨[], [], false, false, false, .none, false, false, false, false, false, false⟩

/-- The region that holds a base address. -/
def regionOf (scr : List (Nat × Nat)) (b : Option Nat) : Option Nat :=
  b.bind fun b => (scr.zipIdx.find? fun r => r.1.1 ≤ b && b < r.1.1 + r.1.2).map (·.2)

/-- The descriptors a V word names: destinations, then sources; VFMA's dd, which it reads too, is a destination (R126). -/
def descRoles : Instr → List (BitVec 4) × List (BitVec 4)
  | .vadd _ d a b _ _ | .vsub _ d a b _ _ | .vmul _ d a b _ _ | .vfma _ d a b _ _ | .vmin _ d a b _ _ | .vmax _ d a b _ _
  | .vand _ d a b | .vor _ d a b | .vxor _ d a b | .vshl _ d a b | .vshr _ d a b | .vsra _ d a b | .vcmp _ d a b _ _
  | .vdqnt _ d a b _ _ | .vrshr _ d a b _ _ | .vdiv _ d a b _ _ | .vgth _ d a b | .vsct _ d a b => ([d], [a, b])
  | .vqnt _ d a b _ _ => ([d, b], [a])
  | .vsel _ d a b m => ([d], [a, b, m])
  | .vabs _ d a _ _ | .vneg _ d a _ _ | .vmov _ d a | .vcvt _ d a _ _ _ | .vcvtV1 _ d a _ _ | .vclamp _ d a _ _ | .vred _ d a _ _ _
  | .vscan _ d a _ _ _ | .vrcp _ d a _ _ | .vrsqrt _ d a _ _ | .vsqrt _ d a _ _ | .vpwl _ d a _ _ _ _ => ([d], [a])
  | .vfill _ d _ | .viota _ d _ _ _ | .vflg _ d _ => ([d], [])
  | _ => ([], [])

/-- The regions a V word reads: its sources', and that of VFMA's addend (R132). -/
def descReads (i : Instr) : List (BitVec 4) := (descRoles i).2 ++ match i with | .vfma _ d _ _ _ _ => [d] | _ => []

/-- The accesses of a word, given what is known of registers and of descriptors; `mx`: scale bytes count (R238). -/
def accOf (scr : List (Nat × Nat)) (kr : Nat → Option Word) (kd : BitVec 4 → Option Word) (mx : Bool) (i : Instr) : WAcc :=
  let home (b : Option Word) (mask : Nat) (w : Bool) : Option Nat × Bool := (regionOf scr (b.map fun v => v.toNat &&& mask), w)
  let soff (p : BitVec 3) (w : Bool) := home (if p = 0 then some 0 else kr (2 * p.toNat)) 0x1FFFFF w
  let ptr (r : Nat) (w : Bool) : List (Option Nat × Bool) :=
    match (kr r).map window with
    | some (.own ..) | some (.quad ..) => [(.none, w)]
    | _ => []
  let at_ (r : Nat) (c : Nat) (w : Bool) (a : WAcc) : WAcc := { a with mem := a.mem ++ [(c, w)], scr := a.scr ++ ptr r w }
  let op (r : BitVec 4) (w : Bool) := home (kr r.toNat) 0x1FFFFF w
  let next (r : BitVec 4) (w : Bool) := home (if r.toNat = 15 then some 0 else kr (r.toNat + 1)) 0x1FFFFF w
  let z := WAcc.none
  let v : WAcc := { z with scr := (descRoles i).1.map (fun d => home (kd d) 0x1FFFFF true) ++ (descReads i).map fun d => home (kd d) 0x1FFFFF false }
  match i with
  | .ld _ _ a _ o => at_ a.toNat o.toNat false z
  | .st _ _ a _ o => at_ a.toNat o.toNat true z
  | .lda _ _ a _ o => { at_ a.toNat o.toNat false z with acq := true }
  | .stl _ _ a _ o => { at_ a.toNat o.toNat true z with rel := true }
  | .amo _ _ a _ _ | .cas _ _ a _ _ => at_ a.toNat 0 true z
  | .callx _ s _ => at_ s.toNat 0 false z
  | .coll _ d a => at_ a.toNat 0 false (at_ d.toNat 0 false z)
  | .fence _ s _ => { z with fence := some (if s = 0 then 0xFFFF else match kr s.toNat with | some m => m.toNat % 65536 | none => 0xFFFF) }
  | .bwait .. | .btry .. => { z with acq := true }
  | .barv .. => { z with rel := true }
  | .arm _ s _ _ => { z with scr := [home (kr s.toNat) 0x1FFFC0 false] }
  | .fmtw .. => { z with fmtW := true }
  | .pwlw _ s _ => { z with pwlW := true, scr := [home (kr s.toNat) 0x1FFFE0 false] }
  | .ldr _ _ a _ _ o => at_ a.toNat o.toNat false z
  | .stx _ _ a _ o => at_ a.toNat o.toNat true z
  | .ldt _ m p _ o | .ldt3 _ m p _ o _ | .ldx _ m p _ o _ | .ldz _ m p _ o _ =>
    let a := at_ m.toNat o.toNat false z
    { a with scr := a.scr ++ [soff p true] }
  | .ldg _ m p _ o _ =>
    let a := at_ m.toNat o.toNat false z
    { a with scr := a.scr ++ [soff p true, home (kr (2 * p.toNat + 1)) 0x1FFFFF false] }
  | .stt _ m p _ o | .stt3 _ m p _ o _ | .red _ m p _ o _ =>
    let a := at_ m.toNat o.toNat true z
    { a with scr := a.scr ++ [soff p false] }
  | .sttc _ m p _ o _ =>
    let a := at_ m.toNat o.toNat true z
    { a with scr := a.scr ++ [soff p false], dstR := true }
  | .sts _ m p _ o _ =>
    let a := at_ m.toNat o.toNat true z
    { a with scr := a.scr ++ [soff p false, home (kr (2 * p.toNat + 1)) 0x1FFFFF false] }
  | .sendt _ x => { z with moves := true, scr := [home (kr x.toNat) 0x1FFFC0 false] }
  | .pub .. => { z with rel := true }
  | .bcopy .. => { z with moves := true }
  | .vpwl .. => { v with pwlR := true }
  | .mma _ _ a b _ _ => { z with fmtR := true, scr := [op a false, op b false] ++ if mx then [next a false, next b false] else [] }
  | .mmas _ _ a b _ _ | .mmat _ _ a b _ _ => { z with fmtR := true, scr := [op a false, op b false] }
  | .tmma _ _ _ b _ _ => { z with fmtR := true, scr := [op b false] }
  | .mdrain _ _ s _ _ _ => { z with fmtR := true, dstW := true, scr := op s true :: if mx then [next s true] else [] }
  | .mlda _ _ s => { z with scr := [op s false] }
  | .mstat .. => { z with dstW := true }
  | .tld _ _ s _ => { z with scr := [op s false, next s false] }
  | .tst _ _ s => { z with scr := [op s true, next s true] }
  | _ => v

/-- A memory or scratchpad access. -/
def WAcc.data (a : WAcc) : Bool := !a.scr.isEmpty || !a.mem.isEmpty

/-- Whether `a`, the older in sequential order, and `b` conflict (R239). A movement of no class, BCOPY's or a SENDT's, is
ordered by releases and by a fence over all classes alone (R120, R375). -/
def conflict (a b : WAcc) : Bool :=
  a.scr.any (fun x => b.scr.any fun y => (x.2 || y.2) && (x.1 == none || y.1 == none || x.1 == y.1)) ||
  a.mem.any (fun x => b.mem.any fun y => (x.2 || y.2) && x.1 == y.1) ||
  a.acq && b.data || b.rel && (a.data || a.moves) ||
  (match a.fence with | some m => b.mem.any (fun x => m.testBit x.1) || b.moves && m == 0xFFFF | none => false) ||
  (match b.fence with | some m => a.mem.any (fun x => m.testBit x.1) || a.moves && m == 0xFFFF | none => false) ||
  a.fmtW && b.fmtR || a.fmtR && b.fmtW || a.pwlW && b.pwlR || a.pwlR && b.pwlW || a.dstW && b.dstR || a.dstR && b.dstW

/-- Whether what an entry stores of a format value (R58) selects a microscaled format in AFMT, BFMT or DFMT (R57, R238). -/
def fmtMicro (w : Nat) : Bool :=
  let v := (fmtStore (BitVec.ofNat 32 w)).1.toNat
  [bits v 28 24, bits v 23 19, bits v 18 14].any fun c => 16 ≤ c && c ≤ 18

/-! ## What each slice holds (R235, R236) -/

/-- Engine and index as one number. -/
def node (e : Eng) (i : Nat) : Nat := 5 * (i + 1) + e.cls

/-- The SENDs that stand before S's copy of a loop or branch word. -/
def sendNode (k : Kernel) (i : Nat) : Nat := 5 * (k.n + i + 2)

/-- Whether engine `e` has a word of a set with an index that satisfies `f`. -/
def holdsWord (h : List Nat) (e : Eng) (f : Nat → Bool) : Bool := h.any fun x => x % 5 == e.cls && f (x / 5 - 1)

/-- One round: loop copies, SENDs of counts, and branch copies that the words placed so far call for. -/
def Kernel.place (k : Kernel) (h : List Nat) : List Nat :=
  let loops := k.loops.flatMap fun l => Eng.all.filterMap fun e => if holdsWord h e l.holds then some (node e l.idx) else none
  let sends := k.loops.filterMap fun l => if l.reg && Eng.all.any (fun e => e != .S && holdsWord h e l.holds) then some (node .S l.idx) else none
  let brs := k.brs.flatMap fun b => Eng.all.filterMap fun e =>
    let left := k.loops.any fun l => l.holds b.1 && !l.holdsInt b.2 && h.contains (node e l.idx)
    if e ≠ .S ∧ (holdsWord h e (between b) ∨ left) then some (node e b.1) else none
  (h ++ loops ++ sends ++ brs).eraseDups

/-- Every (engine, index) that has a word in its slice. -/
def Kernel.held (k : Kernel) : List Nat :=
  (List.range (k.loops.length + k.brs.length + 1)).foldl (fun h _ => k.place h)
    ((List.range k.n).filterMap fun i => if (k.loopAt i).isSome then none else some (node (k.engOf i) i))

/-! ## Edges (R241 to R245) -/

inductive EdgeKind where
  | dep | queue | free | credit
  deriving DecidableEq, Repr

/-- An edge: older word (`none`: the last QBIND), younger word, distance, engines, initial count; the loop after whose copy it pushes, the loop on whose copy it pops. -/
structure Edge where
  a     : Option Nat
  b     : Nat
  dist  : Nat
  kind  : EdgeKind
  d     : Eng
  e     : Eng
  init  : Nat
  after : Option ILoop
  at_   : Option ILoop
  deriving DecidableEq, Repr

/-- Index of the word an edge pops at. -/
def Edge.popIdx (x : Edge) : Nat := match x.at_ with | some l => l.idx | none => x.b

def Edge.pair (x : Edge) : Nat := pairIdx x.d.code x.e.code

/-- An edge between two words, hoisted as R241 gives. -/
def Kernel.mkEdge (k : Kernel) (a b dist : Nat) : Edge :=
  { a := some a, b := b, dist := dist, kind := .dep, d := k.engOf a, e := k.engOf b, init := dist
    after := (k.enc a).find? fun l => !l.holds b, at_ := (k.enc b).find? fun l => !l.holds a }

/-- The edges of every conflicting pair, in ascending order of the younger's index, then of the older's (R239, R241, R242). -/
def Kernel.allEdges (k : Kernel) (accs : List WAcc) : List Edge :=
  (List.range k.n).flatMap fun b => (List.range k.n).filterMap fun a =>
    if k.engOf a = k.engOf b ∨ (b ≤ a ∧ (k.common a b).isNone) ∨ !conflict (accs.getD a WAcc.none) (accs.getD b WAcc.none) then none else
    some (k.mkEdge a b (if a < b then 0 else 1))

/-- An arc of the order in which R242 looks for chains: from, to, the loop whose next iteration it enters, and the words that push and pop for it; slice order needs none. -/
structure Arc where
  src  : Nat
  dst  : Nat
  wrap : Option Nat
  push : Option Nat
  pop  : Option Nat
  deriving DecidableEq, Repr

/-- Slice order and the follow path. -/
def Kernel.sliceArcs (k : Kernel) (h : List Nat) : List Arc :=
  Eng.all.flatMap (fun e =>
    let one (i : Nat) : List Nat := if !h.contains (node e i) then [] else
      (if e = .S ∧ ((k.loopAt i).any (·.reg) ∨ (k.target i).isSome) then [sendNode k i] else []) ++ [node e i]
    let seq := (if e = .S then [0] else []) ++ (List.range k.n).flatMap one
    (seq.zip seq.tail).map (fun p => ⟨p.1, p.2, none, none, none⟩) ++
    k.loops.filterMap fun l =>
      let body := ((List.range k.n).filter l.holds).flatMap one
      match body.head?, body.getLast? with
      | some f, some t => some ⟨t, f, some l.idx, none, none⟩
      | _, _ => none) ++
  (k.loops.filter (·.reg)).flatMap (fun l => Eng.all.filterMap fun e => if e ≠ .S ∧ h.contains (node e l.idx) then some ⟨sendNode k l.idx, node e l.idx, none, some l.idx, some l.idx⟩ else none) ++
  k.brs.flatMap fun b => Eng.all.filterMap fun e => if e ≠ .S ∧ h.contains (node e b.1) then some ⟨sendNode k b.1, node e b.1, none, some b.1, some b.1⟩ else none

/-- The arc of an edge, of those that stand: from the word, or the end of the loop, that it pushes after, to the word it pops at. Where several pop at S's copy of a loop, they pop on a
SYNC before its SENDs; one alone pops in the wait field of the copy, after them (R244). -/
def Kernel.edgeArc (k : Kernel) (h : List Nat) (all : List Edge) (x : Edge) : Arc :=
  let src := match x.a with
    | none => 0
    | some a => match x.after with
      | none => node x.d a
      | some l => ((List.range k.n).filter fun i => l.holds i && h.contains (node x.d i)).foldl (fun _ i => node x.d i) (node x.d a)
  let early := x.e == .S && (k.loopAt x.popIdx).any (·.reg) && 1 < (all.filter fun y => y.e == .S && y.popIdx == x.popIdx).length
  ⟨src, if early then sendNode k x.popIdx else node x.e x.popIdx, if x.dist = 0 then none else x.a.bind fun a => (k.common a x.b).map (·.idx),
    x.a.map fun a => match x.after with | none => a | some l => l.last + 1, some x.popIdx⟩

/-- Whether the words at indices `ws` run only where the word at `i` runs too, in the same iteration: no branch can skip it and none of them, and no LOOPI of count 0 holds it. -/
def Kernel.runs (k : Kernel) (ws : List Nat) (i : Nat) : Bool :=
  (k.brs.all fun b => !((b.1 : Int) < b.2 && between b i) || ws.any (between b)) &&
  (k.enc i).all fun l => (match k.insOf l.idx with | some (.loopi _ _ n _) => n != 0 | _ => true) || ws.any l.holds

/-- Nodes reached from those given, with at most one step into the next iteration of loop `wrap`; `ok`: whether the words that push and pop for an arc, before and after that step, run. -/
def reachFrom (arcs : List Arc) (ok : Bool → Nat → Bool) (wrap : Option Nat) : Nat → List (Nat × Bool) → List (Nat × Bool) → List (Nat × Bool)
  | 0, _, seen => seen
  | _, [], seen => seen
  | f + 1, x :: todo, seen =>
    let nx := arcs.filterMap fun a =>
      let y := x.2 || a.wrap.isSome
      if a.src ≠ x.1 ∨ !(a.push.all (ok x.2) && a.pop.all (ok y)) ∨ a.wrap.isSome ∧ (wrap ≠ a.wrap ∨ x.2) then none else some (a.dst, y)
    let new := (nx.filter fun y => !seen.contains y).eraseDups
    reachFrom arcs ok wrap f (todo ++ new) (seen ++ new)

/-- Whether a chain orders an edge's words without it wherever both run (R242). -/
def Kernel.chained (k : Kernel) (h : List Nat) (base : List Arc) (others : List Edge) (x : Edge) : Bool :=
  let src := match x.a with | none => 0 | some a => node x.d a
  let wrap := if x.dist = 0 then none else x.a.bind fun a => (k.common a x.b).map (·.idx)
  let ok (next : Bool) : Nat → Bool := k.runs (if wrap.isNone then x.b :: x.a.toList else if next then [x.b] else x.a.toList)
  (reachFrom (base ++ others.map (k.edgeArc h others)) ok wrap (20 * k.n + 40) [(src, false)] [(src, false)]).any fun y => y.1 == node x.e x.b

/-- Removes redundant edges among those given, in their order; `kept` stand whatever happens (R242). -/
def Kernel.reduce (k : Kernel) (h : List Nat) (kept l : List Edge) : List Edge :=
  let base := k.sliceArcs h
  l.foldl (fun cur x => let rest := cur.filter (· != x); if k.chained h base (kept ++ rest) x then rest else cur) l

/-! ## Queues (R243) -/

/-- A promoted region: engines, producing and consuming word, home offset, slot bytes, and the descriptors it uses with the words that set them. -/
structure Promo where
  p     : Nat
  c     : Nat
  off   : Nat
  slot  : Nat
  descs : List (Nat × BitVec 4)
  deriving DecidableEq, Repr

/-- The word that sets a descriptor once, before a loop, with only DSET.CNT after it (condition 3). -/
def Kernel.setOnce (k : Kernel) (l : ILoop) (d : BitVec 4) : Option Nat :=
  let ds := (List.range k.n).filterMap fun i => match k.insOf i with
    | some (.dset _ d' _ m) => if d' = d then some (i, m) else none
    | _ => none
  match ds.filter fun x => x.2 == .set with
  | [(i, _)] => if i < l.idx ∧ (ds.all fun x => x.1 == i || x.2 == .cnt) then some i else none
  | _ => none

/-- The pair register of an L load or W store that condition 3 allows. -/
def pairOf : Instr → Option (BitVec 3)
  | .ldt _ _ p _ _ | .ldt3 _ _ p _ _ _ | .ldx _ _ p _ _ _ | .ldg _ _ p _ _ _ | .ldz _ _ p _ _ _
  | .stt _ _ p _ _ | .stt3 _ _ p _ _ _ | .sttc _ _ p _ _ _ | .sts _ _ p _ _ _ => some p
  | _ => none

/-- Condition 3 for one word of a region: the descriptors through which it reaches it, `none` where it fails. -/
def Kernel.reaches (k : Kernel) (ks : List Known) (l : ILoop) (r i : Nat) : Option (List (Nat × BitVec 4)) :=
  (k.insOf i).bind fun ins =>
    if k.engOf i = .V then
      (((descRoles ins).1 ++ (descRoles ins).2).filter fun d => regionOf k.scr ((k.knownDesc ks i d).map fun v => v.toNat % 2 ^ 21) == some r).eraseDups.mapM fun d => (k.setOnce l d).map fun j => (j, d)
    else
      (pairOf ins).bind fun p =>
        let so := if p = 0 then some 0 else knownAt k.spans k.skips (ks.getD i []) i (regKey (k.engOf i) (2 * p.toNat))
        if regionOf k.scr (so.map fun v => v.toNat % 2 ^ 21) = some r then some [] else none

/-- The accesses of a word without those of a region. -/
def WAcc.without (a : WAcc) (r : Nat) : WAcc := { a with scr := a.scr.filter fun x => x.1 != some r }

/-- Rounded up to a multiple of 64. -/
def up64 (n : Nat) : Nat := (n + 63) / 64 * 64

/-- A region that meets the conditions of R243, but for the last sentence of condition 5. -/
def Kernel.candidate (k : Kernel) (ks : List Known) (accs : List WAcc) (kept : List Edge) (r : Nat) : Option Promo :=
  let uses := (List.range k.n).filter fun i => (accs.getD i WAcc.none).scr.any fun x => x.1 == some r
  match uses with
  | [p, c] =>
    let pe := k.engOf p
    let ce := k.engOf c
    let ap := accs.getD p WAcc.none
    let ac := accs.getD c WAcc.none
    let wr (a : WAcc) (w : Bool) : Bool := (a.scr.filter fun x => x.1 == some r).all fun x => x.2 == w
    match (k.enc p).getLast?, (k.enc c).getLast?, k.scr[r]? with
    | some l, some l', some (off, size) =>
      if l ≠ l' ∨ !k.innermost l ∨ !wr ap true ∨ !wr ac false ∨ !(pe == .L || pe == .V) ∨ !(ce == .V || ce == .W) ∨ pe = ce then none else
      match k.reaches ks l r p, k.reaches ks l r c with
      | some dp, some dc =>
        let slot := up64 (off + size)
        let others := kept.filter fun x => (x.d == pe && x.e == ce || x.d == ce && x.e == pe) &&
          !(x.a == some p && x.b == c && x.dist == 0 || x.a == some c && x.b == p && x.dist == 1)
        if 262080 < slot ∨ !others.isEmpty ∨ conflict (ap.without r) (ac.without r) ∨ conflict (ac.without r) (ap.without r) then none else
        some ⟨p, c, off, slot, (dp ++ dc).eraseDups⟩
      | _, _ => none
    | _, _, _ => none
  | _ => none

/-- End of the `.scratch` allocations. -/
def scratchEnd (scr : List (Nat × Nat)) : Nat := scr.foldl (fun m r => max m (r.1 + r.2)) 0

/-- The promoted regions in ascending home offset, and their depth. -/
def Kernel.promote (k : Kernel) (ks : List Known) (accs : List WAcc) (kept : List Edge) : List Promo × Nat :=
  if accs.any fun a => a.scr.any fun x => x.1 == none then ([], 0) else
  let cs := (List.range k.scr.length).filterMap (k.candidate ks accs kept)
  let same (x y : Promo) : Bool :=
    k.engOf x.p == k.engOf y.p && k.engOf x.c == k.engOf y.c || k.engOf x.p == k.engOf y.c && k.engOf x.c == k.engOf y.p
  let cs := (cs.filter fun x => cs.all fun y => y == x || !same x y).mergeSort fun x y => x.off ≤ y.off
  let tot := (cs.map (·.slot)).sum
  let depth := if tot = 0 then 0 else min 16 ((Config.scratchBytes - up64 (scratchEnd k.scr)) / tot)
  if depth < 2 then ([], 0) else (cs, depth)

/-- The promoted queues: engine codes and control words, placed upward from H (R93, R243). -/
def Kernel.queueWords (k : Kernel) (depth : Nat) (ps : List Promo) : List (Nat × Nat × Word) :=
  (ps.foldl (fun (r : List (Nat × Nat × Word) × Nat) x =>
    (r.1 ++ [((k.engOf x.p).code, (k.engOf x.c).code, BitVec.ofNat 64 ((depth - 1) * 2 ^ 36 + x.slot / 64 * 2 ^ 24 + r.2))], r.2 + depth * x.slot))
    ([], up64 (scratchEnd k.scr))).1

/-- The queue and free-slot edges of a promoted region. -/
def Kernel.queueEdges (k : Kernel) (depth : Nat) (x : Promo) : List Edge :=
  [{ k.mkEdge x.p x.c 0 with kind := .queue }, { k.mkEdge x.c x.p 1 with kind := .free, init := depth }]

/-- The edges from the last QBIND to the first word of each engine that uses a queue (R242). -/
def Kernel.bindEdges (k : Kernel) (ps : List Promo) : List Edge :=
  let users := ps.flatMap fun x => [x.p, x.c]
  (Eng.all.filterMap fun e => ((users.filter fun i => k.engOf i == e).foldl (fun (m : Option Nat) i => some (match m with | none => i | some j => min i j)) none)).mergeSort (fun i j => i ≤ j)
    |>.map fun i => { a := none, b := i, dist := 0, kind := .dep, d := .S, e := k.engOf i, init := 0, after := none, at_ := (k.enc i).head? }

/-- Engines reached along kept edges inside a loop. -/
def reachEng (l : List Edge) : Nat → List Eng → List Eng
  | 0, s => s
  | n + 1, s => reachEng l n ((s ++ (l.filter fun x => s.contains x.d).map (·.e)).eraseDups)

/-- The credit edges (R245); `none`: code 4. -/
def Kernel.credits (k : Kernel) (kept : List Edge) : Option (List Edge) :=
  ((k.loops.filter k.innermost).flatMap fun l => Eng.all.flatMap fun d => Eng.all.map fun e => (l, d, e)).foldlM (fun r x =>
    let inb := kept.filter fun y => (match y.a with | some a => x.1.holds a | none => false) && x.1.holds y.b
    let es := inb.filter fun y => y.dist == 0 && y.d == x.2.1 && y.e == x.2.2
    if es.isEmpty then some r else
    if 63 < es.length then none else
    if (reachEng inb 5 [x.2.2]).contains x.2.1 then some r else
    let b := es.foldl (fun m y => max m y.b) 0
    let a := es.foldl (fun m y => min m (y.a.getD 0)) k.n
    some (r ++ [{ a := some b, b := a, dist := 1, kind := .credit, d := x.2.2, e := x.2.1, init := min 16 (63 / es.length), after := none, at_ := none }])) []

/-! ## The slices (R234 to R236, R243, R244) -/

/-- What remains to be filled into a word once its slice stands. -/
inductive Fix where
  | no
  | loop (l : ILoop)
  | br (t : Int)
  deriving DecidableEq, Repr

/-- A word of a slice under construction: its logical index, the plain index it stands at, and, for a SYNC after a loop's copy, that loop's level. -/
structure SItem where
  w     : IWord
  ins   : Bool
  idx   : Nat
  place : Nat
  hoist : Option Nat
  fix   : Fix
  deriving DecidableEq, Repr

/-- Splits a list into lists without repeats. -/
def groups : Nat → List Eng → List (List Eng)
  | 0, _ => []
  | _, [] => []
  | n + 1, l => l.eraseDups :: groups n (l.eraseDups.foldl (fun r e => r.erase e) l)

/-- The mask of a list of engines (R21). -/
def engMask (l : List Eng) : BitVec 5 := BitVec.ofNat 5 ((l.map fun e => 2 ^ (e.code - 1)).sum)

/-- SYNC of engine `c`. -/
def syncWord (c : Eng) (waits sigs : List Eng) : IWord := shortWord c Sync.none 0x30 (engMask waits ++ engMask sigs ++ (0 : BitVec 6))

/-- The edge that takes a word's field, and the engines left for SYNCs (R244). -/
def takeField (can : Bool) (l : List (EdgeKind × Eng)) : Option Eng × List Eng :=
  match l.find? fun x => x.1 == .queue with
  | some x => (some x.2, (l.erase x).map (·.2))
  | none => match l with
    | [x] => if can then (some x.2, []) else (none, [x.2])
    | _ => (none, l.map (·.2))

/-- The constant of a queue control word in x28, and its QBIND (R231, R249). -/
def bindWords (q : Nat × Nat × Word) : List IWord :=
  [longWord .S 0 ((28 : BitVec 5) ++ q.2.2.extractLsb' 51 17)] ++ ([34, 17, 0].map fun o => longWord .S 1 ((28 : BitVec 5) ++ q.2.2.extractLsb' o 17)) ++
  [shortWord .S Sync.none 0x6A ((28 : BitVec 5) ++ BitVec.ofNat 3 q.1 ++ BitVec.ofNat 3 q.2.1 ++ (0 : BitVec 5))]

/-- SEND xs, e. -/
def sendWord (r : BitVec 5) (e : Eng) : List IWord := (encode (.send Sync.none r e)).toList

/-- The flag of a branch in x28 (R236). -/
def flagWords (i : Instr) : List IWord :=
  let w (l : List Instr) : List IWord := l.filterMap encode
  let n := Sync.none
  match i with
  | .beqz _ s _ => w [.sltiu .S n 28 s 1]
  | .bnez _ s _ => w [.sltu .S n 28 0 s false]
  | .bltz _ s _ => w [.slt .S n 28 s 0 false]
  | .bgez _ s _ => w [.slt .S n 28 s 0 false, .xori .S n 28 28 1]
  | .bgtz _ s _ => w [.slt .S n 28 0 s false]
  | .blez _ s _ => w [.slt .S n 28 0 s false, .xori .S n 28 28 1]
  | .j _ => w [.li .S 28 1]
  | _ => []

/-- All that the slices are made of. -/
structure SlicePlan where
  k     : Kernel
  held  : List Nat
  edges : List Edge
  qs    : List (Nat × Nat × Word)
  qWord : List Nat                      -- L and W words with the Q bit
  dset  : List Nat                      -- DSET.SETs that take the Q bit through x14
  deriving DecidableEq, Repr

/-- The words of engine `e` at index `i`: waiting SYNCs, setup, the copy, signalling SYNCs. -/
def SlicePlan.wordsAt (p : SlicePlan) (e : Eng) (i : Nat) : List SItem :=
  if !p.held.contains (node e i) then [] else
  let item (ins : Bool) (fix : Fix) (w : IWord) : SItem := ⟨w, ins, i, i, none, fix⟩
  let others := Eng.all.filter fun x => x != .S && p.held.contains (node x i)
  let raw := (p.k.ws[i]?.map (·.raw)).getD 0
  let mk : List IWord × Option (IWord × Bool × Fix) :=
    match p.k.loopAt i, p.k.insOf i with
    | some l, some (.loop _ _ s _) =>
      if e = .S then (others.flatMap (sendWord s), if holdsWord p.held .S l.holds then some (raw, false, .loop l) else none)
      else ((encode (.follow e Sync.none 15)).toList, (encode (.loop e Sync.none 15 1)).map fun w => (w, true, .loop l))
    | some l, some (.loopi _ _ n _) => ([], (encode (.loopi e Sync.none n 1)).map fun w => (w, false, .loop l))
    | _, ins =>
      match p.k.target i, ins with
      | some t, some b =>
        if e = .S then (if others.isEmpty then [] else flagWords b ++ others.flatMap (sendWord 28), some (raw, false, .br t))
        else ([], (encode (.brf e Sync.none 15 0)).map fun w => (w, true, .br t))
      | _, _ =>
        if p.dset.contains i then
          (([.li .V 14 1, .shli .V Sync.none 14 14 58, .or .V Sync.none 14 14 ((fld raw 8 4).setWidth 5) false] : List Instr).filterMap encode,
            some (raw &&& ~~~0xF00#32 ||| 0xE00#32, false, .no))
        else if p.qWord.contains i then ([], some (raw ||| 0x100#32, false, .no))
        else ([], some (raw, false, .no))
  let pops := (p.edges.filter fun x => x.e == e && x.popIdx == i).map fun x => (x.kind, x.d)
  let pushes := (p.edges.filter fun x => x.d == e && x.a == some i && x.after.isNone).map fun x => (x.kind, x.e)
  let can := match mk.2 with | some w => !longFormat w.1 | none => false
  let f := takeField can pops
  let g := takeField can pushes
  (groups 20 f.2).map (fun l => item true .no (syncWord e l [])) ++ mk.1.map (item true .no) ++
  (match mk.2 with
    | some w => [item w.2.1 w.2.2 (w.1 ||| BitVec.ofNat 32 (optCode f.1 * 2 ^ 26 + optCode g.1 * 2 ^ 23))]
    | none => []) ++
  (groups 20 g.2).map fun l => item true .no (syncWord e [] l)

/-- The SYNCs of engine `e` after the copies of the loops that end at index `i`, inner loops first (R241). -/
def SlicePlan.hoistedAt (p : SlicePlan) (e : Eng) (i : Nat) : List SItem :=
  (p.k.loops.filter fun l => l.last == i).reverse.flatMap fun l =>
    (groups 20 ((p.edges.filter fun x => x.d == e && x.after == some l).map (·.e))).map fun m => ⟨syncWord e [] m, true, i + 1, i, some l.lev, .no⟩

/-- The queue words at the head of S (R231, R242). -/
def SlicePlan.head (p : SlicePlan) : List SItem :=
  let ws := p.qs.flatMap bindWords
  let g := takeField true ((p.edges.filter fun x => x.a == none).map fun x => (x.kind, x.e))
  let ws := ws.zipIdx.map fun w => if w.2 + 1 = ws.length then w.1 ||| BitVec.ofNat 32 (optCode g.1 * 2 ^ 23) else w.1
  (ws ++ (groups 20 g.2).map (syncWord .S [])).map fun w => ⟨w, true, 0, 0, none, .no⟩

def SlicePlan.items (p : SlicePlan) (e : Eng) : List SItem :=
  (if e = .S then p.head else []) ++ (List.range p.k.n).flatMap fun i => p.wordsAt e i ++ p.hoistedAt e i

/-- How many words after the copy at offset `o` lie in its body. -/
def bodyLen (l : List SItem) (o : Nat) (lp : ILoop) : Nat :=
  ((l.drop (o + 1)).filter fun x => x.place < lp.last || x.place == lp.last && (match x.hoist with | none => true | some v => lp.lev < v)).length

/-- Offset of the first word whose index is `t` or more, or one past the slice. -/
def firstAt (l : List SItem) (t : Int) : Nat := (l.findIdx? fun x => t ≤ (x.idx : Int)).getD l.length

/-- The finished words; `none`: a field does not fit (code 7). -/
def finish (l : List SItem) : Option (List SItem) :=
  l.zipIdx.mapM fun x =>
    match x.1.fix with
    | .no => some x.1
    | .loop lp =>
      let n := bodyLen l x.2 lp
      let mask := if lp.reg then 2047 else 127
      if mask < n then none else some { x.1 with w := x.1.w &&& ~~~BitVec.ofNat 32 mask ||| BitVec.ofNat 32 n }
    | .br t =>
      let off : Int := (firstAt l t : Int) - x.2
      let b := if longFormat x.1.w then 22 else 11
      if off < -(2 ^ (b - 1) : Int) ∨ (2 ^ (b - 1) : Int) ≤ off then none else
      some { x.1 with w := x.1.w &&& ~~~BitVec.ofNat 32 (2 ^ b - 1) ||| BitVec.ofNat 32 (off % 2 ^ b).toNat }

/-! ## The count matching (R246) -/

/-- A point of the walk: the word, the loops with iterations begun, tokens per pair, and per edge, latest first, where each push stands: 0 popped, else its place in the FIFO from 1. -/
structure Point where
  i    : Nat
  st   : List (ILoop × Nat)
  tok  : List Nat
  recs : List (List Nat)
  deriving DecidableEq, Repr

/-- Pops for one edge; `none`: the edge is not satisfied. -/
def Point.pop (es : List Edge) (p : Point) (k : Nat) (x : Edge) : Option Point :=
  let t := p.tok.getD x.pair 0
  let need := (p.recs.getD k []).getD (max 1 x.init - 1) 0
  if t = 0 ∨ 1 < need then none else
  some { p with tok := p.tok.set x.pair (t - 1), recs := p.recs.zipIdx.map fun r => if (es[r.2]?.map (·.pair)) = some x.pair then r.1.map (· - 1) else r.1 }

/-- Pushes for one edge. -/
def Point.push (p : Point) (k : Nat) (x : Edge) : Point :=
  let t := p.tok.getD x.pair 0
  { p with tok := p.tok.set x.pair (t + 1), recs := p.recs.modify k fun r => ((t + 1) :: r).take (max 1 x.init) }

def Point.pushAll (es : List Edge) (p : Point) (f : Edge → Bool) : Point :=
  es.zipIdx.foldl (fun p x => if f x.1 then p.push x.2 x.1 else p) p

/-- The iterations of a loop that the check runs. -/
def Kernel.rounds (k : Kernel) (es : List Edge) (tok : List Nat) (l : ILoop) : Nat :=
  let m := 1 + (es.filter fun x => l.holds x.popIdx || (match x.a with | some a => l.holds a | none => false)).foldl (fun m x => max m (tok.getD x.pair 0)) 0
  match k.insOf l.idx with
  | some (.loopi _ _ n _) => min m n.toNat
  | _ => m

/-- The points after the word before index `nx` in straight line: at the end of a body the next iteration, the loop's end, or both. -/
def Kernel.fall (k : Kernel) (es : List Edge) (rounds : ILoop → Nat) (nx : Nat) (p : Point) : List (ILoop × Nat) → List Point
  | [] => [{ p with i := nx, st := [] }]
  | (l, n) :: r =>
    if nx ≠ l.last + 1 then [{ p with i := nx, st := (l, n) :: r }] else
    (if n < rounds l then [{ p with i := l.idx + 1, st := (l, n + 1) :: r }] else []) ++
    (if l.reg ∨ rounds l ≤ n then k.fall es rounds nx (p.pushAll es fun x => x.after == some l) r else [])

/-- The points that may follow a point; `none`: an edge is not satisfied. -/
def Kernel.next (k : Kernel) (es : List Edge) (rounds : ILoop → Nat) (p : Point) : Option (List Point) :=
  (es.zipIdx.foldlM (fun p x => if x.1.popIdx = p.i then p.pop es x.2 x.1 else some p) p).map fun p =>
    let q := p.pushAll es fun x => x.a == some p.i && x.after.isNone
    let st := match k.loopAt p.i with | some l => (l, 1) :: q.st | none => q.st
    let on := k.fall es rounds (p.i + 1) q st
    match k.insOf p.i, k.target p.i with
    | some (.halt _), _ => []
    | ins, some t =>
      let q' := q.pushAll es fun x => match x.after with | some l => (l.last : Int) + 1 == t | none => false
      let far : Point := { q' with i := if t < 0 then k.n else t.toNat, st := q.st.filter fun l => l.1.holdsInt t }
      match ins with
      | some (.j _) => [far]
      | _ => far :: on
    | _, none => on

/-- Explores every point; whether every kept edge is satisfied on every way. -/
def Kernel.explore (k : Kernel) (es : List Edge) (rounds : ILoop → Nat) : Nat → List Point → List Point → Bool
  | 0, _, _ => false
  | _, [], _ => true
  | f + 1, p :: todo, seen =>
    if k.n ≤ p.i ∨ seen.contains p then k.explore es rounds f todo seen else
    match k.next es rounds p with
    | none => false
    | some l => k.explore es rounds f (l ++ todo) (p :: seen)

/-- Whether every kept edge is satisfied; the fuel is more than any kernel has points. -/
def Kernel.matched (k : Kernel) (es : List Edge) (tok : List Nat) : Bool :=
  let p0 : Point := Point.pushAll es ⟨0, [], tok, es.map fun _ => []⟩ fun x => x.a == none
  k.explore es (k.rounds es tok) (2 ^ 255) [p0] []

/-! ## The slice map (R250 to R253) -/

/-- What Iluja makes of a kernel; `words`: per slice, each word with INS and logical index. -/
structure Sliced where
  words    : List (List (IWord × Bool × Nat))
  plainLen : Nat
  homesz   : Nat
  tokInit  : List Nat
  queues   : List (Nat × Nat × Word)
  restarts : List Restart
  loops    : List MapRec
  branches : List MapRec
  views    : List ViewRec
  fmtRec   : List (Nat × BitVec 32)
  pwlRec   : List (Nat × List Byte)
  deriving DecidableEq, Repr

/-- RPC of one slice at position `p` (R251). -/
def rpcOf (l : List SItem) (p : Nat) : Nat :=
  let copies := l.zipIdx.filterMap fun x => match x.1.fix with
    | .loop lp => if lp.holds p then some (x.2, lp) else none
    | _ => none
  match copies.getLast? with
  | some (o, lp) =>
    let n := bodyLen l o lp
    o + 1 + (((l.drop (o + 1)).take n).findIdx? fun x => p ≤ x.idx).getD n
  | none => firstAt l p

/-- TOK at position `p`: TOKINIT, and the pushes and pops of the words older than it (R251). -/
def tokAt (es : List Edge) (tok : List Nat) (p : Nat) : List Nat :=
  tok.zipIdx.map fun t =>
    let mine := es.filter fun x => x.pair == t.2
    t.1 + (mine.filter fun x => (match x.after, x.a with | some l, _ => l.last + 1 | none, some a => a | none, none => 0) < p).length
      - (mine.filter fun x => x.popIdx < p).length

/-- Offset of the copy that a fix names in each slice. -/
def copyOffs (ls : List (List SItem)) (i : Nat) (f : Fix → Bool) : List Nat :=
  ls.map fun l => ((l.zipIdx.find? fun x => x.1.idx == i && f x.1.fix).map (·.2)).getD 0xFFFFFFFF

/-- Slices a plain kernel, or gives the code of R247 with which it is refused. `fmt` and `pwl`: the kernel entry's table
records. -/
def iluja (raw : List IWord) (scr : List (Nat × Nat)) (fmt : List (Nat × BitVec 32)) (pwl : List (Nat × List Byte)) : Except Nat Sliced :=
  if raw.any onlySlicing then .error 6 else
  if raw.any badLoop then .error 8 else
  let ws := raw.map plainWord
  if ws.any (·.reserved) then .error 1 else
  if ws.any (fun w => match w.ins with | some (.loop c _ _ _) => c != .S | _ => false) then .error 2 else
  match findLoops ws with
  | none => .error 8
  | some loops =>
    let k : Kernel := ⟨ws, loops, findBranches ws, scr⟩
    if k.brs.any (fun b => loops.any fun l => l.holdsInt b.2 && !l.holds b.1) then .error 3 else
    let ks := k.knowns
    let kr (i : Nat) (r : Nat) : Option Word := knownAt k.spans k.skips (ks.getD i []) i (regKey (k.engOf i) r)
    let mx := fmt.any (fun r => fmtMicro r.2.toNat) || (List.range k.n).any fun i => match k.insOf i with
      | some (.fmtw _ s _) => (match kr i s.toNat with | some v => fmtMicro v.toNat | none => true)
      | _ => false
    let accs := (List.range k.n).map fun i => match k.insOf i with
      | some ins => accOf scr (kr i) (k.knownDesc ks i) mx ins
      | none => WAcc.none
    let held := k.held
    let kept := k.reduce held [] (k.allEdges accs)
    let pr := k.promote ks accs kept
    let own := pr.1.flatMap (k.queueEdges pr.2)
    let kept := kept.filter (fun x => !own.any fun y => y.a == x.a && y.b == x.b && y.dist == x.dist) ++ own
    let kept := kept ++ k.reduce held kept (k.bindEdges pr.1)
    match k.credits kept with
    | none => .error 4
    | some cr =>
      let es := kept ++ cr
      let tok := (List.range 20).map fun q => ((es.filter fun x => x.pair == q).map (·.init)).sum
      if tok.any (63 < ·) then .error 4 else
      let qs := k.queueWords pr.2 pr.1
      let dsets := (pr.1.flatMap (·.descs)).eraseDups
      let plan : SlicePlan := ⟨k, held, es, qs, (pr.1.flatMap fun x => [x.p, x.c]).filter fun i => k.engOf i != .V, dsets.map (·.1)⟩
      let raws := Eng.all.map plan.items
      match raws.mapM finish with
      | none => .error 7
      | some ls =>
        if !k.matched es tok then .error 5 else
        let bound := qs.map fun q => pairIdx q.1 q.2.1
        .ok
          { words := ls.map fun l => l.map fun x => (x.w, x.ins, x.idx)
            plainLen := k.n
            homesz := if qs.isEmpty then scratchEnd scr else up64 (scratchEnd scr) + pr.2 * (pr.1.map (·.slot)).sum
            tokInit := tok
            queues := qs
            restarts := (List.range (k.n + 1)).map fun p =>
              let t := tokAt es tok p
              ⟨raws.map fun l => rpcOf l p, t, t.zipIdx.map fun x => if bound.contains x.2 then x.1 else 0⟩
            loops := loops.map fun l => ⟨l.idx, l.lev % 4, copyOffs raws l.idx fun f => f == .loop l⟩
            branches := k.brs.map fun b => ⟨b.1, (b.2 % 2 ^ 32).toNat, copyOffs raws b.1 fun f => f == .br b.2⟩
            views := dsets.map fun d => ⟨d.2.toNat, d.1 + 1, k.n⟩
            fmtRec := fmt
            pwlRec := pwl }

end Sys2Proof.Machine
end

