-- ==== Sys2Proof/Machine/Loader.lean ====
section
/-!
DEFINITION. The loader: code object images (R345 to R347), hand-sliced sets and the checks of every set (R248 to R254), LOAD and UNLOAD (R348 to R353, R360, R362 to R364).
-/
namespace Sys2Proof.Machine

/-! ## The image (R345 to R347) -/

/-- A section entry. -/
structure Sect where
  name  : List Byte
  kind  : Nat
  align : Nat
  off   : Nat
  size  : Nat
  mem   : Nat
  deriving DecidableEq, Repr

/-- A symbol entry. -/
structure Symb where
  name  : List Byte
  sect  : Nat
  kind  : Nat
  glob  : Bool
  value : Nat
  deriving DecidableEq, Repr

/-- A relocation entry. -/
structure Rel where
  sect   : Nat
  kind   : Nat
  off    : Nat
  sym    : Nat
  addend : Int
  deriving DecidableEq, Repr

/-- A kernel entry: its units are a byte offset and a word count each, one for a plain kernel. -/
structure Kern where
  sym     : Nat
  plain   : Bool
  scr     : List (Nat × Nat)
  tokCnt  : List Nat
  tokMask : Nat
  units   : List (Nat × Nat)
  queues  : List (Nat × Nat × Word)
  qRsv    : Bool                        -- a reserved byte of a queue entry is set
  prime   : Word
  fmtRec  : List (Nat × BitVec 32)      -- its table records (R215, R248)
  pwlRec  : List (Nat × List Byte)
  deriving DecidableEq, Repr

/-- A code object image taken apart. -/
structure Image where
  isa   : Nat
  sects : List Sect
  syms  : List Symb
  rels  : List Rel
  links : List (Nat × Bool)             -- symbol, NOW
  kerns : List Kern
  bytes : List Byte
  deriving DecidableEq, Repr

/-- Whether bytes `i` to `i + n - 1` are zero. -/
def zeroes (b : List Byte) (i n : Nat) : Bool := ((b.drop i).take n).all (· == 0)

/-- The name at an offset of the string table; `none` where it does not end within it. -/
def nameAt (str : List Byte) (o : Nat) : Option (List Byte) :=
  let l := (str.drop o).takeWhile (· != 0)
  if o + l.length < str.length then some l else none

/-- Entries of `w` bytes each. -/
def entries (b : List Byte) (off n w : Nat) : List (List Byte) := (List.range n).map fun k => (b.drop (off + k * w)).take w

def pow2 (n : Nat) : Bool := n != 0 && n &&& (n - 1) == 0

def sectOf (img str : List Byte) (e : List Byte) : Option Sect :=
  (nameAt str (field e 0 4)).bind fun nm =>
    let s : Sect := ⟨nm, field e 4 1, field e 8 4, field e 12 4, field e 16 4, field e 20 4⟩
    if s.kind = 0 ∨ 3 < s.kind ∨ !zeroes e 5 3 ∨ !zeroes e 24 8 ∨ !pow2 s.align ∨ 65536 < s.align ∨ s.off % 8 ≠ 0 ∨ img.length < s.off + s.size ∨ s.mem < s.size then none else some s

def symbOf (str : List Byte) (nsect : Nat) (e : List Byte) : Option Symb :=
  (nameAt str (field e 0 4)).bind fun nm =>
    let s : Symb := ⟨nm, field e 4 2, field e 6 1, (field e 7 1).testBit 0, field e 8 8⟩
    if 5 < s.kind ∨ 1 < field e 7 1 ∨ (nsect ≤ s.sect ∧ s.sect ≠ 0xFFFF ∧ s.sect ≠ 0xFFFE) ∨ (s.kind = 5 ∧ s.sect ≠ 0xFFFE) ∨
        ((s.kind = 1 ∨ s.kind = 2 ∨ s.kind = 3) ∧ nsect ≤ s.sect) then none else some s

def relOf (sects : List Sect) (nsym : Nat) (e : List Byte) : Option Rel :=
  let r : Rel := ⟨field e 0 2, field e 2 1, field e 4 4, field e 8 4, signed 32 (field e 12 4)⟩
  match sects[r.sect]? with
  | none => none
  | some s =>
    if (r.kind ≠ 1 ∧ r.kind ≠ 2) ∨ !zeroes e 3 1 ∨ nsym ≤ r.sym ∨ s.mem < r.off + (if r.kind = 1 then 4 else 8) then none else some r

def linkOf (syms : List Symb) (e : List Byte) : Option (Nat × Bool) :=
  match syms[field e 0 4]? with
  | none => none
  | some s => if (s.kind ≠ 3 ∧ s.kind ≠ 5) ∨ 1 < field e 4 1 ∨ !zeroes e 5 3 then none else some (field e 0 4, field e 4 1 == 1)

/-- A kernel entry. R347 gives its table records no place: they are the image's and the entry's, and nothing more is known of them (log entry 74). -/
def kernOf (img : List Byte) (sects : List Sect) (syms : List Symb) (e : List Byte) : Option Kern :=
  match (syms[field e 0 4]?).filter (·.kind == 2) with
  | none => none
  | some sy =>
    let code := (sects[sy.sect]?.map (·.mem)).getD 0
    let plain := field e 4 1 == 0
    let units := (List.range (if plain then 1 else 5)).map fun k => (field e (44 + 8 * k) 4, field e (48 + 8 * k) 4)
    let nscr := field e 12 4
    let nq := field e 84 4
    if 1 < field e 4 1 ∨ 3 < field e 5 1 ∨ !zeroes e 6 2 ∨ field e 40 3 ≥ 2 ^ 20 ∨ !zeroes e 43 1 ∨ !zeroes e 100 28 ∨ field e 92 8 &&& 0xFFFF00000000FF30 ≠ 0 ∨ field e 16 4 % 8 ≠ 0 ∨ field e 88 4 % 8 ≠ 0 ∨ (plain ∧ !zeroes e 52 32) ∨ 10 < nq ∨
        (field e 16 4) + 8 * nscr > img.length ∨ (field e 88 4) + 16 * nq > img.length ∨ units.any (fun u => u.1 % 4 != 0 || code < u.1 + 4 * u.2) then none else
    let qs := entries img (field e 88 4) nq 16
    some ⟨field e 0 4, plain, (entries img (field e 16 4) nscr 8).map fun p => (field p 0 4, field p 4 4), (List.range 20).map fun k => field e (20 + k) 1,
      field e 40 3, units, qs.map fun q => (field q 0 1, field q 1 1, BitVec.ofNat 64 (field q 8 8)), qs.any fun q => !zeroes q 2 6, BitVec.ofNat 64 (field e 92 8),
      Config.kernelFmt img (field e 0 4), (Config.kernelPwl img (field e 0 4)).map fun r => (r.1, pwlSegment r.2)⟩

/-- Takes an image apart; `none`: a table bound, a name or a reserved field is wrong (0x03). -/
def imageOf (b : List Byte) : Option Image :=
  let tab (n o w : Nat) : Nat × Nat × Nat := (field b n 4, field b o 4, w)
  let tabs := [tab 8 24 32, tab 12 28 16, tab 16 32 16, tab 20 36 8, tab 44 40 1, tab 52 56 128]
  let t (k : Nat) : List (List Byte) := match tabs[k]? with | some (n, o, w) => entries b o n w | none => []
  let str := (b.drop (field b 40 4)).take (field b 44 4)
  if !zeroes b 5 3 ∨ !zeroes b 60 20 ∨ 2048 < field b 20 4 ∨
      tabs.zipIdx.any (fun x => x.1.2.1 % 8 != 0 || b.length < x.1.2.1 + (if x.2 = 4 then field b 44 4 else x.1.1 * x.1.2.2)) then none else
  ((t 0).mapM (sectOf b str)).bind fun sects => ((t 1).mapM (symbOf str sects.length)).bind fun syms => ((t 2).mapM (relOf sects syms.length)).bind fun rels =>
    ((t 3).mapM (linkOf syms)).bind fun links => ((t 5).mapM (kernOf b sects syms)).map fun kerns => ⟨field b 4 1, sects, syms, rels, links, kerns, b⟩

/-- The bytes of a section, zeros after what the image holds. -/
def Image.content (m : Image) (k : Nat) : List Byte := match m.sects[k]? with | some s => padTo s.mem ((m.bytes.drop s.off).take s.size) | none => []

/-- The words of bytes. -/
def wordsOf (b : List Byte) : List IWord := (List.range (b.length / 4)).map fun k => BitVec.ofNat 32 (field b (4 * k) 4)

/-- `n` words of a section from a byte offset. -/
def Image.code (m : Image) (sect off n : Nat) : List IWord := wordsOf (((m.content sect).drop off).take (4 * n))

/-- The section of a kernel. -/
def Image.sectOf (m : Image) (k : Kern) : Nat := (m.syms[k.sym]?.map (·.sect)).getD 0

/-- ISA 2 and a word of SYNC.V1 or VCVT.V1 (R351, 0x04). -/
def oldForm (w : IWord) : Bool :=
  match classEngine w with
  | none => false
  | some c => opcodeOf w == 0x31 || c == .V && opcodeOf w == 0x55

/-- A word that R353 forbids in a procedure. -/
def badInProc (w : IWord) : Bool := classEngine w != some .S || onlySlicing w

/-- A call within a loop's body (R353). -/
def callInLoop (ws : List IWord) : Bool :=
  let len (w : IWord) : Nat := if opcodeOf w = 0x32 then (fld w 0 11).toNat else if opcodeOf w = 0x33 then (fld w 0 7).toNat else 0
  let call (w : IWord) : Bool := classEngine w == some .S && (longFormat w && fld w 22 4 == 4 || opcodeOf w == 0x48 || opcodeOf w == 0x49)
  ws.zipIdx.any fun x => (classEngine x.1).isSome && ((ws.drop (x.2 + 1)).take (len x.1)).any call

/-- R353's conditions on procedures and kernels. -/
def Image.unitsOk (m : Image) : Bool :=
  m.syms.all (fun y => y.kind != 3 || !(m.code y.sect (y.value % 2 ^ 32) (y.value / 2 ^ 32 / 4)).any badInProc) &&
  m.kerns.all fun k => !k.units.any fun u => callInLoop (m.code (m.sectOf k) u.1 u.2)

/-! ## The checks of a slice set (R254) -/

/-- What a slice word pops and pushes. -/
def wordPops (w : IWord) : List Eng :=
  match classEngine w with
  | none => []
  | some c => match decode c 0 w with
    | .ok (.sync _ ws _) => maskEngs ws
    | .ok (.syncV1 _ w _) => w.toList
    | .ok _ => if longFormat w then [] else (Eng.ofCode? (fld w 26 3).toNat).toList
    | .illegal _ => []
def wordPushes (w : IWord) : List Eng :=
  match classEngine w with
  | none => []
  | some c => match decode c 0 w with
    | .ok (.sync _ _ g) => maskEngs g
    | .ok (.syncV1 _ _ g) => g.toList
    | .ok _ => if longFormat w then [] else (Eng.ofCode? (fld w 23 3).toNat).toList
    | .illegal _ => []

/-- The instruction of a slice word. -/
def sliceIns (e : Eng) (w : IWord) : Option Instr := match decode e 0 w with | .ok i => some i | .illegal _ => none

/-- Pushes less pops on a pair over words of each slice. -/
def netOf (ls : List (Eng × List IWord)) (q : Nat) : Int :=
  (ls.map fun x => ((x.2.map fun w => ((wordPushes w).filter fun t => t != x.1 && pairIdx x.1.code t.code == q).length).sum : Int) -
    ((x.2.map fun w => ((wordPops w).filter fun d => d != x.1 && pairIdx d.code x.1.code == q).length).sum : Int)).sum

def balanced (ls : List (Eng × List IWord)) : Bool := (List.range 20).all fun q => netOf ls q == 0

/-- The body of a loop copy at an offset. -/
def copyBody (ws : List IWord) (o : Nat) : List IWord :=
  match ws[o]? with
  | none => []
  | some w => (ws.drop (o + 1)).take (if opcodeOf w = 0x32 then (fld w 0 11).toNat else (fld w 0 7).toNat)

/-- The words of a slice between a branch copy and its target. -/
def copyRegion (e : Eng) (ws : List IWord) (o : Nat) : List IWord :=
  let off : Int := match (ws[o]?).bind (sliceIns e) with
    | some (.brf _ _ _ k) => k.toInt
    | some i => (branchOff i).getD 0
    | none => 0
  let t := ((o : Int) + off).toNat
  if 0 < off then (ws.drop (o + 1)).take (t - (o + 1)) else (ws.drop t).take (o - t)

/-- One engine of the abstract walk: offset, loops (start, end, iterations left), values in its follow FIFO, branches passed. -/
structure Walker where
  pc    : Nat
  loops : List (Nat × Nat × Nat)
  fol   : Nat
  seen  : List Nat
  deriving DecidableEq, Repr

/-- The abstract walk (R254 check 9): the engines, the token counts, and the words in the order they ran. -/
structure AbsWalk where
  eng   : List Walker
  tok   : List Nat
  trace : List (Eng × Nat)
  deriving DecidableEq, Repr

/-- After the word at `o`: the next offset and the loops. -/
def walkEnd (o : Nat) : List (Nat × Nat × Nat) → Nat × List (Nat × Nat × Nat)
  | [] => (o + 1, [])
  | (a, b, n) :: r => if o ≠ b then (o + 1, (a, b, n) :: r) else if 1 < n then (a, (a, b, n - 1) :: r) else walkEnd o r

/-- One word of engine `e`: `none`, it blocks or is at its end; `some none`, a count passes 63. -/
def walkWord (ls : List (List IWord)) (count : Nat) (taken : Bool) (e : Eng) (s : AbsWalk) : Option (Option AbsWalk) :=
  let g := s.eng.getD e.cls ⟨0, [], 0, []⟩
  match (ls.getD e.cls [])[g.pc]? with
  | none => none
  | some w =>
    let i := sliceIns e w
    let pops := (wordPops w).map fun d => pairIdx d.code e.code
    let push := (wordPushes w).map fun t => pairIdx e.code t.code
    let follows : Bool := match i with | some (.follow ..) | some (.brf ..) => true | _ => false
    let sendTo : Option Eng := match i with | some (.send _ _ t) => some t | _ => none
    let full : Bool := match sendTo with | some t => 32 ≤ (s.eng.getD t.cls ⟨0, [], 0, []⟩).fol | none => false
    let halt : Bool := match i with | some (.halt _) => true | _ => false
    if halt ∨ pops.any (fun q => s.tok.getD q 0 == 0) ∨ (follows ∧ g.fol = 0) ∨ full then none else
    let tok := pops.foldl (fun t q => t.set q (t.getD q 0 - 1)) s.tok
    let tok := push.foldl (fun t q => t.set q (t.getD q 0 + 1)) tok
    if tok.any (63 < ·) then some none else
    let br : Option Int := match i with
      | some (.brf _ _ _ k) => some k.toInt
      | some j => branchOff j
      | none => none
    let body := match i with
      | some (.loop _ _ _ n) => some n.toNat
      | some (.loopi _ _ _ n) => some n.toNat
      | _ => none
    let g := if follows then { g with fol := g.fol - 1 } else g
    let go : Nat × List (Nat × Nat × Nat) :=
      match body, br with
      | some n, _ => (g.pc + 1, (g.pc + 1, g.pc + n, count) :: g.loops)
      | none, some k =>
        let t := ((g.pc : Int) + k).toNat
        if taken ∧ (0 < k ∨ !g.seen.contains g.pc) then (t, g.loops.filter fun l => l.1 ≤ t && t ≤ l.2.1) else walkEnd g.pc g.loops
      | none, none => walkEnd g.pc g.loops
    let seen := if br.isSome then g.pc :: g.seen else g.seen
    let eng := s.eng.set e.cls { g with pc := go.1, loops := go.2, seen := if 1 < count then seen.eraseDups else seen }
    let eng := match sendTo with | some t => eng.modify t.cls fun x => { x with fol := x.fol + 1 } | none => eng
    some (some ⟨eng, tok, s.trace ++ (if count = 1 then [(e, g.pc)] else [])⟩)

/-- Runs the engines in turn until none moves; `none`: a count passed 63. -/
def walkRun (ls : List (List IWord)) (count : Nat) (taken : Bool) : Nat → List Eng → Bool → AbsWalk → Option AbsWalk
  | 0, _, _, _ => none
  | f + 1, [], moved, s => if moved then walkRun ls count taken f Eng.all false s else some s
  | f + 1, e :: es, moved, s =>
    match walkWord ls count taken e s with
    | none => walkRun ls count taken f es moved s
    | some none => none
    | some (some s') => walkRun ls count taken f (e :: es) true s'

def walkAll (ls : List (List IWord)) (tok : List Nat) (count : Nat) (taken : Bool) : Option AbsWalk :=
  walkRun ls count taken (2 ^ 255) Eng.all false ⟨List.replicate 5 ⟨0, [], 0, []⟩, tok, []⟩

/-- Whether every slice stands at its end, S at a HALT or its end. -/
def AbsWalk.done (s : AbsWalk) (ls : List (List IWord)) : Bool :=
  Eng.all.all fun e => match (ls.getD e.cls [])[(s.eng.getD e.cls ⟨0, [], 0, []⟩).pc]? with
    | none => true
    | some w => match sliceIns e w with | some (.halt _) => true | _ => false

/-- The engine that a field of a short word names. -/
def fieldEng (w : IWord) (k : Nat) : Option Eng := if longFormat w then none else Eng.ofCode? (fld w k 3).toNat

/-- The words of V's or M's slice with an operand that the slice's own words show to be a queue slot (R126, R155), and whether the instruction writes that operand. What only a run shows
is checked there. -/
def slotOperands (e : Eng) (ws : List IWord) : List (IWord × Bool) :=
  let ps := ws.map plainWord
  let k : Kernel := ⟨ps, (findLoops ps).getD [], [], []⟩
  let ks := k.knowns
  (List.range k.n).flatMap fun i =>
    match k.insOf i with
    | none => []
    | some ins =>
      let w := (ws[i]?).getD 0
      let q (v : Option Word) (bit : Nat) : Bool := match v with | some v => v.getLsbD bit | none => false
      let desc (d : BitVec 4) : Bool := q (k.knownDesc ks i d) 58
      let reg (r : Nat) : Bool := q (knownAt k.spans k.skips (ks.getD i []) i (regKey e r)) 63
      let ops : List Bool × List Bool :=             -- written, read
        if e = .V then ((descRoles ins).1.map desc, (descRoles ins).2.map desc) else
        match ins with
        | .mma _ _ a b _ _ | .mmas _ _ a b _ _ | .mmat _ _ a b _ _ => ([], [reg a.toNat, reg b.toNat])
        | .tmma _ _ _ b _ _ => ([], [reg b.toNat])
        | .mlda _ _ s | .tld _ _ s _ => ([], [reg s.toNat])
        | .mdrain _ _ s _ _ _ | .tst _ _ s => ([reg s.toNat], [])
        | _ => ([], [])
      (if ops.1.contains true then [(w, true)] else []) ++ if ops.2.contains true then [(w, false)] else []

/-- The number of the first check of R254 that a set fails; 0 for none. -/
def setCheck (d : Sliced) (hand rsv : Bool) : Nat :=
  let ls := d.words.map fun l => l.map (·.1)
  let rsv := rsv || 64 < d.fmtRec.length || 64 < d.pwlRec.length || d.fmtRec.any (fun r => 63 < r.1) || d.pwlRec.any fun r => 63 < r.1
  let pairs := Eng.all.zip ls
  let qs := d.queues
  let reg (q : Nat × Nat × Word) : Nat × Nat := match qcw? q.2.2 with | some n => (n.base, n.base + n.slot * n.depth) | none => (0, 2 ^ 30)
  let slotForm (e : Eng) (w : IWord) : Bool :=
    match sliceIns e w with
    | some i => (match i with
      | .ldt y _ _ true _ | .ldt3 y _ _ true _ _ | .ldg y _ _ true _ _ | .ldx y _ _ true _ _ | .ldz y _ _ true _ _ =>
        !qs.any fun q => q.1 == 2 && some q.2.1 == y.sig.map (·.code)
      | .stt y _ _ true _ | .stt3 y _ _ true _ _ | .sts y _ _ true _ _ | .sttc y _ _ true _ _ | .red y _ _ true _ _ =>
        !qs.any fun q => q.2.1 == 5 && some q.1 == y.wait.map (·.code)
      | _ => false)
    | none => false
  if pairs.any (fun x => x.2.any fun w => match classEngine w with | some c => c != x.1 | none => hand || x.1 != .S) then 1 else
  if rsv ∨ qs.any (fun q => bits q.2.2.toNat 63 42 != 0 || bits q.2.2.toNat 23 21 != 0 || bits q.2.2.toNat 5 0 != 0) then 2 else
  if d.tokInit.any (63 < ·) ∨ d.restarts.any (fun r => r.tok.any (63 < ·)) then 3 else
  if qs.any (fun q => q.1 = 0 || 5 < q.1 || q.2.1 = 0 || 5 < q.2.1 || q.1 == q.2.1) ∨
      qs.zipIdx.any (fun x => qs.zipIdx.any fun y => x.2 != y.2 && (x.1.1 == y.1.1 && x.1.2.1 == y.1.2.1 || x.1.1 == y.1.2.1 && x.1.2.1 == y.1.1)) then 4 else
  if qs.any (fun q => (qcw? q.2.2).isNone) ∨ qs.zipIdx.any (fun x => qs.zipIdx.any fun y => x.2 < y.2 && (reg x.1).1 < (reg y.1).2 && (reg y.1).1 < (reg x.1).2) then 5 else
  if qs.any fun q => d.tokInit.getD (pairIdx q.1 q.2.1) 0 != 0 || (match qcw? q.2.2 with | some n => n.depth < d.tokInit.getD (pairIdx q.2.1 q.1) 0 | none => false) then 6 else
  if pairs.any (fun x => x.2.any (slotForm x.1) || !(slotOperands x.1 x.2).all fun o => qs.any fun q =>
      if o.2 then q.1 == x.1.code && some q.2.1 == (fieldEng o.1 23).map (·.code) else q.2.1 == x.1.code && some q.1 == (fieldEng o.1 26).map (·.code)) then 7 else
  let part (f : Eng → List IWord → Nat → List IWord) (r : MapRec) : List (Eng × List IWord) :=
    pairs.map fun x => let o := r.offs.getD x.1.cls 0xFFFFFFFF; (x.1, if o = 0xFFFFFFFF then [] else f x.1 x.2 o)
  if !balanced pairs ∨ d.loops.any (fun r => !balanced (part (fun _ => copyBody) r)) ∨ d.branches.any (fun r => !balanced (part copyRegion r)) then 8 else
  if [(1, false), (1, true), (64, false), (64, true)].any fun x => match walkAll ls d.tokInit x.1 x.2 with | none => true | some s => !s.done ls then 9 else 0

/-! ## A hand-sliced set's positions

The manual leaves them to the set and gives the object no place for them (R248, R347): the loader orders the words by what orders them in a walk with every loop run once, slice order,
tokens and the follow path, so that accesses stand in the order that tokens give them (R240); loops of one path are one loop (log entry 28). -/

/-- The path of each word of a slice: segments and loops in order, level by level. -/
def wordPaths (l : List IWord) : List (List Nat) :=
  (l.zipIdx.foldl (fun (r : List (List Nat) × List (Nat × List Nat × Nat)) x =>
    let w := x.1
    let st := r.2.dropWhile fun v => v.1 < x.2
    match st with
    | [] => r
    | (e, pre, c) :: up =>
      let len := if opcodeOf w = 0x32 then (fld w 0 11).toNat else if opcodeOf w = 0x33 then (fld w 0 7).toNat else 0
      if (classEngine w).isSome ∧ 0 < len then (r.1 ++ [pre ++ [2 * c + 1]], (x.2 + len, pre ++ [2 * c + 1], 0) :: (e, pre, c + 1) :: up)
      else (r.1 ++ [pre ++ [2 * c]], st)) ([], [(2 ^ 40, [], 0)])).1

/-- Paths compared level by level; a loop word goes before its body. -/
def pathLe : List Nat → List Nat → Bool
  | [], _ => true
  | _ :: _, [] => false
  | a :: x, b :: y => a < b || a == b && pathLe x y

/-- The words that must run before each word of a trace: the one before it in its slice, the words whose tokens it pops, and the SEND whose value it takes. -/
def traceBefore (ls : List (List IWord)) (tok : List Nat) (trace : List (Eng × Nat)) : List ((Eng × Nat) × List (Eng × Nat)) :=
  let word (x : Eng × Nat) : IWord := ((ls.getD x.1.cls [])[x.2]?).getD 0
  let ins (x : Eng × Nat) : Option Instr := ((ls.getD x.1.cls [])[x.2]?).bind (sliceIns x.1)
  let slice := Eng.all.flatMap fun e => let l := trace.filter (·.1 == e); l.tail.zip l
  let token := (List.range 20).flatMap fun q =>
    let pushes := trace.flatMap fun x => ((wordPushes (word x)).filter fun t => t != x.1 && pairIdx x.1.code t.code == q).map fun _ => x
    let pops := trace.flatMap fun x => ((wordPops (word x)).filter fun d => d != x.1 && pairIdx d.code x.1.code == q).map fun _ => x
    (pops.drop (tok.getD q 0)).zip pushes
  let follow := Eng.all.flatMap fun e =>
    (trace.filter fun x => x.1 == e && match ins x with | some (.follow ..) | some (.brf ..) => true | _ => false).zip
      (trace.filter fun x => match ins x with | some (.send _ _ t) => t == e | _ => false)
  trace.map fun x => (x, ((slice ++ token ++ follow).filter fun p => p.1 == x).map (·.2))

/-- Orders words, given by rising path: each time the first whose predecessors stand, the copies of one loop together, of the loop that is open while it has words left; where none may,
the first of those. -/
def schedule (before : Eng × Nat → List (Eng × Nat)) (path : Eng × Nat → List Nat) : Nat → List Nat → List (Eng × Nat) → List (Eng × Nat) → List (Eng × Nat)
  | 0, _, l, done => done ++ l
  | f + 1, cur, l, done =>
    let mine := l.filter fun x => (path x).take cur.length == cur
    match mine with
    | [] => if cur.isEmpty then done ++ l else schedule before path f cur.dropLast l done
    | x :: _ =>
      let loop (x : Eng × Nat) : Bool := (path x).getLast?.map (· % 2) == some 1
      let unit (x : Eng × Nat) : List (Eng × Nat) := if loop x then mine.filter fun y => path y == path x else [x]
      let y := (mine.find? fun x => (unit x).all fun z => (before z).all done.contains).getD x
      schedule before path f (if loop y then path y else cur) (l.filter fun z => !(unit y).contains z) (done ++ unit y)

/-- The S branches that the walk passes: offset, target, and the BRFs that take their flags. The n-th SEND to an engine goes to its n-th FOLLOW or BRF, and a flag is the next branch's. -/
def brfsOf (ls : List (List IWord)) (trace : List (Eng × Nat)) : List (Nat × Nat × List (Eng × Nat)) :=
  let ins (x : Eng × Nat) : Option Instr := ((ls.getD x.1.cls [])[x.2]?).bind (sliceIns x.1)
  let s := ls.headD []
  let branch (o : Nat) : Option Int := (ins (.S, o)).bind branchOff
  let brfs : List (Nat × Eng × Nat) := Eng.all.flatMap fun e =>
    let sends := trace.filterMap fun x => match ins x with | some (.send _ _ t) => if t = e then some x.2 else none | _ => none
    let takes := trace.filterMap fun x => if x.1 ≠ e then none else match ins x with | some (.follow ..) => some (x.2, false) | some (.brf ..) => some (x.2, true) | _ => none
    (sends.zip takes).filterMap fun p => if !p.2.2 then none else
      ((List.range s.length).find? fun o => p.1 < o && (branch o).isSome).map fun o => (o, e, p.2.1)
  (List.range s.length).filterMap fun o => (branch o).map fun d => (o, ((o : Int) + d).toNat, (brfs.filter fun b => b.1 == o).map (·.2))

/-- A hand-sliced set with its map; `none`: the walk that orders it fails (check 9). -/
def handSet (m : Image) (k : Kern) : Option Sliced :=
  let ls := k.units.map fun u => m.code (m.sectOf k) u.1 u.2
  let tok := (List.range 20).map fun q => if k.tokMask.testBit q then k.tokCnt.getD q 0 else
    ((k.queues.find? fun x => pairIdx x.2.1 x.1 == q).bind fun x => (qcw? x.2.2).map (·.depth)).getD 0
  (walkAll ls tok 1 false).bind fun wk =>
    let paths := ls.map wordPaths
    let path (x : Eng × Nat) : List Nat := (paths.getD x.1.cls []).getD x.2 []
    let isLoop (x : Eng × Nat) : Bool := (path x).getLast?.map (· % 2) == some 1
    let all := wk.trace ++ (Eng.all.flatMap fun e => (List.range (ls.getD e.cls []).length).map fun o => (e, o)).filter fun x => !wk.trace.contains x
    let body := all.filter fun x => wk.trace.contains x
    let pre := traceBefore ls tok wk.trace
    let sorted := body.mergeSort fun x y => pathLe (path x) (path y)
    let order := schedule (fun x => ((pre.find? fun p => p.1 == x).map (·.2)).getD []) path (8 * sorted.length + 8) [] sorted [] ++ all.filter fun x => !wk.trace.contains x
    let idx := (order.foldl (fun (r : List ((Eng × Nat) × Nat) × Nat) x =>
      match if isLoop x then r.1.find? fun y => isLoop y.1 && path y.1 == path x else none with
      | some y => (r.1 ++ [(x, y.2)], r.2)
      | none => (r.1 ++ [(x, r.2)], r.2 + 1)) ([], 0))
    let at_ (x : Eng × Nat) : Nat := ((idx.1.find? fun y => y.1 == x).map (·.2)).getD 0
    let words := Eng.all.map fun e => (ls.getD e.cls []).zipIdx.map fun w => (w.1, false, at_ (e, w.2))
    let loops := ((order.filter isLoop).map path).eraseDups.map fun p =>
      let mem (x : Eng × Nat) : Bool := isLoop x && path x == p
      (p, (⟨((order.find? mem).map at_).getD 0, (p.length - 1) % 4, Eng.all.map fun e => ((order.find? fun x => x.1 == e && mem x).map (·.2)).getD 0xFFFFFFFF⟩ : MapRec))
    let inBody (p : List Nat) (x : Eng × Nat) : Bool := (path x).take p.length == p && !(isLoop x && path x == p)
    let rpc (e : Eng) (p : Nat) : Nat :=
      let l := ls.getD e.cls []
      let mine := loops.filter fun r => r.2.index < p && (order.any fun x => inBody r.1 x && p ≤ at_ x) && r.2.offs.getD e.cls 0xFFFFFFFF != 0xFFFFFFFF
      match mine.getLast? with
      | some r =>
        let o := r.2.offs.getD e.cls 0
        let n := (copyBody l o).length
        o + 1 + (((List.range n).find? fun j => p ≤ at_ (e, o + 1 + j)).getD n)
      | none => ((List.range l.length).find? fun j => p ≤ at_ (e, j)).getD l.length
    let tokBefore (p : Nat) : List Nat := tok.zipIdx.map fun t =>
      ((t.1 : Int) + netOf (Eng.all.map fun e => (e, ((ls.getD e.cls []).zipIdx.filter fun w => at_ (e, w.2) < p).map (·.1))) t.2).toNat
    let bound := k.queues.map fun q => pairIdx q.1 q.2.1
    some
      { words := words
        plainLen := idx.2
        homesz := k.queues.foldl (fun n q => match qcw? q.2.2 with | some x => max n (x.base + x.slot * x.depth) | none => n) (scratchEnd k.scr)
        tokInit := tok
        queues := k.queues
        restarts := (List.range (idx.2 + 1)).map fun p =>
          let t := tokBefore p
          ⟨Eng.all.map fun e => rpc e p, t, t.zipIdx.map fun x => if bound.contains x.2 then x.1 else 0⟩
        loops := loops.map (·.2)
        branches := (brfsOf ls wk.trace).map fun r => ⟨at_ (.S, r.1), ((order.find? fun x => x.1 == .S && x.2 == r.2.1).map at_).getD idx.2, Eng.all.map fun e =>
          if e = .S then r.1 else ((r.2.2.find? fun b => b.1 == e).map (·.2)).getD 0xFFFFFFFF⟩
        views := []
        fmtRec := k.fmtRec
        pwlRec := k.pwlRec }

/-! ## Descriptor and map bytes (R248 to R253) -/

def descBytes (isa : Nat) (hand : Bool) (d : Sliced) (offs : List Nat) (mapOff mapLen : Nat) (prime : Word) : List Byte :=
  toBytes 2 1 ++ toBytes 1 isa ++ toBytes 1 (if hand then 1 else 0) ++ toBytes 4 d.plainLen ++ toBytes 4 (if hand then 0 else 1) ++ toBytes 4 d.homesz ++
  ((offs.zip d.words).flatMap fun x => toBytes 4 x.1 ++ toBytes 4 x.2.length) ++ d.tokInit.flatMap (toBytes 1) ++ toBytes 1 d.queues.length ++ toBytes 1 d.fmtRec.length ++ toBytes 1 d.pwlRec.length ++ toBytes 1 0 ++
  toBytes 4 mapOff ++ toBytes 4 mapLen ++ toBytes 8 prime.toNat ++
  (d.queues.flatMap fun q => toBytes 1 q.1 ++ toBytes 1 q.2.1 ++ toBytes 6 0 ++ toBytes 8 q.2.2.toNat) ++
  (d.fmtRec.flatMap fun r => toBytes 4 r.1 ++ toBytes 4 r.2.toNat) ++ d.pwlRec.flatMap fun r => toBytes 8 r.1 ++ pwlSegment r.2

def mapBytes (d : Sliced) : List Byte :=
  let idx := d.words.flatMap fun l => l.flatMap fun w => toBytes 4 (w.2.2 % 2 ^ 24 + if w.2.1 then 2 ^ 31 else 0)
  let rst := d.restarts.flatMap fun r => r.rpc.flatMap (toBytes 4) ++ r.tok.flatMap (toBytes 1) ++ r.live.flatMap (toBytes 1) ++ toBytes 4 0
  let recs (l : List MapRec) : List Byte := l.flatMap fun r => toBytes 4 r.index ++ toBytes 4 r.aux ++ r.offs.flatMap (toBytes 4) ++ toBytes 4 0
  let o := 64 + idx.length
  toBytes 4 d.restarts.length ++ toBytes 4 d.loops.length ++ toBytes 4 d.branches.length ++ toBytes 4 d.views.length ++
  toBytes 4 o ++ toBytes 4 (o + rst.length) ++ toBytes 4 (o + rst.length + 32 * d.loops.length) ++ toBytes 4 (o + rst.length + 32 * (d.loops.length + d.branches.length)) ++
  toBytes 32 0 ++ idx ++ rst ++ recs d.loops ++ recs d.branches ++
  d.views.flatMap fun v => toBytes 1 3 ++ toBytes 1 1 ++ toBytes 1 v.num ++ toBytes 1 0 ++ toBytes 4 v.from_ ++ toBytes 4 v.to_ ++ toBytes 4 0

/-! ## The block (R350 step 3) -/

/-- The resolver stub (R364). -/
def stubWords : List Nat :=
  [0x1C3C0001, 0x0024F790, 0x0002F77C, 0x0052F7B0, 0x0041F003, 0x00700401, 0x1CFFFFFA, 0x0053F770, 0x0002DFC0, 0x0048F000, 0x0002FEC0, 0x004A0000]

/-- Where the parts of a block stand, as byte offsets. -/
structure Layout where
  sects  : List Nat                     -- per section; 0 for a data section
  slices : List (List Nat)              -- per kernel, per slice
  stub   : Option Nat
  sets   : List (Nat × Nat)             -- per kernel: descriptor, map
  spans  : Nat
  size   : Nat
  deriving DecidableEq, Repr

/-- The first multiple of `a` at or above `n`. -/
def upTo (a n : Nat) : Nat := (n + a - 1) / a * a

def layoutOf (m : Image) (ds : List Sliced) (needStub : Bool) : Layout :=
  let code := m.sects.foldl (fun (r : List Nat × Nat) s => if s.kind = 1 then let o := upTo s.align r.2; (r.1 ++ [o], o + s.mem) else (r.1 ++ [0], r.2)) ([], 0)
  let sl := ds.foldl (fun (r : List (List Nat) × Nat) d =>
    let one := d.words.foldl (fun (q : List Nat × Nat) l => (q.1 ++ [q.2], q.2 + 4 * l.length)) ([], r.2)
    (r.1 ++ [one.1], one.2)) ([], up64 code.2)
  let st := up64 sl.2
  let sets := ds.foldl (fun (r : List (Nat × Nat) × Nat) d =>
    let o := up64 r.2
    let mo := up64 (o + 96 + 16 * d.queues.length + 8 * d.fmtRec.length + 40 * d.pwlRec.length)
    (r.1 ++ [(o, mo)], mo + (mapBytes d).length)) ([], if needStub then st + 48 else sl.2)
  let sp := up64 sets.2
  let nspan := (m.syms.filter fun y => y.kind == 3).length + if needStub then 1 else 0
  ⟨code.1, sl.1, if needStub then some st else none, sets.1, sp, sp + 16 * nspan⟩

/-! ## Symbols and relocation (R350 steps 6 and 7, R362, R363) -/

/-- The address of a global symbol in a context's record. -/
def Ctx.symbol (x : Ctx) (n : List Byte) : Option Nat := ((x.objs.flatMap (·.symbols)).find? fun y => y.1 == n).map (·.2)

/-- `_LINKAGE`. -/
def linkageName : List Byte := [0x5F, 0x4C, 0x49, 0x4E, 0x4B, 0x41, 0x47, 0x45]

/-- Where the object stands: code base, linkage page, data sections, layout. -/
structure Placing where
  base  : Nat
  link  : Nat
  sects : List Nat                      -- address of every section
  lay   : Layout
  deriving DecidableEq, Repr

/-- The address of a symbol of the object; `none`: an extern that no object of the context defines. -/
def symAddr (x : Ctx) (p : Placing) (y : Symb) : Option Nat :=
  if y.kind = 5 ∨ y.sect = 0xFFFE then (if y.name = linkageName then some p.link else x.symbol y.name) else
  if y.kind = 4 ∨ y.sect = 0xFFFF then some y.value else
  if y.name = linkageName then some p.link else
  some (p.sects.getD y.sect 0 + if y.kind = 2 ∨ y.kind = 3 then y.value % 2 ^ 32 else y.value)

/-- A long-format word with its offset for a target; `none`: it does not fit. -/
def setWoff (w : IWord) (at_ target : Int) : Option IWord :=
  let d := target - at_
  if d % 4 ≠ 0 ∨ d / 4 < -(2 ^ 21 : Int) ∨ (2 ^ 21 : Int) ≤ d / 4 then none else
  some (w &&& ~~~(0x3FFFFF : BitVec 32) ||| BitVec.ofNat 32 (d / 4 % 2 ^ 22).toNat)

/-- Puts bytes into a list at an offset. -/
def splice (l : List Byte) (o : Nat) (b : List Byte) : List Byte := l.take o ++ b ++ l.drop (o + b.length)

/-- Where each word of a kernel's slices came from: byte offset in its code section. -/
def Kern.origin (k : Kern) (e : Eng) (o : Nat) (w : IWord × Bool × Nat) : Option Nat :=
  if k.plain then (if w.2.1 then none else some ((k.units.headD (0, 0)).1 + 4 * w.2.2)) else some ((k.units.getD e.cls (0, 0)).1 + 4 * o)

/-- The final S words of a kernel: relocations, and CALL and ADDPC offsets kept on their targets (R350 step 6). Codes of R351. -/
def relocKernel (m : Image) (x : Ctx) (p : Placing) (k : Kern) (d : Sliced) (slices : List Nat) : Except Nat Sliced :=
  let sect := m.sectOf k
  let base (e : Eng) : Nat := p.base + slices.getD e.cls 0
  let one (e : Eng) (l : List (IWord × Bool × Nat)) (o : Nat) (w : IWord × Bool × Nat) : Except Nat (IWord × Bool × Nat) :=
    match k.origin e o w with
    | none => .ok w
    | some c =>
      let a := base e + 4 * o
      match m.rels.find? fun r => r.sect == sect && r.off == c && r.kind == 1 with
      | some r =>
        match (m.syms[r.sym]?).bind (symAddr x p) with
        | none => .error 0x08
        | some t => match setWoff w.1 a (t + r.addend) with | none => .error 0x03 | some v => .ok (v, w.2)
      | none =>
        match sliceIns e w.1 with
        | some (.call off) | some (.addpc off) =>
          let t : Int := (c : Int) + 4 * off.toInt
          let u := k.units.getD (if k.plain then 0 else e.cls) (0, 0)
          let goal : Int := if (u.1 : Int) ≤ t ∧ t ≤ u.1 + 4 * u.2 then
              base e + 4 * (if k.plain then (l.findIdx? fun y => (t - u.1) / 4 ≤ (y.2.2 : Int)).getD l.length else ((t - u.1) / 4).toNat)
            else p.sects.getD sect 0 + t
          match setWoff w.1 a goal with | none => .error 0x03 | some v => .ok (v, w.2)
        | _ => .ok w
  ((Eng.all.zip d.words).mapM fun (y : Eng × List (IWord × Bool × Nat)) => y.2.zipIdx.mapM fun w => one y.1 y.2 w.2 w.1).map fun ws => { d with words := ws }

/-- Whether a byte of a code section belongs to a kernel's unit. -/
def Image.inKernel (m : Image) (sect off : Nat) : Bool :=
  m.kerns.any fun k => m.sectOf k == sect && k.units.any fun u => u.1 ≤ off && off < u.1 + 4 * u.2

/-- A section's bytes with its relocations applied. -/
def relocSect (m : Image) (x : Ctx) (p : Placing) (n : Nat) : Except Nat (List Byte) :=
  (m.rels.filter fun r => r.sect == n && !(r.kind == 1 && m.inKernel n r.off)).foldlM (fun b r =>
    match (m.syms[r.sym]?).bind (symAddr x p) with
    | none => .error 0x08
    | some t =>
      if r.kind = 2 then .ok (splice b r.off (toBytes 8 (((t : Int) + r.addend) % 2 ^ 64).toNat)) else
      match setWoff (BitVec.ofNat 32 (field b r.off 4)) (p.sects.getD n 0 + r.off) (t + r.addend) with
      | none => .error 0x03
      | some w => .ok (splice b r.off (toBytes 4 w.toNat))) (m.content n)

/-! ## Memory of a function -/

/-- Physical memory with a run of bytes at an address. -/
def putRun (m : Memory) (pa : Nat) (l : List Byte) : Memory :=
  m.filter (fun c => c.1 < pa) ++ (l.zipIdx.map fun b => (pa + b.2, b.1)).filter (fun c => c.2 != 0) ++ m.filter fun c => pa + l.length ≤ c.1

/-- Writes bytes at a physical or guest physical address; `none` where stage 2 does not map it. -/
def gWrite (s : State) (fn a : Nat) (l : List Byte) : Option State :=
  (pagePieces a l.length).foldlM (fun (s : State) p => (guestPa s fn p.2.1).map fun g => { s with mem := putRun s.mem g.1 ((l.drop p.1).take p.2.2) }) s

/-- Zeroes bytes at a physical or guest physical address. -/
def gClear (s : State) (fn a n : Nat) : Option State :=
  (pagePieces a n).foldlM (fun (s : State) p => (guestPa s fn p.2.1).map fun g => { s with mem := Tab.clear s.mem g.1 p.2.2 }) s

def gRead (s : State) (fn a : Nat) : Nat := match guestPa s fn a with | some (pa, _, _) => s.memNat pa 8 | none => 0

/-- The pieces of a context's bytes, whatever its pages permit: physical address, offset, bytes. -/
def mappedRuns (s : State) (ctx va n : Nat) : Option (List (Nat × Nat × Nat)) :=
  (pagePieces va n).mapM fun (p : Nat × Nat × Nat) => match fullWalk s ctx p.2.1 with
    | .hit e => some (e.pa + (p.2.1 - e.page), p.1, p.2.2)
    | .fault _ _ => none

/-- Writes bytes over such pieces. -/
def putRuns (m : Memory) (rs : List (Nat × Nat × Nat)) (l : List Byte) : Memory := rs.foldl (fun m r => putRun m r.1 ((l.drop r.2.1).take r.2.2)) m

/-- The first place at or above `a`, aligned, for `n` bytes that nothing in use overlaps. -/
def fitAt (used : List (Nat × Nat)) (align n : Nat) : Nat → Nat → Nat
  | 0, a => upTo align a
  | f + 1, a =>
    match used.find? fun u => u.1 < upTo align a + n && upTo align a < u.1 + u.2 with
    | some u => fitAt used align n f (u.1 + u.2)
    | none => upTo align a

/-- Tables made so far, the arena's next byte. -/
structure Arena where
  at_    : Nat
  tables : List (Nat × Nat)
  deriving DecidableEq, Repr

/-- Maps one 64 KiB page of the code window (R332, R350), making the tables that are missing below the arena's end; else the code of R351. -/
def mapPage (fn : Nat) (used : List (Nat × Nat)) (lim va pa perm : Nat) : List Nat → Nat → State × Arena → Except Nat (State × Arena)
  | [], _, r => .ok r
  | l :: ls, table, (s, ar) =>
    let e := table + 8 * tableIdx l va
    if l = 3 then match gWrite s fn e (toBytes 8 (pa + perm + 3)) with | some s => .ok (s, ar) | none => .error 0x02 else
    if (gRead s fn e).testBit 0 then mapPage fn used lim va pa perm ls (bits (gRead s fn e) 51 8 * 256) (s, ar) else
    let n := tableSize (l + 1)
    let a := fitAt (used ++ ar.tables) n n (used.length + ar.tables.length + 1) ar.at_
    if lim < a + n then .error 0x09 else
    match (gClear s fn a n).bind fun s => gWrite s fn e (toBytes 8 (a + 1)) with
    | some s => mapPage fn used lim va pa perm ls a (s, ⟨a + n, ar.tables ++ [(a, n)]⟩)
    | none => .error 0x02

/-! ## LOAD (R349, R350) -/

/-- The code window (R350). -/
def codeWindow : Nat := 0x780000000000

/-- Whether the loader wrote level-0 entry 15 of a context (log entry 26). -/
def State.ownsWindow (s : State) (x : Ctx) : Bool := !x.objs.isEmpty || s.codeBlocks.any fun b => b.1 == x.fn && b.2.1 == x.root

/-- The lowest handle that no object of a context holds. -/
def Ctx.freeHandle (x : Ctx) : Nat := ((List.range 65535).find? fun h => !x.objs.any fun o => o.handle == h + 1).getD 0 + 1

/-- Bytes of the arena in use by objects of a function. -/
def State.arenaUsed (s : State) (fn : Nat) : List (Nat × Nat) :=
  (s.ctxs.filter fun c => c.2.fn == fn).flatMap fun c => c.2.objs.flatMap fun o => (o.arena, o.arenaLen) :: o.tables

/-- The slice sets of an image, each checked: RESULT and DETAIL of the first failure (R351). -/
def sliceImage (m : Image) : Except (Nat × Nat) (List Sliced) :=
  m.kerns.mapM fun k =>
    let r : Except (Nat × Nat) Sliced :=
      if k.plain then
        match iluja (let u := k.units.headD (0, 0); m.code (m.sectOf k) u.1 u.2) k.scr k.fmtRec k.pwlRec with
        | .ok d => .ok d
        | .error c => .error (0x06, c)
      else match handSet m k with | some d => .ok d | none => .error (0x07, 9)
    match r with
    | .error e => .error e
    | .ok d => let c := setCheck d (!k.plain) (!k.plain && k.qRsv); if c = 0 then .ok d else .error (0x07, c)

/-- The image that a load request names, checked (R350 step 1). -/
def requestImage (s : State) (k : Nat) (req : List Byte) : Except (Nat × Nat) Image :=
  match ctxRead s k (field req 0 8) 128 with
  | none => .error (0x02, 0)
  | some h =>
    if field h 0 4 ≠ 0x014F514F ∨ field h 48 4 < 128 then .error (0x03, 0) else
    match ctxRead s k (field req 0 8) (field h 48 4) with
    | none => .error (0x02, 0)
    | some b =>
      if sha (b.drop 128) ≠ (b.drop 80).take 48 then .error (0x03, 0) else
      match imageOf b with
      | none => .error (0x03, 0)
      | some m =>
        if (m.isa ≠ 1 ∧ m.isa ≠ 2) ∨ (m.isa = 2 ∧ (m.sects.zipIdx.any fun x => x.1.kind == 1 && (wordsOf (m.content x.2)).any oldForm)) then .error (0x04, 0) else
        if m.unitsOk then .ok m else .error (0x05, 0)

/-- The object in memory: pages mapped, words, tables and data written; and its record. -/
def placeObject (s : State) (k : Nat) (x : Ctx) (req : List Byte) (m : Image) (ds : List Sliced) : Except (Nat × Nat) (State × Obj) :=
  let needStub := m.links.any fun l => !l.2 || (match m.syms[l.1]? with | some y => y.kind == 5 && (x.symbol y.name).isNone | none => false)
  let lay := layoutOf m ds needStub
  let npg := max 1 (upTo 0x10000 lay.size / 0x10000)
  let base := x.objs.foldl (fun a o => max a (o.base + upTo 0x10000 (max 1 o.size) + if o.nlink = 0 then 0 else 0x20000)) codeWindow
  let nlink := m.links.length
  let pages := npg + if nlink = 0 then 0 else 2
  let link := if nlink = 0 then 0 else base + npg * 0x10000
  let secs := (m.sects.zipIdx.foldl (fun (r : List Nat × Nat) y =>
    if y.1.kind = 1 then (r.1 ++ [base + lay.sects.getD y.2 0], r.2) else (r.1 ++ [r.2], r.2 + max 0x10000 (upTo 0x10000 y.1.mem))) ([], field req 8 8)).1
  let p : Placing := ⟨base, link, secs, lay⟩
  let err (c : Nat) : Except (Nat × Nat) (State × Obj) := .error (c, 0)
  match ((m.kerns.zip ds).zip lay.slices).mapM fun y => relocKernel m x p y.1.1 y.1.2 y.2, (List.range m.sects.length).mapM (relocSect m x p) with
  | .error c, _ => err c
  | _, .error c => err c
  | .ok ds, .ok bytes =>
    let syms := (m.syms.filter fun y => y.glob && y.kind != 5 && y.sect != 0xFFFE).map fun y => (y.name, (symAddr x p y).getD 0)
    if syms.any (fun y => (x.symbol y.1).isSome) ∨ (syms.map (·.1)).eraseDups.length ≠ syms.length then err 0x08 else
    let report := toBytes 8 base ++ toBytes 8 link ++ secs.flatMap (toBytes 8) ++ lay.sets.flatMap fun y => toBytes 8 (base + y.1)
    let data := m.sects.zipIdx.filter fun y => y.1.kind != 1
    match mappedRuns s k (field req 32 8) report.length, data.mapM fun y => mappedRuns s k (secs.getD y.2 0) y.1.mem with
    | some ra, some das =>
      let used := s.arenaUsed x.fn
      let a0 := fitAt used 0x10000 (pages * 0x10000) (used.length + 1) (field req 16 8)
      let stub := base + lay.stub.getD 0
      let procs := m.syms.filter fun y => y.kind == 3
      let spans : List Span := procs.map (fun y => ⟨(symAddr x p y).getD 0, y.value / 2 ^ 32⟩) ++ if needStub then [⟨stub, 48⟩] else []
      let chunks : List (Nat × List Byte) :=
        ((m.sects.zipIdx.filter fun y => y.1.kind == 1).map fun y => (lay.sects.getD y.2 0, bytes.getD y.2 [])) ++
        ((ds.zip lay.slices).flatMap fun y => (y.1.words.zip y.2).map fun z => (z.2, z.1.flatMap fun w => toBytes 4 w.1.toNat)) ++
        (if needStub then [(lay.stub.getD 0, stubWords.flatMap (toBytes 4))] else []) ++
        (((ds.zip lay.slices).zip (m.kerns.zip lay.sets)).flatMap fun y =>
          [(y.2.2.1, descBytes m.isa (!y.2.1.plain) y.1.1 y.1.2 y.2.2.2 (mapBytes y.1.1).length y.2.1.prime), (y.2.2.2, mapBytes y.1.1)]) ++
        [(lay.spans, spans.flatMap fun y => toBytes 8 y.addr ++ toBytes 8 y.bytes)]
      let ent (l : Nat × Bool) : Nat × Nat :=             -- bind word, linkage entry (R363)
        match m.syms[l.1]? with
        | none => (0, stub)
        | some y =>
          match symAddr x p y with
          | some a => if y.kind = 3 ∨ l.2 then (a, a) else (a, stub)
          | none => (0, stub)
      let ents := m.links.map ent
      let vas := (List.range pages).map fun i => (base + 0x10000 * i, a0 + 0x10000 * i, if i < npg then 0x14 else if i = npg then 0x0C else 0x04)
      let lim := field req 16 8 + field req 24 8
      if lim < a0 + pages * 0x10000 ∨ codeWindow + 2 ^ 34 < base + pages * 0x10000 then err 0x09 else
      match vas.foldlM (fun r v => mapPage x.fn used lim v.1 v.2.1 v.2.2 [0, 1, 2, 3] x.root r) (s, (⟨a0 + pages * 0x10000, []⟩ : Arena)) with
      | .error c => err c
      | .ok (s, ar) =>
        match (gClear s x.fn a0 (pages * 0x10000)).bind fun s =>
            (chunks.foldlM (fun s c => gWrite s x.fn (a0 + c.1) c.2) s).bind fun s =>
              (gWrite s x.fn (a0 + npg * 0x10000) (ents.flatMap fun e => toBytes 8 e.2)).bind fun s =>
                gWrite s x.fn (a0 + (npg + 1) * 0x10000) (ents.flatMap fun e => toBytes 8 e.1) with
        | none => err 0x02
        | some s =>
          let s : State := { s with mem := putRuns ((das.zip data).foldl (fun m y => putRuns m y.1 (bytes.getD y.2.2 [])) s.mem) ra report }
          let sets := (((ds.zip lay.slices).zip (m.kerns.zip lay.sets))).map fun y =>
            let d := y.1.1
            { addr := base + y.2.2.1, code := base, isa := m.isa, hand := !y.2.1.plain, plainLen := d.plainLen, homesz := d.homesz,
              slices := y.1.2.zip (d.words.map (·.length)), tokInit := d.tokInit, queues := d.queues, fmtRec := d.fmtRec, pwlRec := d.pwlRec, prime := y.2.1.prime,
              maps := d.words.map fun l => l.map (·.2), restarts := d.restarts, loops := d.loops, branches := d.branches, views := d.views : SliceSet }
          let imports := m.links.zipIdx.filterMap fun l => (m.syms[l.1.1]?).bind fun y => if y.kind = 5 then some (l.2, l.1.2, y.name) else none
          .ok (s, { handle := x.freeHandle, base := base, size := lay.size, link := link, nlink := nlink, stub := if needStub then stub else 0, imports := imports,
                    targets := (ents.zipIdx.filter fun e => e.1.1 != 0).map fun e => (e.2, e.1.1), symbols := syms, sets := sets, spans := spans,
                    arena := a0, arenaLen := pages * 0x10000, tables := ar.tables })
    | _, _ => err 0x02

/-- The address of a bind word or linkage entry in its object's arena memory (R362). -/
def Obj.linkMem (o : Obj) (bind : Bool) (i : Nat) : Nat := o.arena + (o.arenaLen - if bind then 0x10000 else 0x20000) + 8 * i

/-- A later LOAD that defines what objects import writes their bind words (R363). -/
def bindImports (s : State) (fn : Nat) (objs : List Obj) (new : List (List Byte × Nat)) : State × List Obj :=
  objs.foldl (fun r o =>
    let hits := o.imports.filterMap fun i => if o.targets.any fun t => t.1 == i.1 then none else (new.find? fun y => y.1 == i.2.2).map fun y => (i.1, y.2)
    (hits.foldl (fun s h => (gWrite s fn (o.linkMem true h.1) (toBytes 8 h.2)).getD s) r.1, r.2 ++ [{ o with targets := o.targets ++ hits }])) (s, [])

/-- LOAD's steps: RESULT and DETAIL, or the state and the handle (R350, R351). -/
def loadObject (s : State) (k : Nat) (x : Ctx) (arg : Nat) : Except (Nat × Nat) (State × Nat) :=
  match if arg % 64 = 0 then ctxRead s k arg 64 else none with
  | none => .error (0x02, 0)
  | some req =>
    if field req 8 8 % 0x10000 ≠ 0 ∨ field req 16 8 % 0x10000 ≠ 0 ∨ field req 32 8 % 8 ≠ 0 then .error (0x02, 0) else
    if !zeroes req 40 24 then .error (0x03, 0) else
    match requestImage s k req with
    | .error e => .error e
    | .ok m =>
      if (gRead s x.fn (x.root + 8 * 15)).testBit 0 ∧ !s.ownsWindow x then .error (0x0A, 0) else
      match sliceImage m with
      | .error e => .error e
      | .ok ds =>
        match placeObject s k x req m ds with
        | .error e => .error e
        | .ok (s, o) =>
          let b := bindImports s x.fn x.objs o.symbols
          .ok (b.1.putCtx k { x with objs := b.2 ++ [o] }, o.handle)

/-- The writable fields of LCMD (R348). -/
def lcmdFields (v : Word) : Word := BitVec.ofNat 64 (bits v.toNat 55 52 * 2 ^ 52 + bits v.toNat 43 32 * 2 ^ 32 + bits v.toNat 15 0)

/-- Ends an operation of the loader. -/
def State.loadResult (s : State) (fn r d : Nat) : State := s.setFunc fn { s.func fn with lresult := r, ldetail := d }

/-- A write to LCMD with GO and an operation sets BUSY; while it is set, a later turn carries the operation out, and any other write is dropped (R348). -/
def loaderCommand (op fn : Nat) (v : Word) (s : State) (f : Word → State → State) : Host.Outcome State Fault Refusal :=
  match (s.func fn).lbusy with
  | some w => .next (if bits w.toNat 55 52 = op then f w (s.setFunc fn { s.func fn with lbusy := none }) else s)
  | none =>
    if ¬s.admitted ∨ 33 ≤ fn ∨ ¬v.getLsbD 63 ∨ bits v.toNat 55 52 ≠ op then .next s else
    .next (s.setFunc fn { s.func fn with lcmd := lcmdFields v, lbusy := some v })

/-- LOAD (R350). -/
def execLoad (fn : Nat) (v : Word) (s : State) : Host.Outcome State Fault Refusal :=
  loaderCommand 1 fn v s fun v s =>
    match s.ownCtx fn (cmdCtx v) with
    | none => s.loadResult fn 0x01 0
    | some x =>
      match loadObject s (cmdCtx v) x (s.func fn).larg.toNat with
      | .error e => s.loadResult fn e.1 e.2
      | .ok (s, h) => (s.setFunc fn { s.func fn with lhandle := h }).loadResult fn 0 0

/-! ## UNLOAD (R352) -/

/-- Whether an address is in an object: in its block or linkage pages, or a symbol's, which a data section may hold. -/
def Obj.holds (o : Obj) (a : Nat) : Bool := o.base ≤ a && a < o.base + o.arenaLen || o.symbols.any fun y => y.2 == a

/-- Removes an object from memory: bind words and linkage entries that name it, its mapping, its cached words, its arena memory. -/
def removeObject (s : State) (k : Nat) (x : Ctx) (o : Obj) : State :=
  let fix (r : State × List Obj) (p : Obj) : State × List Obj :=
    let s := (List.range p.nlink).foldl (fun s i =>
      let s := if o.holds (gRead s x.fn (p.linkMem true i)) then (gWrite s x.fn (p.linkMem true i) (toBytes 8 0)).getD s else s
      if o.holds (gRead s x.fn (p.linkMem false i)) then (gWrite s x.fn (p.linkMem false i) (toBytes 8 p.stub)).getD s else s) r.1
    (s, r.2 ++ [{ p with targets := p.targets.filter fun t => !o.holds t.2 }])
  let r := (x.objs.filter fun p => p.handle != o.handle).foldl fix (s, [])
  let s := r.1.dropCode x.fn x.root
  let last := r.2.isEmpty
  let leaf (s : State) (i : Nat) : State :=
    match leafEntry (fun a => some (gRead s x.fn a)) (o.base + 0x10000 * i) [0, 1, 2, 3] x.root with
    | some (a, _, _) => (gWrite s x.fn a (toBytes 8 0)).getD s
    | none => s
  let s := (List.range (o.arenaLen / 0x10000)).foldl leaf s
  let s := s.forgetPages k o.base o.arenaLen
  let s := (gClear s x.fn o.arena o.arenaLen).getD s
  if last then
    let s := (gWrite s x.fn (x.root + 8 * 15) (toBytes 8 0)).getD s
    (o.tables.foldl (fun s t => (gClear s x.fn t.1 t.2).getD s) s).putCtx k { x with objs := [] }
  else
    s.putCtx k { x with objs := match r.2 with | [] => [] | p :: ps => { p with tables := p.tables ++ o.tables } :: ps }

/-- UNLOAD (R352). -/
def execUnload (fn : Nat) (v : Word) (s : State) : Host.Outcome State Fault Refusal :=
  loaderCommand 2 fn v s fun v s =>
    match s.ownCtx fn (cmdCtx v) with
    | none => s.loadResult fn 0x01 0
    | some x =>
      if s.hub.launches.any fun l => l.ctx == cmdCtx v then s.loadResult fn 0x0B 0 else
      match x.objs.find? fun o => o.handle == bits v.toNat 15 0 with
      | none => s.loadResult fn 0x0C 0
      | some o => (removeObject s (cmdCtx v) x o).loadResult fn 0 0

end Sys2Proof.Machine
end

