-- ==== Sys2Proof/Machine/Sign.lean ====
section
/-!
DEFINITION. The two signatures of a firmware image (R409, R410), which the manual names and takes from elsewhere: ECDSA P-384 as FIPS 186-5 gives it, and LMS with SHA-256/256 and
LM-OTS with W = 8 as RFC 8554 gives it (log entry 11).
-/
namespace Sys2Proof.Machine

/-- Bytes as a number, most significant first, and a number as `n` such bytes. -/
def beNat (l : List (BitVec 8)) : Nat := l.foldl (fun n b => n * 256 + b.toNat) 0
def beBytes (n v : Nat) : List (BitVec 8) := (List.range n).map fun i => BitVec.ofNat 8 (v >>> (8 * (n - 1 - i)))

/-! ## ECDSA P-384 -/

/-- The field, the order of the base point, the curve's constant term (its linear coefficient is −3), and the base point. -/
def ecP : Nat := 2 ^ 384 - 2 ^ 128 - 2 ^ 96 + 2 ^ 32 - 1
def ecN : Nat := 0xFFFFFFFFFFFFFFFFFFFFFFFFFFFFFFFFFFFFFFFFFFFFFFFFC7634D81F4372DDF581A0DB248B0A77AECEC196ACCC52973
def ecB : Nat := 0xB3312FA7E23EE7E4988E056BE3F82D19181D9C6EFE8141120314088F5013875AC656398D8A2ED19D2A85C8EDD3EC2AEF
def ecG : Option (Nat × Nat) := some (
  0xAA87CA22BE8B05378EB1C71EF320AD746E1D3B628BA79B9859F741E082542A385502F25DBF55296C3A545E3872760AB7,
  0x3617DE4A96262C6F5D9E98BF9292DC29F8F41DBD289A147CE9DA3113B5F0B8C00A60B1CE1D7E819D7A431D7C90EA0E5F)

/-- A power modulo `m`; the inverse of a number modulo a prime is its power to `m - 2`. -/
def powMod (m b e : Nat) : Nat := (List.range 384).foldr (fun i r => (r * r % m) * (if e.testBit i then b else 1) % m) 1

/-- The sum of two points of the curve; `none` is the point at infinity. -/
def ecAdd (p q : Option (Nat × Nat)) : Option (Nat × Nat) :=
  match p, q with
  | none, _ => q
  | _, none => p
  | some (x, y), some (u, v) =>
    let third (k : Nat) : Option (Nat × Nat) :=
      let w := (k * k + 2 * ecP - x - u) % ecP
      some (w, (k * (x + ecP - w) + ecP - y) % ecP)
    if x ≠ u then third ((v + ecP - y) * powMod ecP (u + ecP - x) (ecP - 2) % ecP)
    else if (y + v) % ecP = 0 then none
    else third ((3 * x * x + ecP - 3) * powMod ecP (2 * y) (ecP - 2) % ecP)

/-- A multiple of a point. -/
def ecMul (k : Nat) (p : Option (Nat × Nat)) : Option (Nat × Nat) :=
  (List.range 384).foldr (fun i r => let d := ecAdd r r; if k.testBit i then ecAdd d p else d) none

/-- Whether a signature, r then s, verifies over a digest of 384 bits with a public key, x then y. -/
def ecdsaVerifies (key sig digest : List (BitVec 8)) : Bool :=
  let x := beNat (key.take 48)
  let y := beNat (key.drop 48)
  let r := beNat (sig.take 48)
  let s := beNat (sig.drop 48)
  let w := powMod ecN s (ecN - 2)
  decide (x < ecP) && decide (y < ecP) && (y * y) % ecP == (x * x * x + (ecP - 3) * x + ecB) % ecP &&
  decide (1 ≤ r) && decide (r < ecN) && decide (1 ≤ s) && decide (s < ecN) &&
  match ecAdd (ecMul (beNat digest * w % ecN) ecG) (ecMul (r * w % ecN) (some (x, y))) with
  | none => false
  | some p => p.1 % ecN == r

/-! ## SHA-256 -/

/-- One round over the working variables. Its constants are the upper halves of the first 64 of SHA-384's. -/
def sha2Step (v : List (BitVec 32)) (k : BitVec 32) : List (BitVec 32) :=
  match v with
  | [a, b, c, d, e, f, g, h] =>
    let t := h + (e.rotateRight 6 ^^^ e.rotateRight 11 ^^^ e.rotateRight 25) + ((e &&& f) ^^^ (~~~e &&& g)) + k
    let u := (a.rotateRight 2 ^^^ a.rotateRight 13 ^^^ a.rotateRight 22) + ((a &&& b) ^^^ (a &&& c) ^^^ (b &&& c))
    [t + u, a, b, c, d + t, e, f, g]
  | _ => v

/-- `n` more words of a block's schedule; its words so far, latest first. -/
def sha2Schedule : Nat → List (BitVec 32) → List (BitVec 32)
  | 0, w => w.reverse
  | n + 1, w =>
    let x := w.getD 14 0
    let y := w.getD 1 0
    sha2Schedule n ((w.getD 15 0 + (x.rotateRight 7 ^^^ x.rotateRight 18 ^^^ (x >>> 3)) + w.getD 6 0 + (y.rotateRight 17 ^^^ y.rotateRight 19 ^^^ (y >>> 10))) :: w)

/-- A message as 32-bit words, most significant byte first. -/
def sha2Words : List (BitVec 8) → List (BitVec 32)
  | a :: b :: c :: d :: l => (a ++ b ++ c ++ d) :: sha2Words l
  | _ => []

/-- The hash after `n` blocks of words. -/
def sha2Blocks : Nat → List (BitVec 32) → List (BitVec 32) → List (BitVec 32)
  | 0, h, _ => h
  | n + 1, h, l =>
    let w := sha2Schedule 48 (l.take 16).reverse
    sha2Blocks n (h.zipWith (· + ·) (((shaRound.map (·.extractLsb' 32 32)).zipWith (· + ·) w).foldl sha2Step h)) (l.drop 16)

/-- SHA-256 as 32 bytes. -/
def sha2 (l : List (BitVec 8)) : List (BitVec 8) :=
  let w := sha2Words (l ++ 0x80#8 :: List.replicate ((119 - l.length % 64) % 64) 0 ++ beBytes 8 (8 * l.length))
  (sha2Blocks (w.length / 16) [0x6A09E667, 0xBB67AE85, 0x3C6EF372, 0xA54FF53A, 0x510E527F, 0x9B05688C, 0x1F83D9AB, 0x5BE0CD19] w).flatMap fun x =>
    (List.range 4).map fun i => x.extractLsb' (24 - 8 * i) 8

/-! ## LMS -/

/-- The end of a chain of LM-OTS from its step `a`: 255 - `a` hashes. -/
def otsChain (pre : List (BitVec 8)) (a : Nat) (y : List (BitVec 8)) : List (BitVec 8) :=
  (List.range' a (255 - a)).foldl (fun t j => sha2 (pre ++ beBytes 1 j ++ t)) y

/-- The candidate that an LM-OTS signature gives for a one-time public key. -/
def otsCandidate (id : List (BitVec 8)) (q : Nat) (sig msg : List (BitVec 8)) : List (BitVec 8) :=
  let pre := id ++ beBytes 4 q
  let digest := sha2 (pre ++ [0x81, 0x81] ++ (sig.drop 4).take 32 ++ msg)
  let sum := digest.foldl (fun n b => n + (255 - b.toNat)) 0
  let ends := (digest ++ beBytes 2 sum).zipIdx.flatMap fun c => otsChain (pre ++ beBytes 2 c.2) c.1.toNat ((sig.drop (36 + 32 * c.2)).take 32)
  sha2 (pre ++ [0x80, 0x80] ++ ends)

/-- The root of the tree from one node and the path beside it. -/
def lmsRoot (id : List (BitVec 8)) : Nat → Nat → List (BitVec 8) → List (BitVec 8) → List (BitVec 8)
  | 0, _, _, t => t
  | h + 1, node, path, t =>
    let p := path.take 32
    lmsRoot id h (node / 2) (path.drop 32) (sha2 (id ++ beBytes 4 (node / 2) ++ [0x83, 0x83] ++ if node % 2 = 1 then p ++ t else t ++ p))

/-- Whether a signature of an accepted set verifies over a message with a public key: `h` is the height of its tree. -/
def lmsVerifies (h : Nat) (key sig msg : List (BitVec 8)) : Bool :=
  let id := (key.drop 8).take 16
  let q := beNat (sig.take 4)
  let leaf := sha2 (id ++ beBytes 4 (2 ^ h + q) ++ [0x82, 0x82] ++ otsCandidate id q ((sig.drop 4).take 1124) msg)
  decide (q < 2 ^ h) && lmsRoot id h (2 ^ h + q) (sig.drop 1132) leaf == (key.drop 24).take 32

end Sys2Proof.Machine
end

