-- ==== Sys2Proof/Machine/Boot.lean ====
section
/-!
DEFINITION. Boot, power-up and training, firmware, power, errors, free pages and security (R407 to R427), and the device registers that only store (R6).
-/
namespace Sys2Proof.Machine

/-- Boot stops with a failure. -/
def State.bootFails (s : State) (code : Nat) : State := (s.setHealth { s.health with fail := code }).toStage 0xFF

/-- The health block answers: the link is up and no alarm has stopped the module (R408, R426). -/
def State.healthReg (s : State) : Bool := s.health.pcie && !s.alarmed

/-- Seune runs (R410, R413). -/
def State.seune (s : State) : Bool := 3 ≤ s.health.stage && s.health.stage ≤ 6

/-- PCIE_LINK_UP (R408). -/
def execPcieLinkUp (s : State) : Host.Outcome State Fault Refusal := .next (s.setHealth { s.health with pcie := true })

/-! ## The image (R409, R410) -/

/-- The LMS sets the device accepts: SHA-256/256 with tree heights 5, 10, 15, 20 and 25, LM-OTS with W = 8, in the type codes and lengths of RFC 8554 (R409; log entry 114). -/
def lmsAccepted (pub sig : List Byte) : Bool :=
  let type := ofBytes (pub.take 4).reverse
  let path := 1128 + 4
  5 ≤ type && type ≤ 9 && ofBytes ((pub.drop 4).take 4).reverse == 4 && ofBytes ((sig.drop 4).take 4).reverse == 4 && ofBytes ((sig.drop 1128).take 4).reverse == type &&
    sig.length == path + 32 * (5 * (type - 4))

/-- The first check of R410 that an image fails, 0 for none; `readable` is check 1. -/
def imageFail (o : Otp) (readable : Bool) (img : List Byte) : Nat :=
  let body := (img.drop 4096).take (field img 12 4)
  let at_ (i n : Nat) : List Byte := (img.drop i).take n
  if !readable then 1
  else if field img 0 4 ≠ 0x5746514F ∨ field img 12 4 < 4 ∨ 0x2FF000 < field img 12 4 ∨ field img 16 4 % 4 ≠ 0 ∨ field img 12 4 ≤ field img 16 4 ∨
      2048 < field img 320 4 ∨ field img 10 2 ≠ 0 ∨ field img 20 4 ≠ 0 ∨ (at_ 324 1724).any (· != 0) then 2
  else if sha (at_ 168 96) ≠ o.ecHash ∨ sha (at_ 264 56) ≠ o.lmsHash then 3
  else if sha body ≠ at_ 24 48 then 4
  else if ¬ecdsaVerifies (at_ 168 96) (at_ 72 96) (sha (at_ 0 72)) then 5
  else if ¬(lmsAccepted (at_ 264 56) (at_ 2048 (field img 320 4)) && lmsVerifies (5 * (field img 267 1 - 4)) (at_ 264 56) (at_ 2048 (field img 320 4)) (at_ 0 72)) then 6
  else if field img 8 4 < o.minsvn then 7
  else 0

/-- Whether the header and the body of an image can be read. -/
def imageWhole (img : List Byte) : Bool := 4096 ≤ img.length && 4096 + field img 12 4 ≤ img.length

/-! ## Measurements and attestation (R411) -/

/-- Extends a measurement register. -/
def Health.extend (h : Health) (k : Nat) (v : List Byte) : Health := { h with mregs := h.mregs.set k (sha (h.mregs.getD k [] ++ v)) }

/-- Generates and certifies an alias pair with a further identity leaf; without one the module cannot attest (R411). -/
def State.newAlias (s : State) : State :=
  let h := s.health
  if h.otp.killed then s.setHealth { h with aliases := 0 } else
  if 2 ^ 15 ≤ h.otp.leaf then (s.setHealth { h with aliases := 0 }).replace 32 else
  s.setHealth { h with aliases := 2 ^ 10, otp := { h.otp with leaf := h.otp.leaf + 1 } }

/-- SHA-384 of the boot ROM (R411). -/
def romDigest : List Byte := sha ((List.range Config.romBytes).map Config.rom)

/-- The monitor's regions 0 to 3 of each firmware core's PMP, locked at entry (R413); the manual gives neither their places nor their permissions (log entry 131). -/
def monitorPmp : Tab (Nat × Word) :=
  (List.range 4).map fun i => (i, 0x80 + (Config.monitorPmp (2 * i)).toNat % 0x20, (Config.monitorPmp (2 * i + 1)) &&& 0x3FFFFFFFFFFFFF)

/-- The image's body in firmware SRAM, and firmware core 0 at its entry in M-mode (R410). -/
def Health.loadBody (h : Health) (img : List Byte) : Health :=
  { h with
    fwsram := Tab.setAll 0 h.fwsram (((img.drop 4096).take (field img 12 4)).zipIdx.map fun b => (Config.fwBody + b.2, b.1))
    fw := Tab.set FwCore.reset h.fw 0 { FwCore.reset with on := true, pmp := monitorPmp, pc := BitVec.ofNat 64 (Config.fwBody + field img 16 4) } }

/-- The image boots: its body, measurements, the alias pair, and the units mapped out at every boot (R410, R411, R421). -/
def State.startSeune (s : State) (img : List Byte) (recovery : Bool) : State :=
  let h := { s.health.loadBody img with fwsvn := field img 8 4, fail := 0 }
  let h := (((h.extend 0 romDigest).extend 1 (sha (img.take 72))).extend 2 (padTo 48 [if recovery then 1 else 0])).extend 3 (padTo 48 h.otp.policy)
  let s := (s.setHealth { h with outs := h.drive.outs }).newAlias
  ((s.health.drive.outs.foldl State.takeOut s).toStage 3).countReasons

/-- POWER_ON (R408, R410): the boot ROM begins to verify the drive's image; while it verifies, a later turn ends its checks. -/
def execPowerOn (s : State) : Host.Outcome State Fault Refusal :=
  if s.alarmed then .next s else
  if s.health.stage = 0 then .next ((s.setHealth { s.health with powered := true }).toStage 1) else
  if s.health.stage ≠ 1 then .next s else
  let d := s.health.drive
  let f := imageFail s.health.otp (d.answers && imageWhole d.image) d.image
  if f = 0 then .next (s.startSeune d.image false) else .next ((s.setHealth { s.health with fail := f }).toStage 2)

/-- RCVCTL_SUBMIT (R412): a recovery image in the BAR 2 window; dropped while STAGE is not 2. -/
def execRcvctlSubmit (v : Word) (s : State) : Host.Outcome State Fault Refusal :=
  let n := bits v.toNat 31 0
  if ¬s.healthReg ∨ ¬v.getLsbD 63 ∨ s.health.stage ≠ 2 then .next s else
  let s := s.setHealth { s.health with rcvlen := n }
  let img := Tab.slice 0 s.health.fwsram 0 (min n 0x300000)
  let f := imageFail s.health.otp (decide (n = 4096 + imgNat s.health.fwsram 12 4)) img
  if f = 0 then .next (s.startSeune img true) else .next (s.setHealth { s.health with fail := f })

/-- FIRMWARE_UPDATE (R412): the update service checks an image and begins to write it to namespace 1; while it writes, a later turn ends the write. -/
def execFirmwareUpdate (image : List Byte) (s : State) : Host.Outcome State Fault Refusal :=
  let h := s.health
  match h.drive.writing with
  | some img => .next (s.setHealth { h with drive := { h.drive with image := img, writing := none } })
  | none =>
  if s.seune ∧ imageFail h.otp (h.drive.answers && decide (image.length = 4096 + field image 12 4)) image = 0 then
    .next (s.setHealth { h with drive := { h.drive with writing := some image } })
  else .next s

/-- MINSVN_RAISE (R412): to the running image's SVN. -/
def execMinsvnRaise (s : State) : Host.Outcome State Fault Refusal :=
  let h := s.health
  if s.seune then .next (s.setHealth { h with otp := { h.otp with minsvn := max h.otp.minsvn h.fwsvn } }) else .next s

/-- ATTESTATION_QUOTE (R411): both alias keys sign; a spent alias key is followed by a new one. -/
def execAttestationQuote (nonce : List Byte) (s : State) : Host.Outcome State Fault Refusal :=
  let h := s.health
  if ¬s.seune ∨ h.aliases = 0 ∨ h.otp.killed then .next s else
  let s := s.setHealth { h with quote := Config.quoteBytes h.mregs.flatten nonce, aliases := h.aliases - 1 }
  .next (if h.aliases = 1 then s.newAlias else s)

/-! ## Power-up (R414) -/

/-- The limit of a step has passed, which counts as failure. -/
def State.past (s : State) (since ns : Nat) : Bool := since + ns ≤ s.podtime

/-- RAILS_GOOD: step 1. -/
def execRailsGood (s : State) : Host.Outcome State Fault Refusal :=
  let h := s.health
  if h.stage ≠ 3 ∨ h.rails = 0xFF then .next s
  else if s.past h.since 50000000 then .next (s.bootFails 9)
  else .next (s.setHealth { h with rails := 0xFF, since := s.podtime })

/-- CLKCTL_WRITE: step 2, once the rails are good. LOCK is read-only. -/
def execClkctlWrite (v : Word) (s : State) : Host.Outcome State Fault Refusal :=
  let h := s.health
  if h.stage = 3 ∧ h.rails = 0xFF then
    .next (s.setHealth { h with clkctl := (if v.getLsbD 0 then h.clkctl - h.clkctl % 2 + 1 else 0), since := s.podtime })
  else .next s

/-- PLL_LOCK. -/
def execPllLock (s : State) : Host.Outcome State Fault Refusal :=
  let h := s.health
  if h.stage ≠ 3 ∨ ¬h.clkctl.testBit 0 ∨ h.clkctl.testBit 63 then .next s
  else if s.past h.since 1000000 then .next (s.bootFails 9)
  else .next (s.setHealth { h with clkctl := 2 ^ 63 + 1 })

/-- DIERST_WRITE: steps 3 and 4, the hub before the shells. -/
def execDierstWrite (v : Word) (s : State) : Host.Outcome State Fault Refusal :=
  let h := s.health
  let n := v.toNat % 32
  if h.stage = 3 ∧ h.clkctl.testBit 63 ∧ (n ≤ 1 ∨ h.diestat.testBit 0) then
    let new := (List.range 5).filter fun d => n.testBit d && !h.dierst.testBit d
    .next (s.setHealth { h with dierst := n, dsince := new.foldl (fun t d => Tab.set 0 t d s.podtime) h.dsince })
  else .next s

/-- Whether a die whose release was written has come up too late. -/
def State.dieLate (s : State) (d : Nat) : Bool :=
  s.health.dierst.testBit d && !s.health.diestat.testBit d && s.past (Tab.get 0 s.health.dsince d) 10000000

/-- DIE_RELEASED: the hub as 0, shells 0 to 3 as 1 to 4. -/
def execDieReleased (die : Nat) (s : State) : Host.Outcome State Fault Refusal :=
  let h := s.health
  if h.stage ≠ 3 ∨ 5 ≤ die ∨ ¬h.dierst.testBit die ∨ 1 ≤ die ∧ h.outs.contains (.die (die - 1)) then .next s
  else if s.dieLate die then .next (if die = 0 then s.bootFails 9 else s.mapOut (.die (die - 1)))
  else .next (s.setHealth { h with diestat := h.diestat ||| 2 ^ die })

/-- Every shell has been released or mapped out. -/
def Health.shellsDone (h : Health) : Bool :=
  h.diestat.testBit 0 && (List.range 4).all fun d => h.diestat.testBit (d + 1) || h.outs.contains (.die d)

/-- SRAMINIT_WRITE: step 5. -/
def execSraminitWrite (v : Word) (s : State) : Host.Outcome State Fault Refusal :=
  let h := s.health
  if h.stage = 3 ∧ h.shellsDone then .next (s.setHealth { h with sram := v.toNat % 2, since := s.podtime }) else .next s

/-- Boot stops with code 8 when no first-tier group is left (R415). -/
def State.needsMemory (s : State) : State := if (List.range 12).all fun g => s.health.outs.contains (.group g) then s.bootFails 8 else s

/-- Step 5 has ended: every core is zeroed (R427), the cores CORESTAT lists are mapped out, and memory training begins. -/
def State.sramDone (s : State) (failing : List Nat) : State :=
  let s := s.setHealth { s.health with corestat := failing.filter (· < Config.cores) }
  let s := s.cores.foldl (fun s c => s.putCore c.zeroed) s
  ((s.health.corestat.foldl (fun s k => s.mapOut (.core k)) s).toStage 4).needsMemory

/-- SRAM_INIT_DONE. -/
def execSramInitDone (failing : List Nat) (s : State) : Host.Outcome State Fault Refusal :=
  let h := s.health
  if h.stage = 3 ∧ h.sram = 1 then .next ((s.setHealth { h with sram := 2 ^ 63 + 1 }).sramDone failing) else .next s

/-- POWER_UP_TIMEOUT: the present step has passed its limit. Of a test of core SRAM that has not ended, what CORESTAT lists is a free value (log entry 110). -/
def execPowerUpTimeout (s : State) : Host.Outcome State Fault Refusal :=
  let h := s.health
  if h.stage ≠ 3 then .next s
  else if h.rails ≠ 0xFF then (if s.past h.since 50000000 then .next (s.bootFails 9) else .next s)
  else if ¬h.clkctl.testBit 63 then (if h.clkctl.testBit 0 ∧ s.past h.since 1000000 then .next (s.bootFails 9) else .next s)
  else if ¬h.diestat.testBit 0 then (if s.dieLate 0 then .next (s.bootFails 9) else .next s)
  else if ¬h.shellsDone then
    .next (((List.range 4).filter fun d => s.dieLate (d + 1)).foldl (fun s d => s.mapOut (.die d)) s)
  else if h.sram = 1 ∧ s.past h.since 20000000 then
    .next (({ s with free := s.free + 6 } : State).sramDone ((List.range Config.cores).filter fun k => (Config.freeValue (s.free + k / 64)).getLsbD (k % 64)))
  else .next s

/-! ## Memory training (R415) -/

/-- Training of a device has ended, or the device is out of service. -/
def Health.trained (h : Health) (n : Nat) : Bool := (Tab.get 0 h.mstat n).testBit 63 || h.outs.contains (deviceUnit n)

/-- MCTL_WRITE: a controller is reset by bit 0, and trained by bits 12:8. -/
def execMctlWrite (n : Nat) (v : Word) (s : State) : Host.Outcome State Fault Refusal :=
  let h := s.health
  if h.stage ≠ 4 ∨ 64 ≤ n then .next s else
  let c := bits v.toNat 12 8 * 256 + v.toNat % 2
  .next (s.setHealth { h with
    mctl := Tab.set 0 h.mctl n c
    mstat := if c % 2 = 1 then Tab.set 0 h.mstat n 0 else h.mstat
    msince := Tab.set 0 h.msince n s.podtime })

/-- A controller trains: all five stages asked for, out of reset, and not done. -/
def Health.training (h : Health) (n : Nat) : Bool := h.stage == 4 && Tab.get 0 h.mctl n == 0x1F00 && !h.trained n

/-- A device fails its training: its group or package goes out of service, and with no first-tier group left boot stops with code 8. -/
def State.trainFails (s : State) (n : Nat) : State := (s.mapOutAt (deviceUnit n) n).needsMemory

/-- The limit of a controller's training has passed. -/
def State.trainLate (s : State) (n : Nat) : Bool := s.past (Tab.get 0 s.health.msince n) 100000000

/-- MEMORY_TRAINING_DONE: MSTAT has DONE, and PASS where the device passed; one that failed, or that ends past its limit, is out. -/
def execMemoryTrainingDone (n : Nat) (pass : Bool) (s : State) : Host.Outcome State Fault Refusal :=
  let h := s.health
  if ¬(n < 64 ∧ h.training n) then .next s else
  let t := s.setHealth { h with mstat := Tab.set 0 h.mstat n (2 ^ 63 + if pass then 2 ^ 62 else 0) }
  .next (if pass ∧ ¬s.trainLate n then t else t.trainFails n)

/-- MEMORY_TRAINING_TIMEOUT: 100 ms have passed. -/
def execMemoryTrainingTimeout (n : Nat) (s : State) : Host.Outcome State Fault Refusal :=
  if n < 64 ∧ s.health.training n ∧ s.trainLate n then .next (s.trainFails n) else .next s

/-- MMAP_WRITE: step 4, once every device has trained or is out. -/
def execMmapWrite (v : Word) (s : State) : Host.Outcome State Fault Refusal :=
  let h := s.health
  if h.stage = 4 ∧ (List.range 64).all h.trained then .next ((s.setHealth { h with mmap := bits v.toNat 27 0 }).toStage 5).admitWhenReady else .next s

/-! ## Link training (R416) -/

/-- A port that is being trained. -/
def State.portTrains (s : State) (p : Nat) : Bool := s.health.stage == 5 && p < 32 && !s.health.outs.contains (.link p)

def State.setPsince (s : State) (p : Nat) : State := s.setHealth { s.health with psince := Tab.set 0 s.health.psince p s.podtime }

def State.portCtl (s : State) (p : Nat) : Nat := Tab.get 0 s.health.portctl p

/-- PORTCTL_WRITE: lanes on; the identity exchange once RS-FEC is locked; in service once the neighbour is known. -/
def execPortctlWrite (p : Nat) (v : Word) (s : State) : Host.Outcome State Fault Refusal :=
  if ¬s.portTrains p then .next s else
  let n := v.toNat
  let st := (s.port p).state
  let b8 := n.testBit 8 && st.testBit 8
  let b9 := n.testBit 9 && st.testBit 9
  let ctl := n % 4 + (if b8 then 2 ^ 8 else 0) + if b9 then 2 ^ 9 else 0
  let s := (s.setHealth { s.health with portctl := Tab.set 0 s.health.portctl p ctl }).setPsince p
  let s := s.setPort p { s.port p with service := b9, lanes := if n % 4 = 0 then 0 else (s.port p).lanes, state := if n % 4 = 0 then 0 else st }
  .next s.admitWhenReady

/-- The lanes that trained: one that failed is left off. -/
def State.lanesDone (s : State) (p : Nat) (l : Nat) : State :=
  s.setPsince p |>.setPort p { s.port p with state := l, lanes := l % 2 + l / 2 }

/-- The limit of a port's present step has passed: 500 ms for its lanes, 10 ms for a later one. -/
def State.portLate (s : State) (p ns : Nat) : Bool := s.past (Tab.get 0 s.health.psince p) ns

/-- LANE_TRAINING_DONE: step 1. Lanes that come after the limit stay off, and a port without a lane is mapped out. -/
def execLaneTrainingDone (p : Nat) (lanes : BitVec 2) (s : State) : Host.Outcome State Fault Refusal :=
  let l := lanes.toNat &&& (s.portCtl p % 4)
  if ¬s.portTrains p ∨ (s.port p).state ≠ 0 ∨ l = 0 then .next s
  else .next (if s.portLate p 500000000 then s.mapOut (.link p) else s.lanesDone p l)

/-- RS_FEC_LOCK: step 2. -/
def execRsFecLock (p : Nat) (s : State) : Host.Outcome State Fault Refusal :=
  let x := s.port p
  if ¬s.portTrains p ∨ x.lanes = 0 ∨ x.state.testBit 8 then .next s
  else .next (if s.portLate p 10000000 then s.mapOut (.link p) else s.setPort p { x with state := x.state ||| 2 ^ 8 })

/-- IDENTITY_EXCHANGE_DONE: steps 3 and 4; a neighbour that the topology table does not give maps the port out. -/
def execIdentityExchangeDone (p neighbour : Nat) (s : State) : Host.Outcome State Fault Refusal :=
  let x := s.port p
  if ¬s.portTrains p ∨ ¬(s.portCtl p).testBit 8 ∨ 2 ^ 16 ≤ neighbour then .next s
  else if neighbour = Config.topology p ∧ (x.state.testBit 9 ∨ ¬s.portLate p 10000000) then
    .next (s.setPort p { x with state := x.state % 2 ^ 9 + 2 ^ 9 + neighbour * 2 ^ 16, neighbour := neighbour })
  else .next (s.mapOut (.link p))

/-- LINK_TRAINING_TIMEOUT: a lane that has not trained in 500 ms is left off; a port whose later step passes 10 ms is mapped out. -/
def execLinkTrainingTimeout (p : Nat) (s : State) : Host.Outcome State Fault Refusal :=
  let x := s.port p
  if ¬s.portTrains p ∨ s.portCtl p % 4 = 0 ∨ x.state.testBit 9 then .next s
  else if x.state = 0 then
    (if s.portLate p 500000000 then .next (s.mapOut (.link p)) else .next s)
  else if x.state.testBit 8 ∧ ¬(s.portCtl p).testBit 8 then .next s
  else if s.portLate p 10000000 then .next (s.mapOut (.link p))
  else .next s

/-! ## Plug-ins and the firmware's isolation (R413) -/

/-- A function's plug-in is stopped: a record of KIND 8, and its service events go to the host. -/
def State.stopPlugin (s : State) (fn : Nat) : State :=
  let s := (s.setFunc fn { s.func fn with plugin := 2 }).logEvent 8 0 0 0 0
  (s.ctxs.filter fun c => c.2.fn == fn && c.2.slots.any fun e => e.2.plug).foldl (fun s c =>
    ((s.putCtx c.1 { c.2 with slots := c.2.slots.map fun e => if e.2.plug then (e.1, { e.2 with plug := false, waits := true }) else e }).writeHeader c.1).interrupt fn 2) s

/-- Seune, while it runs, installs or replaces a function's plug-in: MREG4 takes its digest (R411). The table has no event of a load; a turn of the agenda gives it (log entry 111). -/
def State.installPlugin (s : State) (fn : Nat) (image : List Byte) : State :=
  if ¬s.seune ∨ 33 ≤ fn then s else
  (s.setHealth (s.health.extend 4 (sha image))).setFunc fn { s.func fn with plugin := 1 }

/-- PLUGIN_TIMEOUT: 100 µs on one service event. -/
def execPluginTimeout (fn : Nat) (s : State) : Host.Outcome State Fault Refusal :=
  if (s.func fn).plugin = 1 ∧ s.ctxs.any (fun c => c.2.fn == fn && c.2.slots.any fun e => e.2.plug && e.2.since + 100000 ≤ s.podtime) then .next (s.stopPlugin fn) else .next s

/-- PLUGIN_VIOLATION: an access outside its regions. -/
def execPluginViolation (fn : Nat) (s : State) : Host.Outcome State Fault Refusal :=
  if (s.func fn).plugin = 1 then .next (s.stopPlugin fn) else .next s

/-! ## Security (R425, R426) -/

/-- An alarm whose source is a bit of SECSTAT: 1 tamper, 2 glitch, 3 firmware. -/
def State.alarm (s : State) (source : Nat) : State :=
  let h := s.health
  let idz := source == 1 && h.otp.idz
  let gone := s.gang.busy
  let sec := h.sec ||| 1 ||| 2 ^ source ||| (if idz then 16 else 0)
  let s := s.setHealth { h with session := false, otp := { h.otp with killed := h.otp.killed || idz }, aliases := if idz then 0 else h.aliases }
  let s := if idz then s.replace 64 else s
  let s := (s.ctxs.map (·.1)).foldl State.teardown s
  let halt (q : CmdQueue) : CmdQueue := { q with halt := true, busy := none }
  let s : State := { s with
    hub := { s.hub with current := none, fns := s.hub.fns.map fun f => (f.1, { f.2 with cbusy := none, lbusy := none, flr := false, queues := f.2.queues.map fun q => (q.1, halt q.2) }) }
    gang := { s.gang with state := if s.gang.busy then 0 else s.gang.state, enter := [], caps := [], frozen := [] } }
  let s := if gone then s.gangInterrupt else s
  let s := s.toStage 0xFF
  let s := s.logEvent 7 0 0 0 0
  if sec = h.sec then s else (s.setHealth { s.health with sec := sec }).interrupt 0 5

/-- SECURITY_ALARM: tamper or glitch, of a module that is powered. -/
def execSecurityAlarm (source : Nat) (s : State) : Host.Outcome State Fault Refusal :=
  if s.health.powered ∧ (source = 1 ∨ source = 2) then .next (s.alarm source) else .next s

/-- FIRMWARE_ISOLATION_VIOLATION (R413): an alarm with FWVIOL. -/
def execFirmwareIsolationViolation (s : State) : Host.Outcome State Fault Refusal := if s.health.powered then .next (s.alarm 3) else .next s

/-! ## The governor (R408, R417, R418) -/

/-- Revokes leave from the engines granted last until the rule holds. -/
def revoke : Nat → State → State
  | 0, s => s
  | n + 1, s =>
    let g := s.hub.gov
    match g.granted.getLast? with
    | none => s
    | some k =>
      if g.fits g.granted.length then s else
      revoke n ({ (s.putCore { s.coreAt k with leave := .none }) with hub := { s.hub with gov := { g with granted := g.granted.dropLast } } })

def State.revokeAll (s : State) : State := revoke s.hub.gov.granted.length s

/-- Grants leave in request order while it fits. -/
def grant : Nat → State → State
  | 0, s => s
  | n + 1, s => grant n s.grantOne

/-- PWRLIM_WRITE (R408): a value outside 400 to 1,650 stores the nearer bound. -/
def execPwrlimWrite (v : Word) (s : State) : Host.Outcome State Fault Refusal :=
  if ¬s.healthReg then .next s else
  .next ({ s with hub := { s.hub with gov := { s.hub.gov with limit := min 1650 (max 400 (bits v.toNat 15 0)) } } } : State).revokeAll

/-- GOVERNOR_TICK (R417, R418): a sample of the measured power, in W. -/
def execGovernorTick (measured : Nat) (s : State) : Host.Outcome State Fault Refusal :=
  let g := s.hub.gov
  let s : State := { s with hub := { s.hub with gov := { g with samples := (((measured : Int) - 3 * (g.granted.length : Int)) :: g.samples).take 10 } } }
  let s := s.revokeAll
  .next (grant s.hub.gov.asks.length s)

/-- DIE_TEMPERATURE_CHANGE (R418). -/
def execDieTemperatureChange (die celsius : Nat) (s : State) : Host.Outcome State Fault Refusal :=
  let g := s.hub.gov
  let hot := if 105 < celsius then (if g.hot.contains die then g.hot else g.hot ++ [die]) else if celsius < 95 then g.hot.filter (· != die) else g.hot
  .next ({ s with hub := { s.hub with gov := { g with hot := hot } } } : State).revokeAll

/-! ## Errors (R419 to R421) -/

/-- The tables of a stage-1 tree that hold an entry, by guest address and size, and its leaves, by guest address and size. -/
def treeOf (s : State) (fn : Nat) : List Nat → Nat → List (Nat × Nat) × List (Nat × Nat)
  | [], _ => ([], [])
  | l :: ls, table =>
    match guestPa s fn table with
    | none => ([], [])
    | some (pa, _, _) =>
      let n := tableSize l
      let words := ((s.mem.filter fun c => pa ≤ c.1 && c.1 < pa + n).map fun c => (c.1 - pa) / 8).eraseDups
      let es := words.filterMap fun w => pte? l (s.memNat (pa + 8 * w) 8)
      let below := (es.filter fun e => !e.leaf).map fun e => treeOf s fn ls e.addr
      ((table, n) :: below.flatMap (·.1), (es.filter (·.leaf)).map (fun e => (e.addr, 2 ^ leafBits l)) ++ below.flatMap (·.2))

/-- Whether a guest range of a function meets a physical page of 64 KiB. -/
def rangeMeets (s : State) (fn page a n : Nat) : Bool :=
  if fn = 0 then overlap a n page 0x10000 else
  (List.range ((a % 0x10000 + n + 0xFFFF) / 0x10000)).any fun k =>
    match guestPa s fn (max a (a - a % 0x10000 + 0x10000 * k)) with
    | some (pa, _, _) => pa - pa % 0x10000 == page
    | none => false

/-- Whether a context owns a physical page: its tables, its pages, its save area (R420). -/
def ownsPage (s : State) (x : Ctx) (page : Nat) : Bool :=
  let t := treeOf s x.fn [0, 1, 2, 3] x.root
  (t.1 ++ t.2).any (fun r => rangeMeets s x.fn page r.1 r.2) || rangeMeets s x.fn page x.save x.saveSize

def State.ownersOf (s : State) (page : Nat) : List Nat := (s.ctxs.filter fun c => ownsPage s c.2 page).map (·.1)

/-- The context whose state a core's SRAM holds: its crew's, else its last crew's. -/
def Core.holder (c : Core) : Option Nat := match c.crew with | some w => some w.ctx | none => c.owner

/-- CTX of a log record. -/
def ctxOf (o : Option Nat) : Nat := o.getD 0

/-- CORRECTED_ERROR (R419, R421): logged; the sixteenth of a core's SRAM in 24 hours maps the core out and pre-empts its crew. -/
def execCorrectedError (unit loc addr : Nat) (s : State) : Host.Outcome State Fault Refusal :=
  if s.alarmed then .next s
  else if unit = 1 then
    let k := destCore loc
    let s := s.logEvent 1 1 (ctxOf (s.coreAt k).holder) loc 0
    let l := (s.health.corr.filter fun e => s.podtime < e.2 + 86400000000000) ++ [(k, s.podtime)]
    let s := s.setHealth { s.health with corr := l }
    if Config.cores ≤ k ∨ (l.filter fun e => e.1 == k).length < 16 then .next s else
    .next ((s.groupOf (s.coreAt k)).foldl State.request (s.mapOut (.core k)))
  else if unit = 0 ∨ unit = 2 ∨ unit = 3 then .next (s.logEvent 1 unit (ctxOf (s.ownersOf (addr - addr % 0x10000)).head?) loc addr)
  else if unit = 4 then .next (s.logEvent 1 4 0 0 0)
  else .next s

/-- Retires a page: it leaves and never joins a free list (R420, R424). -/
def State.retirePage (s : State) (unit loc page : Nat) : State :=
  let h := s.health
  if h.drive.retired.contains page then s else
  ((s.setHealth { h with drive := { h.drive with retired := h.drive.retired ++ [page] }, free1 := h.free1.filter (· != page), free2 := h.free2.filter (· != page) }).logEvent 4 unit 0 loc page).countReasons

/-- The physical pages that a context owns: its tables, its pages, its save area. -/
def ownedPages (s : State) (x : Ctx) : List Nat :=
  let t := treeOf s x.fn [0, 1, 2, 3] x.root
  ((t.1 ++ t.2 ++ [(x.save, x.saveSize)]).flatMap fun r => (List.range ((r.1 % 0x10000 + r.2 + 0xFFFF) / 0x10000)).filterMap fun k =>
    (guestPa s x.fn (r.1 - r.1 % 0x10000 + 0x10000 * k)).map fun g => g.1 - g.1 % 0x10000).eraseDups

/-- A memory unit goes out of service: contexts with pages in it are torn down, and its pages that a list or a context held are retired (R421). -/
def State.memoryOut (s : State) (o : Out) (loc : Nat) : State :=
  let inside (p : Nat) : Bool := deviceUnit (Config.controllerOf p) == o
  let hit := s.ctxs.filterMap fun c => match (ownedPages s c.2).filter inside with | [] => none | l => some (c.1, l)
  let gone := (hit.flatMap (·.2) ++ (s.health.free1 ++ s.health.free2).filter inside).eraseDups
  let s := (hit.map (·.1)).foldl State.teardown (s.mapOutAt o loc)
  gone.foldl (fun s p => s.retirePage o.unit loc p) s

/-- The module resets after an error of firmware SRAM: the record is on the drive; the drive, OTP and the reasons for replacement stay (R420, R423). -/
def State.moduleReset (s : State) : State :=
  let h := s.health
  let rec_ : LogRec := ⟨s.podtime, 2, 4, 0, 0, 0, []⟩
  { State.reset with
    agenda := s.agenda
    turn := s.turn
    free := s.free
    podtime := s.podtime
    mem := s.mem
    health := { Health.reset with drive := { h.drive with fatal := h.drive.fatal ++ [rec_] }, otp := h.otp, why := h.why, sec := h.sec, powered := h.powered } }

/-- UNCORRECTABLE_ERROR (R420, R421): of core SRAM, of a memory-side cache, of memory, of firmware SRAM; and a quad that fails its self-test (log entry 88). -/
def execUncorrectableError (unit loc addr : Nat) (s : State) : Host.Outcome State Fault Refusal :=
  if s.alarmed then .next s
  else if unit = 1 then
    let k := destCore loc
    let o := (s.coreAt k).holder
    let s := s.logEvent 2 1 (ctxOf o) loc 0
    let s := match o with | some c => s.teardown c | none => s
    .next (if k < Config.cores then s.mapOut (.core k) else s)
  else if unit = 0 ∨ unit = 2 ∨ unit = 3 then
    let page := addr - addr % 0x10000
    let own := s.ownersOf page
    let s := own.foldl (fun s c => (s.logEvent 2 unit c loc addr).teardown c) s
    let s := s.retirePage unit loc page
    if unit = 0 then .next s else
    let h := s.health
    let devs := if h.devs.contains (loc, page) then h.devs else h.devs ++ [(loc, page)]
    let s := s.setHealth { h with devs := devs }
    if 4 ≤ (devs.filter fun d => d.1 == loc).length ∧ loc < 64 then .next (s.memoryOut (deviceUnit loc) loc) else .next s
  else if unit = 4 then .next s.moduleReset
  else if unit = 6 then
    let q := destCore loc / 4
    .next (if q < 96 then (Out.quad q).cores.foldl (fun s k => (s.groupOf (s.coreAt k)).foldl State.request s) (s.mapOut (.quad q)) else s)
  else .next s

/-- PATROL_SCRUB (R419): corrected lines are written back; nothing that programs see changes. -/
def execPatrolScrub (s : State) : Host.Outcome State Fault Refusal := .next s

/-! ## Free pages (R424) -/

/-- FREE_PAGE_ADD: the page is zeroed and then free, a retired page never. -/
def execFreePageAdd (v : Word) (s : State) : Host.Outcome State Fault Refusal :=
  let n := v.toNat
  if ¬s.healthReg ∨ ¬n.testBit 63 ∨ bits n 61 60 ≠ 1 then .next s else
  let page := bits n 51 16
  .next ((s.setHealth { s.health with fptier := n.testBit 62, fpop := 1, fppage := page }).addFree (n.testBit 62) (page * 0x10000) 1)

/-- FREE_PAGE_TAKE: the page added earliest, or 0. -/
def execFreePageTake (v : Word) (s : State) : Host.Outcome State Fault Refusal :=
  let n := v.toNat
  if ¬s.healthReg ∨ ¬n.testBit 63 ∨ bits n 61 60 ≠ 2 then .next s else
  let t := n.testBit 62
  let l := s.health.free t
  let h := s.health.setFree t (l.drop 1)
  .next (s.setHealth { h with fptier := t, fpop := 2, fppage := (l.headD 0) / 0x10000 })

/-! ## Registers that only store (R6) -/

/-- A write to a function's own registers: arguments, thresholds, and commands that start nothing. -/
def writeFuncReg (s : State) (fn off : Nat) (v : Word) : State :=
  let f := s.func fn
  let n := v.toNat
  let go := n.testBit 63
  if off = 0x20000 then
    if f.cbusy.isSome then s else
    s.setFunc fn { f with ccmd := ccmdFields v, cresult := if go then 0x01 else f.cresult }
  else if off = 0x20008 then s.setFunc fn { f with carg := v }
  else if off = 0x20040 then
    if f.lbusy.isSome then s else
    s.setFunc fn { f with lcmd := lcmdFields v, lresult := if go then 0x01 else f.lresult, ldetail := if go then 0 else f.ldetail }
  else if off = 0x20048 then (if f.lbusy.isSome then s else s.setFunc fn { f with larg := v })
  else if off = 0x20080 then s.setFunc fn { f with depthr := v }
  else s

/-- A write to the physical function's job and gang registers. -/
def writePodReg (s : State) (off : Nat) (v : Word) : State :=
  let n := v.toNat
  let go := n.testBit 63
  let op := bits n 55 52
  if off = 0x40000 then
    { s with net := { s.net with jcmd := BitVec.ofNat 64 (op * 2 ^ 52 + bits n 43 32 * 2 ^ 32 + bits n 15 0), jresult := if go then 0x01 else s.net.jresult } }
  else if off = 0x40008 then { s with net := { s.net with jarg := v } }
  else if off = 0x40040 then
    { s with gang := { s.gang with op := op, tag := bits n 15 0, result := if go then 0x01 else s.gang.result } }
  else if off = 0x40048 then { s with gang := { s.gang with time := v } }
  else if off = 0x40050 then { s with gang := { s.gang with base := bits n 51 16 * 0x10000 } }
  else if off = 0x40058 then { s with gang := { s.gang with size := bits n 31 0 } }
  else s

/-- A write to the health block. -/
def writeHealthReg (s : State) (off : Nat) (v : Word) : State :=
  let n := v.toNat
  if off = 0x50008 then (if s.health.stage ≠ 2 then s else s.setHealth { s.health with rcvlen := bits n 31 0 })
  else if off = 0x50038 then s.setHealth { s.health with sel := bits n 31 0 }
  else if off = 0x50060 then
    s.setHealth { s.health with fptier := n.testBit 62, fpop := bits n 61 60, fppage := bits n 51 16 }
  else s

/-- A write to a register whose write starts something is that register's event: the queue registers, the commands, and the physical function's registers of a virtual function (R297,
R315, R340, R348, R355, R370, R393, R408); `none` for a write that only stores. -/
def registerEvent (fn off : Nat) (v : Word) (s : State) : Option (Host.Outcome State Fault Refusal) :=
  let n := v.toNat
  let go := n.testBit 63
  let op := bits n 55 52
  let pf := fn = 0
  if 0x10000 ≤ off ∧ off < 0x10200 then
    let q := (off - 0x10000) / 32
    match off % 32 with
    | 0 => some (execQcfgWrite fn q v s)
    | 8 => some (execQbaseWrite fn q v s)
    | 24 => some (execDoorbell fn q v s)
    | _ => none
  else if off = 0x20000 ∧ go ∧ (s.func fn).cbusy.isNone then
    match op with
    | 1 => some (execCreate fn v s)
    | 2 => some (execDestroy fn v s)
    | 3 => some (execSave fn v s)
    | 4 => some (execRestore fn v s)
    | 5 => some (execSwitch fn v s)
    | 6 => some (execResume fn v s)
    | 7 => some (execInval fn v s)
    | 8 => some (execVfsusp fn v s)
    | 9 => some (execVfres fn v s)
    | _ => none
  else if off = 0x20040 ∧ go ∧ (s.func fn).lbusy.isNone then
    match op with
    | 1 => some (execLoad fn v s)
    | 2 => some (execUnload fn v s)
    | _ => none
  else if off = 0x20088 then some (execDepstatWrite fn v s)
  else if pf ∧ 0x30000 ≤ off ∧ off < 0x30400 then
    match off % 32 with
    | 0 => some (execVffeatWrite ((off - 0x30000) / 32) v s)
    | 8 => some (execS2rootWrite ((off - 0x30000) / 32) v s)
    | _ => none
  else if pf ∧ off = 0x40000 ∧ go then
    match op with
    | 1 => some (execBind v s)
    | 2 => some (execUnbind v s)
    | _ => none
  else if pf ∧ off = 0x40040 ∧ go then
    match op with
    | 1 => some (execEasyAll v s)
    | 2 => some (execGangIn v s)
    | 3 => some (execDiscard v s)
    | _ => none
  else if pf ∧ off = 0x50008 ∧ go then some (execRcvctlSubmit v s)
  else if pf ∧ off = 0x50010 then some (execPwrlimWrite v s)
  else if pf ∧ off = 0x50060 ∧ go then
    match bits n 61 60 with
    | 1 => some (execFreePageAdd v s)
    | 2 => some (execFreePageTake v s)
    | _ => none
  else none

/-- A host's write of 8 bytes to the physical function's BAR 2, the window of a recovery image (R412). -/
def writeBar2 (s : State) (off : Nat) (v : Word) : State :=
  if s.health.stage = 2 ∧ off + 8 ≤ 0x300000 then
    s.setHealth { s.health with fwsram := Tab.setAll 0 s.health.fwsram ((toBytes 8 v.toNat).zipIdx.map fun b => (off + b.2, b.1)) }
  else s

/-- REGISTER_WRITE (R6, R408; offsets from 2^32 are those of BAR 2, log entry 32): writable fields are stored, reserved ones stay zero; nothing but the health block answers before the host is admitted. -/
def execRegisterWrite (fn off : Nat) (v : Word) (s : State) : Host.Outcome State Fault Refusal :=
  if 33 ≤ fn then .next s else
  match registerEvent fn off v s with
  | some o => o
  | none =>
  if fn = 0 ∧ 2 ^ 32 ≤ off then .next (if s.healthReg then writeBar2 s (off - 2 ^ 32) v else s)
  else if fn = 0 ∧ 0x50000 ≤ off then (if s.healthReg then .next (writeHealthReg s off v) else .next s)
  else if ¬s.admitted then .next s
  else if fn = 0 ∧ 0x40000 ≤ off then .next (writePodReg s off v)
  else .next (writeFuncReg s fn off v)

/-! ## Power off (R407) -/

/-- What a write that the power loss cut short leaves of an image: one that fails check 1, 2 or 4 of R410, which of them a free value says (R412; log entry 112). -/
def tornImage (n : Nat) (img : List Byte) : List Byte :=
  match (Config.freeValue n).toNat % 3 with
  | 0 => img.take 4095
  | 1 => img.modify 0 (~~~ ·)
  | _ => img.modify 4096 (~~~ ·)

/-- POWER_OFF: only the drive and OTP keep their state. -/
def execPowerOff (s : State) : Host.Outcome State Fault Refusal :=
  .next { State.reset with
    agenda := s.agenda
    turn := s.turn
    free := s.free + 1
    podtime := s.podtime
    health := { Health.reset with
      otp := s.health.otp
      drive := match s.health.drive.writing with
        | some img => { s.health.drive with image := tornImage s.free img, writing := none }
        | none => s.health.drive } }

end Sys2Proof.Machine
end

