-- ==== Sys2Proof/Machine/Dispatch.lean ====
section
/-!
DEFINITION. The dispatch: one arm per instruction, each one direct call of its meaning.
-/
namespace Sys2Proof.Machine

/-- What executing an instruction or making an event does. -/
def exec (i : Instr) (s : State) : Host.Outcome State Fault Refusal :=
  match i with
  | .illegalInstruction e word detail => Sys2Proof.Machine.execIllegalInstruction e word detail s
  | .nop c y => Sys2Proof.Machine.execNop c y s
  | .add c y d a b w => Sys2Proof.Machine.execAdd c y d a b w s
  | .sub c y d a b w => Sys2Proof.Machine.execSub c y d a b w s
  | .mul c y d a b w => Sys2Proof.Machine.execMul c y d a b w s
  | .mulh c y d a b w => Sys2Proof.Machine.execMulh c y d a b w s
  | .mulhu c y d a b w => Sys2Proof.Machine.execMulhu c y d a b w s
  | .div c y d a b w => Sys2Proof.Machine.execDiv c y d a b w s
  | .divu c y d a b w => Sys2Proof.Machine.execDivu c y d a b w s
  | .rem c y d a b w => Sys2Proof.Machine.execRem c y d a b w s
  | .remu c y d a b w => Sys2Proof.Machine.execRemu c y d a b w s
  | .and c y d a b w => Sys2Proof.Machine.execAnd c y d a b w s
  | .or c y d a b w => Sys2Proof.Machine.execOr c y d a b w s
  | .xor c y d a b w => Sys2Proof.Machine.execXor c y d a b w s
  | .andn c y d a b w => Sys2Proof.Machine.execAndn c y d a b w s
  | .shl c y d a b w => Sys2Proof.Machine.execShl c y d a b w s
  | .shr c y d a b w => Sys2Proof.Machine.execShr c y d a b w s
  | .sra c y d a b w => Sys2Proof.Machine.execSra c y d a b w s
  | .slt c y d a b w => Sys2Proof.Machine.execSlt c y d a b w s
  | .sltu c y d a b w => Sys2Proof.Machine.execSltu c y d a b w s
  | .min c y d a b w => Sys2Proof.Machine.execMin c y d a b w s
  | .max c y d a b w => Sys2Proof.Machine.execMax c y d a b w s
  | .minu c y d a b w => Sys2Proof.Machine.execMinu c y d a b w s
  | .maxu c y d a b w => Sys2Proof.Machine.execMaxu c y d a b w s
  | .sel c y d a b => Sys2Proof.Machine.execSel c y d a b s
  | .clz c y d a w => Sys2Proof.Machine.execClz c y d a w s
  | .popc c y d a w => Sys2Proof.Machine.execPopc c y d a w s
  | .addi c y d a a4 => Sys2Proof.Machine.execAddi c y d a a4 s
  | .andi c y d a a4 => Sys2Proof.Machine.execAndi c y d a a4 s
  | .ori c y d a a4 => Sys2Proof.Machine.execOri c y d a a4 s
  | .xori c y d a a4 => Sys2Proof.Machine.execXori c y d a a4 s
  | .shli c y d a a4 => Sys2Proof.Machine.execShli c y d a a4 s
  | .shri c y d a a4 => Sys2Proof.Machine.execShri c y d a a4 s
  | .srai c y d a a4 => Sys2Proof.Machine.execSrai c y d a a4 s
  | .slti c y d a a4 => Sys2Proof.Machine.execSlti c y d a a4 s
  | .sltiu c y d a a4 => Sys2Proof.Machine.execSltiu c y d a a4 s
  | .sync c waits sigs => Sys2Proof.Machine.execSync c waits sigs s
  | .syncV1 c w g => Sys2Proof.Machine.execSyncV1 c w g s
  | .loop c y a2 len => Sys2Proof.Machine.execLoop c y a2 len s
  | .loopi c y n len => Sys2Proof.Machine.execLoopi c y n len s
  | .follow c y d => Sys2Proof.Machine.execFollow c y d s
  | .brf c y d off => Sys2Proof.Machine.execBrf c y d off s
  | .crr c y d r => Sys2Proof.Machine.execCrr c y d r s
  | .crw c y a2 r => Sys2Proof.Machine.execCrw c y a2 r s
  | .li c d a2 => Sys2Proof.Machine.execLi c d a2 s
  | .lih c d a2 => Sys2Proof.Machine.execLih c d a2 s
  | .addpc off => Sys2Proof.Machine.execAddpc off s
  | .j off => Sys2Proof.Machine.execJ off s
  | .call off => Sys2Proof.Machine.execCall off s
  | .beqz y a1 off => Sys2Proof.Machine.execBeqz y a1 off s
  | .bnez y a1 off => Sys2Proof.Machine.execBnez y a1 off s
  | .bltz y a1 off => Sys2Proof.Machine.execBltz y a1 off s
  | .bgez y a1 off => Sys2Proof.Machine.execBgez y a1 off s
  | .bgtz y a1 off => Sys2Proof.Machine.execBgtz y a1 off s
  | .blez y a1 off => Sys2Proof.Machine.execBlez y a1 off s
  | .callr y a1 => Sys2Proof.Machine.execCallr y a1 s
  | .callx y a1 idx => Sys2Proof.Machine.execCallx y a1 idx s
  | .ret y => Sys2Proof.Machine.execRet y s
  | .callUnpark => Sys2Proof.Machine.execCallUnpark s
  | .ld y d a sz o => Sys2Proof.Machine.execLd y d a sz o s
  | .st y a1 a sz o => Sys2Proof.Machine.execSt y a1 a sz o s
  | .lda y d a sc o => Sys2Proof.Machine.execLda y d a sc o s
  | .stl y a1 a sc o => Sys2Proof.Machine.execStl y a1 a sc o s
  | .amo y d a op w => Sys2Proof.Machine.execAmo y d a op w s
  | .cas y d a b w => Sys2Proof.Machine.execCas y d a b w s
  | .fence y a1 sc => Sys2Proof.Machine.execFence y a1 sc s
  | .sptest y d a => Sys2Proof.Machine.execSptest y d a s
  | .spcast y d a w => Sys2Proof.Machine.execSpcast y d a w s
  | .binit y a1 id => Sys2Proof.Machine.execBinit y a1 id s
  | .barv y a1 sc => Sys2Proof.Machine.execBarv y a1 sc s
  | .bwait y p id => Sys2Proof.Machine.execBwait y p id s
  | .btry y d p id => Sys2Proof.Machine.execBtry y d p id s
  | .arm y a1 a slot => Sys2Proof.Machine.execArm y a1 a slot s
  | .disarm y slot => Sys2Proof.Machine.execDisarm y slot s
  | .fmtw y a1 n => Sys2Proof.Machine.execFmtw y a1 n s
  | .pwlw y a1 n => Sys2Proof.Machine.execPwlw y a1 n s
  | .qbind y a1 p q => Sys2Proof.Machine.execQbind y a1 p q s
  | .send y a1 t => Sys2Proof.Machine.execSend y a1 t s
  | .svc y code => Sys2Proof.Machine.execSvc y code s
  | .bkpt y code => Sys2Proof.Machine.execBkpt y code s
  | .halt y => Sys2Proof.Machine.execHalt y s
  | .haltComplete => Sys2Proof.Machine.execHaltComplete s
  | .coll y a1 a => Sys2Proof.Machine.execColl y a1 a s
  | .rlinv y slot => Sys2Proof.Machine.execRlinv y slot s
  | .ldr y d a sx sz o => Sys2Proof.Machine.execLdr y d a sx sz o s
  | .ldt y m p q o => Sys2Proof.Machine.execLdt y m p q o s
  | .ldt3 y m p q o z => Sys2Proof.Machine.execLdt3 y m p q o z s
  | .ldg y m p q o sz => Sys2Proof.Machine.execLdg y m p q o sz s
  | .ldx y m p q o sz => Sys2Proof.Machine.execLdx y m p q o sz s
  | .ldz y m p q o trap => Sys2Proof.Machine.execLdz y m p q o trap s
  | .ldzDecodeDone => Sys2Proof.Machine.execLdzDecodeDone s
  | .ldzWatchdog => Sys2Proof.Machine.execLdzWatchdog s
  | .pref y m g lvl => Sys2Proof.Machine.execPref y m g lvl s
  | .stx y a1 a sz o => Sys2Proof.Machine.execStx y a1 a sz o s
  | .stt y m p q o => Sys2Proof.Machine.execStt y m p q o s
  | .stt3 y m p q o z => Sys2Proof.Machine.execStt3 y m p q o z s
  | .sts y m p q o sz => Sys2Proof.Machine.execSts y m p q o sz s
  | .sttc y m p q o e => Sys2Proof.Machine.execSttc y m p q o e s
  | .red y m p q o op => Sys2Proof.Machine.execRed y m p q o op s
  | .sendt y x => Sys2Proof.Machine.execSendt y x s
  | .pub y h sc => Sys2Proof.Machine.execPub y h sc s
  | .bcopy y d a2 n md => Sys2Proof.Machine.execBcopy y d a2 n md s
  | .bcopyMoveComplete => Sys2Proof.Machine.execBcopyMoveComplete s
  | .migrationPageMove => Sys2Proof.Machine.execMigrationPageMove s
  | .addressUnitCheck => Sys2Proof.Machine.execAddressUnitCheck s
  | .dset y d a2 md => Sys2Proof.Machine.execDset y d a2 md s
  | .vadd y d a b r nf => Sys2Proof.Machine.execVadd y d a b r nf s
  | .vsub y d a b r nf => Sys2Proof.Machine.execVsub y d a b r nf s
  | .vmul y d a b r nf => Sys2Proof.Machine.execVmul y d a b r nf s
  | .vfma y d a b r nf => Sys2Proof.Machine.execVfma y d a b r nf s
  | .vmin y d a b r nf => Sys2Proof.Machine.execVmin y d a b r nf s
  | .vmax y d a b r nf => Sys2Proof.Machine.execVmax y d a b r nf s
  | .vabs y d a r nf => Sys2Proof.Machine.execVabs y d a r nf s
  | .vneg y d a r nf => Sys2Proof.Machine.execVneg y d a r nf s
  | .vand y d a b => Sys2Proof.Machine.execVand y d a b s
  | .vor y d a b => Sys2Proof.Machine.execVor y d a b s
  | .vxor y d a b => Sys2Proof.Machine.execVxor y d a b s
  | .vshl y d a b => Sys2Proof.Machine.execVshl y d a b s
  | .vshr y d a b => Sys2Proof.Machine.execVshr y d a b s
  | .vsra y d a b => Sys2Proof.Machine.execVsra y d a b s
  | .vcmp y d a b cond nf => Sys2Proof.Machine.execVcmp y d a b cond nf s
  | .vsel y d a b m => Sys2Proof.Machine.execVsel y d a b m s
  | .vmov y d a => Sys2Proof.Machine.execVmov y d a s
  | .vfill y d a2 => Sys2Proof.Machine.execVfill y d a2 s
  | .viota y d a2 r nf => Sys2Proof.Machine.execViota y d a2 r nf s
  | .vcvt y d a ns r nf => Sys2Proof.Machine.execVcvt y d a ns r nf s
  | .vcvtV1 y d a r nf => Sys2Proof.Machine.execVcvtV1 y d a r nf s
  | .vqnt y d a b r nf => Sys2Proof.Machine.execVqnt y d a b r nf s
  | .vdqnt y d a b r nf => Sys2Proof.Machine.execVdqnt y d a b r nf s
  | .vrshr y d a b r nf => Sys2Proof.Machine.execVrshr y d a b r nf s
  | .vclamp y d a lo hi => Sys2Proof.Machine.execVclamp y d a lo hi s
  | .vred y d a op r nf => Sys2Proof.Machine.execVred y d a op r nf s
  | .vscan y d a op r nf => Sys2Proof.Machine.execVscan y d a op r nf s
  | .vpwl y d a t ns r nf => Sys2Proof.Machine.execVpwl y d a t ns r nf s
  | .vrcp y d a r nf => Sys2Proof.Machine.execVrcp y d a r nf s
  | .vrsqrt y d a r nf => Sys2Proof.Machine.execVrsqrt y d a r nf s
  | .vsqrt y d a r nf => Sys2Proof.Machine.execVsqrt y d a r nf s
  | .vdiv y d a b r nf => Sys2Proof.Machine.execVdiv y d a b r nf s
  | .vgth y d a b => Sys2Proof.Machine.execVgth y d a b s
  | .vsct y d a b => Sys2Proof.Machine.execVsct y d a b s
  | .vflg y d clr => Sys2Proof.Machine.execVflg y d clr s
  | .mma y c a b slot nf => Sys2Proof.Machine.execMma y c a b slot nf s
  | .mmas y c a b slot nf => Sys2Proof.Machine.execMmas y c a b slot nf s
  | .mmat y c a b slot nf => Sys2Proof.Machine.execMmat y c a b slot nf s
  | .mzero y w => Sys2Proof.Machine.execMzero y w s
  | .mdrain y w a2 slot e nf => Sys2Proof.Machine.execMdrain y w a2 slot e nf s
  | .mlda y w a2 => Sys2Proof.Machine.execMlda y w a2 s
  | .mstat y d clr e => Sys2Proof.Machine.execMstat y d clr e s
  | .tconf y d a2 chk => Sys2Proof.Machine.execTconf y d a2 chk s
  | .tld y d a2 k => Sys2Proof.Machine.execTld y d a2 k s
  | .tst y t a2 => Sys2Proof.Machine.execTst y t a2 s
  | .tmul y d a b => Sys2Proof.Machine.execTmul y d a b s
  | .tadd y d a b a4 => Sys2Proof.Machine.execTadd y d a b a4 s
  | .tsub y d a b a4 => Sys2Proof.Machine.execTsub y d a b a4 s
  | .tscal y d a a3 => Sys2Proof.Machine.execTscal y d a a3 s
  | .txp y d a => Sys2Proof.Machine.execTxp y d a s
  | .trcmp y d a => Sys2Proof.Machine.execTrcmp y d a s
  | .tdense y d a => Sys2Proof.Machine.execTdense y d a s
  | .tfact y d a => Sys2Proof.Machine.execTfact y d a s
  | .tmma y c a b slot nf => Sys2Proof.Machine.execTmma y c a b slot nf s
  | .trank y d a => Sys2Proof.Machine.execTrank y d a s
  | .ttol y d a => Sys2Proof.Machine.execTtol y d a s
  | .tileExecutionEnd => Sys2Proof.Machine.execTileExecutionEnd s
  | .leaveGrant core => Sys2Proof.Machine.execLeaveGrant core s
  | .leaveIdleRelease => Sys2Proof.Machine.execLeaveIdleRelease s
  | .sliceDeadlock => Sys2Proof.Machine.execSliceDeadlock s
  | .fetchLineFill e => Sys2Proof.Machine.execFetchLineFill e s
  | .bankServe bank => Sys2Proof.Machine.execBankServe bank s
  | .loadDataReturn => Sys2Proof.Machine.execLoadDataReturn s
  | .storePerform => Sys2Proof.Machine.execStorePerform s
  | .pendingWriteCommit e => Sys2Proof.Machine.execPendingWriteCommit e s
  | .horizonWriteRelease => Sys2Proof.Machine.execHorizonWriteRelease s
  | .memoryChecksComplete e => Sys2Proof.Machine.execMemoryChecksComplete e s
  | .faultDrainEnd => Sys2Proof.Machine.execFaultDrainEnd s
  | .sliceSetDrainTimeout => Sys2Proof.Machine.execSliceSetDrainTimeout s
  | .barrierArrivalApply => Sys2Proof.Machine.execBarrierArrivalApply s
  | .sendtElementApply => Sys2Proof.Machine.execSendtElementApply s
  | .transferAcknowledgement => Sys2Proof.Machine.execTransferAcknowledgement s
  | .ackTimeout => Sys2Proof.Machine.execAckTimeout s
  | .packetReceive port p badCrcs => Sys2Proof.Machine.execPacketReceive port p badCrcs s
  | .packetAdvance port vc => Sys2Proof.Machine.execPacketAdvance port vc s
  | .collAccept => Sys2Proof.Machine.execCollAccept s
  | .readyMessage p => Sys2Proof.Machine.execReadyMessage p s
  | .readyRetry => Sys2Proof.Machine.execReadyRetry s
  | .collStep => Sys2Proof.Machine.execCollStep s
  | .collCompletionArrival => Sys2Proof.Machine.execCollCompletionArrival s
  | .collAbort tag => Sys2Proof.Machine.execCollAbort tag s
  | .collStepTimeout => Sys2Proof.Machine.execCollStepTimeout s
  | .qcfgWrite fn q v => Sys2Proof.Machine.execQcfgWrite fn q v s
  | .qbaseWrite fn q v => Sys2Proof.Machine.execQbaseWrite fn q v s
  | .doorbell fn q v => Sys2Proof.Machine.execDoorbell fn q v s
  | .frontEndConsume => Sys2Proof.Machine.execFrontEndConsume s
  | .nopCommand => Sys2Proof.Machine.execNopCommand s
  | .launch => Sys2Proof.Machine.execLaunch s
  | .drain => Sys2Proof.Machine.execDrain s
  | .drainCompletion fn q => Sys2Proof.Machine.execDrainCompletion fn q s
  | .waitmem => Sys2Proof.Machine.execWaitmem s
  | .waitmemPoll fn q => Sys2Proof.Machine.execWaitmemPoll fn q s
  | .pipe => Sys2Proof.Machine.execPipe s
  | .coreFreeDispatch core => Sys2Proof.Machine.execCoreFreeDispatch core s
  | .preemptTrigger => Sys2Proof.Machine.execPreemptTrigger s
  | .preemptBoundarySave => Sys2Proof.Machine.execPreemptBoundarySave s
  | .preemptForce => Sys2Proof.Machine.execPreemptForce s
  | .create fn v => Sys2Proof.Machine.execCreate fn v s
  | .destroy fn v => Sys2Proof.Machine.execDestroy fn v s
  | .save fn v => Sys2Proof.Machine.execSave fn v s
  | .restore fn v => Sys2Proof.Machine.execRestore fn v s
  | .switch fn v => Sys2Proof.Machine.execSwitch fn v s
  | .resume fn v => Sys2Proof.Machine.execResume fn v s
  | .inval fn v => Sys2Proof.Machine.execInval fn v s
  | .vfsusp fn v => Sys2Proof.Machine.execVfsusp fn v s
  | .vfres fn v => Sys2Proof.Machine.execVfres fn v s
  | .vffeatWrite vf v => Sys2Proof.Machine.execVffeatWrite vf v s
  | .s2rootWrite vf v => Sys2Proof.Machine.execS2rootWrite vf v s
  | .functionLevelReset vf => Sys2Proof.Machine.execFunctionLevelReset vf s
  | .pageWalkComplete die => Sys2Proof.Machine.execPageWalkComplete die s
  | .load fn v => Sys2Proof.Machine.execLoad fn v s
  | .unload fn v => Sys2Proof.Machine.execUnload fn v s
  | .depstatWrite fn v => Sys2Proof.Machine.execDepstatWrite fn v s
  | .bind v => Sys2Proof.Machine.execBind v s
  | .unbind v => Sys2Proof.Machine.execUnbind v s
  | .easyAll v => Sys2Proof.Machine.execEasyAll v s
  | .gangIn v => Sys2Proof.Machine.execGangIn v s
  | .discard v => Sys2Proof.Machine.execDiscard v s
  | .gangSwitchTime => Sys2Proof.Machine.execGangSwitchTime s
  | .gangMarkerSend port => Sys2Proof.Machine.execGangMarkerSend port s
  | .gangMarkerArrival port p => Sys2Proof.Machine.execGangMarkerArrival port p s
  | .switchOutComplete => Sys2Proof.Machine.execSwitchOutComplete s
  | .gangMarkerTimeout => Sys2Proof.Machine.execGangMarkerTimeout s
  | .gangResumeTime => Sys2Proof.Machine.execGangResumeTime s
  | .gangResumeComplete => Sys2Proof.Machine.execGangResumeComplete s
  | .pcieLinkUp => Sys2Proof.Machine.execPcieLinkUp s
  | .powerOn => Sys2Proof.Machine.execPowerOn s
  | .rcvctlSubmit v => Sys2Proof.Machine.execRcvctlSubmit v s
  | .railsGood => Sys2Proof.Machine.execRailsGood s
  | .clkctlWrite v => Sys2Proof.Machine.execClkctlWrite v s
  | .pllLock => Sys2Proof.Machine.execPllLock s
  | .dierstWrite v => Sys2Proof.Machine.execDierstWrite v s
  | .dieReleased die => Sys2Proof.Machine.execDieReleased die s
  | .sraminitWrite v => Sys2Proof.Machine.execSraminitWrite v s
  | .sramInitDone failing => Sys2Proof.Machine.execSramInitDone failing s
  | .powerUpTimeout => Sys2Proof.Machine.execPowerUpTimeout s
  | .mctlWrite n v => Sys2Proof.Machine.execMctlWrite n v s
  | .memoryTrainingDone n pass => Sys2Proof.Machine.execMemoryTrainingDone n pass s
  | .memoryTrainingTimeout n => Sys2Proof.Machine.execMemoryTrainingTimeout n s
  | .mmapWrite v => Sys2Proof.Machine.execMmapWrite v s
  | .portctlWrite p v => Sys2Proof.Machine.execPortctlWrite p v s
  | .laneTrainingDone p lanes => Sys2Proof.Machine.execLaneTrainingDone p lanes s
  | .rsFecLock p => Sys2Proof.Machine.execRsFecLock p s
  | .identityExchangeDone p neighbour => Sys2Proof.Machine.execIdentityExchangeDone p neighbour s
  | .linkTrainingTimeout p => Sys2Proof.Machine.execLinkTrainingTimeout p s
  | .firmwareUpdate image => Sys2Proof.Machine.execFirmwareUpdate image s
  | .minsvnRaise => Sys2Proof.Machine.execMinsvnRaise s
  | .attestationQuote nonce => Sys2Proof.Machine.execAttestationQuote nonce s
  | .pluginTimeout fn => Sys2Proof.Machine.execPluginTimeout fn s
  | .pluginViolation fn => Sys2Proof.Machine.execPluginViolation fn s
  | .firmwareIsolationViolation => Sys2Proof.Machine.execFirmwareIsolationViolation s
  | .pwrlimWrite v => Sys2Proof.Machine.execPwrlimWrite v s
  | .governorTick measured => Sys2Proof.Machine.execGovernorTick measured s
  | .dieTemperatureChange die celsius => Sys2Proof.Machine.execDieTemperatureChange die celsius s
  | .correctedError unit loc addr => Sys2Proof.Machine.execCorrectedError unit loc addr s
  | .uncorrectableError unit loc addr => Sys2Proof.Machine.execUncorrectableError unit loc addr s
  | .patrolScrub => Sys2Proof.Machine.execPatrolScrub s
  | .freePageAdd v => Sys2Proof.Machine.execFreePageAdd v s
  | .freePageTake v => Sys2Proof.Machine.execFreePageTake v s
  | .securityAlarm source => Sys2Proof.Machine.execSecurityAlarm source s
  | .registerWrite fn off v => Sys2Proof.Machine.execRegisterWrite fn off v s
  | .powerOff => Sys2Proof.Machine.execPowerOff s
  | .linkFailure p => Sys2Proof.Machine.execLinkFailure p s
  | .policyPluginDone resume ctx slot => Sys2Proof.Machine.execPolicyPluginDone resume ctx slot s

end Sys2Proof.Machine
end

