-- ==== Sys2Proof/Machine/Firmware.lean ====
section
/-!
DEFINITION. The firmware cores (R413): RV64IMAC with Zicsr and Zifencei under the RISC-V Privileged Architecture version 1.12, machine, supervisor and user modes, satp fixed at Bare, and
16 PMP regions. The manual names that architecture and takes it from elsewhere (log entry 131); a turn of the agenda runs one instruction of one core.
-/
namespace Sys2Proof.Machine

/-! ## Modes and control registers -/

def FwMode.code : FwMode → Nat
  | .machine => 3 | .supervisor => 1 | .user => 0

def FwMode.ofCode (n : Nat) : FwMode := if n = 3 then .machine else if n = 1 then .supervisor else .user

def FwCore.x (c : FwCore) (r : Nat) : Word := if r = 0 then 0 else Tab.get 0 c.regs r
def FwCore.setX (c : FwCore) (r : Nat) (v : Word) : FwCore := if r = 0 then c else { c with regs := Tab.set 0 c.regs r v }
def FwCore.csr (c : FwCore) (n : Nat) : Word := Tab.get 0 c.csrs n
def FwCore.setCsr (c : FwCore) (n : Nat) (v : Word) : FwCore := { c with csrs := Tab.set 0 c.csrs n v }

/-- Numbers of the registers that traps use. -/
def csrMstatus : Nat := 0x300
def csrMedeleg : Nat := 0x302
def csrMideleg : Nat := 0x303
def csrMie : Nat := 0x304
def csrMip : Nat := 0x344

/-- Writable bits of mstatus and those that sstatus shows; SUM is zero, since satp is fixed at Bare. -/
def mstatusMask : Word := 0x7A19AA
def sstatusMask : Word := 0x80122
/-- UXL of 64 bits, and SXL. -/
def xlBits : Word := 0x200000000
def sxlBits : Word := 0x800000000

def FwCore.mstatusBit (c : FwCore) (k : Nat) : Bool := (c.csr csrMstatus).getLsbD k

/-- Bits `k` and up of mstatus replaced by a value of `n` bits. -/
def FwCore.putMstatus (c : FwCore) (k n v : Nat) : FwCore :=
  let m := (c.csr csrMstatus).toNat
  c.setCsr csrMstatus (BitVec.ofNat 64 (m - bits m (k + n - 1) k * 2 ^ k + v % 2 ^ n * 2 ^ k))

/-- A PMP region's configuration byte. -/
def FwCore.pmpCfg (c : FwCore) (i : Nat) : Nat := (Tab.get (0, 0) c.pmp i).1
def FwCore.pmpLocked (c : FwCore) (i : Nat) : Bool := (c.pmpCfg i).testBit 7

/-- The control registers that a core has and that hold what is written through a mask: number and writable bits. -/
def plainCsrs : List (Nat × Word) :=
  [(0x302, 0xB3FF), (0x303, 0x222), (0x304, 0xAAA), (0x344, 0x222), (0x305, ~~~2), (0x306, 0xFFFFFFFF), (0x30A, 1),
   (0x340, ~~~0), (0x341, ~~~1), (0x342, ~~~0), (0x343, ~~~0), (0x105, ~~~2), (0x106, 0xFFFFFFFF), (0x10A, 1),
   (0x140, ~~~0), (0x141, ~~~1), (0x142, ~~~0), (0x143, ~~~0)]

/-- Registers that read zero: the machine's identity, unused counters, events and the inhibition of counting, and satp. -/
def zeroCsr (n : Nat) : Bool := (0xF11 ≤ n && n ≤ 0xF13) || n == 0xF15 || (0xB03 ≤ n && n ≤ 0xB1F) || n == 0x320 || (0x323 ≤ n && n ≤ 0x33F) || n == 0x180

/-- What a control register of core `k` reads; `none`: there is no such register. -/
def FwCore.readCsr (c : FwCore) (k n : Nat) : Option Word :=
  if n = csrMstatus then some (c.csr n ||| xlBits ||| sxlBits)
  else if n = 0x100 then some ((c.csr csrMstatus &&& sstatusMask) ||| xlBits)
  else if n = 0x301 then some 0x8000000000141105
  else if n = 0x104 then some (c.csr csrMie &&& c.csr csrMideleg)
  else if n = 0x144 then some (c.csr csrMip &&& c.csr csrMideleg)
  else if n = 0xF14 then some (BitVec.ofNat 64 k)
  else if n = 0xB00 ∨ n = 0xB02 then some (BitVec.ofNat 64 c.count + c.csr n)
  else if n = 0x3A0 ∨ n = 0x3A2 then some (BitVec.ofNat 64 (ofBytes ((List.range 8).map fun i => BitVec.ofNat 8 (c.pmpCfg (4 * (n - 0x3A0) + i)))))
  else if 0x3B0 ≤ n ∧ n < 0x3C0 then some (Tab.get (0, 0) c.pmp (n - 0x3B0)).2
  else if zeroCsr n then some 0
  else if plainCsrs.any fun p => p.1 == n then some (c.csr n) else none

/-- A write of a control register that exists; what is read-only in it stays. -/
def FwCore.writeCsr (c : FwCore) (n : Nat) (v : Word) : FwCore :=
  let into (m : Nat) (mask : Word) : FwCore := c.setCsr m ((c.csr m &&& ~~~mask) ||| (v &&& mask))
  if n = csrMstatus then
    let d := into n mstatusMask
    if bits v.toNat 12 11 = 2 then d.putMstatus 11 2 (bits (c.csr n).toNat 12 11) else d
  else if n = 0x100 then into csrMstatus sstatusMask
  else if n = 0x104 then into csrMie (c.csr csrMideleg)
  else if n = 0x144 then into csrMip (c.csr csrMideleg &&& 2)
  else if n = 0xB00 ∨ n = 0xB02 then c.setCsr n (v - BitVec.ofNat 64 (c.count + 1))
  else if n = 0x3A0 ∨ n = 0x3A2 then
    { c with pmp := (List.range 8).foldl (fun t i =>
        let k := 4 * (n - 0x3A0) + i
        let b := bits v.toNat (8 * i + 7) (8 * i) &&& 0x9F
        if c.pmpLocked k ∨ b % 4 = 2 then t else Tab.set (0, 0) t k (b, (Tab.get (0, 0) t k).2)) c.pmp }
  else if 0x3B0 ≤ n ∧ n < 0x3C0 then
    let i := n - 0x3B0
    if c.pmpLocked i ∨ c.pmpLocked (i + 1) ∧ bits (c.pmpCfg (i + 1)) 4 3 = 1 then c
    else { c with pmp := Tab.set (0, 0) c.pmp i (c.pmpCfg i, v &&& 0x3FFFFFFFFFFFFF) }
  else match plainCsrs.find? fun p => p.1 == n with
    | some p => into n p.2
    | none => c

/-! ## Protection of physical memory -/

/-- Kinds of access: fetch, load, store; with the bit of a PMP configuration that permits it, and the exceptions of a misaligned and of a refused access. -/
inductive FwAccess where
  | fetch | load | store
  deriving DecidableEq, Repr

def FwAccess.permit : FwAccess → Nat
  | .fetch => 2 | .load => 0 | .store => 1
def FwAccess.misaligned : FwAccess → Nat
  | .fetch => 0 | .load => 4 | .store => 6
def FwAccess.fault : FwAccess → Nat
  | .fetch => 1 | .load => 5 | .store => 7

/-- The addresses of a PMP region: first, and one past the last. -/
def FwCore.pmpRange (c : FwCore) (i : Nat) : Nat × Nat :=
  let a := (Tab.get (0, 0) c.pmp i).2.toNat
  match bits (c.pmpCfg i) 4 3 with
  | 1 => (if i = 0 then 0 else (Tab.get (0, 0) c.pmp (i - 1)).2.toNat * 4, a * 4)
  | 2 => (a * 4, a * 4 + 4)
  | 3 => let n := (a ^^^ (a + 1)) + 1; (a / n * n * 4, (a / n * n + n) * 4)
  | _ => (0, 0)

/-- Whether a layer may make an access: the monitor anywhere that no locked region forbids, Seune in regions 4 to 7, a plug-in in regions 8 to 15 (R413). -/
def FwCore.pmpOk (c : FwCore) (m : FwMode) (k : FwAccess) (a n : Nat) : Bool :=
  match (List.range 16).find? fun i => (c.pmpRange i).1 < (c.pmpRange i).2 && (c.pmpRange i).1 < a + n && a < (c.pmpRange i).2 with
  | none => m == .machine
  | some i =>
    let whole := (c.pmpRange i).1 ≤ a && a + n ≤ (c.pmpRange i).2
    let may := (c.pmpCfg i).testBit k.permit
    whole && match m with
      | .machine => !c.pmpLocked i || may
      | .supervisor => 4 ≤ i && i < 8 && may
      | .user => 8 ≤ i && may

/-- What stops an instruction: the exception, its value, and whether Seune reached outside its regions. -/
abbrev FwTrap := Nat × Nat × Bool

/-- The mode that data accesses have (MPRV). -/
def FwCore.dataMode (c : FwCore) : FwMode := if c.mode == .machine && c.mstatusBit 17 then .ofCode (bits (c.csr csrMstatus).toNat 12 11) else c.mode

/-- Checks an access: alignment of data, then its regions. -/
def FwCore.check (c : FwCore) (k : FwAccess) (a n : Nat) : Except FwTrap Unit :=
  let m := if k = .fetch then c.mode else c.dataMode
  if k ≠ .fetch ∧ a % n ≠ 0 then .error (k.misaligned, a, false)
  else if c.pmpOk m k a n then .ok () else .error (k.fault, a, m == .supervisor)

/-! ## What firmware reaches: its SRAM, and the hub's control space (R414 to R416; log entry 131) -/

/-- A register of the hub's control space. -/
def State.hubReg (s : State) (a : Nat) : Option Nat :=
  let h := s.health
  if a = 0x10000000 then some h.rails
  else if a = 0x10000008 then some h.clkctl
  else if a = 0x10000010 then some h.dierst
  else if a = 0x10000018 then some h.diestat
  else if a = 0x10000020 then some h.sram
  else if 0x10000100 ≤ a ∧ a < 0x10000130 then some (((h.corestat.eraseDups.map fun k => 2 ^ k).sum >>> (8 * (a - 0x10000100))) % 2 ^ 64)
  else if 0x10010000 ≤ a ∧ a < 0x10014000 then
    let n := (a - 0x10010000) / 0x100
    if a % 0x100 = 0 then some (Tab.get 0 h.mctl n) else if a % 0x100 = 8 then some (Tab.get 0 h.mstat n) else none
  else if a = 0x10018000 then some h.mmap
  else if 0x10020000 ≤ a ∧ a < 0x10020800 then
    let p := (a - 0x10020000) / 0x40
    if a % 0x40 = 0 then some (s.portCtl p) else if a % 0x40 = 8 then some (s.port p).state else none
  else none

/-- A write of such a register is its event. -/
def State.writeHub (s : State) (a : Nat) (v : Word) : State :=
  let go (o : Host.Outcome State Fault Refusal) : State := match o with | .next t => t | _ => s
  if a = 0x10000008 then go (execClkctlWrite v s)
  else if a = 0x10000010 then go (execDierstWrite v s)
  else if a = 0x10000020 then go (execSraminitWrite v s)
  else if 0x10010000 ≤ a ∧ a < 0x10014000 ∧ a % 0x100 = 0 then go (execMctlWrite ((a - 0x10010000) / 0x100) v s)
  else if a = 0x10018000 then go (execMmapWrite v s)
  else if 0x10020000 ≤ a ∧ a < 0x10020800 ∧ a % 0x40 = 0 then go (execPortctlWrite ((a - 0x10020000) / 0x40) v s)
  else s

/-- Reads `n` bytes: firmware SRAM, or a whole register of the hub's; elsewhere nothing answers. -/
def FwCore.load (c : FwCore) (s : State) (k : FwAccess) (a n : Nat) : Except FwTrap Nat :=
  match c.check k a n with
  | .error e => .error e
  | .ok _ =>
    if a + n ≤ Config.fwSramBytes then .ok (ofBytes (Tab.slice 0 s.health.fwsram a n)) else
    match if n = 8 ∧ k = .load then s.hubReg a else none with
    | some v => .ok v
    | none => .error (k.fault, a, false)

/-- Writes `n` bytes; a write of SRAM ends every core's reservation of them. -/
def FwCore.store (c : FwCore) (s : State) (a n : Nat) (v : Word) : Except FwTrap State :=
  match c.check .store a n with
  | .error e => .error e
  | .ok _ =>
    let h := s.health
    if a + n ≤ Config.fwSramBytes then
      let free (d : FwCore) : FwCore := { d with lr := d.lr.filter fun r => !overlap r.1 r.2 a n }
      .ok (s.setHealth { h with fwsram := Tab.setAll 0 h.fwsram ((toBytes n v.toNat).zipIdx.map fun b => (a + b.2, b.1)), fw := h.fw.map fun d => (d.1, free d.2) })
    else if n = 8 ∧ (s.hubReg a).isSome then .ok (s.writeHub a v)
    else .error (7, a, false)

/-! ## The compressed instructions -/

/-- Words of the base formats. -/
def rvI (imm rs f3 rd op : Nat) : Nat := imm % 4096 * 2 ^ 20 + rs * 2 ^ 15 + f3 * 2 ^ 12 + rd * 2 ^ 7 + op
def rvS (imm rs2 rs1 f3 : Nat) : Nat := bits imm 11 5 * 2 ^ 25 + rs2 * 2 ^ 20 + rs1 * 2 ^ 15 + f3 * 2 ^ 12 + bits imm 4 0 * 2 ^ 7 + 0x23
def rvR (f7 rs2 rs1 f3 rd op : Nat) : Nat := f7 * 2 ^ 25 + rs2 * 2 ^ 20 + rs1 * 2 ^ 15 + f3 * 2 ^ 12 + rd * 2 ^ 7 + op
def rvB (imm rs2 rs1 f3 : Nat) : Nat :=
  bits imm 12 12 * 2 ^ 31 + bits imm 10 5 * 2 ^ 25 + rs2 * 2 ^ 20 + rs1 * 2 ^ 15 + f3 * 2 ^ 12 + bits imm 4 1 * 2 ^ 8 + bits imm 11 11 * 2 ^ 7 + 0x63
def rvJ (imm rd : Nat) : Nat := bits imm 20 20 * 2 ^ 31 + bits imm 10 1 * 2 ^ 21 + bits imm 11 11 * 2 ^ 20 + bits imm 19 12 * 2 ^ 12 + rd * 2 ^ 7 + 0x6F

/-- A field of `n` bits, sign-extended to a number modulo 2^32. -/
def rvSext (n v : Nat) : Nat := if v.testBit (n - 1) then v + 2 ^ 32 - 2 ^ n else v

/-- Bits of a compressed instruction gathered into an immediate: pairs of a bit there and its place. -/
def gather (h : Nat) (l : List (Nat × Nat)) : Nat := (l.map fun p => bits h p.1 p.1 * 2 ^ p.2).sum

/-- The base instruction that a compressed one stands for; `none`: it is reserved, or of an extension that the cores lack. -/
def expandC (h : Nat) : Option Nat :=
  let rd := bits h 11 7
  let rs2 := bits h 6 2
  let a := 8 + bits h 9 7
  let b := 8 + bits h 4 2
  let imm6 := rvSext 6 (bits h 12 12 * 32 + bits h 6 2)
  let sh := bits h 12 12 * 32 + bits h 6 2
  let f3 := bits h 15 13
  match h % 4, f3 with
  | 0, 0 =>
    let n := gather h [(12, 5), (11, 4), (10, 9), (9, 8), (8, 7), (7, 6), (6, 2), (5, 3)]
    if n = 0 then none else some (rvI n 2 0 b 0x13)
  | 0, 2 => some (rvI (gather h [(12, 5), (11, 4), (10, 3), (6, 2), (5, 6)]) a 2 b 0x03)
  | 0, 3 => some (rvI (gather h [(12, 5), (11, 4), (10, 3), (6, 7), (5, 6)]) a 3 b 0x03)
  | 0, 6 => some (rvS (gather h [(12, 5), (11, 4), (10, 3), (6, 2), (5, 6)]) b a 2)
  | 0, 7 => some (rvS (gather h [(12, 5), (11, 4), (10, 3), (6, 7), (5, 6)]) b a 3)
  | 1, 0 => some (rvI imm6 rd 0 rd 0x13)
  | 1, 1 => if rd = 0 then none else some (rvI imm6 rd 0 rd 0x1B)
  | 1, 2 => some (rvI imm6 0 0 rd 0x13)
  | 1, 3 =>
    if sh = 0 then none
    else if rd = 2 then some (rvI (rvSext 10 (gather h [(12, 9), (6, 4), (5, 6), (4, 8), (3, 7), (2, 5)])) 2 0 2 0x13)
    else some (imm6 % 2 ^ 20 * 2 ^ 12 + rd * 2 ^ 7 + 0x37)
  | 1, 4 =>
    match bits h 11 10 with
    | 0 => some (rvI sh a 5 a 0x13)
    | 1 => some (rvI (0x400 + sh) a 5 a 0x13)
    | 2 => some (rvI imm6 a 7 a 0x13)
    | _ =>
      match bits h 12 12, bits h 6 5 with
      | 0, 0 => some (rvR 0x20 b a 0 a 0x33)
      | 0, 1 => some (rvR 0 b a 4 a 0x33)
      | 0, 2 => some (rvR 0 b a 6 a 0x33)
      | 0, _ => some (rvR 0 b a 7 a 0x33)
      | _, 0 => some (rvR 0x20 b a 0 a 0x3B)
      | _, 1 => some (rvR 0 b a 0 a 0x3B)
      | _, _ => none
  | 1, 5 => some (rvJ (rvSext 12 (gather h [(12, 11), (11, 4), (10, 9), (9, 8), (8, 10), (7, 6), (6, 7), (5, 3), (4, 2), (3, 1), (2, 5)])) 0)
  | 1, 6 | 1, 7 => some (rvB (rvSext 9 (gather h [(12, 8), (11, 4), (10, 3), (6, 7), (5, 6), (4, 2), (3, 1), (2, 5)])) 0 a (f3 - 6))
  | 2, 0 => some (rvI sh rd 1 rd 0x13)
  | 2, 2 => if rd = 0 then none else some (rvI (gather h [(12, 5), (6, 4), (5, 3), (4, 2), (3, 7), (2, 6)]) 2 2 rd 0x03)
  | 2, 3 => if rd = 0 then none else some (rvI (gather h [(12, 5), (6, 4), (5, 3), (4, 8), (3, 7), (2, 6)]) 2 3 rd 0x03)
  | 2, 4 =>
    if bits h 12 12 = 0 then (if rs2 ≠ 0 then some (rvR 0 rs2 0 0 rd 0x33) else if rd = 0 then none else some (rvI 0 rd 0 0 0x67))
    else if rs2 ≠ 0 then some (rvR 0 rs2 rd 0 rd 0x33)
    else if rd = 0 then some 0x00100073 else some (rvI 0 rd 0 1 0x67)
  | 2, 6 => some (rvS (gather h [(12, 5), (11, 4), (10, 3), (9, 2), (8, 7), (7, 6)]) rs2 2 2)
  | 2, 7 => some (rvS (gather h [(12, 5), (11, 4), (10, 3), (9, 8), (8, 7), (7, 6)]) rs2 2 3)
  | _, _ => none

/-! ## Traps and returns -/

/-- Takes a trap: to S-mode where it is delegated and comes from below M-mode, else to M-mode. -/
def FwCore.trap (c : FwCore) (cause : Nat) (int : Bool) (value : Nat) : FwCore :=
  let deleg := c.csr (if int then csrMideleg else csrMedeleg)
  let word : Word := BitVec.ofNat 64 (cause + if int then 2 ^ 63 else 0)
  let enter (base : Word) : Word := (base &&& ~~~3) + if int ∧ base.getLsbD 0 then BitVec.ofNat 64 (4 * cause) else 0
  let sie := c.mstatusBit 1
  let mie := c.mstatusBit 3
  let prev := c.mode.code
  if c.mode ≠ .machine ∧ deleg.getLsbD cause then
    let c := ((c.setCsr 0x141 c.pc).setCsr 0x142 word).setCsr 0x143 (BitVec.ofNat 64 value)
    { ((c.putMstatus 5 1 sie.toNat).putMstatus 1 1 0).putMstatus 8 1 prev with mode := .supervisor, pc := enter (c.csr 0x105) }
  else
    let c := ((c.setCsr 0x341 c.pc).setCsr 0x342 word).setCsr 0x343 (BitVec.ofNat 64 value)
    { ((c.putMstatus 7 1 mie.toNat).putMstatus 3 1 0).putMstatus 11 2 prev with mode := .machine, pc := enter (c.csr 0x305) }

/-- MRET and SRET. -/
def FwCore.mret (c : FwCore) : FwCore :=
  let dest := FwMode.ofCode (bits (c.csr csrMstatus).toNat 12 11)
  let d := ((c.putMstatus 3 1 (c.mstatusBit 7).toNat).putMstatus 7 1 1).putMstatus 11 2 0
  { if dest = .machine then d else d.putMstatus 17 1 0 with mode := dest, pc := c.csr 0x341 }
def FwCore.sret (c : FwCore) : FwCore :=
  let dest := if c.mstatusBit 8 then FwMode.supervisor else .user
  { (((c.putMstatus 1 1 (c.mstatusBit 5).toNat).putMstatus 5 1 1).putMstatus 8 1 0).putMstatus 17 1 0 with mode := dest, pc := c.csr 0x141 }

/-- The interrupt that is taken next: of those pending and enabled, M-mode's before S-mode's, external before software before timer. -/
def FwCore.interrupt? (c : FwCore) : Option Nat :=
  let ready := c.csr csrMip &&& c.csr csrMie
  let on (i : Nat) : Bool :=
    if (c.csr csrMideleg).getLsbD i then c.mode == .user || c.mode == .supervisor && c.mstatusBit 1
    else c.mode != .machine || c.mstatusBit 3
  let l := [11, 3, 7, 9, 1, 5].filter fun i => ready.getLsbD i && on i
  match l.find? fun i => !(c.csr csrMideleg).getLsbD i with
  | some i => some i
  | none => l.head?

/-! ## Instructions -/

/-- What an instruction does, past its fetch: the core at its next pc and the state, or the exception. -/
abbrev FwResult := Except FwTrap (FwCore × State)

/-- An operation on two registers, or on a register and an immediate; W: on 32 bits. -/
def rvAlu (f3 : Nat) (alt w : Bool) : Word → Word → Word :=
  match f3 with
  | 0 => if alt then aluSub w else aluAdd w
  | 1 => aluShl w
  | 2 => aluSlt w
  | 3 => aluSltu w
  | 4 => aluXor w
  | 5 => if alt then aluSra w else aluShr w
  | 6 => aluOr w
  | _ => aluAnd w

/-- The M extension. -/
def rvMul (f3 : Nat) (w : Bool) : Word → Word → Word :=
  match f3 with
  | 0 => aluMul w
  | 1 => aluMulh w
  | 2 => fun x y => BitVec.ofInt 64 ((x.toInt * (y.toNat : Int)) >>> 64)
  | 3 => aluMulhu w
  | 4 => aluDiv w
  | 5 => aluDivu w
  | 6 => aluRem w
  | _ => aluRemu w

/-- The new value of an atomic operation; `none`: no such operation. -/
def rvAmo (f5 : Nat) (w : Bool) (old v : Word) : Option Word :=
  match f5 with
  | 0 => some (aluAdd w old v)
  | 1 => some v
  | 4 => some (aluXor w old v)
  | 8 => some (aluOr w old v)
  | 12 => some (aluAnd w old v)
  | 16 => some (aluMin w old v)
  | 20 => some (aluMax w old v)
  | 24 => some (aluMinu w old v)
  | 28 => some (aluMaxu w old v)
  | _ => none

/-- A value of `n` bytes read into a register. -/
def rvLoaded (n : Nat) (uns : Bool) (v : Nat) : Word :=
  if uns then BitVec.ofNat 64 v else BitVec.ofInt 64 (signed (8 * n) v)

/-- Whether a branch is taken. -/
def rvBranch (f3 : Nat) (x y : Word) : Option Bool :=
  match f3 with
  | 0 => some (x == y)
  | 1 => some (x != y)
  | 4 => some (x.slt y)
  | 5 => some (!x.slt y)
  | 6 => some (x.ult y)
  | 7 => some (!x.ult y)
  | _ => none

/-- An access to a control register: its old value to `rd`; written unless the source is x0 or the immediate 0 of CSRRS and CSRRC. -/
def FwCore.csrOp (c : FwCore) (k n f3 rs rd : Nat) : Option FwCore :=
  let v := if f3.testBit 2 then BitVec.ofNat 64 rs else c.x rs
  let writes := f3 % 4 == 1 || rs != 0
  if c.mode.code < bits n 9 8 ∨ writes ∧ bits n 11 10 = 3 ∨ n = 0x180 ∧ c.mode = .supervisor ∧ c.mstatusBit 20 then none else
  (c.readCsr k n).map fun old =>
    let new := match f3 % 4 with | 1 => v | 2 => old ||| v | _ => old &&& ~~~v
    (if writes then c.writeCsr n new else c).setX rd old

/-- SYSTEM: calls, returns, waits, fences of translation, and control registers. -/
def FwCore.system (c : FwCore) (k w : Nat) (next : Word) : Except Nat FwCore :=
  let f3 := bits w 14 12
  if f3 = 4 then .error 2
  else if f3 ≠ 0 then match c.csrOp k (bits w 31 20) f3 (bits w 19 15) (bits w 11 7) with | some d => .ok { d with pc := next } | none => .error 2
  else if bits w 11 7 ≠ 0 then .error 2
  else if bits w 31 25 = 9 then (if c.mode = .user ∨ c.mode = .supervisor ∧ c.mstatusBit 20 then .error 2 else .ok { c with pc := next })
  else if bits w 19 15 ≠ 0 then .error 2
  else match bits w 31 20 with
    | 0x000 => .error (8 + c.mode.code)
    | 0x001 => .error 3
    | 0x105 => .ok { c with pc := next }
    | 0x102 => if c.mode = .user ∨ c.mode = .supervisor ∧ c.mstatusBit 22 then .error 2 else .ok c.sret
    | 0x302 => if c.mode = .machine then .ok c.mret else .error 2
    | _ => .error 2

/-- LR, SC and the atomic operations, on 4 or 8 bytes. -/
def FwCore.atomic (c : FwCore) (s : State) (k w : Nat) (next : Word) : FwResult :=
  let n := if bits w 14 12 = 2 then 4 else 8
  let rd := bits w 11 7
  let a := (c.x (bits w 19 15)).toNat
  let v := c.x (bits w 24 20)
  let put (d : FwCore) (t : State) : FwResult := .ok ({ d with pc := next }, t)
  let back (t : State) : FwCore := Tab.get FwCore.reset t.health.fw k
  if ¬(bits w 14 12 = 2 ∨ bits w 14 12 = 3) then .error (2, w, false) else
  if bits w 31 27 = 2 then
    if bits w 24 20 ≠ 0 then .error (2, w, false) else
    match c.load s .load a n with
    | .error e => .error e
    | .ok old => put { c.setX rd (rvLoaded n false old) with lr := some (a, n) } s
  else if bits w 31 27 = 3 then
    match c.check .store a n with
    | .error e => .error e
    | .ok _ =>
      if c.lr ≠ some (a, n) then put { c.setX rd 1 with lr := none } s else
      match c.store s a n v with
      | .error e => .error e
      | .ok t => put { (back t).setX rd 0 with lr := none } t
  else
    match c.check .store a n, c.load s .load a n with
    | .error e, _ => .error e
    | _, .error e => .error (7, e.2.1, e.2.2)
    | _, .ok old =>
      match rvAmo (bits w 31 27) (n == 4) (rvLoaded n false old) v with
      | none => .error (2, w, false)
      | some new =>
        match c.store s a n new with
        | .error e => .error e
        | .ok t => put ((back t).setX rd (rvLoaded n false old)) t

/-- Executes a base instruction of core `k`; `len`: the bytes it was fetched from. -/
def FwCore.exec (c : FwCore) (s : State) (k w len : Nat) : FwResult :=
  let bad : FwResult := .error (2, w, false)
  let rd := bits w 11 7
  let x := c.x (bits w 19 15)
  let y := c.x (bits w 24 20)
  let f3 := bits w 14 12
  let f7 := bits w 31 25
  let imm := BitVec.ofInt 64 (signed 12 (bits w 31 20))
  let next := c.pc + BitVec.ofNat 64 len
  let put (v : Word) : FwResult := .ok ({ c.setX rd v with pc := next }, s)
  let jump (d : FwCore) (a : Word) : FwResult := .ok ({ d with pc := a }, s)
  match w % 128 with
  | 0x37 => put (BitVec.ofInt 64 (signed 32 (bits w 31 12 * 4096)))
  | 0x17 => put (c.pc + BitVec.ofInt 64 (signed 32 (bits w 31 12 * 4096)))
  | 0x6F =>
    let off := bits w 31 31 * 2 ^ 20 + bits w 19 12 * 2 ^ 12 + bits w 20 20 * 2 ^ 11 + bits w 30 21 * 2
    jump (c.setX rd next) (c.pc + BitVec.ofInt 64 (signed 21 off))
  | 0x67 => if f3 ≠ 0 then bad else jump (c.setX rd next) ((x + imm) &&& ~~~1)
  | 0x63 =>
    let off := bits w 31 31 * 2 ^ 12 + bits w 7 7 * 2 ^ 11 + bits w 30 25 * 2 ^ 5 + bits w 11 8 * 2
    match rvBranch f3 x y with
    | none => bad
    | some t => jump c (if t then c.pc + BitVec.ofInt 64 (signed 13 off) else next)
  | 0x03 =>
    let n := 2 ^ (f3 % 4)
    if f3 = 7 then bad else
    match c.load s .load (x + imm).toNat n with
    | .error e => .error e
    | .ok v => put (rvLoaded n (f3.testBit 2) v)
  | 0x23 =>
    if 3 < f3 then bad else
    match c.store s (x + BitVec.ofInt 64 (signed 12 (f7 * 32 + rd))).toNat (2 ^ f3) y with
    | .error e => .error e
    | .ok t => .ok ({ Tab.get FwCore.reset t.health.fw k with pc := next }, t)
  | 0x13 =>
    if f3 = 1 ∧ bits w 31 26 ≠ 0 ∨ f3 = 5 ∧ bits w 31 26 ≠ 0 ∧ bits w 31 26 ≠ 0x10 then bad
    else put (rvAlu f3 (f3 == 5 && w.testBit 30) false x imm)
  | 0x1B =>
    if f3 = 0 ∨ f3 = 1 ∧ f7 = 0 ∨ f3 = 5 ∧ (f7 = 0 ∨ f7 = 0x20) then put (rvAlu f3 (f3 == 5 && w.testBit 30) true x imm) else bad
  | 0x33 =>
    if f7 = 1 then put (rvMul f3 false x y)
    else if f7 = 0 ∨ f7 = 0x20 ∧ (f3 = 0 ∨ f3 = 5) then put (rvAlu f3 (f7 == 0x20) false x y) else bad
  | 0x3B =>
    if f7 = 1 ∧ (f3 = 0 ∨ 4 ≤ f3) then put (rvMul f3 true x y)
    else if (f7 = 0 ∧ (f3 = 0 ∨ f3 = 1 ∨ f3 = 5)) ∨ f7 = 0x20 ∧ (f3 = 0 ∨ f3 = 5) then put (rvAlu f3 (f7 == 0x20) true x y) else bad
  | 0x0F => if f3 ≤ 1 then jump c next else bad
  | 0x2F => c.atomic s k w next
  | 0x73 =>
    match c.system k w next with
    | .ok d => .ok (d, s)
    | .error e => .error (e, if e = 2 then w else if e = 3 then c.pc.toNat else 0, false)
  | _ => bad

/-- Fetches and executes the instruction at the pc, a compressed one by what it stands for. -/
def FwCore.run (c : FwCore) (s : State) (k : Nat) : FwResult :=
  match c.load s .fetch c.pc.toNat 2 with
  | .error e => .error e
  | .ok h =>
    if h % 4 ≠ 3 then
      match expandC h with
      | none => .error (2, h, false)
      | some w => match c.exec s k w 2 with | .error (2, _, v) => .error (2, h, v) | r => r
    else
      match c.load s .fetch (c.pc + 2).toNat 2 with
      | .error e => .error e
      | .ok t => c.exec s k (h + t * 2 ^ 16) 4

/-- One turn of firmware core `k`, while Seune runs: an interrupt that is due, or an instruction; an exception is taken, and Seune's access outside its regions raises the alarm (R413, R426). -/
def State.fwTurn (s : State) (k : Nat) : State :=
  let c := Tab.get FwCore.reset s.health.fw k
  let put (d : FwCore) (t : State) : State := t.setHealth { t.health with fw := Tab.set FwCore.reset t.health.fw k d }
  if ¬s.seune ∨ 8 ≤ k ∨ ¬c.on then s else
  match c.interrupt? with
  | some i => put (c.trap i true 0) s
  | none =>
    match c.run s k with
    | .ok (d, t) => put { d with count := d.count + 1 } t
    | .error (e, v, out) => if out then s.alarm 3 else put (c.trap e false v) s

end Sys2Proof.Machine
end

