-- ==== Sys2Proof/Machine/Turns.lean ====
section
/-!
DEFINITION. What one step of the machine does (log entry 1): the turn that the agenda gives, else an event whose condition holds, else the next word of an engine.
-/
namespace Sys2Proof.Machine

/-! ## An engine's turn -/

/-- Drops a hold of R272 that is over. -/
def State.unhold (s : State) (e : Eng) : State :=
  match (s.eng e).hold with
  | none => s
  | some p => if s.holdOver p then s.mapEng e fun g => { g with hold := none } else s

/-- What a clock does before any engine issues: TIME, the idle count of leave, the drain's count, the holds of R272 (R22, R178, R272, R282). -/
def State.clock (s : State) : State :=
  Eng.all.foldl State.unhold (s.mapCore fun c => { c with
    time := c.time + 1
    idle := c.idle + 1
    freeze := c.freeze.map fun f => { f with stuck := f.stuck + 1 } })

/-- Puts the entry that an engine issues from at the front of its set (R356). -/
def State.touch (s : State) (o : OpEntry) : State := s.mapCore fun c => c.opFill o

/-- Executes the decoded form of a word of engine `e`: its instruction, or the illegal-instruction fault (R29). -/
def State.execDecoded (s : State) (e : Eng) (w : IWord) : Host.Outcome State Fault Refusal :=
  match s.decodeAt e (s.eng e).pc (s.eng e).loops w with
  | .ok i => exec i s
  | .illegal d => exec (.illegalInstruction e w d) s

/-- The word is not in the decoded-operation cache: its line is filled (R356); a word that the feature mask hides never enters it, and is illegal (R341). -/
def State.fetch (s : State) (e : Eng) : Host.Outcome State Fault Refusal :=
  match s.wordAt e (s.eng e).pc with
  | none => exec (.fetchLineFill e) s
  | some w =>
    if decode e s.featMask w = decode e 0 w then exec (.fetchLineFill e) (s.stallOn e scFetch false) else
    match decode e s.featMask w with
    | .illegal d => exec (.illegalInstruction e w d) s
    | .ok _ => .next s

/-- What an engine does in a clock in which it may: it fetches its word while the cache does not hold it, and else tries to issue it. -/
def State.issueNext (s : State) (e : Eng) : Host.Outcome State Fault Refusal :=
  match s.opEntry? e (s.eng e).pc with
  | some o => (s.touch o).execDecoded e o.word
  | none => s.fetch e

/-- The clock of W when its fifth memory instruction waits for the address unit's window: it counts SC_XLAT where nothing that the table of R255 lists before it was counted (R114, R255).
`before`: the state before the turn. -/
def State.unitClock (before s : State) : State :=
  let g := before.core.engW.sc
  let h := s.core.engW.sc
  if !(before.unitFull && before.unitWork.isSome) then s else
  match (List.range 14).find? fun k => Tab.get 0 g k != Tab.get 0 h k with
  | none => s.mapEng .W fun k => k.count scXlat
  | some c => if scRank c < scRank scXlat ∨ c = scXlat then s else (s.mapEng .W fun k => { k with sc := g }).mapEng .W fun k => k.count scXlat

/-- One clock of engine `e` of the focus core. An idle engine counts towards a slice deadlock (R228). -/
def State.engineTurn (s : State) (e : Eng) : Host.Outcome State Fault Refusal :=
  if s.core.crew.isNone ∨ s.core.held then .next s else
  let s := s.clock
  if s.gate e = .off then
    .next (if s.isIdle e ∧ s.core.freeze.isNone ∧ s.core.preempt.isNone then
      s.mapCore fun c => { c with blocked := Tab.set 0 c.blocked e.code (Tab.get 0 c.blocked e.code + 1) } else s)
  else if e = .W then
    match s.issueNext .W with
    | .next t => .next (s.unitClock t)
    | o => o
  else s.issueNext e

/-! ## Events whose condition holds -/

/-- An instruction when its condition holds. -/
def when (c : Bool) (i : Instr) : Option Instr := if c then some i else none

/-- Commits, performances and checks of the focus core (R83, R114, R258, R262, R275, R276, R336). -/
def State.memoryEvent (s : State) : Option Instr :=
  ((Eng.all.find? fun e => match (s.eng e).past with | w :: _ => s.older e w.pos | [] => false).map .pendingWriteCommit)
  <|> when s.returnable.isSome .loadDataReturn
  <|> when s.releasable.isSome .horizonWriteRelease
  <|> when s.performable.isSome .storePerform
  <|> ((Eng.all.find? fun e => match (s.eng e).wait, s.core.crew with
        | some page, some c => (lookup s (s.eng e).got c.fn c.ctx page).isSome
        | _, _ => false).map .memoryChecksComplete)
  <|> ((s.dies.find? fun d => !d.2.walks.isEmpty).map fun d => .pageWalkComplete d.1)
  <|> when (s.unitWork.isSome && !s.unitFull && s.core.unit.wait.isNone) .addressUnitCheck

/-- The LDZ decoder, the tile unit and the copy unit (R110, R120, R190, R424). -/
def State.unitEvent (s : State) : Option Instr :=
  when (match s.core.ldz with | some z => z.busy && z.code != 4 | none => false) .ldzDecodeDone
  <|> when (match s.core.ldz with | some z => z.busy && z.code == 4 | none => false) .ldzWatchdog
  <|> when (match s.core.tileRun with | some r => r.busy | none => false) .tileExecutionEnd
  <|> when (s.core.copies.any fun k => !k.pages.isEmpty) .migrationPageMove
  <|> when s.movable.isSome .bcopyMoveComplete

/-- The end of a crew, of a drain, of a pre-emption, of a call; a deadlock; leave (R96, R178, R228, R281, R282, R327, R328, R358). -/
def State.crewEvent (s : State) : Option Instr :=
  let c := s.core
  (Eng.all.findSome? fun e => (s.illegal? e).map fun x => .illegalInstruction e x.word x.code)
  <|> when s.haltReady .haltComplete
  <|> when (match c.freeze with | some f => s.drainedTo f.pos && s.slotReady | none => false) .faultDrainEnd
  <|> when (match c.freeze with | some f => f.slices && 65536 ≤ f.stuck && s.slotReady | none => false) .sliceSetDrainTimeout
  <|> when s.savable .preemptBoundarySave
  <|> when s.forceable .preemptForce
  <|> when (c.deadlocked && c.crew.isSome && c.freeze.isNone) .sliceDeadlock
  <|> when (c.parked && c.calldepth == 0 && c.drained) .callUnpark
  <|> when (c.leave == .held && 4096 ≤ c.idle) .leaveIdleRelease

/-- Arrivals, those of the bank transform units before those of the networks, acknowledgements, collectives and packets (R87, R90, R116, R369, R374, R376, R383 to R390, R417). -/
def State.netEvent (s : State) : Option Instr :=
  (match s.hub.gov.asks with | k :: _ => when (s.hub.gov.fits (s.hub.gov.granted.length + 1)) (.leaveGrant k.2) | [] => none)
  <|> when (!s.turnElems.isEmpty) .sendtElementApply
  <|> when (!s.net.arrivals.isEmpty) .barrierArrivalApply
  <|> when (!s.net.acks.isEmpty) .transferAcknowledgement
  <|> when s.lost?.isSome .ackTimeout
  <|> when (match s.core.collAsk with | some a => s.older .S a.pos && s.core.colls.length < 16 | none => false) .collAccept
  <|> when s.owesReady.isSome .readyRetry
  <|> when s.collSends.isSome .collStep
  <|> when s.collOver.isSome .collCompletionArrival
  <|> when s.collLate.isSome .collStepTimeout
  <|> s.net.ports.findSome? fun p => (p.2.bufs.find? fun b => s.headMoves p.1 b.1).map fun b => .packetAdvance p.1 b.1

/-- The command in hand, by its operation (R300). -/
def State.command (s : State) : Option Instr :=
  s.hub.current.bind fun t =>
    match field t.bytes 0 1 with
    | 0 => some .nopCommand
    | 1 => some .launch
    | 2 => some .drain
    | 3 => some .waitmem
    | 4 => some .pipe
    | _ => none

/-- A queue whose DRAIN or WAITMEM can end (R300). -/
def State.queueEvent (s : State) : Option Instr :=
  s.hub.fns.findSome? fun f => f.2.queues.findSome? fun q =>
    match q.2.busy with
    | none => none
    | some b =>
      if ¬q.2.en ∨ f.2.susp then none else
      when (s.drainDone f.1 q.1) (.drainCompletion f.1 q.1)
      <|> when (field b 0 1 == 3 && match ctxRead s q.2.ctx (field b 8 8) 8 with | some d => field b 16 8 ≤ ofBytes d | none => true) (.waitmemPoll f.1 q.1)

/-- The front end, the context engine, the loader, the boot ROM's and the update service's work in progress, and the scheduler (R299, R308, R310, R316, R342 to R344, R348, R410, R412). -/
def State.hubEvent (s : State) : Option Instr :=
  s.command
  <|> when (s.hub.fns.any (fun f => f.2.queues.any fun q => q.2.en) && s.hub.current.isNone && s.nextQueue.isSome) .frontEndConsume
  <|> s.queueEvent
  <|> (s.hub.fns.findSome? fun f => if s.ctxReady f.1 then f.2.cbusy.map fun c =>
        if c.op = 3 then .save f.1 0 else if c.op = 5 then .switch f.1 0 else .vfsusp f.1 0 else none)
  <|> (s.hub.fns.findSome? fun f => f.2.lbusy.map fun w => if bits w.toNat 55 52 = 1 then .load f.1 0 else .unload f.1 0)
  <|> (s.hub.fns.findSome? fun f => when (f.2.flr && 1 ≤ f.1) (.functionLevelReset (f.1 - 1)))
  <|> when (s.health.stage == 1) .powerOn
  <|> s.health.drive.writing.map .firmwareUpdate
  <|> (if s.hub.launches.isEmpty then none else (s.choose.bind fun o => o.cores.head?).map .coreFreeDispatch)
  <|> when s.trigger.isSome .preemptTrigger

/-- Easy-all (R395 to R405). -/
def State.gangEvent (s : State) : Option Instr :=
  let g := s.gang
  when (g.state == 1 && g.at_ ≤ s.podtime) .gangSwitchTime
  <|> ((g.inset.find? s.owesMarker).map .gangMarkerSend)
  <|> when s.switchedOut .switchOutComplete
  <|> when (g.state == 2 && g.at_ + 1000000 ≤ s.podtime && g.inset.any fun p => !g.ended.contains p) .gangMarkerTimeout
  <|> when (s.resumeReady || s.canEnter) .gangResumeTime
  <|> when (g.state == 5 && g.enter.isEmpty) .gangResumeComplete

/-- The first event whose condition holds. -/
def State.autoEvent (s : State) : Option Instr :=
  s.memoryEvent <|> s.unitEvent <|> s.crewEvent <|> s.netEvent <|> s.hubEvent <|> s.gangEvent

/-! ## Turns -/

/-- The next engine in turn. -/
def nextEng : Eng → Eng
  | .S => .L | .L => .V | .V => .M | .M => .W | .W => .S

/-- The core whose turn is next: the first after the focus core that runs a crew. -/
def State.nextCore (s : State) : Nat :=
  let l := (s.cores.filter fun c => c.crew.isSome).map (·.id)
  match l.find? fun k => s.core.id < k with
  | some k => k
  | none => l.headD s.core.id

/-- Passes the turn on. -/
def State.rotate (s : State) : State :=
  let t := { s with turn := nextEng s.turn }
  if s.turn = .W then t.focusOn s.nextCore else t

/-- A row of the table that is an event, which the agenda may give; a word's instruction comes to run only through its engine. -/
def isEvent (i : Instr) : Bool := (encode i).isNone

/-- What still happens to a module that an alarm has stopped (R426): the cold reset, and further sources for SECSTAT. -/
def afterAlarm : Instr → Bool
  | .powerOff | .securityAlarm _ | .firmwareIsolationViolation => true
  | _ => false

/-- The turn at the head of the agenda. -/
def State.take (s : State) (t : Turn) : Host.Outcome State Fault Refusal :=
  match t with
  | .engine e => s.engineTurn e
  | .event i => if isEvent i ∧ (s.alarmed → afterAlarm i) then exec i s else .next s
  | .plugin fn image => .next (s.installPlugin fn image)
  | .firmware k => .next (s.fwTurn k)
  | .focus k => if k < Config.cores then .next (s.focusOn k) else .fault (.noSuchCore k)
  | .elapse ns => .next { s with podtime := s.podtime + ns }

/-- What happens when the agenda is empty. -/
def State.autoTurn (s : State) : Host.Outcome State Fault Refusal :=
  match s.autoEvent with
  | some i => exec i s
  | none =>
    match s.engineTurn s.turn with
    | .next t => .next t.rotate
    | o => o

/-- One step. -/
def State.stepTurn (s : State) : Host.Outcome State Fault Refusal :=
  match s.agenda with
  | t :: l => ({ s with agenda := l } : State).take t
  | [] => s.autoTurn

/-! ## Placing one word (for the host) -/

/-- A slice set with one slice of one word. -/
def oneWordSet (e : Eng) : SliceSet where
  addr := 0
  code := 0x780000000000
  isa := 2
  hand := true
  plainLen := 1
  homesz := 0
  slices := Eng.all.map fun d => (0, if d = e then 1 else 0)
  tokInit := []
  queues := []
  fmtRec := []
  pwlRec := []
  prime := 0
  maps := []
  restarts := []
  loops := []
  branches := []
  views := []

/-- Puts a word in memory, in the decoded-operation cache and as the one word of its engine's slice on the focus core, with its code page translated, and gives
that engine the next turn: what loading, launching and placing a one-word kernel would have done (log entry 33). -/
def State.placeWord (s : State) (e : Eng) (w : IWord) : State :=
  let va : Word := 0x780000000000#64
  let s := s.setMemBytes 0x100000 (bytesOfWord w)
  let crew : Crew := ⟨1, 0, 0, 0, 1, 0, 0, 0, 1, 0, oneWordSet e⟩
  let s := s.mapCore fun c => { c with
    crew := some crew, held := false, halting := false, parked := false, calldepth := 0, freeze := none, preempt := none
    tlb := [⟨0, 1, 0x780000000000, 16, 0x100000, true, false, true⟩] }
  let s := (Eng.all.filter (· != e)).foldl (fun s d => s.mapEng d fun g => { g with base := va, len := 0, pc := va, hold := none, past := [] }) s
  let s := s.mapEng e fun g => { g with base := va, len := 1, pc := va, loops := [], laps := [], begun := false, hold := none, wait := none, got := [], past := [], kept := none, resolved := none,
                                        banks := none }
  { s.touch ⟨1, 2, e, va, w, 0, false⟩ with agenda := [.engine e] }

end Sys2Proof.Machine
end

