-- ==== Sys2Proof/Machine/Step.lean ====
section
/-!
DEFINITION. One step of the machine, and how the host places one word in front of it.
-/
namespace Sys2Proof.Machine

/-- One step (log entry 1). -/
def step (s : State) : Host.Outcome State Fault Refusal := s.stepTurn

/-- The state whose very next step runs the word `w` in the engine that its class field names (log entry 33). -/
def State.withFetchWord (s : State) (_nbits w : Nat) : State :=
  let iw : IWord := BitVec.ofNat 32 w
  s.placeWord ((classEngine iw).getD .S) iw

end Sys2Proof.Machine
end

