-- ==== Sys2Proof/Machine/Registers.lean ====
section
/-!
DEFINITION. What the host reads of a function's registers (R297, R315, R324, R340, R348, R355, R370, R393, R408, R422). A read changes nothing.
-/
namespace Sys2Proof.Machine

/-- A flag as a number at a bit. -/
def bitAt (k : Nat) (b : Bool) : Nat := if b then 2 ^ k else 0

/-- The registers of a queue (R297). -/
def CmdQueue.read (x : CmdQueue) : Nat → Nat
  | 0 => bitAt 63 x.en + x.logsz * 2 ^ 52 + x.ctx * 2 ^ 32 + x.proc * 2 ^ 16 + x.pcap
  | 8 => x.base
  | 16 => bitAt 63 x.halt + x.err * 2 ^ 48 + x.head.toNat
  | 24 => x.tail.toNat
  | _ => 0

/-- The registers of every function: its queues, context control, loader and advisory (R297, R315, R348, R355). -/
def State.readFunc (s : State) (fn off : Nat) : Nat :=
  let f := s.func fn
  if 0x10000 ≤ off ∧ off < 0x10200 then (s.queue fn ((off - 0x10000) / 32)).read (off % 32) else
  match off with
  | 0x20000 => bitAt 63 f.cbusy.isSome + f.ccmd.toNat
  | 0x20008 => f.carg.toNat
  | 0x20010 => bitAt 63 f.cbusy.isSome + f.newctx * 2 ^ 32 + f.cresult
  | 0x20040 => bitAt 63 f.lbusy.isSome + f.lcmd.toNat
  | 0x20048 => f.larg.toNat
  | 0x20050 => bitAt 63 f.lbusy.isSome + f.lhandle * 2 ^ 32 + f.ldetail * 2 ^ 8 + f.lresult
  | 0x20080 => f.depthr.toNat
  | 0x20088 => bitAt 63 f.pend + f.depctx * 2 ^ 32
  | _ => 0

/-- The physical function's registers of a virtual function (R340). -/
def Func.readVf (f : Func) : Nat → Nat
  | 0 => f.vffeat.toNat
  | 8 => f.s2root
  | 16 => bitAt 1 f.flr + bitAt 0 f.susp
  | _ => 0

/-- A parked entry's two registers (R393). -/
def Park.read (p : Park) : Nat → Nat
  | 0 => p.state * 2 ^ 48 + p.late * 2 ^ 32 + p.cause * 2 ^ 24 + p.tag * 2 ^ 8
  | _ => p.base

/-- The job and gang registers (R370, R393). -/
def State.readPod (s : State) (off : Nat) : Nat :=
  let g := s.gang
  if 0x40070 ≤ off ∧ off < 0x400F0 then (Tab.get Park.reset g.park ((off - 0x40070) / 16)).read (off % 16) else
  match off with
  | 0x40000 => s.net.jcmd.toNat
  | 0x40008 => s.net.jarg.toNat
  | 0x40010 => s.net.jresult
  | 0x40040 => g.op * 2 ^ 52 + g.tag
  | 0x40048 => g.time.toNat
  | 0x40050 => g.base
  | 0x40058 => g.size
  | 0x40060 => g.state * 2 ^ 48 + g.late * 2 ^ 32 + g.cause * 2 ^ 24 + g.gtag * 2 ^ 8 + g.result
  | 0x40068 => s.podtime
  | _ => 0

/-- EST: b + 3 × GRANTED, whole watts, b the mean of the samples (R417; log entry 30). -/
def Gov.est (g : Gov) : Nat := (g.samples.sum / (max 1 g.samples.length : Int) + 3 * (g.granted.length : Int)).toNat % 2 ^ 16

/-- Gibibytes in service: 16 for each first-tier group, 64 for each second-tier package (R408, R415). -/
def Health.firstGib (h : Health) : Nat := 16 * ((List.range 12).filter fun g => h.mmap.testBit g && !h.outs.contains (.group g)).length
def Health.secondGib (h : Health) : Nat := 64 * ((List.range 16).filter fun p => h.mmap.testBit (12 + p) && !h.outs.contains (.package p)).length

/-- HCAP (R408): cores count once their SRAM was tested (R414), memory once MMAP has put it into service (R415), ports as they enter service (R416). -/
def State.hcap (s : State) : Nat :=
  s.health.secondGib * 2 ^ 48 + s.health.firstGib * 2 ^ 32 + s.portsUp * 2 ^ 26 + if s.health.sram.testBit 63 then s.wholeQuads * 2 ^ 9 + s.workingCores else 0

/-- A log record's 32 bytes (R422). -/
def LogRec.bytes (r : LogRec) : List Byte :=
  padTo 32 (toBytes 8 r.time ++ toBytes 1 r.kind ++ toBytes 1 r.unit ++ toBytes 2 r.ctx ++ toBytes 4 r.loc ++ toBytes 8 r.addr)

/-- The record that ELOGSEL selects: zeros when it is not held (R422). -/
def Health.selected (h : Health) : List Byte :=
  match h.log[(h.sel + 2 ^ 33 - h.total + h.log.length) % 2 ^ 32]? with
  | some r => r.bytes
  | none => padTo 32 []

/-- The health block (R408). -/
def State.readHealth (s : State) (off : Nat) : Nat :=
  let h := s.health
  if 0x50040 ≤ off ∧ off < 0x50060 then field h.selected (off - 0x50040) 8 else
  match off with
  | 0x50000 => h.stage * 2 ^ 48 + h.fwsvn * 2 ^ 32 + h.fail * 2 ^ 8
  | 0x50008 => h.rcvlen
  | 0x50010 => s.hub.gov.limit
  | 0x50018 => s.hub.gov.est * 2 ^ 32 + s.hub.gov.asks.length * 2 ^ 16 + s.hub.gov.granted.length
  | 0x50020 => s.hcap
  | 0x50028 => h.why
  | 0x50030 => h.total
  | 0x50038 => h.sel
  | 0x50060 => bitAt 62 h.fptier + h.fpop * 2 ^ 60 + h.fppage * 2 ^ 16
  | 0x50068 => h.free2.length * 2 ^ 32 + h.free1.length
  | 0x50070 => h.sec
  | _ => 0

/-- What a host's read of 8 bytes at an offset of a function's BAR 0 returns: of the health block from the moment the link is up, of every other register once the host is
admitted, and zero else (R408). -/
def State.readReg (s : State) (fn off : Nat) : Word :=
  BitVec.ofNat 64 (
    if 33 ≤ fn then 0
    else if fn = 0 ∧ 0x50000 ≤ off then (if s.health.pcie then s.readHealth off else 0)
    else if ¬s.admitted then 0
    else if fn = 0 ∧ 0x40000 ≤ off then s.readPod off
    else if fn = 0 ∧ off = 0x30400 then Config.revision * 2 ^ 8 + Config.features.toNat
    else if fn = 0 ∧ 0x30000 ≤ off ∧ off < 0x30400 then (s.func ((off - 0x30000) / 32 + 1)).readVf (off % 32)
    else s.readFunc fn off)

end Sys2Proof.Machine
end

