-- ==== Sys2Proof/Safety.lean ====
section
/-!
DEFINITION. What counts as a safe run: one that no stop ends and in which memory keeps its canonical form.
-/
namespace Sys2Proof

open Sys2Proof.Machine

/-- `t` is reached from `s` by steps that each answer a next state. -/
inductive Reaches (s : State) : State → Prop where
  | refl : Reaches s s
  | step {t u : State} : Reaches s t → Machine.step t = .next u → Reaches s u

/-- A step from `s` ends the run with a fault or a refusal. -/
def Stops (s : State) : Prop := ∀ t, Machine.step s ≠ .next t

/-- Every turn the outside gives names a core of the module. -/
def AgendaOk (s : State) : Prop := ∀ k, Turn.focus k ∈ s.agenda → k < Config.cores

/-- A safe run from `s`: no state it reaches stops, and memory is in canonical form in each. -/
def SafeFrom (s : State) : Prop := ∀ t, Reaches s t → ¬Stops t ∧ t.mem.wf = true

/-! ## What an instruction's statement speaks of -/

/-- An engine without what only orders, holds or times its instructions: its pc and loop levels, pending writes and unmade pushes. -/
def Machine.Engine.arch (g : Engine) : Engine :=
  { g with pc := 0, loops := [], past := [], flights := [], wait := none, got := [], call := 0, laps := [], begun := false, hold := none,
           kept := none, resolved := none, banks := none, stall := 0xFF }

/-- A core without the marks on the bytes of collectives' buffers that its crew has written (R384). -/
def Machine.Core.unmarked (c : Core) : Core :=
  { c with colls := c.colls.map fun k => { k with dirty := [] }, ended := c.ended.map fun k => { k with dirty := [] } }

/-- A core without the token and follow FIFOs, the slot pointers, the slots taken, a freeze, the address unit's places, the turns at the banks, the deadlock counts and the marks on
collectives' buffers. -/
def Machine.Core.arch (c : Core) : Core :=
  { c with
    engS := c.engS.arch
    engL := c.engL.arch
    engV := c.engV.arch
    engM := c.engM.arch
    engW := c.engW.arch
    tok := []
    follow := []
    queues := c.queues.map fun q => (q.1, { q.2 with prod := 0, cons := 0 })
    takes := []
    unit := ⟨[], none, []⟩
    bankPtr := []
    freeze := none
    blocked := []
    colls := c.unmarked.colls
    ended := c.unmarked.ended }

/-- The state without those fields of the focus core, and without the turns at the other cores' banks, where a word that reaches into the quad is served too: registers, flags, control
and special registers, descriptors, tables, scratchpad, accumulators, tiles, barrier objects, the store buffer, all of memory and all else outside the core remain. -/
def Machine.State.arch (s : State) : State := { s with core := s.core.arch, others := s.others.map fun c => { c with bankPtr := [] } }

/-- The engine may issue its oldest word, the FIFOs it pops hold a token, and there is room for `n` more pending writes (R276). -/
def Ready (s : State) (e : Eng) (waits : List Eng) (n : Nat) : Prop :=
  s.gate e = .go ∧ s.core.canPop e waits = true ∧ (s.eng e).pending + n ≤ 16

/-- The engine's next word, executed, issues and completes with the effect that `x` shows: a next state that differs from `x` in the orders and counts of `arch` at most; and where no
push waits before it and its own overflow no FIFO, no freeze is taken (a drain's count starts again, R282) and the FIFOs are popped and pushed as the word says. -/
def Ends (i : Instr) (s : State) (e : Eng) (waits sigs : List Eng) (x : State) : Prop :=
  ∃ t, exec i s = .next t ∧ t.arch = x.arch ∧
    ((s.eng e).flights = [] → (s.core.pop e (s.pos e) waits).overflow? e sigs = none →
      t.core.freeze = x.core.freeze.map (fun f => { f with stuck := 0 }) ∧ t.core.follow = x.core.follow ∧ t.core.tok = ((x.core.pop e (s.pos e) waits).push e sigs).tok)

/-- As `Ends`, for a word that issues now and finishes later, when it makes its pushes. -/
def Flies (i : Instr) (s : State) (e : Eng) (waits : List Eng) (x : State) : Prop :=
  ∃ t, exec i s = .next t ∧ t.arch = x.arch ∧
    ((s.eng e).flights = [] → t.core.freeze = x.core.freeze.map (fun f => { f with stuck := 0 }) ∧ t.core.follow = x.core.follow ∧ t.core.tok = (x.core.pop e (s.pos e) waits).tok)

/-- Where control stands after a word: the engine's next pc and its active loop levels, innermost first; all else is as `x` shows. -/
def Goes (i : Instr) (s : State) (e : Eng) (x : State) (pc : Word) (loops : List Level) : Prop :=
  ∃ t, exec i s = .next t ∧ t.arch = x.arch ∧ (t.eng e).pc = pc ∧ (t.eng e).loops = loops

/-- The engine's next word, executed while nothing is frozen, faults precisely: the crew freezes with this record and nothing else of the state changes. -/
def Faults (i : Instr) (s : State) (e : Eng) (cause detail : Nat) (aux faddr : Word) (after : Bool) : Prop :=
  s.core.freeze = none → ∃ f, exec i s = .next { s with core := { s.core with freeze := some f } } ∧ f.pos = s.pos e ∧ f.levels = (s.eng e).loops ∧
    f.eng = e.code ∧ f.cause = cause ∧ f.detail = detail ∧ f.aux = aux ∧ f.faddr = faddr ∧ f.after = after ∧ f.tfreeze = s.core.time

/-- The engine's next word stalls: its counter `c` rises by one, and nothing else of what `arch` shows changes. -/
def Stalls (i : Instr) (s : State) (e : Eng) (c : Nat) : Prop :=
  ∃ t, exec i s = .next t ∧ t.arch = (s.mapEng e fun g => { g with sc := Tab.set 0 g.sc c ((Tab.get 0 g.sc c + 1) % 2 ^ 48) }).arch ∧
    t.core.tok = s.core.tok ∧ t.core.follow = s.core.follow ∧ t.core.freeze = s.core.freeze ∧
    (t.eng e).pc = (s.eng e).pc ∧ (t.eng e).loops = (s.eng e).loops

/-- The checks of the engine's oldest word have found these places, kept from an earlier attempt or made now (R83, R337), and at the banks of its core's scratchpad no other
requester's turn comes before its own (R269). -/
def Checked (s : State) (e : Eng) (c : Chk Places) (pl : Places) : Prop := s.known e c = .ok pl ∧ s.bankHeld e (pl.home s.core.id e) = []

/-- The engine holds a translation of the address, which is aligned on 4 and whose page is executable (R74). -/
def Executable (s : State) (e : Eng) (t : Word) : Prop :=
  ∃ c x, s.core.crew = some c ∧ t.toNat % 4 = 0 ∧ (bits t.toNat 63 55 = 0 ∨ bits t.toNat 63 55 = 0x1FF) ∧
    lookup s (s.eng e).got c.fn c.ctx (va56 t) = some (.hit x) ∧ x.x = true

/-- The state with an engine's view changed. -/
def Machine.State.setView (s : State) (e : Eng) (f : View → View) : State := s.mapEng e fun g => { g with view := f g.view }

/-- The state with register `d` of an engine written; a write to x0 changes nothing. -/
def Machine.State.setReg (s : State) (e : Eng) (d : Nat) (w : Word) : State := s.setView e fun v => v.setX d w

/-- The slot or home scratchpad that a load's Q bit selects (R101): a bound queue's producer slot. -/
def loadSlot (s : State) (y : Sync) (q : Bool) (slot : Option (Nat × Queue)) : Prop :=
  (q = false ∧ slot = none) ∨ (q = true ∧ ∃ t k, y.sig = some t ∧ s.core.queue? .L t = some k ∧ slot = some (k.base + k.slot * k.prod, k))

/-- The same for a store: the queue's consumer slot. -/
def storeSlot (s : State) (y : Sync) (q : Bool) (slot : Option (Nat × Queue)) : Prop :=
  (q = false ∧ slot = none) ∨ (q = true ∧ ∃ d k, y.wait = some d ∧ s.core.queue? d .W = some k ∧ slot = some (k.base + k.slot * k.cons, k))

/-- The bytes of a tile in access order (R100, R106): plane by plane, row by row, each memory byte with its scratchpad byte; pitch 0 in the scratchpad is the row's length. -/
def tileBytes (x0 x1 z ptr : Word) (three mis : Bool) : List Touched :=
  let rb := bits x1.toNat 15 0
  let sp := if bits x0.toNat 47 32 = 0 then rb else bits x0.toNat 47 32
  let planes := if three then bits z.toNat 15 0 else 1
  (List.range planes).flatMap fun (k : Nat) => (List.range (bits x1.toNat 31 16)).flatMap fun (r : Nat) => (List.range rb).flatMap fun (b : Nat) =>
    let m : Int := (if three then (k : Int) * signed 32 (bits z.toNat 63 32) else 0) + (r : Int) * signed 32 (bits x1.toNat 63 32) + (b : Int)
    [.mem (ptr + BitVec.ofInt 64 m) mis, .spad (Int.ofNat (bits x0.toNat 20 0 + (if three then k * (bits z.toNat 31 16 * 64) else 0) + r * sp + b))]

/-- The bytes of a gather or scatter (R111): an index, its element in memory, the element's scratchpad bytes. -/
def indexedBytes (s : State) (x0 x1 ptr : Word) (es : Nat) : List Touched :=
  let io := bits x1.toNat 20 0
  (List.range (bits x1.toNat 47 32)).flatMap fun i =>
    let a := ptr + BitVec.ofInt 64 (signed 32 (s.homeNat (io + 4 * i) 4) * es)
    ((List.range 4).map fun b => Touched.list (io + 4 * i + b) (io % 4 != 0)) ++
    ((List.range es).map fun b => Touched.mem (a + BitVec.ofNat 64 b) (a.toNat % es != 0)) ++
    (List.range es).map fun b => Touched.spad ((bits x0.toNat 20 0 + i * es + b : Nat) : Int)

/-- A write of CCMD that starts operation `op` of function `fn` while none is in progress (R316). -/
def starts (s : State) (fn op : Nat) (v : Word) : Prop :=
  s.health.stage = 6 ∧ fn < 33 ∧ v.getLsbD 63 = true ∧ bits v.toNat 55 52 = op ∧ (s.func fn).cbusy = none

/-! ## Vector elements -/

/-- The generator's random number at its step for result `k`, counted from `seed`; without steps, `seed`. -/
def drawAt (seed : BitVec 32) (steps : Bool) (k : Nat) : BitVec 32 := if steps then Nat.repeat xorshift (k + 1) seed else seed

/-- Offset `o` is a byte of one of the elements that `wr` names. -/
def Touches (d : Region) (n : Nat) (wr : Nat → Nat) (o : Nat) : Prop := ∃ i k, i < n ∧ k < d.nb ∧ o = d.at (wr i) + k

/-- No two written elements share a byte (those of a packed region never share a bit), and past one group no written byte is a source's. -/
def Apart (d : Region) (srcs : List Region) (n : Nat) (wr : Nat → Nat) : Prop :=
  (d.width < 8 ∨ ∀ i j, i < j → j < n → ∀ k l, k < d.nb → l < d.nb → d.at (wr i) + k ≠ d.at (wr j) + l) ∧
  (n ≤ 128 ∨ ∀ r ∈ srcs, ∀ j k, j < r.count → k < r.nb → ¬Touches d n wr (r.at j + k))

/-- What no vector word changes: all but the scratchpad, the engine's flags, lane flags and seed, and SC_BANK. -/
def VectorFrame (s x : State) : Prop :=
  x = { s with core := { s.core with
    scratch := x.core.scratch
    engV := { s.core.engV with
      view := { s.core.engV.view with flags := x.core.engV.view.flags, lanes := x.core.engV.view.lanes, seed := x.core.engV.view.seed }
      sc := x.core.engV.sc } } } ∧
  ∀ c, c ≠ scBank → Tab.get 0 x.core.engV.sc c = Tab.get 0 s.core.engV.sc c

/-- At the banks of the core's scratchpad no other requester's turn comes before the engine's (R269). -/
def HasTurn (s : State) (e : Eng) : Prop := ∀ offs, s.bankHeld e offs = []

/-- The checks of R127, those of `more` after the operands', find these places, as an earlier attempt did if there was one; at their banks it is the word's turn, and it may issue:
behind the horizon where it writes home scratchpad (R126). -/
def PassesAll (s : State) (y : Sync) (pend : Nat) (ops : List VOpnd) (more : List Region → Chk (List Nat)) (pl : Places) : Prop :=
  checkOps s y ops more = .ok pl ∧ s.known .V (.ok pl) = .ok pl ∧ s.bankHeld .V (s.here (touched ops pl)) = [] ∧ Ready s .V y.wait.toList pend ∧
    ((ops.zip pl.regs).any (fun o => o.1.dst && !o.2.slot) = true → (s.resolve .V).older .V (s.pos .V) = true)

/-- The same for a word that reads no index values. -/
def Passes (s : State) (y : Sync) (pend : Nat) (ops : List VOpnd) (rs : List Region) : Prop :=
  PassesAll s y pend ops (fun _ => .ok []) { regs := rs }

/-- An element-wise vector word whose operands pass completes: only the bytes of the elements `wr` names may change; each of them becomes `el`'s bits, computed from the state
before; the flags of each element enter FLAGS and its lane unless `nf`; the generator takes one step per result where `steps`. -/
def Elementwise (i : Instr) (s : State) (y : Sync) (pend : Nat) (ops : List VOpnd) (more : List Region → Chk (List Nat)) (steps nf : Bool) (cnt : List Region → Nat)
    (wr : List Region → Nat → Nat) (el : List Region → Nat → Nat → Nat × BitVec 6) : Prop :=
  ∀ rs ix, PassesAll s y pend ops more { regs := rs, idx := ix } →
    let d := reg rs 0
    let n := cnt rs
    let v := s.core.engV.view
    let z (k : Nat) : Nat × BitVec 6 := el rs k (drawAt v.seed steps k).toNat
    ∃ x, Ends i s .V y.wait.toList y.sig.toList x ∧ VectorFrame s x ∧ (∀ o, ¬Touches d n (wr rs) o → x.home o = s.home o) ∧
      x.core.engV.view.seed = (if steps then Nat.repeat xorshift n v.seed else v.seed) ∧
      (nf = true → x.core.engV.view.flags = v.flags ∧ x.core.engV.view.lanes = v.lanes) ∧
      (Apart d rs.tail n (wr rs) →
        (∀ k, k < n → d.get x (wr rs k) = (z k).1 % 2 ^ d.width) ∧
        (nf = false → x.core.engV.view.flags = v.flags ||| orAll ((List.range n).map fun k => (z k).2) ∧
          ∀ l, l < 128 → Tab.get 0 x.core.engV.view.lanes l = Tab.get 0 v.lanes l ||| orAll (((List.range n).filter (· % 128 == l)).map fun k => (z k).2)))

/-- The common case: element `k` of the first operand is written, for every `k` below its count. -/
def PerElement (i : Instr) (s : State) (y : Sync) (pend : Nat) (ops : List VOpnd) (steps nf : Bool) (el : List Region → Nat → Nat → Nat × BitVec 6) : Prop :=
  Elementwise i s y pend ops (fun _ => .ok []) steps nf (fun rs => (reg rs 0).count) (fun _ => id) el

/-- Lane `l` of a class-F sum after its first `k + 1` elements (R51, R144): each addition is rounded to FP32 in the mode given; `draw` gives the generator's numbers in their order. -/
def laneSum (mode : Nat) (draw : Nat → Nat) (x : Nat → Val) (l : Nat) : Nat → Val × BitVec 6
  | 0 => (x l, 0)
  | k + 1 =>
    let a := laneSum mode draw x l k
    let z := Val.add mode a.1 (x (l + 128 * (k + 1)))
    let r := fp32.round mode false (draw (l + 128 * k)) z.1
    (fp32.value r.1, a.2 ||| z.2 ||| r.2)

/-- Node `l` of level `k` of the tree that joins the lanes of `n` elements (R51); a node without a partner passes on. -/
def treeSum (mode : Nat) (draw : Nat → Nat) (x : Nat → Val) (n : Nat) : Nat → Nat → Val × BitVec 6
  | 0, l => laneSum mode draw x l ((n - 1 - l) / 128)
  | k + 1, l =>
    let a := treeSum mode draw x n k (2 * l)
    let b := treeSum mode draw x n k (2 * l + 1)
    let nodes := (min n 128 + 2 ^ k - 1) / 2 ^ k
    if nodes ≤ 2 * l + 1 then a else
    let z := Val.add mode a.1 b.1
    let r := fp32.round mode false (draw (n - nodes + l)) z.1
    (fp32.value r.1, a.2 ||| b.2 ||| z.2 ||| r.2)

/-- The running value of a scan at element `k` with the flags of the step that forms it (R145): sums of class F are rounded to FP32; into another format than FP32, each result's conversion takes
a number of the generator too. -/
def scanValue (op : CombOp) (t mode : Nat) (draw : Nat → Nat) (x : Nat → Val) : Nat → Val × BitVec 6
  | 0 => (x 0, 0)
  | k + 1 =>
    let a := (scanValue op t mode draw x k).1
    let z := Val.add mode a (x (k + 1))
    let r := fp32.round mode false (draw (if t = 0 then k else 2 * k + 1)) z.1
    if op = .add then (if isF t then (fp32.value r.1, z.2 ||| r.2) else (z.1, 0)) else (Val.pick (op != .min) a (x (k + 1)), 0)

/-- What no matrix word but a tile word changes: all but the accumulators, the scratchpad, the drain-status file, the engine's flags and seed, SC_BANK, and the clocks since the
last heavy word (R178). -/
def MatrixFrame (s x : State) : Prop :=
  x = { s with core := { s.core with
    acc := x.core.acc
    scratch := x.core.scratch
    dstat := x.core.dstat
    idle := x.core.idle
    engM := { s.core.engM with
      view := { s.core.engM.view with flags := x.core.engM.view.flags, seed := x.core.engM.view.seed }
      sc := x.core.engM.sc } } } ∧
  ∀ c, c ≠ scBank → Tab.get 0 x.core.engM.sc c = Tab.get 0 s.core.engM.sc c

/-- Offset of byte `b` of row `r` of a home operand without rotation (R155, R156), with this packed row size. -/
def Machine.State.matAt (s : State) (n : BitVec 4) (packed r b : Nat) : Nat :=
  let v := (s.x .M n.toNat).toNat
  bits v 20 0 + r * (if bits v 47 32 = 0 then packed else bits v 47 32) + b

/-- The operand register names home scratchpad without rotation, and every byte of its rows may be reached (R158). -/
def Machine.State.matHome (s : State) (n : BitVec 4) (packed rows len : Nat) : Prop :=
  bits (s.x .M n.toNat).toNat 63 61 = 0 ∧
    ∀ r b, r < rows → b < len → s.matAt n packed r b < 0x180000 ∧ s.core.inQueue (s.matAt n packed r b) = false

/-- Writes a tile register. -/
def Machine.State.putTile (s : State) (t : BitVec 4) (x : Tile) : State := s.mapCore fun c => { c with tiles := Tab.set Tile.start c.tiles t.toNat x, tileRun := none }

/-- The state with flags set in an engine. -/
def Machine.State.orFlags (s : State) (e : Eng) (f : BitVec 6) : State := s.setView e fun v => { v with flags := v.flags ||| f }

end Sys2Proof
end

