-- ==== Sys2Proof/Certificates/Slice0/Obligations.lean ====
section
/-!
DEFINITION. The statements for the provers: encoding, one step, every instruction's effect and frame, and the invariants.
-/

open Sys2Proof Sys2Proof.Machine

/-! ## Words, steps and invariants -/

/-- R14 to R33: words that the spec writes out bit by bit decode to the instructions they stand for, in the engine that their class names; three illegal ones, to their
detail codes. -/
def Obligations.DecodeWords : Prop :=
  decode .S 0 0x00021844 = .ok (.add .S Sync.none 3 1 2 false) ∧
  decode .L 0 0x34202110 = .ok (.addi .L ⟨some .W, none⟩ 4 4 16) ∧
  decode .V 0 0x40305400 = .ok (.sync .V 0x0a 0x10) ∧
  decode .V 0 0x40315400 = .ok (.syncV1 .V (some .L) (some .W)) ∧
  decode .L 0 0x3C0DFFFD = .ok (.li .L 6 0x1FFFD) ∧
  decode .S 0 0x1CFFFFF8 = .ok (.j 0x3FFFF8) ∧
  decode .L 0 0x201131D1 = .ok (.sra .L Sync.none 6 7 8 true) ∧
  decode .L 0 0x20330302 = .ok (.loopi .L Sync.none 6 2) ∧
  decode .S 0 0x00412FFD = .ok (.bnez Sync.none 5 0x7FD) ∧
  decode .S 0 0x0049A005 = .ok (.callx Sync.none 20 5) ∧
  decode .S 0 0x00523130 = .ok (.lda Sync.none 6 4 .pod 0) ∧
  decode .S 0 0x00560500 = .ok (.fence Sync.none 0 .pod) ∧
  decode .S 0 0x00613A00 = .ok (.barv Sync.none 7 .quad) ∧
  decode .W 0 0x80405233 = .ok (.stx Sync.none 5 2 .d 3) ∧
  decode .L 0 0x21C13500 = .ok (.ldt ⟨none, some .V⟩ 3 2 true 0) ∧
  decode .W 0 0x8C416310 = .ok (.stt ⟨some .V, none⟩ 6 1 true 1) ∧
  decode .W 0 0x80C69000 = .ok (.sendt ⟨none, some .S⟩ 9) ∧
  decode .W 0 0x80477A00 = .ok (.pub Sync.none 7 .pod) ∧
  decode .W 0 0x80484894 = .ok (.bcopy Sync.none 4 8 9 .mig) ∧
  decode .V 0 0x40400300 = .ok (.dset Sync.none 0 3 .set) ∧
  decode .V 0 0x4AC3201E = .ok (.vmul ⟨some .L, some .W⟩ 2 0 1 .eng false) ∧
  decode .V 0 0x40443120 = .ok (.vfma Sync.none 3 1 2 .rn false) ∧
  decode .V 0 0x404F3124 = .ok (.vcmp Sync.none 3 1 2 .lt false) ∧
  decode .V 0 0x40504123 = .ok (.vsel Sync.none 4 1 2 3) ∧
  decode .V 0 0x4054450E = .ok (.vcvt Sync.none 4 5 false .eng false) ∧
  decode .V 0 0x40615670 = .ok (.vgth Sync.none 5 6 7) ∧
  decode .V 0 0x405C674E = .ok (.vpwl Sync.none 6 7 .exp false .eng false) ∧
  decode .M 0 0x68404232 = .ok (.mma ⟨some .L, none⟩ 4 2 3 1 false) ∧
  decode .M 0 0x62C44546 = .ok (.mdrain ⟨none, some .W⟩ 4 5 2 3 false) ∧
  decode .M 0 0x60467013 = .ok (.mstat Sync.none 7 true 3) ∧
  decode .M 0 0x60503500 = .ok (.tconf Sync.none 3 5 false) ∧
  decode .M 0 0x60511680 = .ok (.tld Sync.none 1 6 8) ∧
  decode .M 0 0x60543120 = .ok (.tadd Sync.none 3 1 2 0) ∧
  decode .M 0 0x605B4332 = .ok (.tmma Sync.none 4 3 3 1 false) ∧
  decode .L 0 0x28021844 = .illegal 0x04 ∧
  decode .L 0 0x20029844 = .illegal 0x09 ∧
  decode .S 0 0x00010001 = .illegal 0x0A

/-- R14 to R32: a well-formed instruction that has a word is read back from it in the engine that the word's class names, every operand included. -/
def Obligations.DecodeEncode : Prop :=
  ∀ (i : Instr) (w : IWord), i.wf = true → encode i = some w → ∃ c, classEngine w = some c ∧ decode c 0 w = .ok i

/-- R14, R29: a word that decodes is the word of what it decodes to, which is well-formed: no two words mean one instruction, and a set reserved bit is illegal. A feature
mask takes words away and changes none (R341). -/
def Obligations.EncodeDecode : Prop :=
  ∀ (c : Eng) (m : BitVec 8) (w : IWord) (i : Instr), decode c m w = .ok i → encode i = some w ∧ i.wf = true ∧ decode c 0 w = .ok i

/-- R16, R17, R28, R356: on an engine's turn, where its crew may go on and the word of its pc is in the decoded-operation cache, a step is the execution of what the word
decodes to, after the clock's own counts and before W's count of its address unit; a turn of an event is the execution of that event, but that a module stopped by an alarm
takes none other than its cold reset and further alarms (R426). The turns themselves are the model's (log entry 1). -/
def Obligations.StepRunsWord : Prop :=
  ∀ (s : State) (l : List Turn),
    (∀ e o, s.agenda = .engine e :: l → s.core.crew ≠ none → s.core.held = false →
      let u := ({ s with agenda := l } : State).clock
      let v := u.touch o
      let runs (i : Instr) : Prop := Machine.step s = match exec i v with
        | .next t => .next (if e = .W then u.unitClock t else t)
        | z => z
      u.gate e ≠ .off → u.opEntry? e (u.eng e).pc = some o →
      (∀ i, v.decodeAt e (u.eng e).pc (u.eng e).loops o.word = .ok i → runs i) ∧
      (∀ d, v.decodeAt e (u.eng e).pc (u.eng e).loops o.word = .illegal d → runs (.illegalInstruction e o.word d))) ∧
    (∀ i, s.agenda = .event i :: l → encode i = none →
      let stopped : Prop := s.health.sec.testBit 0 = true ∧ i ≠ .powerOff ∧ i ≠ .firmwareIsolationViolation ∧ ∀ k, i ≠ .securityAlarm k
      (¬stopped → Machine.step s = exec i { s with agenda := l }) ∧ (stopped → Machine.step s = .next { s with agenda := l }))

/-- Every instruction answers a next state in every state, and a step stops only on a turn that names a core the module does not have: no fault of a program ends a run. The
agenda and its turns are the model's (log entry 1). -/
def Obligations.StepsGoOn : Prop :=
  (∀ (i : Instr) (s : State), ∃ t, exec i s = .next t) ∧
  ∀ s : State, (∃ t, Machine.step s = .next t) ∨ ∃ k l, s.agenda = .focus k :: l ∧ 384 ≤ k ∧ Machine.step s = .fault (.noSuchCore k)

/-- The memory after reset is in canonical form and lists nothing, so that every byte reads zero, which is the model's choice (log entry 2); every core's scratchpad and accumulators
are empty, no context exists, and the module is off (R407). -/
def Obligations.ResetState : Prop :=
  State.reset.mem.wf = true ∧ State.reset.mem = [] ∧ (∀ k, (State.reset.coreAt k).scratch = [] ∧ (State.reset.coreAt k).acc = [] ∧ (State.reset.coreAt k).crew = none) ∧
    State.reset.ctxs = [] ∧ State.reset.health.stage = 0 ∧ State.reset.health.powered = false

/-- Every step keeps memory in canonical form (log entry 2): addresses strictly rising, no listed zero. -/
def Obligations.MemoryCanonical : Prop :=
  ∀ s t : State, s.mem.wf = true → Machine.step s = .next t → t.mem.wf = true

/-! ## The common group (R15, R19 to R22, R62 to R71) -/

/-- R63: the sixteen three-operand operations, SEL, CLZ and POPC at both widths. Nothing but xd is written: no flag, no other register, no memory. -/
def Obligations.IntegerOperations : Prop :=
  ∀ (c : Eng) (y : Sync) (d a b : BitVec 5) (w : Bool) (s : State), Ready s c y.wait.toList 1 →
    let x := s.x c a.toNat
    let z := s.x c b.toNat
    let p : BitVec 32 := x.setWidth 32
    let q : BitVec 32 := z.setWidth 32
    let r (i : Instr) (f : Word) (g : BitVec 32) : Prop :=
      Ends i s c y.wait.toList y.sig.toList (s.setReg c d.toNat (if w then g.signExtend 64 else f))
    r (.add c y d a b w) (x + z) (p + q) ∧
    r (.sub c y d a b w) (x - z) (p - q) ∧
    r (.mul c y d a b w) (x * z) (p * q) ∧
    r (.mulh c y d a b w) (BitVec.ofInt 64 (x.toInt * z.toInt / 2 ^ 64)) (BitVec.ofInt 32 (p.toInt * q.toInt / 2 ^ 32)) ∧
    r (.mulhu c y d a b w) (BitVec.ofNat 64 (x.toNat * z.toNat / 2 ^ 64)) (BitVec.ofNat 32 (p.toNat * q.toNat / 2 ^ 32)) ∧
    r (.and c y d a b w) (x &&& z) (p &&& q) ∧
    r (.or c y d a b w) (x ||| z) (p ||| q) ∧
    r (.xor c y d a b w) (x ^^^ z) (p ^^^ q) ∧
    r (.andn c y d a b w) (x &&& ~~~z) (p &&& ~~~q) ∧
    r (.shl c y d a b w) (x <<< (z.toNat % 64)) (p <<< (q.toNat % 32)) ∧
    r (.shr c y d a b w) (x >>> (z.toNat % 64)) (p >>> (q.toNat % 32)) ∧
    r (.sra c y d a b w) (x.sshiftRight (z.toNat % 64)) (p.sshiftRight (q.toNat % 32)) ∧
    r (.slt c y d a b w) (if x.toInt < z.toInt then 1 else 0) (if p.toInt < q.toInt then 1 else 0) ∧
    r (.sltu c y d a b w) (if x.toNat < z.toNat then 1 else 0) (if p.toNat < q.toNat then 1 else 0) ∧
    r (.min c y d a b w) (if x.toInt < z.toInt then x else z) (if p.toInt < q.toInt then p else q) ∧
    r (.max c y d a b w) (if x.toInt < z.toInt then z else x) (if p.toInt < q.toInt then q else p) ∧
    r (.minu c y d a b w) (if x.toNat < z.toNat then x else z) (if p.toNat < q.toNat then p else q) ∧
    r (.maxu c y d a b w) (if x.toNat < z.toNat then z else x) (if p.toNat < q.toNat then q else p) ∧
    r (.clz c y d a w) (BitVec.ofNat 64 (if x = 0 then 64 else 63 - x.toNat.log2)) (BitVec.ofNat 32 (if p = 0 then 32 else 31 - p.toNat.log2)) ∧
    r (.popc c y d a w) (BitVec.ofNat 64 ((List.range 64).countP fun k => x.getLsbD k)) (BitVec.ofNat 32 ((List.range 32).countP fun k => p.getLsbD k)) ∧
    Ends (.sel c y d a b) s c y.wait.toList y.sig.toList (s.setReg c d.toNat (if s.x c d.toNat ≠ 0 then x else z))

/-- R64: quotients toward zero, remainders with the dividend's sign, and the borderline cases, at both widths. -/
def Obligations.DivisionCorners : Prop :=
  ∀ (c : Eng) (y : Sync) (d a b : BitVec 5) (w : Bool) (s : State), Ready s c y.wait.toList 1 →
    let x := s.x c a.toNat
    let z := s.x c b.toNat
    let p : BitVec 32 := x.setWidth 32
    let q : BitVec 32 := z.setWidth 32
    let r (i : Instr) (f : Word) (g : BitVec 32) : Prop :=
      Ends i s c y.wait.toList y.sig.toList (s.setReg c d.toNat (if w then g.signExtend 64 else f))
    let lo : Word := BitVec.intMin 64
    let lo32 : BitVec 32 := BitVec.intMin 32
    r (.div c y d a b w)
      (if z = 0 then BitVec.allOnes 64 else if x = lo ∧ z = BitVec.allOnes 64 then lo else BitVec.ofInt 64 (x.toInt.tdiv z.toInt))
      (if q = 0 then BitVec.allOnes 32 else if p = lo32 ∧ q = BitVec.allOnes 32 then lo32 else BitVec.ofInt 32 (p.toInt.tdiv q.toInt)) ∧
    r (.divu c y d a b w) (if z = 0 then BitVec.allOnes 64 else BitVec.ofNat 64 (x.toNat / z.toNat))
      (if q = 0 then BitVec.allOnes 32 else BitVec.ofNat 32 (p.toNat / q.toNat)) ∧
    r (.rem c y d a b w)
      (if z = 0 then x else if x = lo ∧ z = BitVec.allOnes 64 then 0 else BitVec.ofInt 64 (x.toInt.tmod z.toInt))
      (if q = 0 then p else if p = lo32 ∧ q = BitVec.allOnes 32 then 0 else BitVec.ofInt 32 (p.toInt.tmod q.toInt)) ∧
    r (.remu c y d a b w) (if z = 0 then x else BitVec.ofNat 64 (x.toNat % z.toNat)) (if q = 0 then p else BitVec.ofNat 32 (p.toNat % q.toNat))

/-- R65 and R15: the immediate forms, LI and LIH in every engine, and ADDPC in S. -/
def Obligations.ImmediateForms : Prop :=
  ∀ (c : Eng) (y : Sync) (d a : BitVec 5) (i : BitVec 6) (k : BitVec 17) (s : State),
    (Ready s c y.wait.toList 1 →
      let x := s.x c a.toNat
      let m : Word := i.signExtend 64
      let r (j : Instr) (f : Word) : Prop := Ends j s c y.wait.toList y.sig.toList (s.setReg c d.toNat f)
      r (.addi c y d a i) (x + m) ∧
      r (.andi c y d a i) (x &&& m) ∧
      r (.ori c y d a i) (x ||| m) ∧
      r (.xori c y d a i) (x ^^^ m) ∧
      r (.slti c y d a i) (if x.toInt < m.toInt then 1 else 0) ∧
      r (.sltiu c y d a i) (if x.toNat < m.toNat then 1 else 0) ∧
      r (.shli c y d a i) (x <<< i.toNat) ∧
      r (.shri c y d a i) (x >>> i.toNat) ∧
      r (.srai c y d a i) (x.sshiftRight i.toNat)) ∧
    (Ready s c [] 1 →
      Ends (.li c d k) s c [] [] (s.setReg c d.toNat (k.signExtend 64)) ∧
      Ends (.lih c d k) s c [] [] (s.setReg c d.toNat ((s.x c d.toNat <<< 17) ||| k.setWidth 64))) ∧
    (∀ off : BitVec 22, Ready s .S [] 1 → Ends (.addpc off) s .S [] [] (s.setReg .S 30 ((s.eng .S).pc + BitVec.ofInt 64 (4 * off.toInt))))

/-- R19, R21, R30: NOP, SYNC and SYNC.V1 pop and push what their fields name and do nothing else, but that SYNC.V1 counts in DEPCNT once it is older than the horizon
(R354, R355): PENDING_WRITE_COMMIT makes the count. A stalled word adds one to its counter, whose wrap at 2^48 is the model's choice (log entry 94). -/
def Obligations.SyncWords : Prop :=
  ∀ (c : Eng) (s : State),
    (∀ y : Sync, Ready s c y.wait.toList 0 → Ends (.nop c y) s c y.wait.toList y.sig.toList s) ∧
    (∀ w g : BitVec 5,
      let named (m : BitVec 5) := Eng.all.filter fun e => m.getLsbD (e.code - 1)
      (Ready s c (named w) 0 → Ends (.sync c w g) s c (named w) (named g) s) ∧
      (s.gate c = .go → (∃ e ∈ named w, Tab.get 0 s.core.tok (pairIdx e.code c.code) = 0) →
        Stalls (.sync c w g) s c scTokw ∨ Stalls (.sync c w g) s c scQslot)) ∧
    (∀ w g : Option Eng, Ready s c w.toList 0 → Ends (.syncV1 c w g) s c w.toList g.toList s ∧
      ∃ t, exec (.syncV1 c w g) s = .next t ∧ (t.eng c).past = (s.eng c).past ++ [⟨s.pos c, 0, (s.eng c).view, true⟩]) ∧
    (∀ u l k x, (s.eng c).past = u :: l → u.dep = true → s.older c u.pos = true → s.core.crew = some k → s.ctx? k.ctx = some x →
      let n := if x.depcnt = BitVec.allOnes 64 then x.depcnt else x.depcnt + 1
      let t := s.putCtx k.ctx { x with depcnt := n }
      let f := s.func k.fn
      ∃ z, exec (.pendingWriteCommit c) s = .next z ∧ (z.eng c).past = l ∧
        z.arch = (if f.depthr ≠ 0 ∧ n = f.depthr ∧ x.depcnt ≠ n then (t.setFunc k.fn { f with pend := true, depctx := k.ctx }).interrupt k.fn 3 else t).arch)

/-- R66: a loop word begins a level, or skips its body when its count is zero; whether the end test follows a skipped body is the model's reading (log entry 14). R66's
end test: at the end word of the innermost levels on their last pass those levels end, and the next level out repeats, or control falls through. -/
def Obligations.Loops : Prop :=
  (∀ (c : Eng) (y : Sync) (s : State), Ready s c y.wait.toList 0 →
      let g := s.eng c
      let d := s.core.calldepth
      let r (i : Instr) (count len : Nat) : Prop :=
        let last := g.pc + BitVec.ofNat 64 (4 * len)
        (count = 0 → Ends i s c y.wait.toList y.sig.toList s ∧ Goes i s c s (endTest d last g.loops).1 (endTest d last g.loops).2) ∧
        (count ≠ 0 → s.olderActivation (s.pos c) g.loops.length = false → Ends i s c y.wait.toList y.sig.toList s ∧
          Goes i s c s (g.pc + 4) (⟨g.pc + 4, last, count, 0, d, (s.pos c).index, count⟩ :: g.loops))
      (∀ (x : BitVec 5) (len : BitVec 11), r (.loop c y x len) ((s.x c x.toNat).toNat % 2 ^ 32) len.toNat) ∧
      (∀ (n : BitVec 9) (len : BitVec 7), r (.loopi c y n len) n.toNat len.toNat)) ∧
  (∀ (c : Eng) (y : Sync) (s : State) (dead live : List Level), Ready s c y.wait.toList 0 →
      let g := s.eng c
      let ends (l : Level) : Prop := l.stop = g.pc ∧ l.depth = s.core.calldepth
      g.loops = dead ++ live → (∀ l ∈ dead, ends l ∧ l.remaining ≤ 1) →
      (live = [] → Goes (.nop c y) s c s (g.pc + 4) []) ∧
      (∀ l ls, live = l :: ls →
        (¬ends l → Goes (.nop c y) s c s (g.pc + 4) live) ∧
        (ends l → 1 < l.remaining → Goes (.nop c y) s c s l.start ({ l with remaining := l.remaining - 1, index := l.index + 1 } :: ls))))

/-- R72, R70 and R15: the conditional branches, J and BRF. R67: a jump ends the outermost level of its own depth that does not hold its target and every level inside it,
and no other. -/
def Obligations.Branches : Prop :=
  (∀ (y : Sync) (s : State),
      let goes (i : Instr) (c : Eng) (x : State) (off : Int) (taken : Prop) : Prop :=
        let g := s.eng c
        let t := g.pc + BitVec.ofInt 64 (4 * off)
        let d := s.core.calldepth
        (taken → Executable s c t → Ends i s c y.wait.toList y.sig.toList x ∧ Goes i s c x t (branchLoops d t g.loops)) ∧
        (¬taken → Ends i s c y.wait.toList y.sig.toList x ∧ Goes i s c x (endTest d g.pc g.loops).1 (endTest d g.pc g.loops).2)
      (∀ (r : BitVec 5) (off : BitVec 11), Ready s .S y.wait.toList 0 →
        let x := (s.x .S r.toNat).toInt
        goes (.beqz y r off) .S s off.toInt (x = 0) ∧
        goes (.bnez y r off) .S s off.toInt (x ≠ 0) ∧
        goes (.bltz y r off) .S s off.toInt (x < 0) ∧
        goes (.bgez y r off) .S s off.toInt (0 ≤ x) ∧
        goes (.bgtz y r off) .S s off.toInt (0 < x) ∧
        goes (.blez y r off) .S s off.toInt (x ≤ 0)) ∧
      (∀ off : BitVec 22, Ready s .S [] 0 → y = Sync.none → goes (.j off) .S s off.toInt True) ∧
      (∀ (c : Eng) (d : BitVec 5) (off : BitVec 11) (v : Word) (l : List Word), Ready s c y.wait.toList 1 → Tab.get [] s.core.follow c.code = v :: l →
        goes (.brf c y d off) c ((s.mapCore fun k => { k with follow := Tab.set [] k.follow c.code l }).setReg c d.toNat v) off.toInt (v ≠ 0))) ∧
  (∀ (off : BitVec 22) (s : State), Ready s .S [] 0 →
      let g := s.eng .S
      let t := g.pc + BitVec.ofInt 64 (4 * off.toInt)
      let holds (l : Level) : Prop := l.depth ≠ s.core.calldepth ∨ (l.start.toNat ≤ t.toNat ∧ t.toNat ≤ l.stop.toNat)
      Executable s .S t →
      ((∀ l ∈ g.loops, holds l) → Goes (.j off) s .S s t g.loops) ∧
      (∀ a l b, g.loops = a ++ l :: b → ¬holds l → (∀ m ∈ b, holds m) → Goes (.j off) s .S s t b))

/-- R73 and R15: CALL, CALLR, CALLX and RET where they may issue (R358): the link register, the depth, the next pc. R74: a return to a target that is not aligned, not
translated or not executable faults; the faults are those of every transfer. -/
def Obligations.CallsAndReturn : Prop :=
  (∀ (y : Sync) (s : State),
      let p := s.pos .S
      let g := s.eng .S
      let calls (i : Instr) (ws gs : List Eng) (t : Word) (x : State) : Prop :=
        Executable s .S t → (s.resolve .S).older .S p = true →
        (s.core.calldepth = 0 → s.core.drained = true ∧ Eng.all.all (fun b => b == .S || s.reached b p) = true) →
        let z := (x.setReg .S 31 (g.pc + 4)).mapCore fun c => { c with
          calldepth := if s.core.calldepth < 2 ^ 32 - 1 then s.core.calldepth + 1 else s.core.calldepth, parked := true }
        Ends i s .S ws gs z ∧ Goes i s .S z t g.loops
      (∀ off : BitVec 22, Ready s .S [] 1 → calls (.call off) [] [] (g.pc + BitVec.ofInt 64 (4 * off.toInt)) s) ∧
      (∀ r : BitVec 5, Ready s .S y.wait.toList 1 → calls (.callr y r) y.wait.toList y.sig.toList (s.x .S r.toNat) s) ∧
      (∀ (r : BitVec 5) (idx : BitVec 11), Ready s .S y.wait.toList 2 →
        let a := s.x .S r.toNat + BitVec.ofNat 64 (8 * idx.toNat)
        ∀ pl, Checked s .S (checkMem s g.got .read a 8) pl → s.core.olderStore p 0 = false →
        calls (.callx y r idx) y.wait.toList y.sig.toList (BitVec.ofNat 64 (s.locsNat pl.mem)) (s.setReg .S 29 a)) ∧
      (Ready s .S y.wait.toList 0 → (s.resolve .S).older .S p = true → Executable s .S (s.x .S 31) →
        let z := s.mapCore fun c => { c with calldepth := s.core.calldepth - 1 }
        Ends (.ret y) s .S y.wait.toList y.sig.toList z ∧ Goes (.ret y) s .S z (s.x .S 31) g.loops)) ∧
  (∀ (y : Sync) (s : State) c, s.core.crew = some c → Ready s .S y.wait.toList 0 → (s.eng .S).resolved ≠ some (s.pos .S) →
      let t := s.x .S 31
      (t.toNat % 4 ≠ 0 → Faults (.ret y) s .S 0x02 1 0 t false) ∧
      (t.toNat % 4 = 0 → bits t.toNat 63 55 ≠ 0 → bits t.toNat 63 55 ≠ 0x1FF → Faults (.ret y) s .S 0x02 2 0 t false) ∧
      (t.toNat % 4 = 0 → (bits t.toNat 63 55 = 0 ∨ bits t.toNat 63 55 = 0x1FF) →
        (∀ a b, lookup s (s.eng .S).got c.fn c.ctx (va56 t) = some (.fault a b) → Faults (.ret y) s .S 0x02 2 0 t false) ∧
        (∀ x, lookup s (s.eng .S).got c.fn c.ctx (va56 t) = some (.hit x) → x.x = false → Faults (.ret y) s .S 0x02 3 0 t false)))

/-- R69, R70: SEND appends to the target's FIFO once its pushes are made in slice order; FOLLOW takes the oldest value; a full or an empty FIFO stalls. A stall's counter wraps as log
entry 94 chooses. -/
def Obligations.FollowPath : Prop :=
  ∀ (y : Sync) (s : State),
    (∀ (r : BitVec 5) (t : Eng), Ready s .S y.wait.toList 0 →
      (32 ≤ s.followLoad t → Stalls (.send y r t) s .S scTokf) ∧
      (s.followLoad t < 32 → (s.eng .S).flights = [] → (s.core.pop .S (s.pos .S) y.wait.toList).overflow? .S y.sig.toList = none →
        ∃ u, exec (.send y r t) s = .next u ∧ u.arch = s.arch ∧ u.core.freeze = s.core.freeze.map (fun f => { f with stuck := 0 }) ∧
          u.core.tok = ((s.core.pop .S (s.pos .S) y.wait.toList).push .S y.sig.toList).tok ∧
          u.core.follow = Tab.set [] s.core.follow t.code (Tab.get [] s.core.follow t.code ++ [s.x .S r.toNat]))) ∧
    (∀ (c : Eng) (d : BitVec 5), Ready s c y.wait.toList 1 →
      (Tab.get [] s.core.follow c.code = [] → Stalls (.follow c y d) s c scFolw) ∧
      (∀ v l, Tab.get [] s.core.follow c.code = v :: l →
        Ends (.follow c y d) s c y.wait.toList y.sig.toList ((s.mapCore fun k => { k with follow := Tab.set [] k.follow c.code l }).setReg c d.toNat v)))

/-- R71, R22: what CRR of each control register reads, in the word's own engine; DEPCNT is read older than the horizon, once every older word that it counts has counted (R354). R71, R20, R43, R53, R60, R184, R326: what
CRW leaves; a field value that is not allowed stores the reset value and sets INV. -/
def Obligations.ControlRegisters : Prop :=
  (∀ (c : Eng) (y : Sync) (d : BitVec 5) (s : State), Ready s c y.wait.toList 1 →
      let v := (s.eng c).view
      let r (k : CtlReg) (w : Word) : Prop := Ends (.crr c y d k) s c y.wait.toList y.sig.toList (s.setReg c d.toNat w)
      r .flags (v.flags.setWidth 64) ∧ r .rmode (v.rmode.setWidth 64) ∧ r .seed (v.seed.setWidth 64) ∧ r .tol (v.tol.setWidth 64) ∧
      r .fmtlvl (v.fmtlvl.setWidth 64) ∧ r .ovfpol (v.ovfpol.setWidth 64) ∧ r .fmtbase (v.fmtbase.setWidth 64) ∧
      r .fmtstride (v.fmtstride.setWidth 64) ∧ r .prelvl (v.prelvl.setWidth 64) ∧
      (∀ k, s.core.crew = some k → r .crew (BitVec.ofNat 64 k.num) ∧ r .ncrew (BitVec.ofNat 64 k.ncrew)) ∧
      r .quadpos (BitVec.ofNat 64 (s.core.id / 4 % 24)) ∧ r .diepos (BitVec.ofNat 64 (s.core.id / 96)) ∧ r .pkgpos (BitVec.ofNat 64 Config.pkgpos) ∧
      r .time s.core.time ∧ (∀ i : Fin 14, r (.sc i) (BitVec.ofNat 64 (Tab.get 0 (s.eng c).sc i.val))) ∧
      (∀ k, s.core.crew = some k → ∀ x, s.ctx? k.ctx = some x → s.older c (s.pos c) = true → (∀ b, b ≠ c → s.counts b = true → s.reached b (s.pos c) = true) →
        (∀ b : Eng, ∀ w ∈ (s.eng b).past, w.dep = true → w.pos.lt (s.pos c) = false) → r .depcnt x.depcnt)) ∧
  (∀ (c : Eng) (y : Sync) (a : BitVec 5) (s : State), Ready s c y.wait.toList 2 →
      let x := s.x c a.toNat
      let n := x.toNat
      let r (k : CtlReg) (f : View → View) : Prop := Ends (.crw c y a k) s c y.wait.toList y.sig.toList (s.setView c f)
      r .flags (fun v => { v with flags := x.setWidth 6 }) ∧
      r .rmode (fun v => if n % 8 ≤ 4 then { v with rmode := x.setWidth 3 } else { v with rmode := 0, flags := v.flags ||| 1 }) ∧
      r .seed (fun v => { v with seed := if x.setWidth 32 = 0#32 then 1 else x.setWidth 32 }) ∧
      r .tol (fun v => { v with tol := x.setWidth 32 }) ∧
      r .fmtlvl (fun v => if n % 8 ≤ 4 then { v with fmtlvl := x.setWidth 3 } else { v with fmtlvl := 4, flags := v.flags ||| 1 }) ∧
      r .ovfpol (fun v => if n % 4 ≤ 2 then { v with ovfpol := x.setWidth 2 } else { v with ovfpol := 1, flags := v.flags ||| 1 }) ∧
      r .fmtbase (fun v => { v with fmtbase := x.setWidth 6 }) ∧
      r .fmtstride (fun v => { v with fmtstride := x.setWidth 6 }) ∧
      r .prelvl (fun v => if n % 8 ≤ 4 then { v with prelvl := x.setWidth 3 } else { v with prelvl := 0, flags := v.flags ||| 1 }))

/-! ## Scalar memory (R75 to R83, R258) -/

/-- R77, R78, R83: a load through a pointer whose bytes pass their checks reads them, little-endian and zero-extended; nothing in memory changes. LDA reads the same way.
R83, R75: what LD's first byte is checked for, in the rule's order: illegal window, alignment, foreign scratchpad, private segment, scratchpad range. -/
def Obligations.Loads : Prop :=
  (∀ (y : Sync) (d a : BitVec 5) (sz : Size) (sc : Scope) (o : BitVec 4) (s : State), Ready s .S y.wait.toList 1 → s.core.olderStore (s.pos .S) o.toNat = false →
      let z (ls : List Loc) := s.setReg .S d.toNat (BitVec.ofNat 64 (ofBytes (ls.map s.byteAt)))
      (∀ pl, Checked s .S (checkMem s (s.eng .S).got .read (s.x .S a.toNat) sz.bytes) pl → Ends (.ld y d a sz o) s .S y.wait.toList y.sig.toList (z pl.mem)) ∧
      (∀ pl, Checked s .S (checkMem s (s.eng .S).got .read (s.x .S a.toNat) 8) pl → Ends (.lda y d a sc o) s .S y.wait.toList y.sig.toList (z pl.mem))) ∧
  (∀ (y : Sync) (d a : BitVec 5) (sz : Size) (o : BitVec 4) (s : State), ∀ c, s.core.crew = some c → Ready s .S y.wait.toList 1 → (s.eng .S).kept = none →
      let p := s.x .S a.toNat
      let bad (cause detail : Nat) (f : Word) : Prop := Faults (.ld y d a sz o) s .S cause detail 0 f false
      let spad (off : Nat) : Word := BitVec.ofNat 64 (bits p.toNat 63 56 * 2 ^ 56 + bits p.toNat 25 24 * 2 ^ 24 + off)
      (window p = .illegal → bad 0x03 0 p) ∧
      (∀ k off, window p = .own k off →
        (p.toNat % sz.bytes ≠ 0 → bad 0x04 0 (spad off)) ∧
        (p.toNat % sz.bytes = 0 → k ≠ s.core.id % 4 → bad 0x06 0 (spad off)) ∧
        (p.toNat % sz.bytes = 0 → k = s.core.id % 4 → 0x180000 ≤ off → bad 0x05 0 (spad off))) ∧
      (∀ va, window p = .global va → p.toNat % sz.bytes ≠ 0 → bad 0x04 0 (BitVec.ofNat 64 va)) ∧
      (∀ va, window p = .global va → p.toNat % sz.bytes = 0 →
        (∀ pg st, lookup s (s.eng .S).got c.fn c.ctx va = some (.fault pg st) → bad 0x07 st (BitVec.ofNat 64 va)) ∧
        (∀ x, lookup s (s.eng .S).got c.fn c.ctx va = some (.hit x) → x.r = false → bad 0x08 1 (BitVec.ofNat 64 va))) ∧
      (∀ off, window p = .priv off → p.toNat % sz.bytes = 0 → c.segSize ≤ off → bad 0x07 1 p))

/-- R77, R78, R83, R103: a store enters the store buffer with its bytes, already past the horizon; a release waits for every older access and for the crew's own
transfers. Memory itself changes when the store performs. R82: a fence whose masked classes have nothing older left to perform completes and changes nothing; else it
stalls (its counter wraps as log entry 94 chooses). Register field 0 takes all sixteen classes, with which the movement of BCOPY and the elements of SENDT go. -/
def Obligations.Stores : Prop :=
  (∀ (y : Sync) (r a : BitVec 5) (sz : Size) (sc : Scope) (o : BitVec 4) (s : State), Ready s .S y.wait.toList 0 → (s.resolve .S).older .S (s.pos .S) = true →
      let z (n : Nat) (ls : List Loc) := s.mapCore fun c => { c with
        stores := c.stores ++ [⟨s.pos .S, .S, o.toNat, true, [.bytes (ls.zip (toBytes n (s.x .S r.toNat).toNat))]⟩] }
      (∀ pl, Checked s .S (checkMem s (s.eng .S).got .write (s.x .S a.toNat) sz.bytes) pl → pl.mem.any s.moving = false →
        Ends (.st y r a sz o) s .S y.wait.toList y.sig.toList (z sz.bytes pl.mem)) ∧
      (∀ pl, Checked s .S (checkMem s (s.eng .S).got .write (s.x .S a.toNat) 8) pl → pl.mem.any s.moving = false → s.core.olderAny (s.pos .S) = false →
        s.crewSends (s.pos .S) = false → Ends (.stl y r a sc o) s .S y.wait.toList y.sig.toList (z 8 pl.mem))) ∧
  (∀ (y : Sync) (r : BitVec 5) (sc : Scope) (s : State), Ready s .S y.wait.toList 0 →
      let mask : BitVec 16 := if r = 0 then BitVec.allOnes 16 else (s.x .S r.toNat).setWidth 16
      let open_ : Prop := (∃ e ∈ s.core.stores, e.pos.lt (s.pos .S) = true ∧ mask.getLsbD e.cls = true) ∨ 
        (mask = BitVec.allOnes 16 ∧ (s.core.copies ≠ [] ∨ s.crewSends (s.pos .S) = true))
      (open_ → Stalls (.fence y r sc) s .S scMem) ∧ (¬open_ → Ends (.fence y r sc) s .S y.wait.toList y.sig.toList s))

/-- R79 to R81: AMO and CAS read and write in one step; xd takes the old value zero-extended, and no byte but theirs changes. -/
def Obligations.Atomics : Prop :=
  ∀ (y : Sync) (d a b : BitVec 5) (w : Bool) (s : State) (pl : Places), Checked s .S (checkMem s (s.eng .S).got .both (s.x .S a.toNat) (if w then 8 else 4)) pl →
    pl.mem.length = (if w then 8 else 4) →
    Ready s .S y.wait.toList 1 → (s.resolve .S).older .S (s.pos .S) = true →
    s.core.olderStore (s.pos .S) 0 = false → pl.mem.any s.moving = false →
    let ls := pl.mem
    let old := ofBytes (ls.map s.byteAt)
    let o : Word := BitVec.ofNat 64 old
    let x := s.x .S d.toNat
    let o4 : BitVec 32 := BitVec.ofNat 32 old
    let x4 : BitVec 32 := x.setWidth 32
    let r (i : Instr) (new : Nat) : Prop :=
      Ends i s .S y.wait.toList y.sig.toList ((s.setBytes (ls.zip (toBytes (if w then 8 else 4) new))).setReg .S d.toNat o)
    let v (f : Word) (g : BitVec 32) : Nat := if w then f.toNat else g.toNat
    r (.amo y d a .add w) (v (o + x) (o4 + x4)) ∧
    r (.amo y d a .and w) (v (o &&& x) (o4 &&& x4)) ∧
    r (.amo y d a .or w) (v (o ||| x) (o4 ||| x4)) ∧
    r (.amo y d a .xor w) (v (o ^^^ x) (o4 ^^^ x4)) ∧
    r (.amo y d a .min w) (v (if o.toInt < x.toInt then o else x) (if o4.toInt < x4.toInt then o4 else x4)) ∧
    r (.amo y d a .max w) (v (if o.toInt < x.toInt then x else o) (if o4.toInt < x4.toInt then x4 else o4)) ∧
    r (.amo y d a .minu w) (v (if o.toNat < x.toNat then o else x) (if o4.toNat < x4.toNat then o4 else x4)) ∧
    r (.amo y d a .maxu w) (v (if o.toNat < x.toNat then x else o) (if o4.toNat < x4.toNat then x4 else o4)) ∧
    r (.amo y d a .swap w) (v x x4) ∧
    r (.cas y d a b w) (if (if w then o = x else o4 = x4) then (s.x .S b.toNat).toNat else old)

/-- R75: the window of a pointer by its bits 63:56, and R76: SPTEST writes its code and SPCAST the converted pointer; neither faults. -/
def Obligations.Pointers : Prop :=
  ∀ (y : Sync) (d a : BitVec 5) (w : BitVec 2) (s : State), ∀ c, s.core.crew = some c → Ready s .S y.wait.toList 1 →
    let p := s.x .S a.toNat
    let t := p.toNat / 2 ^ 56
    let off := p.toNat % 2 ^ 56
    let spad : Prop := off / 2 ^ 26 = 0 ∧ off / 2 ^ 21 % 8 = 0
    let r (n : Nat) : Prop := Ends (.sptest y d a) s .S y.wait.toList y.sig.toList (s.setReg .S d.toNat (BitVec.ofNat 64 n))
    let q (v : Word) : Prop := Ends (.spcast y d a w) s .S y.wait.toList y.sig.toList (s.setReg .S d.toNat v)
    let isGlobal : Prop := (t = 0 ∧ off < 2 ^ 55) ∨ (t = 0xFF ∧ 2 ^ 55 ≤ off)
    (isGlobal → r 0 ∧
      (w = 0 → q p) ∧ (w = 1 ∨ w = 2 → q 0) ∧
      (w = 3 → q (if c.segBase ≤ off ∧ off < c.segBase + c.segSize then BitVec.ofNat 64 (0xF2 * 2 ^ 56 + (off - c.segBase)) else 0))) ∧
    (t = 0xF0 → spad → r 1 ∧ (w = 1 → q p) ∧ (w = 2 → q (BitVec.ofNat 64 (0xF1 * 2 ^ 56 + off))) ∧ (w = 0 ∨ w = 3 → q 0)) ∧
    (t = 0xF1 → spad → r 2 ∧ (w = 2 → q p) ∧ (w = 1 → q (BitVec.ofNat 64 (0xF0 * 2 ^ 56 + off))) ∧ (w = 0 ∨ w = 3 → q 0)) ∧
    (t = 0xF2 → r 3 ∧ (w = 3 → q p) ∧ (w = 1 ∨ w = 2 → q 0) ∧ (w = 0 → q (if off < c.segSize then BitVec.ofNat 64 (c.segBase + off) else 0))) ∧
    (¬isGlobal → t ≠ 0xF2 → ¬((t = 0xF0 ∨ t = 0xF1) ∧ spad) → r 4 ∧ q 0)

/-! ## Barrier objects, armed operations, tables and queues (R84 to R93) -/

/-- R86, R88, R84: BINIT, BWAIT and BTRY on the core's own objects; the object's fields are those of R84. A crew that sees DONE's phase flip knows its collective done (R384). R89: ARM takes the descriptor's bytes into its slot, replacing
what it held; a descriptor that may not be armed empties the slot and sets INV. DISARM empties a slot. That ARM does not judge the SCOPE byte and the reserved bits of HANDLE and
TRANSFER is the model's choice (log entry 96), and so is the wrap of a stall's counter (log entry 94). -/
def Obligations.BarrierObjects : Prop :=
  (∀ (y : Sync) (id : BitVec 11) (s : State),
      let o := Tab.get 0 s.core.barriers id.toNat
      (∀ (r : BitVec 5) (o' : Word), Ready s .S y.wait.toList 0 → s.older .S (s.pos .S) = true →
        let x := (s.x .S r.toNat).toNat
        o'.getLsbD 63 = o.getLsbD 63 → bits o'.toNat 62 56 = 0 → bits o'.toNat 55 28 = (if x / 2 ^ 28 = 0 then x else 0x0FFFFFFF) → bits o'.toNat 27 0 = 0 →
        Ends (.binit y r id) s .S y.wait.toList y.sig.toList (s.mapCore fun c => { c with barriers := Tab.set 0 c.barriers id.toNat o' })) ∧
      (∀ ph : Bool, Ready s .S y.wait.toList 0 →
        (o.getLsbD 63 = ph → Ends (.bwait y ph id) s .S y.wait.toList y.sig.toList (s.observe id.toNat)) ∧ (o.getLsbD 63 ≠ ph → Stalls (.bwait y ph id) s .S scBar)) ∧
      (∀ (d : BitVec 4) (ph : Bool), Ready s .S y.wait.toList 1 →
        Ends (.btry y d ph id) s .S y.wait.toList y.sig.toList
          ((s.observe id.toNat).setReg .S d.toNat (BitVec.ofNat 64 ((if o.getLsbD 63 = ph then 1 else 0) + 16 * bits o.toNat 59 56))))) ∧
  (∀ (y : Sync) (slot : BitVec 6) (s : State), s.older .S (s.pos .S) = true →
      let rest := s.core.armed.filter fun e => e.1 != slot.toNat
      (∀ r a : BitVec 5, Ready s .S y.wait.toList 1 →
        let off := (s.x .S r.toNat).toNat / 64 * 64
        let x := (s.x .S a.toNat).toNat
        let b (k : Nat) : Byte := Tab.get 0 s.core.scratch (off + k)
        let ok : Prop := off < 0x180000 ∧ (b 0 = 1 ∨ b 0 = 2) ∧ (b 1).toNat < 2 ∧ b 3 = 0 ∧ b 4 = 0 ∧ b 5 = 0 ∧ b 6 = 0 ∧ b 7 = 0
        s.bankHeld .S (s.here ((List.range 64).map (off + ·))) = [] →
        (ok → ∃ l, (∀ k v, (k, v) ∈ l ↔ (k, v) ∈ rest ∨ k = slot.toNat ∧ v = ⟨x % 2048, x.testBit 11, (List.range 64).map b⟩) ∧
          Ends (.arm y r a slot) s .S y.wait.toList y.sig.toList (s.mapCore fun c => { c with armed := l })) ∧
        (¬ok → Ends (.arm y r a slot) s .S y.wait.toList y.sig.toList
          ((s.mapCore fun c => { c with armed := rest }).setView .S fun v => { v with flags := v.flags ||| 1 }))) ∧
      (Ready s .S y.wait.toList 0 → Ends (.disarm y slot) s .S y.wait.toList y.sig.toList (s.mapCore fun c => { c with armed := rest })))

/-- R91, R57, R58: FMTW stores each field it accepts, the field's default in place of one it does not, and sets INV then; bits 31:29 and 9:0 store as zeros. R92: PWLW
copies 32 bytes of the own scratchpad, or zeros from beyond it, into its segment's record. R93: QBIND binds the pair at slot 0, unbinds it with slot size 0, and refuses a
reserved bit, a region past the scratchpad's end, or one that overlaps another binding. -/
def Obligations.TablesAndQueues : Prop :=
  (∀ (y : Sync) (r : BitVec 5) (n : BitVec 6) (s : State), Ready s .S y.wait.toList 1 → s.older .S (s.pos .S) = true →
      let v := (s.x .S r.toNat).toNat
      let a := bits v 28 24
      let b := bits v 23 19
      let d := bits v 18 14
      let m := bits v 13 11
      let ab := pairOk a b
      let dOk := dfmtOk d
      let mOk : Bool := m != 5 && m != 6
      let entry : BitVec 32 := BitVec.ofNat 32
        ((if ab then a else 2) * 2 ^ 24 + (if ab then b else 2) * 2 ^ 19 + (if dOk then d else 0) * 2 ^ 14 + (if mOk then m else 0) * 2 ^ 11 + bits v 10 10 * 2 ^ 10)
      let z := s.mapCore fun c => { c with fmt := Tab.set fmtDefault c.fmt n.toNat entry }
      Ends (.fmtw y r n) s .S y.wait.toList y.sig.toList
        (if ab && dOk && mOk then z else z.setView .S fun v => { v with flags := v.flags ||| 1 })) ∧
  (∀ (y : Sync) (r : BitVec 5) (n : BitVec 6) (s : State), Ready s .S y.wait.toList 0 → s.older .S (s.pos .S) = true →
      let off := bits (s.x .S r.toNat).toNat 20 5 * 32
      let b (k : Nat) : Byte := if 0x180000 ≤ off then 0 else Tab.get 0 s.core.scratch (off + k)
      s.bankHeld .S (s.here ((List.range 32).map (off + ·))) = [] → Ends (.pwlw y r n) s .S y.wait.toList y.sig.toList
        (s.mapCore fun c => { c with pwl := Tab.setAll 0 c.pwl ((List.range 32).map fun k => (32 * n.toNat + k, b k)) })) ∧
  (∀ (y : Sync) (r : BitVec 5) (p q : Eng) (s : State), Ready s .S y.wait.toList 1 →
      let v := (s.x .S r.toNat).toNat
      let slot := bits v 35 24 * 64
      let depth := bits v 41 36 + 1
      let base := bits v 20 6 * 64
      let k := pairIdx p.code q.code
      let rest := s.core.queues.filter fun x => x.1 != k
      let refused : Prop := bits v 63 42 ≠ 0 ∨ bits v 23 21 ≠ 0 ∨ bits v 5 0 ≠ 0 ∨ 0x180000 < base + depth * slot ∨
        (slot ≠ 0 ∧ ∃ x ∈ rest, base < x.2.base + x.2.slot * x.2.depth ∧ x.2.base < base + slot * depth)
      (refused → Ends (.qbind y r p q) s .S y.wait.toList y.sig.toList (s.setView .S fun v => { v with flags := v.flags ||| 1 })) ∧
      (¬refused → slot = 0 → Ends (.qbind y r p q) s .S y.wait.toList y.sig.toList (s.mapCore fun c => { c with queues := rest })) ∧
      (¬refused → slot ≠ 0 → ∃ l, (∀ i z, (i, z) ∈ l ↔ (i, z) ∈ rest ∨ i = k ∧ z = ⟨base, slot, depth, 0, 0⟩) ∧
        Ends (.qbind y r p q) s .S y.wait.toList y.sig.toList (s.mapCore fun c => { c with queues := l })))

/-! ## Leaving the kernel and illegal words (R29, R94, R95) -/

/-- R94, R95, R29, R273, R284: SVC and BKPT stop the crew after themselves with their code, an illegal word among an engine's decoded words before itself with the detail its
decoding names. -/
def Obligations.Traps : Prop :=
  ∀ (y : Sync) (code : BitVec 11) (s : State),
    (Ready s .S y.wait.toList 0 →
      Faults (.svc y code) s .S 0x10 0 (code.setWidth 64) 0 true ∧ Faults (.bkpt y code) s .S 0x11 0 (code.setWidth 64) 0 true) ∧
    (∀ (e : Eng) (x : IllegalAt), s.illegal? e = some x → s.core.freeze = none → ∃ f, exec (.illegalInstruction e x.word x.code) s =
      .next { s with core := { s.core with freeze := some f } } ∧ f.pos = x.pos ∧ f.levels = x.ls ∧ f.eng = e.code ∧ f.cause = 0x01 ∧ f.detail = x.code ∧
        f.aux = x.word.setWidth 64 ∧ f.faddr = 0 ∧ f.after = false) ∧
    (∀ (e : Eng) (pc : Word) (w : IWord) (d : Nat), pc = (s.eng e).pc → s.gate e = .go → s.core.freeze = none → s.wordAt e pc = some w →
      s.decodeAt e pc (s.eng e).loops w = .illegal d → s.illegal? e = some ⟨s.pos e, (s.eng e).loops, w, d⟩)

/-! ## The load and write engines (R99 to R120) -/

/-- R104: LDR reads one register's worth through a pointer, zero- or sign-extended. R106, R111, R103: LDT, LDT3 and LDG fix the bytes read and send them to the
scratchpad; a transfer of no bytes completes at once. R108, R103: LDX expands each row of 2:4-structured data; a group whose first index is not below its second gives
zeros, and INV is set; a load whose source lies in its own scratchpad reads what its earlier transfers have left there. R112: PREF changes no logical state and never faults: at the
levels of the TLBs it asks the die for a walk of each page of its shape that is not translated yet and that may be read (R336); at the memory-side cache's it does nothing that a program
can see (log entry 40). -/
def Obligations.TileLoads : Prop :=
  (∀ (y : Sync) (d a : BitVec 4) (sx : Bool) (sz : Size) (o : BitVec 4) (s : State) (pl : Places), Checked s .L (checkMem s (s.eng .L).got .read (s.x .L a.toNat) sz.bytes) pl →
      pl.mem.length = sz.bytes → Ready s .L y.wait.toList 1 → s.core.ldz = none → pl.mem.any s.unfilledLoc = false →
      s.core.olderStore (s.pos .L) o.toNat = false →
      let v := ofBytes (pl.mem.map s.byteAt)
      let n := 8 * sz.bytes
      Ends (.ldr y d a sx sz o) s .L y.wait.toList y.sig.toList
        (s.setReg .L d.toNat (if sx = true ∧ 2 ^ (n - 1) ≤ v then BitVec.ofInt 64 ((v : Int) - 2 ^ n) else BitVec.ofNat 64 v))) ∧
  (∀ (y : Sync) (m : BitVec 4) (p : BitVec 3) (q : Bool) (o z : BitVec 4) (sz : Size) (s : State), Ready s .L y.wait.toList 0 →
      let x0 := s.x .L (2 * p.toNat)
      let x1 := s.x .L (2 * p.toNat + 1)
      let ptr := s.x .L m.toNat
      let moves (i : Instr) (l : List Touched) (own : Places → List (Nat × Byte)) : Prop :=
        ∀ k, Checked s .L (runPlan s (s.eng .L).got .L y q (fun _ => 0) .read ptr (.bytes l)) k →
          (k.mem = [] → Ends i s .L y.wait.toList y.sig.toList s) ∧
          (k.mem ≠ [] → s.core.ldz = none → k.list.any s.unfilled = false → k.mem.any s.unfilledLoc = false → s.core.olderStore (s.pos .L) o.toNat = false →
            Flies i s .L y.wait.toList (s.mapCore fun c => { c with
              loads := c.loads ++ [⟨s.pos .L, q, if k.mem.any s.isOwn then own k else k.spad.zip (k.mem.map s.byteAt)⟩] }))
      moves (.ldt y m p q o) (tileBytes x0 x1 0 ptr false false) (fun k => loadBytes s k.mem.length 1 k) ∧
      moves (.ldt3 y m p q o z) (tileBytes x0 x1 (s.x .L z.toNat) ptr true false) (fun k => loadBytes s k.mem.length 1 k) ∧
      ((s.core.loads.any fun l => l.writes.any fun w => bits x1.toNat 20 0 ≤ w.1 && w.1 < bits x1.toNat 20 0 + 4 * bits x1.toNat 47 32) = false →
        moves (.ldg y m p q o sz) (indexedBytes s x0 x1 ptr sz.bytes) (fun k => loadBytes s (bits x1.toNat 47 32) sz.bytes k))) ∧
  (∀ (y : Sync) (m : BitVec 4) (p : BitVec 3) (q : Bool) (o : BitVec 4) (sz : Size) (s : State), Ready s .L y.wait.toList 1 →
      let x1 := s.x .L (2 * p.toNat + 1)
      let h := s.shape .L p none
      let es := sz.bytes
      let ptr := s.x .L m.toNat
      let i := Instr.ldx y m p q o sz
      let mem := h.rbytes / 2 + h.rbytes / es / 8
      let l : List Touched := h.lines.flatMap fun r =>
        ((List.range mem).map fun b => Touched.mem (ptr + BitVec.ofInt 64 (r.1 + (b : Nat))) false) ++ (List.range h.rbytes).map fun b => .spad ((r.2 + b : Nat) : Int)
      (bits x1.toNat 15 0 ≠ 0 → bits x1.toNat 31 16 ≠ 0 → bits x1.toNat 15 0 % (8 * es) ≠ 0 → (s.eng .L).kept = none →
        Faults i s .L 0x09 0 0 (ptrAddr ptr) false) ∧
      (bits x1.toNat 15 0 % (8 * es) = 0 ∨ bits x1.toNat 31 16 = 0 →
        ∀ k, Checked s .L (runPlan s (s.eng .L).got .L y q (fun _ => 0) .read ptr (.bytes l)) k →
        (k.mem = [] → Ends i s .L y.wait.toList y.sig.toList s) ∧
        (k.mem ≠ [] → s.core.ldz = none → k.list.any s.unfilled = false → k.mem.any s.unfilledLoc = false → s.core.olderStore (s.pos .L) o.toNat = false →
          let row (r : Nat) := expandRow es h.rbytes (((k.mem.drop (mem * r)).take mem).map s.byteAt)
          let d := if k.mem.any s.isOwn then loadUnits s (expandRow es h.rbytes) h.rows mem h.rbytes k else
            ((List.range h.rows).flatMap fun r => ((k.spad.drop (h.rbytes * r)).take h.rbytes).zip (row r).1, (List.range h.rows).any fun r => (row r).2)
          let z := s.mapCore fun c => { c with loads := c.loads ++ [⟨s.pos .L, q, d.1⟩] }
          Flies i s .L y.wait.toList (if d.2 then z.setView .L fun v => { v with flags := v.flags ||| 1 } else z)))) ∧
  (∀ (y : Sync) (m g : BitVec 4) (lvl : PrefLevel) (s : State), Ready s .L y.wait.toList 0 →
      (lvl = .m → Ends (.pref y m g lvl) s .L y.wait.toList y.sig.toList s) ∧
      ∃ x, Ends (.pref y m g lvl) s .L y.wait.toList y.sig.toList x ∧ x = { s with dies := x.dies } ∧ (∀ d, (x.die d).pwc = (s.die d).pwc) ∧
        ∀ c, s.core.crew = some c → lvl ≠ .m → ∀ l ∈ (shapeOf 0 (s.x .L g.toNat) none).lines, ∀ b < bits (s.x .L g.toNat).toNat 15 0,
          let p := s.x .L m.toNat + BitVec.ofInt 64 l.1 + BitVec.ofNat 64 b
          ∀ va, window p = .global va → lookup s [] c.fn c.ctx (va - va % 0x10000) = none → ∀ e, fullWalk s c.ctx (va - va % 0x10000) = .hit e → e.r = true →
            ∃ w ∈ (x.die (s.core.id / 96)).walks, w.fn = c.fn ∧ w.ctx = c.ctx ∧ w.page = va - va % 0x10000 ∧ (s.core.id, Eng.L) ∈ w.waiters)

/-- R108: dense element j of group g is the kept element whose index it is, else zero; a group of disordered indices is zero. R109, R110: a chunk whose stored data
lie within CLEN decodes to its dense bytes in ascending scratchpad order: element i is the next stored value where its bitmap bit is set, else zero; without a violation where they are at
most CAP, else up to CAP, with violation 3. A header that may not stand gives violation 1 and no byte. -/
def Obligations.SparseValues : Prop :=
  (∀ (es n : Nat) (row : List Byte) (g j : Nat), (es = 1 ∨ es = 2) → row.length = 4 * es * n + n → g < 2 * n → j < 4 →
      let meta_ := ((row.getD (4 * es * n + g / 2) 0).toNat / 16 ^ (g % 2)) % 16
      let i0 := meta_ % 4
      let i1 := meta_ / 4
      let kept (k : Nat) : List Byte := (row.drop (k * es)).take es
      let r := expandRow es (8 * es * n) row
      ((r.1.drop ((4 * g + j) * es)).take es =
        if i0 < i1 then (if j = i0 then kept (2 * g) else if j = i1 then kept (2 * g + 1) else List.replicate es 0) else List.replicate es 0) ∧
      (i1 ≤ i0 → r.2 = true)) ∧
  (∀ (s : State) (y : Sync) (q : Bool) (ptr x0 : Word) (cap : Nat) (r : Nat × Nat × List (Nat × Byte)), chunkStart s y q ptr x0 cap = .ok r →
      let b (k : Nat) : Byte := match checkByte s (s.eng .L).got .read ptr false (ptr + BitVec.ofNat 64 k) with
        | .ok l => s.byteAt l
        | _ => 0
      let hd := (List.range 16).map b
      let bit (k : Nat) : Bool := (b (16 + k / 8)).toNat.testBit (k % 8)
      let stored (k : Nat) : Nat := (List.range k).countP bit
      let clen := field hd 4 4
      let dense := field hd 0 4
      let bad : Prop := clen < 16 ∨ 2 < field hd 8 1 ∨ field hd 9 7 ≠ 0 ∨ dense % 2 ^ field hd 8 1 ≠ 0
      (bad → r = (1, 0, [])) ∧
      ∀ es n : Nat, ¬bad → es = 2 ^ field hd 8 1 → dense = n * es → 16 + (n + 7) / 8 + stored n * es ≤ clen → dense ≤ (4 * clen + 64) * 64 →
        let m := min dense cap
        r.1 = (if cap < dense then 3 else 0) ∧ r.2.1 = m ∧
        (∀ slot, loadSlot s y q slot → r.2.2.map (·.1) = (List.range m).map fun k => (slot.map (·.1)).getD 0 + bits x0.toNat 20 0 + k) ∧
        (∀ i, i * es < m → ((r.2.2.map (·.2)).drop (i * es)).take es =
          (if bit i then (List.range es).map fun j => b (16 + (n + 7) / 8 + stored i * es + j) else List.replicate es 0).take (m - i * es)))

/-- R110, R102, R13: LDZ pops its tokens and starts the decoder on a chunk whose checks pass, and ends when the decoder has: its bytes placed, the status in the pair's odd register without TRAP,
or the sparse-chunk fault with it; with TRAP set and no violation that register stays as it is, which is the model's reading (log entry 98). R110: LDZ_DECODE_DONE and, when the clock bound cut the chunk off, LDZ_WATCHDOG stop the decoder and carry its LDZ on in the same step.
-/
def Obligations.SparseLoad : Prop :=
  (∀ (y : Sync) (m : BitVec 4) (p : BitVec 3) (q : Bool) (o : BitVec 4) (trap : Bool) (s : State),
      let i := Instr.ldz y m p q o trap
      let ptr := s.x .L m.toNat
      (s.core.ldz = none → (s.eng .L).begun = false → Ready s .L y.wait.toList 1 → s.core.olderStore (s.pos .L) o.toNat = false → s.core.loads = [] →
        ∀ r, chunkStart s y q ptr (s.x .L (2 * p.toNat)) (bits (s.x .L (2 * p.toNat + 1)).toNat 20 0) = .ok r →
        ∃ t, exec i s = .next t ∧ t.core.ldz = some ⟨s.pos .L, y, p.toNat, trap, q, r.1, r.2.1, true, r.2.2, o.toNat⟩ ∧ t.mem = s.mem ∧ (t.eng .L).begun = true ∧
          t.core.tok = (s.core.pop .L (s.pos .L) y.wait.toList).tok ∧
          t.core.scratch = s.core.scratch ∧ (t.eng .L).view = (s.eng .L).view ∧ (t.eng .L).pc = (s.eng .L).pc) ∧
      (∀ z, s.core.ldz = some z → z.busy = false → (s.eng .L).begun = true → Ready s .L [] 1 →
        (z.trap = true → z.code ≠ 0 → ∃ t f, exec i s = .next t ∧ t.core.ldz = none ∧ t.arch = ({ s with core := { s.core with ldz := none } } : State).arch ∧
          (s.core.freeze = none → t.core.freeze = some f ∧ f.cause = 0x0B ∧ f.detail = z.code ∧ f.aux = BitVec.ofNat 64 z.emitted ∧ f.after = false)) ∧
        (z.trap = false ∨ z.code = 0 → z.slot = true ∨ z.writes = [] ∨
            ((s.resolve .L).older .L (s.pos .L) = true ∧ ∀ l ∈ s.core.loads, ∀ w ∈ l.writes, ∀ v ∈ z.writes, v.1 ≠ w.1) →
          let x := s.mapCore fun c => { c with ldz := none, scratch := Tab.setAll 0 c.scratch z.writes }
          Ends i s .L [] y.sig.toList
            (if z.trap then x else x.setReg .L (2 * z.pair + 1) (BitVec.ofNat 64 (z.code * 2 ^ 24 + z.emitted)))))) ∧
  (∀ (s : State) z, s.core.ldz = some z → z.busy = true →
      let s1 := s.mapCore fun c => { c with ldz := some { z with busy := false } }
      let x := s.mapCore fun c => { c with ldz := none, scratch := Tab.setAll 0 c.scratch z.writes }
      let r (i : Instr) : Prop := Ready s1 .L [] 1 → (z.trap = false ∨ z.code = 0) → (z.slot = true ∨ z.writes = []) →
        ∃ t, exec i s = .next t ∧ t.core.ldz = none ∧
          t.arch = (if z.trap then x else x.setReg .L (2 * z.pair + 1) (BitVec.ofNat 64 (z.code * 2 ^ 24 + z.emitted))).arch
      (z.code ≠ 4 → r .ldzDecodeDone) ∧ (z.code = 4 → r .ldzWatchdog))

/-- R104, R106, R107, R111, R113, R103: the write engine's stores read their source now and wait in the store buffer, held until they are older than the horizon. -/
def Obligations.TileStores : Prop :=
  ∀ (y : Sync) (r m : BitVec 4) (p : BitVec 3) (q : Bool) (o z n : BitVec 4) (sz : Size) (op : RedOp) (s : State),
    let x0 := s.x .W (2 * p.toNat)
    let x1 := s.x .W (2 * p.toNat + 1)
    let ptr := s.x .W m.toNat
    let es := if op = .badd then 2 else if op = .ladd then 8 else 4
    let entry (w : List StoreWrite) := s.mapCore fun c => { c with stores := c.stores ++ [⟨s.pos .W, .W, o.toNat, false, w⟩] }
    let moves (i : Instr) (need : Need) (l : List Touched) (w : Places → List StoreWrite) : Prop :=
      Ready s .W y.wait.toList 0 → ∀ k, Checked s .W (runPlan s (s.eng .W).got .W y q (fun _ => 0) need ptr (.bytes l)) k →
        k.mem.any s.moving = false → Ends i s .W y.wait.toList y.sig.toList (if k.mem = [] then s else entry (w k))
    let copy (k : Places) : List StoreWrite := [.bytes (k.mem.zip (k.spad.map s.home))]
    moves (.stt y m p q o) .write (tileBytes x0 x1 0 ptr false false) copy ∧
    moves (.stt3 y m p q o z) .write (tileBytes x0 x1 (s.x .W z.toNat) ptr true false) copy ∧
    moves (.sts y m p q o sz) .write (indexedBytes s x0 x1 ptr sz.bytes) copy ∧
    (bits x1.toNat 15 0 % es = 0 ∨ bits x1.toNat 31 16 = 0 →
      moves (.red y m p q o op) .both (tileBytes x0 x1 0 ptr false (ptr.toNat % es != 0)) fun k =>
        (List.range (k.mem.length / es)).map fun j => .red op ((k.mem.drop (j * es)).take es) (((k.spad.map s.home).drop (j * es)).take es)) ∧
    (Ready s .W y.wait.toList 0 → ∀ k, Checked s .W (runPlan s (s.eng .W).got .W y false (fun _ => 0) .write ptr
        (.bytes ((List.range sz.bytes).map fun k => .mem (ptr + BitVec.ofNat 64 k) (ptr.toNat % sz.bytes != 0)))) k → k.mem ≠ [] → k.mem.any s.moving = false →
      Ends (.stx y r m sz o) s .W y.wait.toList y.sig.toList (entry [.bytes (k.mem.zip (toBytes sz.bytes (s.x .W r.toNat).toNat))])) ∧
    (Ready s .W y.wait.toList 1 → ∀ k, Checked s .W (runPlan s (s.eng .W).got .W y q (fun _ => 0) .write ptr (.bytes (tileBytes x0 x1 0 ptr false false))) k →
      k.mem.any s.moving = false →
      Ends (.sttc y m p q o n) s .W y.wait.toList y.sig.toList
        (if (Tab.get 0 s.core.dstat n.toNat).getLsbD 1 then s.setView .W fun v => { v with flags := v.flags ||| 1 } else if k.mem = [] then s else entry (copy k)))

/-- R118: PUB, behind every older access of the crew, flips its selector's bit 0 and adds one to bits 63:1, in one step on 8 bytes of a 64-byte aligned header. R119,
R120: BCOPY hands its checked movement, byte by byte or page by page, to the copy unit; one of no bytes completes at once. R120: the movement that ends copies each source
byte to its destination; where no destination is a source, that is every byte as it was; nothing else changes, but for the marks on bytes of collectives' buffers. What PUB needs of its
header and in which windows it works is the model's reading (log entries 21, 99), and so is when a BCOPY is accepted and how BCOPY.SHD reads its header (log entry 38). -/
def Obligations.PublishAndCopy : Prop :=
  (∀ (y : Sync) (h : BitVec 4) (sc : Scope) (s : State), Ready s .W y.wait.toList 0 →
      let ptr := s.x .W h.toNat
      ∀ pl, Checked s .W (runPlan s (s.eng .W).got .W y false (fun _ => 0) .write ptr
        (.bytes ((List.range 8).map fun k => .mem (ptr + BitVec.ofNat 64 k) (ptr.toNat % 64 != 0)))) pl → pl.mem.length = 8 →
      (s.resolve .W).older .W (s.pos .W) = true → s.core.olderAny (s.pos .W) = false → s.crewSends (s.pos .W) = false → pl.mem.any s.moving = false →
      let ls := pl.mem
      let old := ofBytes (ls.map s.byteAt)
      let new := (old / 2 + 1) % 2 ^ 63 * 2 + (1 - old % 2)
      Ends (.pub y h sc) s .W y.wait.toList y.sig.toList (s.setBytes (ls.zip (toBytes 8 new)))) ∧
  (∀ (y : Sync) (d x n : BitVec 4) (md : CopyMode) (s : State), Ready s .W y.wait.toList 0 →
      ∀ r, Checked s .W (checkCopy s (s.eng .W).got (s.x .W d.toNat) (s.x .W x.toNat) (s.x .W n.toNat) md) r →
      (md = .shd → s.core.olderStore (s.pos .W) 0 = false) →
      (r.move = [] → r.pages = [] → Ends (.bcopy y d x n md) s .W y.wait.toList y.sig.toList s) ∧
      (r.move ≠ [] ∨ r.pages ≠ [] → (s.resolve .W).older .W (s.pos .W) = true → Ends (.bcopy y d x n md) s .W y.wait.toList y.sig.toList
        (s.mapCore fun c => { c with copies := c.copies ++ [⟨s.pos .W, md, r.move, r.pages, (s.x .W d.toNat).toNat % 2⟩] }))) ∧
  (∀ (s : State) (k : Copy), s.movable = some k → (k.move.map (·.2)).Nodup →
      (∀ a ∈ k.move, a.1 ∉ k.move.map (·.2)) →
      ∃ t, exec .bcopyMoveComplete s = .next t ∧ t.core.copies = s.core.copies.erase k ∧
        (∀ a ∈ k.move, t.byteAt a.2 = s.byteAt a.1) ∧ (∀ l, l ∉ k.move.map (·.2) → t.byteAt l = s.byteAt l) ∧
        { t with mem := s.mem, others := s.others, core := { t.core.unmarked with scratch := s.core.scratch, copies := s.core.copies } } =
          { s with core := s.progress.core.unmarked })

/-- R115, R116: SENDT past the scratchpad's end, or with a block or a target that may not be used, sets INV (and ERR of the named object); otherwise its transfer starts,
and inside the package each element holds the source bytes as they are now. R368: one that has
begun ends once none of its packets waits at the injection port. That a transfer of nothing is acknowledged at once and which bits of a block are reserved are the model's choices (log
entries 19, 104). -/
def Obligations.SendTile : Prop :=
  ∀ (y : Sync) (x : BitVec 4) (s : State), 
    ((s.eng .W).begun = true → Ready s .W [] 0 →
      (s.sendWaits s.core.id = true → Stalls (.sendt y x) s .W scNet) ∧ (s.sendWaits s.core.id = false → Ends (.sendt y x) s .W [] y.sig.toList s)) ∧
    ((s.eng .W).begun = false → Ready s .W y.wait.toList 1 → s.older .W (s.pos .W) = true →
    let off := bits (s.x .W x.toNat).toNat 20 6 * 64
    let b := parseBlock (s.homeBytes off 48)
    let k := s.core.id
    let tag := coreTag s k
    let dest := handleDest k b.target
    let inv (z : State) := z.setView .W fun v => { v with flags := v.flags ||| 1 }
    let ends (z : State) : Prop := Ends (.sendt y x) s .W y.wait.toList y.sig.toList z
    let xfer : Xfer := ⟨s.net.nextXfer, k, tag, dest, bits b.target 10 0, b.local?, some (s.pos .W), none, s.podtime⟩
    (0x180000 ≤ off → ends (inv s)) ∧
    (off < 0x180000 → s.sendWaits k = false → (∀ p ∈ s.net.wait, p.ctag ≠ s.net.nextXfer) →
      s.bankHeld .W (s.here ((List.range 48).map (off + ·) ++ b.elems.map (·.1))) = [] →
      (b.ok = false ∨ dropped s k b.target = true → ends (inv (s.setErr k (bits b.target 10 0) 1))) ∧
      (b.ok = true → dropped s k b.target = false →
        (b.rows = 0 ∨ b.rbytes = 0 → ends { s with net := { s.net with
          xfers := s.net.xfers ++ [xfer], nextXfer := s.net.nextXfer + 1, acks := s.net.acks ++ [⟨s.net.nextXfer, 0⟩] } }) ∧
        (b.rows ≠ 0 → b.rbytes ≠ 0 → destPkg dest = Config.pkgpos → ∃ es : List Elem,
          es.map (fun e => (e.off, e.bytes)) = b.elems.map (fun e => (e.2, (List.range b.esize).map fun j => s.home (e.1 + j))) ∧
          (∀ e ∈ es, e.core = destCore dest ∧ e.acc = b.acc ∧ e.count = b.count ∧ e.obj = bits b.target 10 0 ∧ e.xfer = s.net.nextXfer ∧ e.port = false) ∧
          ends { s with net := { s.net with xfers := s.net.xfers ++ [xfer], nextXfer := s.net.nextXfer + 1, elems := s.net.elems ++ es } }) ∧
        (b.rows ≠ 0 → b.rbytes ≠ 0 → destPkg dest ≠ Config.pkgpos → routePort s tag (destPkg dest) = none → ends (s.setErr k (bits b.target 10 0) 4)) ∧
        (b.rows ≠ 0 → b.rbytes ≠ 0 → destPkg dest ≠ Config.pkgpos → routePort s tag (destPkg dest) ≠ none → ∃ t, exec (.sendt y x) s = .next t ∧
          t.net.nextXfer = s.net.nextXfer + 1 ∧ t.net.xfers = s.net.xfers ++ [xfer] ∧ (t.eng .W).view = (s.eng .W).view ∧ t.core.scratch = s.core.scratch))))

/-! ## Commits, performances and checks (R83, R114, R258, R262, R269, R275, R276, R336) -/

/-- R276, R275: the oldest pending write of an engine commits once its instruction is older than the horizon. R262, R103, R269: load data that may be placed goes to the
scratchpad, where it marks the bytes of accepted collectives' buffers (R384), and its instruction finishes, once no other requester's turn comes first at any bank it writes; a bank whose
turn it is serves the word of an engine that waits there. R275, R258: a held store is released once older than the horizon; the
first released store then performs: each of its bytes is as stored, every other byte of the machine is as it was, and nothing else changes. R113, R258: an element of RED
becomes the operation of its old value and the source; the 32-bit sum saturates, the 64-bit one wraps; FADD and BADD are the exact sum rounded once to nearest even and saturated, FMIN and FMAX the smaller and the
larger, -0 below +0, a NaN where an operand is one. -/
def Obligations.Performances : Prop :=
  (∀ (e : Eng) (s : State) w l, (s.eng e).past = w :: l →
      (s.older e w.pos = true → w.dep = false → ∃ t, exec (.pendingWriteCommit e) s = .next t ∧ (t.eng e).past = l ∧ t.arch = s.arch ∧ t.core.tok = s.core.tok ∧
        t.core.freeze = s.core.freeze.map (fun f => { f with stuck := 0 })) ∧
      (s.older e w.pos = false → exec (.pendingWriteCommit e) s = .next s)) ∧
  (∀ (s : State) l, s.placeable = some l → (l.writes.map (·.1)).Nodup →
      let placed (t : State) : Prop := (∀ w ∈ l.writes, t.home w.1 = w.2) ∧ (∀ o, o ∉ l.writes.map (·.1) → t.home o = s.home o) ∧
        (∀ k ∈ s.core.colls, ∃ j ∈ t.core.colls, j.id = k.id ∧ ∀ w ∈ l.writes, ∀ f ∈ k.bufs, f.1 ≤ w.1 → w.1 < f.1 + f.2 → w.1 ∈ j.dirty) ∧
        t.arch = ({ s with core := { s.core with scratch := t.core.scratch, loads := s.core.loads.erase l } } : State).arch
      (∀ w ∈ l.writes, s.behind 1 (s.core.id, w.1 / 64 % 48) = false) →
      (∃ t, exec .loadDataReturn s = .next t ∧ placed t) ∧
      (∀ b, (∃ w ∈ l.writes, w.1 / 64 % 48 = b) → Tab.get 6 s.core.bankPtr b ≤ 6 → s.waiting .L (s.core.id, b) = false → ∃ t, exec (.bankServe b) s = .next t ∧ placed t)) ∧
  (∀ (s : State) (e : Eng) (b : Nat), s.waiting e (s.core.id, b) = true → s.behind (bankReq e) (s.core.id, b) = false → Tab.get 6 s.core.bankPtr b ≤ 6 →
      ∃ t, exec (.bankServe b) s = .next t ∧ t.arch = s.arch ∧ Tab.get 6 t.core.bankPtr b = bankReq e ∧
        (t.eng e).banks = (s.eng e).banks.map fun l => l.filter (· != (s.core.id, b))) ∧
  (∀ s : State,
      (∀ x, s.releasable = some x →
        exec .horizonWriteRelease s = .next (s.progress.mapCore fun c => { c with stores := c.stores.map fun e => if e = x then { e with released := true } else e })) ∧
      (∀ x, s.performable = some x → ∀ l, x.writes = [.bytes l] → (l.map (·.1)).Nodup →
        ∃ t, exec .storePerform s = .next t ∧ t.core.stores = s.core.stores.erase x ∧ (∀ a ∈ l, t.byteAt a.1 = a.2) ∧
          (∀ p, p ∉ l.map (·.1) → t.byteAt p = s.byteAt p) ∧
          { t with mem := s.mem, others := s.others, core := { t.core.unmarked with scratch := s.core.scratch, stores := s.core.stores } } =
            { s with core := s.progress.core.unmarked })) ∧
  (∀ (s : State) x, s.performable = some x → ∀ op ls v, x.writes = [.red op ls v] →
      ls.Nodup → ls.length = v.length →
      let old := ofBytes (ls.map s.byteAt)
      let n := ofBytes v
      ∃ t, exec .storePerform s = .next t ∧ (∀ p, p ∉ ls → t.byteAt p = s.byteAt p) ∧
        (v.length = 8 → op = .ladd → ofBytes (ls.map t.byteAt) = (old + n) % 2 ^ 64) ∧
        (v.length = 4 → op = .iadd →
          let sum := signed 32 old + signed 32 n
          ofBytes (ls.map t.byteAt) = ((if sum < -2 ^ 31 then -2 ^ 31 else if 2 ^ 31 - 1 < sum then 2 ^ 31 - 1 else sum) % 2 ^ 32).toNat) ∧
        (v.length = 4 → op = .imin → ofBytes (ls.map t.byteAt) = if signed 32 n < signed 32 old then n else old) ∧
        (v.length = 4 → op = .imax → ofBytes (ls.map t.byteAt) = if signed 32 old < signed 32 n then n else old) ∧
        (v.length = 4 → op = .fadd → ofBytes (ls.map t.byteAt) = (fp32.round 0 false 0 (Val.add 0 (fp32.value old) (fp32.value n)).1).1 % 2 ^ 32) ∧
        (v.length = 2 → op = .badd → ofBytes (ls.map t.byteAt) = (bf16.round 0 false 0 (Val.add 0 (bf16.value old) (bf16.value n)).1).1 % 2 ^ 16) ∧
        (∀ f : Bool, v.length = 4 → op = (if f then .fmax else .fmin) →
          let a := fp32.value old
          let b := fp32.value n
          let pick : Val := if a.isNan || b.isNan then .nan else match a.cmp b with
            | .lt => if f then b else a
            | .gt => if f then a else b
            | .eq => if a.neg? = f then b else a
          ofBytes (ls.map t.byteAt) = (fp32.round 0 true 0 pick).1 % 2 ^ 32))

/-- R83, R336, R335: the answer of a walk ends an engine's wait; the walk at the head of a die's queue fills the TLBs of its core and quad. R114, R277: the address unit
checks the next memory instruction ahead of the stream: it enters the window, takes its fault at once, or, where a translation is missing, asks for the page's walk and waits. -/
def Obligations.ChecksAndWalks : Prop :=
  (∀ s : State,
      (∀ e : Eng, ∀ page, (s.eng e).wait = some page → ∀ c, s.core.crew = some c → ∀ x, lookup s (s.eng e).got c.fn c.ctx page = some x →
        exec (.memoryChecksComplete e) s = .next (s.mapEng e fun g => { g with wait := none })) ∧
      (∀ d : Nat, ∀ w l, (s.die d).walks = w :: l → ∀ x, s.ctx? w.ctx = some x → ∃ t, exec (.pageWalkComplete d) s = .next t ∧ (t.die d).walks = l ∧ t.mem = s.mem ∧
        (∀ k e, w.waiters = [(k, e)] → ∀ a,
          walkFrom s w.fn w.ctx w.page (walkStart (s.die d).pwc w.fn w.ctx w.page x.root).1 (walkStart (s.die d).pwc w.fn w.ctx w.page x.root).2 = .hit a →
          (t.coreAt k).tlb = tlbFill 1024 (s.coreAt k).tlb a ∧ Tab.get [] t.quads (k / 4) = tlbFill 8192 (Tab.get [] s.quads (k / 4)) a))) ∧
  (∀ (s : State) u, s.unitWork = some u → s.unitFull = false → s.core.unit.wait = none →
      (∀ pl, unitCheck s u = .ok pl →
        exec .addressUnitCheck s = .next (s.mapCore fun c => { c with unit := ⟨c.unit.checked ++ [(u.pos, pl)], none, []⟩ })) ∧
      (∀ cause detail fa, unitCheck s u = .bad cause detail fa → s.core.freeze = none → ∃ t f, exec .addressUnitCheck s = .next t ∧ t.arch = s.arch ∧
        t.core.freeze = some f ∧ f.pos = u.pos ∧ f.eng = 5 ∧ f.cause = cause ∧ f.detail = detail ∧ f.faddr = fa ∧ f.after = false) ∧
      (∀ page, unitCheck s u = .walk page → ∀ c, s.core.crew = some c → ∃ t, exec .addressUnitCheck s = .next t ∧ t.core.unit.wait = some page ∧
        t.core.unit.checked = s.core.unit.checked ∧ t.mem = s.mem ∧ t.core.freeze = s.core.freeze ∧
        ∃ w ∈ (t.die (s.core.id / 96)).walks, w.fn = c.fn ∧ w.ctx = c.ctx ∧ w.page = page ∧ (s.core.id, Eng.W) ∈ w.waiters))

/-- R356, R74, R336: a fetch whose address is translated brings the line of the next word into the cache, in its engine's decoding, or takes the execute fault; one whose
address is not asks for the walk and waits, as a data access does, which is the model's reading (log entry 49). -/
def Obligations.Fetching : Prop :=
  ∀ (e : Eng) (s : State) (c : Crew), s.gate e = .go → s.core.crew = some c →
    let pc := (s.eng e).pc
    let va := va56 pc
    let line := va / 64 * 64
    let faults (d : Nat) : Prop := Faults (.fetchLineFill e) s e 0x02 d 0 pc false
    let known := lookup s (s.eng e).got c.fn c.ctx va
    (known = none → ∃ u, exec (.fetchLineFill e) s = .next u ∧ (u.eng e).wait = some (va - va % 0x10000) ∧ u.mem = s.mem ∧ u.core.opcache = s.core.opcache ∧
      ∃ w ∈ (u.die (s.core.id / 96)).walks, w.fn = c.fn ∧ w.ctx = c.ctx ∧ w.page = va - va % 0x10000 ∧ (s.core.id, e) ∈ w.waiters) ∧
    (∀ a b, known = some (.fault a b) → faults 2) ∧
    (∀ t, known = some (.hit t) →
      (t.x = false → faults 3) ∧
      (t.x = true → ∃ u, exec (.fetchLineFill e) s = .next u ∧ u = { s with core := { s.core with opcache := u.core.opcache } } ∧
        ∀ k, k < 16 →
          let a := BitVec.ofNat 64 (line + 4 * k)
          let w : IWord := BitVec.ofNat 32 (s.memNat (t.pa + (line - t.page) + 4 * k) 4)
          decode e s.featMask w = decode e 0 w →
          (Tab.get [] u.core.opcache (bits a.toNat 10 2)).head? = some ⟨c.ctx, c.set.isa, e, a, w, (s.mapAt e a).2, (s.mapAt e a).1⟩))

/-! ## The end of a crew, faults and pre-emption (R96, R228, R278 to R282, R309, R327 to R330, R358) -/

/-- R13, R96, R309: HALT pops its token as it begins and waits, marked, for the other engines, counting SC_OTHER (its wrap: log entry 94); HALT_COMPLETE frees the core and counts
the crew, and the launch's last crew ends the launch. -/
def Obligations.HaltEndsCrew : Prop :=
  ∀ s : State,
    (∀ y, Ready s .S y.wait.toList 0 → (s.eng .S).begun = false → ∃ t, exec (.halt y) s = .next t ∧ t.core.halting = true ∧ (t.eng .S).begun = true ∧ (t.eng .S).pc = (s.eng .S).pc ∧
      t.core.tok = (s.core.pop .S (s.pos .S) y.wait.toList).tok ∧
      t.arch = ((s.mapCore fun c => { c with halting := true }).mapEng .S fun g => { g with sc := Tab.set 0 g.sc scOther ((Tab.get 0 g.sc scOther + 1) % 2 ^ 48) }).arch) ∧
    (∀ y, Ready s .S [] 0 → (s.eng .S).begun = true → Stalls (.halt y) s .S scOther) ∧
    (∀ w l, s.core.crew = some w → s.haltReady = true → s.launch? w.launch = some l →
      ∃ t, exec .haltComplete s = .next t ∧ t.core.crew = none ∧ t.core.owner = some w.ctx ∧ t.core.scratch = s.core.scratch ∧ t.core.id = s.core.id ∧
        (l.ended + 1 < l.ncrew → t.mem = s.mem ∧ t.launch? w.launch = some { l with ended := l.ended + 1 }) ∧
        (l.ncrew ≤ l.ended + 1 → t.launch? w.launch = none ∧
          (¬(field l.cmd 1 1).testBit 2 → t.mem = s.mem) ∧ ((field l.cmd 1 1).testBit 3 → (l.fn, 0) ∈ t.hub.irqs)))

/-- R280, R281, R323, R330: a drain that has ended saves the crew in its context's lowest free slot and frees the core; the record waits for the host, whose vector 2 is
raised, but for a yield, a forced pre-emption and a service that the plug-in takes. R282, R339: a fault of the slice set, and a drain that began with one, or met one, and makes no
progress for 65,536 clocks, end with the context torn down. -/
def Obligations.DrainsEnd : Prop :=
  (∀ (s : State) (f : Freeze) (w : Crew) (x : Ctx) (k : Nat), s.core.freeze = some f → s.drainedTo f.pos = true → s.core.crew = some w →
      s.ctx? w.ctx = some x → x.freeSlot? = some k → f.sliceset = false →
      let yields : Prop := f.cause = 0x10 ∧ f.aux = 0
      let plug : Prop := f.cause = 0x10 ∧ 1 ≤ f.aux.toNat ∧ f.aux.toNat ≤ 0x3FF ∧ (s.func w.fn).plugin = 1
      ∃ t y z, exec .faultDrainEnd s = .next t ∧ t.core.crew = none ∧ t.core.freeze = none ∧ t.core.owner = some w.ctx ∧ t.ctx? w.ctx = some y ∧
        y.objs = x.objs ∧ y.depcnt = x.depcnt ∧ (k, z) ∈ y.slots ∧ z.launch = w.launch ∧ z.num = w.num ∧ z.kind = 2 ∧
        (z.waits = true ↔ f.cause ≠ 0x14 ∧ ¬yields ∧ ¬plug) ∧ (z.plug = true ↔ plug) ∧ (z.waits = true → (w.fn, 2) ∈ t.hub.irqs)) ∧
  (∀ (s : State) (f : Freeze) (w : Crew), s.core.freeze = some f → s.core.crew = some w → s.slotReady = true →
      let gone (i : Instr) : Prop := ∃ t, exec i s = .next t ∧ t.core.crew = none ∧ t.ctx? w.ctx = none ∧ ∀ l ∈ t.hub.launches, l.ctx ≠ w.ctx
      (f.sliceset = true → s.drainedTo f.pos = true → gone .faultDrainEnd) ∧
      (f.slices = true → 65536 ≤ f.stuck → gone .sliceSetDrainTimeout))

/-- R228, R282: when every engine has been blocked for 65,536 clocks the crew freezes at its oldest open instruction with cause 0x13, and nothing else changes. R279,
R288: while a crew drains, a fault at an earlier position replaces the one drained, which the record keeps as its first; a word that is not earlier does not issue. R358:
when the outermost call has returned and everything older has performed, the other engines run on. -/
def Obligations.FaultsAndParking : Prop :=
  (∀ (s : State) (p : Pos) (ls : List Level), (∀ e : Eng, 65536 ≤ Tab.get 0 s.core.blocked e.code) → s.core.crew ≠ none → s.core.freeze = none →
      s.oldestOpen = some (p, ls) →
      ∃ f, exec .sliceDeadlock s = .next { s with core := { s.core with freeze := some f } } ∧ f.pos = p ∧ f.levels = ls ∧ f.eng = 0 ∧ f.cause = 0x13 ∧
        f.sliceset = true ∧ f.after = false) ∧
  (∀ s : State, (∀ e : Eng, 65536 ≤ Tab.get 0 s.core.blocked e.code) → s.core.crew ≠ none → s.core.freeze = none → s.oldestOpen = none →
      ∃ f, exec .sliceDeadlock s = .next { s with core := { s.core with freeze := some f } } ∧ f.eng = 0 ∧ f.cause = 0x13 ∧ f.sliceset = true) ∧
  (∀ (y : Sync) (code : BitVec 11) (s : State) (f : Freeze), s.core.freeze = some f →
      (Ready s .S y.wait.toList 0 → (s.pos .S).lt f.pos = true → ∃ g, exec (.bkpt y code) s = .next { s with core := { s.core with freeze := some g } } ∧ g.pos = s.pos .S ∧ g.cause = 0x11 ∧
        g.repl = f.repl ++ [f.eng] ∧ g.first = some (f.first.getD ⟨f.cause, f.eng, f.detail, f.faddr, f.pos⟩) ∧ g.snaps = f.snaps ∧ g.tfreeze = f.tfreeze) ∧
      ((s.pos .S).lt f.pos = false → exec (.bkpt y code) s = .next s)) ∧
  (∀ s : State, s.core.parked = true → s.core.calldepth = 0 → s.core.drained = true →
      ∃ t, exec .callUnpark s = .next t ∧ t.core.parked = false ∧ t.arch = ({ s with core := { s.core with parked := false } } : State).arch ∧
        t.core.tok = s.core.tok ∧ t.core.follow = s.core.follow ∧ t.core.freeze = s.core.freeze)

/-- R310, R327, R328: a trigger asks its victims to stop and keeps their cores; a crew that has drained to its boundary is saved with RSTKIND 1; one that has not by its
deadline is stopped with cause 0x14. -/
def Obligations.Preemption : Prop :=
  ∀ s : State,
    (∀ l v, s.trigger = some (l, v) → ∃ t, exec .preemptTrigger s = .next t ∧
      t.hub.resv = s.hub.resv.filter (fun r => !v.contains r.1) ++ v.map (fun k => (k, l.unit)) ∧
      (∀ b ls, v = [s.core.id] → s.core.crew ≠ none → s.core.preempt = none → s.core.freeze = none → s.core.stands = none → s.boundary = some (b, ls) →
        t.core = { s.core with preempt := some ⟨b, ls, s.podtime⟩ })) ∧
    (∀ f w x k, s.core.preempt = some f → s.core.stands = none → s.core.freeze = none → s.drainedTo f.bound = true → s.core.crew = some w → s.ctx? w.ctx = some x →
      x.freeSlot? = some k → ∃ t y z, exec .preemptBoundarySave s = .next t ∧ t.core.crew = none ∧ t.core.owner = some w.ctx ∧ t.ctx? w.ctx = some y ∧
        (k, z) ∈ y.slots ∧ z.launch = w.launch ∧ z.num = w.num ∧ z.kind = 1 ∧ z.waits = false) ∧
    (∀ f w x, s.core.preempt = some f → s.core.freeze = none → s.core.crew = some w → s.ctx? w.ctx = some x → f.since + 1000 * x.deadline ≤ s.podtime →
      s.core.stands = none → s.core.colls = [] → ∃ g, exec .preemptForce s = .next { s with core := { s.core with preempt := none, freeze := some g } } ∧ g.cause = 0x14 ∧ g.eng = 0 ∧
        g.pos = s.oldestUnissued.1 ∧ g.after = false ∧ g.sliceset = false)

/-! ## Command queues and the scheduler (R297 to R312) -/

/-- R297, R298: the queue registers. Enabling clears HEAD, TAIL and the error; an enabled queue takes a write of EN only; a doorbell beyond the ring stops the queue. R6,
R315, R348, R355, R370, R393, R408: registers that only store hold what is written to them, their reserved bits zero; a write of LARG while BUSY is 1 is dropped; none but the health
block's answers, a write or a read, before the host is admitted. That a doorbell beyond the ring leaves TAIL as it was, and how BAR 2 shows the recovery window from offset 2^32 and
firmware SRAM behind it, are the model's choices (log entries 127, 32 and 109). -/
def Obligations.QueueRegisters : Prop :=
  (∀ (fn q : Nat) (v : Word) (s : State), s.health.stage = 6 → fn < 33 → q < 16 →
      let x := s.queue fn q
      let n := v.toNat
      let becomes (i : Instr) (y : CmdQueue) : Prop := ∃ t, exec i s = .next t ∧ t.queue fn q = y ∧
        (∀ f p, (f, p) ≠ (fn, q) → t.queue f p = s.queue f p) ∧ t.mem = s.mem ∧ t.core = s.core ∧ t.ctxs = s.ctxs
      (x.en = true → becomes (.qcfgWrite fn q v) { x with en := n.testBit 63 }) ∧
      (x.en = false → n.testBit 63 = true → ∃ y : CmdQueue, becomes (.qcfgWrite fn q v) y ∧ y.en = true ∧ y.head = 0 ∧ y.tail = 0 ∧ y.halt = false ∧ y.err = 0 ∧
        y.logsz = max 4 (bits n 55 52) ∧ y.ctx = bits n 43 32 ∧ y.proc = bits n 31 16 ∧ y.pcap = bits n 1 0 ∧ y.base = x.base) ∧
      (x.en = false → n.testBit 63 = false →
        becomes (.qcfgWrite fn q v) { x with logsz := max 4 (bits n 55 52), ctx := bits n 43 32, proc := bits n 31 16, pcap := bits n 1 0 }) ∧
      (x.en = false → becomes (.qbaseWrite fn q v) { x with base := bits n 55 12 * 4096 }) ∧
      (x.en = true → exec (.qbaseWrite fn q v) s = .next s) ∧
      (x.en = true → x.halt = false →
        let tail : BitVec 32 := v.setWidth 32
        ((tail - x.head).toNat ≤ 2 ^ x.logsz → becomes (.doorbell fn q v) { x with tail := tail }) ∧
        (2 ^ x.logsz < (tail - x.head).toNat → ∃ t, exec (.doorbell fn q v) s = .next t ∧ (t.queue fn q).halt = true ∧ (t.queue fn q).err = 1 ∧
          (t.queue fn q).tail = x.tail ∧ (t.queue fn q).head = x.head))) ∧
  (∀ (s : State) (fn : Nat) (v : Word), fn < 33 →
      let n := v.toNat
      let f := s.func fn
      let gang (g : Gang) : Host.Outcome State Fault Refusal := .next { s with gang := g }
      (s.health.stage = 6 →
        exec (.registerWrite fn 0x20008 v) s = .next (s.setFunc fn { f with carg := v }) ∧
        (f.lbusy = none → exec (.registerWrite fn 0x20048 v) s = .next (s.setFunc fn { f with larg := v })) ∧
        (f.lbusy ≠ none → exec (.registerWrite fn 0x20048 v) s = .next s) ∧
        exec (.registerWrite fn 0x20080 v) s = .next (s.setFunc fn { f with depthr := v }) ∧
        exec (.registerWrite 0 0x40008 v) s = .next { s with net := { s.net with jarg := v } } ∧
        exec (.registerWrite 0 0x40048 v) s = gang { s.gang with time := v } ∧
        exec (.registerWrite 0 0x40050 v) s = gang { s.gang with base := bits n 51 16 * 0x10000 } ∧
        exec (.registerWrite 0 0x40058 v) s = gang { s.gang with size := n % 2 ^ 32 } ∧
        (v.getLsbD 63 = false → f.cbusy = none →
          exec (.registerWrite fn 0x20000 v) s =
            .next (s.setFunc fn { f with ccmd := BitVec.ofNat 64 (bits n 55 52 * 2 ^ 52 + bits n 43 32 * 2 ^ 32 + bits n 11 0) }))) ∧
      (s.health.stage ≠ 6 → ∀ off, off < 0x50000 → exec (.registerWrite fn off v) s = .next s ∧ s.readReg fn off = 0) ∧
      (s.health.stage = 6 → s.readReg fn 0x20008 = f.carg ∧ s.readReg fn 0x20048 = f.larg ∧ s.readReg fn 0x20080 = f.depthr ∧ s.readReg 0 0x40048 = s.gang.time) ∧
      (s.health.pcie = true → s.readReg 0 0x50010 = BitVec.ofNat 64 s.hub.gov.limit ∧ s.readReg 0 0x50028 = BitVec.ofNat 64 s.health.why) ∧
      (s.health.pcie = true → s.health.sec.testBit 0 = false →
        exec (.registerWrite 0 0x50038 v) s = .next { s with health := { s.health with sel := n % 2 ^ 32 } } ∧
        (s.health.stage = 2 → ∀ k j, k + 8 ≤ 0x300000 → ∃ t, exec (.registerWrite 0 (2 ^ 32 + k) v) s = .next t ∧
          Tab.get 0 t.health.fwsram j = (if k ≤ j ∧ j < k + 8 then BitVec.ofNat 8 (n / 2 ^ (8 * (j - k))) else Tab.get 0 s.health.fwsram j))))

/-- R299, R300, R301: the front end takes the next command of the queue whose turn it is; an unknown operation or a reserved bit stops the queue with 0x10 or 0x11. R299,
R300, R303, R312: each command of an enabled queue: NOP is consumed; DRAIN and WAITMEM hold the queue; PIPE announces its launches; LAUNCH starts one. R300, R309: a DRAIN
ends when no launch of its queue is left, with its completion write and interrupt; a WAITMEM when its doubleword has reached the value. -/
def Obligations.Commands : Prop :=
  (∀ (s : State) (fn q : Nat) (b : List Byte), s.hub.current = none → s.nextQueue = some (fn, q) → s.queueCtx fn (s.queue fn q) ≠ none →
      s.slotBytes (s.queue fn q) = some b →
      let stops (e : Nat) : Prop := ∃ t, exec .frontEndConsume s = .next t ∧ (t.queue fn q).halt = true ∧ (t.queue fn q).err = e ∧ t.hub.current = none ∧ (fn, 1) ∈ t.hub.irqs
      (field b 0 1 ≤ 4 → commandReserved b = false →
        exec .frontEndConsume s = .next { s with hub := { s.hub with rr := (16 * fn + q + 1) % 528, current := some ⟨fn, q, b⟩ } }) ∧
      (4 < field b 0 1 → stops 0x10) ∧ (field b 0 1 ≤ 4 → commandReserved b = true → stops 0x11)) ∧
  (∀ (s : State) (t : Taken), s.hub.current = some t →
      let x := s.queue t.fn t.q
      let op := field t.bytes 0 1
      let ends (i : Instr) (y : CmdQueue) (l : List Launch) : Prop := ∃ u, exec i s = .next u ∧ u.queue t.fn t.q = y ∧ u.hub.current = none ∧ u.hub.launches = l ∧
        u.mem = s.mem ∧ u.core = s.core
      x.en = true → x.halt = false → (s.func t.fn).susp = false →
      (op = 0 → x.pipeN = 0 → ends .nopCommand { x with head := x.head + 1, busy := none } s.hub.launches) ∧
      (op = 2 → x.pipeN = 0 → ¬((field t.bytes 1 1).testBit 2 ∧ field t.bytes 64 8 % 8 ≠ 0) → ends .drain { x with busy := some t.bytes } s.hub.launches) ∧
      (op = 3 → x.pipeN = 0 → field t.bytes 8 8 % 8 = 0 → ctxRead s x.ctx (field t.bytes 8 8) 8 ≠ none → ends .waitmem { x with busy := some t.bytes } s.hub.launches) ∧
      (op = 4 → x.pipeN = 0 →
        let n := field t.bytes 1 1
        let jq := (List.range (n - 1)).map fun k => BitVec.ofNat 64 (field t.bytes (8 + 8 * k) 8)
        2 ≤ n → n ≤ 8 → (∀ a ∈ jq, stageQueue s x.ctx a ≠ none) →
        ends .pipe { x with pipe := jq, pipeN := n, pipeAt := 0, pipeId := 0, pipePrio := 0, head := x.head + 1, busy := none } s.hub.launches) ∧
      (∀ c, s.queueCtx t.fn x = some c → ∀ args tok, checkLaunch s x c t.bytes = .ok (args, tok) → op = 1 →
        ∃ l y, ends .launch y (s.hub.launches ++ [l]) ∧ l.serial = s.hub.serial ∧ l.ctx = x.ctx ∧ l.fn = t.fn ∧ l.cmd = t.bytes ∧ l.args = args ∧ l.tok = tok ∧
          l.prio = min (field t.bytes 2 1 % 4) x.pcap ∧ l.next = 0 ∧ l.ended = 0 ∧ y.head = x.head + 1 ∧ y.en = true ∧ y.halt = false) ∧
      (∀ c, s.queueCtx t.fn x = some c → ∀ e, checkLaunch s x c t.bytes = .error e → op = 1 → t.q < 16 →
        ∃ u, exec .launch s = .next u ∧ (u.queue t.fn t.q).halt = true ∧ (u.queue t.fn t.q).err = e ∧ u.hub.current = none)) ∧
  (∀ (s : State) (fn q : Nat) (b : List Byte),
      let x := s.queue fn q
      x.busy = some b → x.en = true → (s.func fn).susp = false →
      let ends (i : Instr) : Prop := ∃ t, exec i s = .next t ∧ t.queue fn q = { x with head := x.head + 1, busy := none } ∧ t.core = s.core ∧
        (∀ a, a ∉ ((ctxAddrs s x.ctx (field b 64 8) 8 true).getD []) → t.memByte a = s.memByte a) ∧
        (field b 0 1 = 2 → (field b 1 1).testBit 3 → (fn, 0) ∈ t.hub.irqs)
      (field b 0 1 = 2 → (∀ l ∈ s.hub.launches, l.fn = fn → l.queue ≠ q) → ends (.drainCompletion fn q)) ∧
      (∀ d, field b 0 1 = 3 → ctxRead s x.ctx (field b 8 8) 8 = some d →
        (field b 16 8 ≤ ofBytes d → ends (.waitmemPoll fn q)) ∧ (ofBytes d < field b 16 8 → exec (.waitmemPoll fn q) s = .next s)))

/-- R304, R62, R308: a free core takes the chosen launch's next crew: every engine starts at its slice with the arguments in x1 to x8, its other registers zero and no
loop active. -/
def Obligations.CrewStarts : Prop :=
  ∀ (s : State) (c : Nat), c < 384 → (s.coreAt c).crew = none → (s.coreAt c).out = false → ∀ o, s.choose = some o →
    ∀ k, o.cores = [k] → ∀ x, s.ctx? o.launch.ctx = some x → ∀ n, o.crews = [(n, none)] → ∀ w, crewOf x o.launch n (s.hub.recvs + 1) = some w →
    ∃ t, exec (.coreFreeDispatch c) s = .next t ∧ t.mem = s.mem ∧
      let d := t.coreAt k
      d.crew = some w ∧ d.calldepth = 0 ∧ d.barriers = [] ∧ d.armed = [] ∧ d.freeze = none ∧ d.stores = [] ∧
      ∀ e : Eng, (d.eng e).loops = [] ∧ (d.eng e).pc = (d.eng e).base ∧ (d.eng e).len = (w.set.slices.getD (e.code - 1) (0, 0)).2 ∧
        (d.eng e).base = BitVec.ofNat 64 (w.set.code + (w.set.slices.getD (e.code - 1) (0, 0)).1) ∧
        (∀ i : Nat, i < 8 → (d.eng e).view.x (i + 1) = BitVec.ofNat 64 (field o.launch.args (8 * i) 8)) ∧
        (∀ r : Nat, 8 < r → (d.eng e).view.x r = 0) ∧ (d.eng e).view.flags = 0 ∧ (d.eng e).view.rmode = 0 ∧ (d.eng e).view.descs = []

/-! ## Contexts and functions (R315 to R344) -/

/-- R316, R318, R325, R339: CREATE gives a context the descriptor's root, save area and deadline; DESTROY tears it down; RESTORE lets its crews run. R370, R350, R352: BIND
gives a context a job, UNBIND takes it away, LOAD adds an object to it and UNLOAD takes one out. Which identifier CREATE takes, the least deadline
that a descriptor can set and the second turn that carries LOAD and UNLOAD out are the model's choices (log entries 27, 50 and 36). -/
def Obligations.ContextCommands : Prop :=
  ∀ (s : State) (fn : Nat) (v : Word),
    let k := bits v.toNat 43 32
    (∀ j d, starts s fn 1 v → s.freeCtx = some j → ctxDescriptor s fn (s.func fn).carg.toNat = some d →
      field d 24 1 = 0 → field d 25 1 = 0 → (∀ b ∈ d.drop 28, b = 0) → field d 0 8 % 0x10000 = 0 → field d 8 8 % 0x10000 = 0 → 0x1FC000 ≤ field d 16 8 →
      ∃ t x, exec (.create fn v) s = .next t ∧ t.ctx? j = some x ∧ x.fn = fn ∧ x.root = field d 0 8 ∧ x.save = field d 8 8 ∧ x.saveSize = field d 16 8 ∧
        x.deadline = (if field d 26 2 = 0 then 20 else min 1000 (field d 26 2)) ∧ x.held = false ∧ x.depcnt = 0 ∧ x.slots = [] ∧
        (t.func fn).newctx = j ∧ (t.func fn).cresult = 0 ∧ t.mem = s.mem ∧ t.core = s.core) ∧
    (starts s fn 1 v → s.freeCtx ≠ none → ctxDescriptor s fn (s.func fn).carg.toNat = none →
      ∃ t, exec (.create fn v) s = .next t ∧ (t.func fn).cresult = 3 ∧ t.ctxs = s.ctxs) ∧
    (∀ x, starts s fn 2 v → s.ctx? k = some x → x.fn = fn →
      ∃ t, exec (.destroy fn v) s = .next t ∧ t.ctx? k = none ∧ (t.func fn).cresult = 0 ∧ (∀ l ∈ t.hub.launches, l.ctx ≠ k) ∧
        (∀ c, (t.coreAt c).crew ≠ none → (t.coreAt c).crew = (s.coreAt c).crew)) ∧
    (starts s fn 2 v → s.ctx? k = none → ∃ t, exec (.destroy fn v) s = .next t ∧ (t.func fn).cresult = 2 ∧ t.ctxs = s.ctxs ∧ t.core = s.core) ∧
    (∀ x, starts s fn 4 v → s.ctx? k = some x → x.fn = fn → s.featOk fn (s.featHeader x) = true →
      ∃ t, exec (.restore fn v) s = .next t ∧ t.ctx? k = some { x with held := false } ∧ (t.func fn).cresult = 0 ∧ t.core = s.core ∧ t.mem = s.mem) ∧
    (∀ x, starts s fn 4 v → s.ctx? k = some x → x.fn = fn → s.featOk fn (s.featHeader x) = false →
      ∃ t, exec (.restore fn v) s = .next t ∧ t.ctx? k = some x ∧ (t.func fn).cresult = 4) ∧
    (∀ x, s.health.stage = 6 → fn < 33 → v.getLsbD 63 = true → s.ctx? k = some x →
      let tag := bits v.toNat 15 0
      let a := s.net.jarg.toNat
      (bits v.toNat 55 52 = 1 → tag ≠ 0 → a % 64 = 0 → a + 1024 ≤ 2 ^ 52 → Config.pkgpos ∈ bitmapPkgs s a → x.job = 0 → (∀ j ∈ s.net.jobs, j.1 ≠ tag) →
        ∃ t, exec (.bind v) s = .next t ∧ t.net.jresult = 0 ∧ t.ctx? k = some { x with job := tag }) ∧
      (bits v.toNat 55 52 = 2 → tag ≠ 0 → x.job ≠ 0 → ∃ t, exec (.unbind v) s = .next t ∧ t.net.jresult = 0 ∧ t.ctx? k = some { x with job := 0 }) ∧
      ((s.func fn).lbusy = some v → x.fn = fn →
        (bits v.toNat 55 52 = 1 → ∀ r, loadObject (s.setFunc fn { s.func fn with lbusy := none }) k x (s.func fn).larg.toNat = .ok r →
          ∃ t, exec (.load fn v) s = .next t ∧ (t.func fn).lresult = 0 ∧ (t.func fn).lhandle = r.2 ∧ t.ctxs = r.1.ctxs) ∧
        (bits v.toNat 55 52 = 2 → (∀ l ∈ s.hub.launches, l.ctx ≠ k) → (∃ o ∈ x.objs, o.handle = tag) →
          ∃ t z, exec (.unload fn v) s = .next t ∧ (t.func fn).lresult = 0 ∧ t.ctx? k = some z ∧ ∀ q ∈ z.objs, q.handle ≠ tag)))

/-- R316, R344, R330: SAVE holds the context and ends at once when none of its crews holds a core; SWITCH does so and releases the second context; RESUME lets a saved
crew with a resumable record run, where its block has no reserved bit set (log entry 130); INVAL leaves no translation of the context for its range: in no TLB, in no die's cache of
tables, and in no answer that a word of its crews has got and not yet used. -/
def Obligations.SaveSwitchResume : Prop :=
  ∀ (s : State) (fn : Nat) (v : Word) (x : Ctx),
    let k := bits v.toNat 43 32
    let k2 := bits v.toNat 11 0
    s.ctx? k = some x → x.fn = fn →
    (starts s fn 3 v → s.allSaved k = true → (s.func fn).susp = false →
      ∃ t, exec (.save fn v) s = .next t ∧ t.ctx? k = some { x with held := true } ∧ (t.func fn).cbusy = none ∧ (t.func fn).cresult = 0 ∧ t.core = s.core) ∧
    (∀ y, starts s fn 5 v → s.allSaved k = true → (s.func fn).susp = false → s.ctx? k2 = some y → y.fn = fn → k2 ≠ k →
      s.featOk fn (s.featHeader y) = true →
      ∃ t, exec (.switch fn v) s = .next t ∧ t.ctx? k = some { x with held := true } ∧ t.ctx? k2 = some { y with held := false } ∧
        (t.func fn).cbusy = none ∧ (t.func fn).cresult = 0 ∧ t.core = s.core) ∧
    (∀ z, starts s fn 6 v → x.slots.find? (fun e => e.1 == (s.func fn).carg.toNat) = some z → z.2.kind = 2 → (∀ c ∈ s.cores, c.stands = none) →
      let b := readRegion s x.fn (x.save + saveHeader + (s.func fn).carg.toNat * blockBytes) 0x4000
      (imgNat b 0x405 1).testBit 0 = true → blockOk b = true →
      ∃ t y, exec (.resume fn v) s = .next t ∧ (t.func fn).cresult = 0 ∧ t.ctx? k = some y ∧ t.core = s.core ∧
        ∀ e ∈ y.slots, e.1 = (s.func fn).carg.toNat → e.2.waits = false ∧ e.2.plug = false) ∧
    (starts s fn 7 v → let a := (s.func fn).carg.toNat
      let lo := bits a 55 16 * 0x10000
      let hi := lo + (a % 0x10000 + 1) * 0x10000
      ∃ t, exec (.inval fn v) s = .next t ∧ (t.func fn).cresult = 0 ∧ t.mem = s.mem ∧
        (∀ e : TlbEntry, e.ctx = k → e.page < hi → lo < e.page + 2 ^ e.bits → (∀ q ∈ t.quads, e ∉ q.2) ∧ ∀ c, c = t.core ∨ c ∈ t.others → e ∉ c.tlb ∧
          ∀ w, c.crew = some w → w.ctx = k → .hit e ∉ c.unit.got ∧ ∀ g : Eng, .hit e ∉ (c.eng g).got) ∧
        ∀ p : PwcEntry, p.ctx = k →
          let n := 2 ^ (if p.level = 3 then 21 else if p.level = 2 then 30 else 43)
          p.tag * n < hi → lo < (p.tag + 1) * n → ∀ d ∈ t.dies, p ∉ d.2.pwc)

/-- R340 to R344, R355, R330: suspending and resuming a virtual function, its feature mask and stage 2 root (ignored while it holds a context), its reset, during which FLR reads 1,
the advisory's acknowledgement, and the plug-in's answer. That a reset takes two turns and leaves the function's plug-in installed are the model's choices (log entries 36 and 59). -/
def Obligations.VirtualFunctions : Prop :=
  ∀ (s : State) (vf : Nat) (v : Word), s.health.stage = 6 → vf < 32 →
    let f := bits v.toNat 43 32 % 32 + 1
    (starts s 0 8 v → (s.func f).cbusy = none → (∀ c ∈ s.cores, ∀ w, c.crew = some w → w.fn ≠ f) →
      ∃ t, exec (.vfsusp 0 v) s = .next t ∧ (t.func f).susp = true ∧ (t.func 0).cbusy = none ∧ (t.func 0).cresult = 0 ∧ t.core = s.core) ∧
    (starts s 0 9 v → (s.func f).cbusy = none → ∃ t, exec (.vfres 0 v) s = .next t ∧ (t.func f).susp = false ∧ (t.func 0).cresult = 0 ∧ t.core = s.core) ∧
    ((∀ c ∈ s.ctxs, c.2.fn ≠ vf + 1) →
      (∃ t, exec (.vffeatWrite vf v) s = .next t ∧ t.func (vf + 1) = { s.func (vf + 1) with vffeat := v.setWidth 8 } ∧ t.core = s.core ∧ t.mem = s.mem) ∧
      (∃ t, exec (.s2rootWrite vf v) s = .next t ∧ t.func (vf + 1) = { s.func (vf + 1) with s2root := bits v.toNat 51 16 * 0x10000 } ∧ t.core = s.core ∧ t.mem = s.mem)) ∧
    ((∃ c ∈ s.ctxs, c.2.fn = vf + 1) → exec (.vffeatWrite vf v) s = .next s ∧ exec (.s2rootWrite vf v) s = .next s) ∧
    (s.health.sec.testBit 0 = false → (s.func (vf + 1)).flr = false → ∃ t, exec (.functionLevelReset vf) s = .next t ∧ (∀ c ∈ t.ctxs, c.2.fn ≠ vf + 1) ∧ t.func (vf + 1) =
      { Func.reset with vffeat := (s.func (vf + 1)).vffeat, s2root := (s.func (vf + 1)).s2root, plugin := (s.func (vf + 1)).plugin, flr := true }) ∧
    (s.health.sec.testBit 0 = false → (s.func (vf + 1)).flr = true → exec (.functionLevelReset vf) s = .next (s.setFunc (vf + 1) { s.func (vf + 1) with flr := false })) ∧
    (v.getLsbD 63 = true → exec (.depstatWrite vf v) s = .next (s.setFunc vf { s.func vf with pend := false })) ∧
    (∀ k x slot, s.ctx? k = some x → (∀ c ∈ s.cores, c.stands = none) → ∃ t y, exec (.policyPluginDone true k slot) s = .next t ∧ t.ctx? k = some y ∧ t.core = s.core ∧
      ∀ e ∈ y.slots, e.1 = slot → e.2.plug = false)

/-! ## The vector engine (R121 to R152) -/

/-- R132, R138, R142: exact arithmetic of one class rounded or limited once into dd; VMIN and VMAX, VABS and VNEG; VIOTA and VRSHR. -/
def Obligations.VectorArithmetic : Prop :=
  ∀ (y : Sync) (d a b : BitVec 4) (r : Rnd) (nf : Bool) (s : State),
    let t := (s.desc d).type
    let m := if isF t then rndMode r .V s else 0
    let two : List VOpnd := [vdst d isFI, vsrc s d a (sameClass t), vsrc s d b (sameClass t)]
    let one : List VOpnd := [vdst d isFI, vsrc s d a (sameClass t)]
    let put (n : Nat) (x : Val × BitVec 6) : Nat × BitVec 6 := let z := toCode t m false n x.1; (z.1, x.2 ||| z.2)
    let f2 (i : Instr) (f : Val → Val → Val → Val × BitVec 6) : Prop :=
      PerElement i s y 1 two (m == 4) nf fun rs k n => put n (f ((reg rs 1).val s k) ((reg rs 2).val s k) (codeValue t ((reg rs 0).get s k)).1)
    let f1 (i : Instr) (f : Val → Val) : Prop := PerElement i s y 1 one (m == 4) nf fun rs k n => put n (f ((reg rs 1).val s k), 0)
    f2 (.vadd y d a b r nf) (fun p q _ => Val.add m p q) ∧
    f2 (.vsub y d a b r nf) (fun p q _ => Val.add m p q.negate) ∧
    f2 (.vmul y d a b r nf) (fun p q _ => Val.mul p q) ∧
    f2 (.vfma y d a b r nf) (fun p q c => ((Val.add m (Val.mul p q).1 c).1, (Val.mul p q).2 ||| (Val.add m (Val.mul p q).1 c).2)) ∧
    f2 (.vmin y d a b r nf) (fun p q _ => (Val.pick false p q, 0)) ∧
    f2 (.vmax y d a b r nf) (fun p q _ => (Val.pick true p q, 0)) ∧
    f1 (.vabs y d a r nf) Val.abs ∧
    f1 (.vneg y d a r nf) Val.negate ∧
    (let w := rndMode r .V s
     PerElement (.viota y d a r nf) s y 1 [vdst d isFI] (w == 4) nf (fun _ k n => toCode t w false n (.ofInt ((s.x .V a.toNat).toInt + (k : Nat)))) ∧
     PerElement (.vrshr y d a b r nf) s y 1 [vdst d isI, vsrc s d a isI, vsrc s d b isI] (w == 4) nf fun rs k n =>
      let c := max 0 (min 63 (signed (reg rs 2).width ((reg rs 2).src s k)))
      toCode t w false n (((reg rs 1).val s k).scale (-c)))

/-- R122: DSET changes its descriptor alone, by its mode; R127: the first failing check of an operand is the fault. R133 to R138, R143: operations on bit patterns,
shifts, comparisons, selection, moves, fills and clamps; all but VCMP set no flag. -/
def Obligations.VectorPatterns : Prop :=
  (∀ (y : Sync) (d a b : BitVec 4) (s : State), Ready s .V y.wait.toList 1 →
      let old := (Tab.get 0 s.core.engV.view.descs d.toNat).toNat
      let x := (s.x .V a.toNat).toNat
      (∀ md : DsetMode,
        let w : Nat := match md with
          | .set => x - bits x 57 53 * 2 ^ 53
          | .addb => old / 2 ^ 21 * 2 ^ 21 + (old + x) % 2 ^ 21
          | .cnt => old - bits old 52 37 * 2 ^ 37 + x % 2 ^ 16 * 2 ^ 37
        Ends (.dset y d a md) s .V y.wait.toList y.sig.toList (s.setView .V fun v => { v with descs := Tab.set 0 v.descs d.toNat (BitVec.ofNat 64 w) })) ∧
      (∀ (r : Rnd) (nf : Bool),
        let ty := bits old 63 59
        let bytes := codeWidth ty / 8
        let bad (k : Nat) : Prop := Faults (.vadd y d a b r nf) s .V 0x0C k 0 0 false
        (s.eng .V).kept = none →
        (isFI ty = false → bad 1) ∧
        (isFI ty = true → bits old 52 37 = 0 → bad 2) ∧
        (isFI ty = true → bits old 52 37 ≠ 0 → bits old 20 0 % bytes ≠ 0 → bad 3) ∧
        (isFI ty = true → bits old 52 37 ≠ 0 → bits old 20 0 % bytes = 0 → bits old 58 58 = 1 → y.sig = none → Faults (.vadd y d a b r nf) s .V 0x0A 0xFF 0 0 false))) ∧
  (∀ (y : Sync) (d a b c : BitVec 4) (cond : Cond) (nf : Bool) (s : State),
      let t := (s.desc d).type
      let w := codeWidth t
      let same (k : Nat) : Bool := k == t
      let p (i : Instr) (ops : List VOpnd) (f : (Nat → Nat) → (Nat → Nat) → (Nat → Nat) → Nat → Nat) : Prop :=
        PerElement i s y 0 ops false true fun rs k _ => (f ((reg rs 1).src s) ((reg rs 2).src s) ((reg rs 3).src s) k, 0)
      let bitwise : List VOpnd := [vdst d fun k => isFIS k && codeWidth k ≤ 32, vsrc s d a fun k => isFIS k && codeWidth k == w, vsrc s d b fun k => isFIS k && codeWidth k == w]
      let shifts : List VOpnd := [vdst d isI, vsrc s d a same, vsrc s d b isI]
      let sv (x : Nat) : Int := if t = 0x0A then (x : Int) else signed w x
      let count (g : Nat → Nat) (k : Nat) : Int := if (s.desc b).type = 0x0A then (g k : Int) else signed (codeWidth (s.desc b).type) (g k)
      p (.vand y d a b) bitwise (fun f g _ k => f k &&& g k) ∧
      p (.vor y d a b) bitwise (fun f g _ k => f k ||| g k) ∧
      p (.vxor y d a b) bitwise (fun f g _ k => f k ^^^ g k) ∧
      p (.vshl y d a b) shifts (fun f g _ k => if 0 ≤ count g k ∧ count g k < w then f k * 2 ^ (count g k).toNat else 0) ∧
      p (.vshr y d a b) shifts (fun f g _ k => if 0 ≤ count g k ∧ count g k < w then f k / 2 ^ (count g k).toNat else 0) ∧
      p (.vsra y d a b) shifts (fun f g _ k => ((if 0 ≤ count g k ∧ count g k < w then sv (f k) / 2 ^ (count g k).toNat else if sv (f k) < 0 then -1 else 0) % 2 ^ w).toNat) ∧
      p (.vsel y d a b c) [vdst d isFIS, vsrc s d a same, vsrc s d b same, vsrc s d c isI] (fun f g h k => if h k ≠ 0 then f k else g k) ∧
      p (.vmov y d a) [vdst d isAny, vsrc s d a same] (fun f _ _ k => f k) ∧
      p (.vfill y d a) [vdst d isFIS] (fun _ _ _ _ => (s.x .V a.toNat).toNat) ∧
      p (.vclamp y d a b c) [vdst d isFI, vsrc s d a same]
        (fun f _ _ k => clampBits t (f k) ((s.x .V b.toNat).toNat % 2 ^ w) ((s.x .V c.toNat).toNat % 2 ^ w)) ∧
      PerElement (.vcmp y d a b cond nf) s y 1 [vdst d isI, vsrc s d a isFI, vsrc s d b (sameClass (s.desc a).type)] false nf fun rs k _ =>
        let u := (reg rs 1).val s k
        let v := (reg rs 2).val s k
        let nan := u.isNan || v.isNan
        let o := u.cmp v
        match cond with
        | .eq => (if !nan && o == .eq then 1 else 0, 0)
        | .ne => (if nan || o != .eq then 1 else 0, 0)
        | .lt => (if !nan && o == .lt then 1 else 0, if nan then 1 else 0)
        | .le => (if !nan && o != .gt then 1 else 0, if nan then 1 else 0)
        | .gt => (if !nan && o == .gt then 1 else 0, if nan then 1 else 0)
        | .ge => (if !nan && o != .lt then 1 else 0, if nan then 1 else 0)
        | .un => (if nan then 1 else 0, 0))

/-- R139 to R141, R30: VCVT and VCVT.V1, which does the same and counts in DEPCNT as it commits (R354); VDQNT; VQNT, whose block scales are those of R48. That a conversion to E8M0 takes no generator step is
the model's reading (log entry 16). R146, R150: division, roots and the piecewise-polynomial unit, rounded once into a class-F dd. -/
def Obligations.VectorConversions : Prop :=
  (∀ (y : Sync) (d a b : BitVec 4) (ns nf : Bool) (r : Rnd) (s : State),
      let t := (s.desc d).type
      let m := rndMode r .V s
      let n := (s.desc d).count
      let cvt : List VOpnd := [vdst d isCvt, vsrc s d a isCvt]
      let el (ns : Bool) (rs : List Region) (k u : Nat) : Nat × BitVec 6 :=
        let x := codeValue (reg rs 1).type ((reg rs 1).src s k)
        let z := toCode t m ns u x.1
        (z.1, x.2 ||| z.2)
      PerElement (.vcvt y d a ns r nf) s y 1 cvt (m == 4 && !isScale t) nf (el ns) ∧
      (∀ rs, Passes s y 1 cvt rs → ∃ z u, Ends (.vcvt y d a false r nf) s .V y.wait.toList y.sig.toList z ∧ Ends (.vcvtV1 y d a r nf) s .V y.wait.toList y.sig.toList z ∧
        exec (.vcvtV1 y d a r nf) s = .next u ∧ ∃ w ∈ (u.eng .V).past, w.pos = s.pos .V ∧ w.dep = true) ∧
      PerElement (.vdqnt y d a b r nf) s y 1 [vdst d isF, ⟨a, false, isMX, fun c => c == n, true⟩, ⟨b, false, isScale, fun c => c == (n + 31) / 32, true⟩] (m == 4) nf
        (fun rs k u =>
          let x := Val.mul (codeValue (reg rs 1).type ((reg rs 1).get s k)).1 (codeValue 0x05 ((reg rs 2).get s (k / 32))).1
          let z := toCode t m false u x.1
          (z.1, x.2 ||| z.2)) ∧
      (∀ rs, Passes s y 1 [vdst d isMX, ⟨a, false, isF, fun c => c == n, true⟩, ⟨b, true, isScale, fun c => c == (n + 31) / 32, true⟩] rs →
        let e := reg rs 2
        let scale (k : Nat) : Nat := (reg rs 1).scale t n s k
        ∃ x, Ends (.vqnt y d a b r nf) s .V y.wait.toList y.sig.toList x ∧ VectorFrame s x ∧
          (∀ o, ¬Touches (reg rs 0) n id o → ¬Touches e ((n + 31) / 32) id o → x.home o = s.home o) ∧
          (nf = true → x.core.engV.view.flags = s.core.engV.view.flags) ∧
          (n ≤ 128 → Apart (reg rs 0) [e] n id → Apart e [] ((n + 31) / 32) id → (∀ k, k < (n + 31) / 32 → ∀ j, j < e.nb → ¬Touches (reg rs 0) n id (e.at k + j)) →
            (∀ k, k < (n + 31) / 32 → e.get x k = scale k) ∧
            ∀ k, k < n → (reg rs 0).get x k =
              (blockElem t (scale (k / 32)) m false (drawAt s.core.engV.view.seed (m == 4) k).toNat (codeValue (reg rs 1).type ((reg rs 1).get s k)).1).1 % 2 ^ (reg rs 0).width))) ∧
  (∀ (y : Sync) (d a b : BitVec 4) (tb : PwlTable) (ns nf : Bool) (r : Rnd) (s : State),
      let t := (s.desc d).type
      let m := rndMode r .V s
      let f (i : Instr) (srcs : List (BitVec 4)) (g : Val → Val → Val × BitVec 6) : Prop :=
        PerElement i s y 1 (vdst d isF :: srcs.map fun k => vsrc s d k isF) (m == 4) nf fun rs k n =>
          let x := g ((reg rs 1).val s k) ((reg rs 2).val s k)
          let z := toCode t m false n x.1
          (z.1, x.2 ||| z.2)
      let div (p q : Val) : Val × BitVec 6 :=
        if p.isNan || q.isNan then (.nan, 0) else
        match p, q with
        | .inf _, .inf _ => (.nan, flagINV)
        | .inf x, _ => (.inf (x != q.neg?), 0)
        | _, .inf x => (.zero (p.neg? != x), 0)
        | _, _ =>
          if q.isZero then (if p.isZero then (.nan, flagINV) else (.inf (p.neg? != q.neg?), flagDZ))
          else if p.isZero then (.zero (p.neg? != q.neg?), 0) else (Val.quot p q, 0)
      f (.vdiv y d a b r nf) [a, b] div ∧
      f (.vrcp y d a r nf) [a] (fun p _ => div (.ofInt 1) p) ∧
      f (.vsqrt y d a r nf) [a] (fun p _ =>
        if p.isNan then (.nan, 0) else if p.isZero then (p, 0) else if p.neg? then (.nan, flagINV) else if p = .inf false then (p, 0) else (p.root, 0)) ∧
      f (.vrsqrt y d a r nf) [a] (fun p _ =>
        if p.isNan then (.nan, 0) else if p.isZero then (.inf p.neg?, flagDZ) else if p.neg? then (.nan, flagINV) else
        if p = .inf false then (.zero false, 0) else (p.rroot, 0)) ∧
      PerElement (.vpwl y d a tb ns r nf) s y 1 [vdst d isF, vsrc s d a isF] (m == 4) nf (fun rs k n =>
        let x := (reg rs 1).val s k
        let v := match tb with | .user => pwlUser s x | .exp => pwlExp x | .log => pwlLog x
        let z := toCode t m ns n v.1
        (z.1, v.2 ||| z.2)))

/-- R144, R145, R51: reductions and scans complete and write dd alone. Sums of class I are exact and limited at the end; those of class F are rounded at each addition, along the lanes and the
tree for a reduction and in ascending order for a scan; MIN, MAX and AMAX select a value. That a selected value's conversion takes a step of the generator, as a sum's does, is the model's
reading (log entry 97), and that an infinite one saturates (log entry 122). R147, R148: VGTH reads the table elements that the indices name and VSCT writes them; VFLG writes the 128 lanes'
flags and clears those of CLR. -/
def Obligations.VectorReductions : Prop :=
  (∀ (y : Sync) (d a : BitVec 4) (op : CombOp) (r : Rnd) (nf : Bool) (s : State),
      let t := (s.desc d).type
      let n := (s.desc a).count
      let v0 := s.core.engV.view
      let m := rndMode r .V s
      let into := if isF t then m else 0
      let draw (k : Nat) : Nat := (drawAt v0.seed (m == 4) k).toNat
      let seedAfter (x : State) (k : Nat) : Prop := x.core.engV.view.seed = if m = 4 ∧ isF t then Nat.repeat xorshift k v0.seed else v0.seed
      let val (rs : List Region) (k : Nat) : Val := (codeValue (reg rs 1).type ((reg rs 1).get s k)).1
      let adds := decide (op = .add)
      (∀ rs, Passes s y 1 [⟨d, true, isFI, fun c => c == 1, true⟩, ⟨a, false, sameClass t, fun _ => true, true⟩] rs →
        let v (k : Nat) : Int := intVal (reg rs 1).type ((reg rs 1).get s k)
        let e (k : Nat) : Val := if op = .amax then (val rs k).abs else val rs k
        ∃ x, Ends (.vred y d a op r nf) s .V y.wait.toList y.sig.toList x ∧ VectorFrame s x ∧ (∀ o, ¬Touches (reg rs 0) 1 id o → x.home o = s.home o) ∧
          (nf = true → x.core.engV.view.flags = s.core.engV.view.flags ∧ x.core.engV.view.lanes = s.core.engV.view.lanes) ∧
          seedAfter x ((if adds then n - 1 else 0) + if t = 0 then 0 else 1) ∧
          (let gives (z : Val × BitVec 6) (u : Nat) : Prop :=
            let c := toCode t into false u z.1
            (reg rs 0).get x 0 = c.1 % 2 ^ (reg rs 0).width ∧
            (nf = false → x.core.engV.view.flags = v0.flags ||| z.2 ||| c.2 ∧
              ∀ l, l < 128 → Tab.get 0 x.core.engV.view.lanes l = if l = 0 then Tab.get 0 v0.lanes 0 ||| z.2 ||| c.2 else Tab.get 0 v0.lanes l)
           (adds = false → ∃ k, k < n ∧ (∀ i, i < n → Val.pick (op != .min) (e i) (e k) = e k) ∧ gives (e k, 0) (draw 0)) ∧
           (adds = true → isF t = true → gives (treeSum m draw e n 7 0) (draw (n - 1)))) ∧
          (∀ lo hi, intRange? t = some (lo, hi) → op = .add →
            let sum := ((List.range n).map v).sum
            (reg rs 0).get x 0 = ((max lo (min hi sum)) % 2 ^ (reg rs 0).width).toNat ∧
            (nf = false → x.core.engV.view.flags = s.core.engV.view.flags ||| (if sum < lo ∨ hi < sum then flagSAT else 0)))) ∧
      (∀ rs, Passes s y 1 [vdst d isFI, ⟨a, false, sameClass t, fun c => c == (s.desc d).count, true⟩] rs → op ≠ .amax →
        let v (k : Nat) : Int := intVal (reg rs 1).type ((reg rs 1).get s k)
        ∃ x, Ends (.vscan y d a op r nf) s .V y.wait.toList y.sig.toList x ∧ VectorFrame s x ∧ (∀ o, ¬Touches (reg rs 0) n id o → x.home o = s.home o) ∧
          (nf = true → x.core.engV.view.flags = s.core.engV.view.flags ∧ x.core.engV.view.lanes = s.core.engV.view.lanes) ∧
          seedAfter x (if adds then (if t = 0 then n - 1 else 2 * n - 1) else if t = 0 then 0 else n) ∧
          (let z (k : Nat) : Val × BitVec 6 := scanValue op t m draw (val rs) k
           let c (k : Nat) : Nat × BitVec 6 := toCode t into false (draw (if adds then 2 * k else k)) (z k).1
           Apart (reg rs 0) [] n id →
           (∀ i j, i / 128 < j / 128 → j < n → ∀ k l, k < (reg rs 0).nb → l < (reg rs 1).nb → (reg rs 0).at i + k ≠ (reg rs 1).at j + l) →
           (∀ k, k < n → (reg rs 0).get x k = (c k).1 % 2 ^ (reg rs 0).width) ∧
           (nf = false → x.core.engV.view.flags = v0.flags ||| orAll ((List.range n).map fun k => (z k).2 ||| (c k).2) ∧
             ∀ l, l < 128 → Tab.get 0 x.core.engV.view.lanes l = Tab.get 0 v0.lanes l ||| orAll (((List.range n).filter (· % 128 == l)).map fun k => (z k).2 ||| (c k).2))) ∧
          (∀ lo hi, intRange? t = some (lo, hi) → op = .add → Apart (reg rs 0) [reg rs 1] n id → ∀ k, k < n →
            (reg rs 0).get x k = ((max lo (min hi ((List.range (k + 1)).map v).sum)) % 2 ^ (reg rs 0).width).toNat))) ∧
  (∀ (y : Sync) (d a b : BitVec 4) (clr : BitVec 6) (s : State),
      let ix (rs : List Region) (k : Nat) : Nat := (signed 32 ((reg rs 2).get s k)).toNat
      Elementwise (.vgth y d a b) s y 0 [vdst d isFIS, ⟨a, false, fun t => t == (s.desc d).type, fun _ => true, false⟩,
          ⟨b, false, fun t => t == 0x0C, fun c => c == (s.desc d).count, true⟩]
        (fun rs => checkTable s y false (reg rs 1) (reg rs 2)) false true (fun rs => (reg rs 0).count) (fun _ => id) (fun rs k _ => ((reg rs 1).get s (ix rs k), 0)) ∧
      Elementwise (.vsct y d a b) s y 0 [⟨d, true, isFIS, fun _ => true, false⟩, ⟨a, false, fun t => t == (s.desc d).type, fun _ => true, true⟩,
          ⟨b, false, fun t => t == 0x0C, fun c => c == (s.desc a).count, true⟩]
        (fun rs => checkTable s y true (reg rs 0) (reg rs 2)) false true (fun rs => (reg rs 2).count) ix (fun rs k _ => ((reg rs 1).get s k, 0)) ∧
      (∀ rs, Passes s y 1 [⟨d, true, fun t => t == 0x0A, fun c => c == 128, true⟩] rs →
        ∃ x, Ends (.vflg y d clr) s .V y.wait.toList y.sig.toList x ∧ VectorFrame s x ∧ (∀ o, ¬Touches (reg rs 0) 128 id o → x.home o = s.home o) ∧
          x.core.engV.view.flags = s.core.engV.view.flags ∧ x.core.engV.view.seed = s.core.engV.view.seed ∧
          (∀ l, l < 128 → Tab.get 0 x.core.engV.view.lanes l = Tab.get 0 s.core.engV.view.lanes l &&& ~~~clr) ∧
          (Apart (reg rs 0) [] 128 id → ∀ l, l < 128 → (reg rs 0).get x l = (Tab.get 0 s.core.engV.view.lanes l).toNat)))

/-! ## The matrix engine (R153 to R178) -/

/-- R163 to R167, R177: MMA, MMAS and MMAT change their block's accumulators alone; a format they do not accept sets INV; INT8 sums are exact and limited, BF16 sums take
two FP32 steps (R49); without leave the word asks for it, before it pops, and stalls. -/
def Obligations.MatrixMultiply : Prop :=
  ∀ (y : Sync) (c a b : BitVec 4) (slot : BitVec 3) (nf : Bool) (s : State),
    let e := s.fmtEntry slot.toNat
    let fa := entA e
    let xc := (s.x .M c.toNat).toNat
    let key (i j : Nat) : Nat := 64 * ((xc % 1024 + i) % 1024) + 16 * bits xc 17 16 + j
    let mma := Instr.mma y c a b slot nf
    let mmas := Instr.mmas y c a b slot nf
    let mmat := Instr.mmat y c a b slot nf
    let kept (x : State) : Prop := x.core.scratch = s.core.scratch ∧ x.core.dstat = s.core.dstat ∧ x.core.engM.view.seed = s.core.engM.view.seed ∧
      (nf = true → x.core.engM.view.flags = s.core.engM.view.flags)
    let refuses (i : Instr) : Prop := Ends i s .M y.wait.toList y.sig.toList
      ((if nf then s else s.orFlags .M 1).mapCore fun k => { k with idle := 0 })
    let runs (i : Instr) (p : State → Prop) : Prop := ∃ x, Ends i s .M y.wait.toList y.sig.toList x ∧ MatrixFrame s x ∧ kept x ∧
      (∀ k, (∀ i j, i < 16 → j < 16 → k ≠ key i j) → Tab.get 0 x.core.acc k = Tab.get 0 s.core.acc k) ∧ p x
    (s.gate .M = .go → s.core.leave ≠ .held → ∀ i ∈ [mma, mmas, mmat], ∃ t, exec i s = .next t ∧ t.core.leave = .asked ∧
      t.core.acc = s.core.acc ∧ t.core.tok = s.core.tok ∧ (t.eng .M).pc = (s.eng .M).pc ∧ (s.core.leave ≠ .asked → (s.podtime, s.core.id) ∈ t.hub.gov.asks)) ∧
    (s.core.leave = .held → Ready s .M y.wait.toList 1 →
      (fa = 6 → refuses mma ∧ refuses mmas) ∧ (fa ∉ [1, 2, 3, 4, 9, 10] → refuses mmas) ∧ (fa ≠ 6 → refuses mmat) ∧
      (s.older .M (s.pos .M) = true → HasTurn s .M →
        (fa = 6 → runs mmat fun _ => True) ∧
        (fa ∈ [1, 2, 3, 4, 9, 10] → runs mmas fun _ => True) ∧
        (fa ≠ 6 → runs mma fun x => ∀ i j, i < 16 → j < 16 → s.matHome a 48 16 48 → s.matHome b 48 16 48 →
          (fa = 9 → entB e = 9 →
            let at_ (n : BitVec 4) (r k : Nat) : Int := signed 8 (s.home (s.matAt n 48 r k)).toNat
            let sum := (Tab.get 0 s.core.acc (key i j)).toInt + ((List.range 48).map fun k => at_ a i k * at_ b j k).sum
            Tab.get 0 x.core.acc (key i j) = BitVec.ofInt 32 (max (-2 ^ 31) (min (2 ^ 31 - 1) sum))) ∧
          (fa = 2 → entB e = 2 →
            let at_ (n : BitVec 4) (r k : Nat) : Val := bf16.value (s.homeNat (s.matAt n 48 r (2 * k)) 2)
            Tab.get 0 x.core.acc (key i j) =
              (fpStep (Tab.get 0 s.core.acc (key i j)) ((List.range 24).map fun k => (Val.mul (at_ a i k) (at_ b j k)).1)).1))))

/-- R154, R169, R170: MZERO writes +0 and MLDA copies words into the elements of a window and into no other. R171, R173, R174: MDRAIN leaves the accumulators, converts
each element of its window once and replaces its drain-status entry; MSTAT reads an entry and with CLR zeroes it. -/
def Obligations.AccumulatorMoves : Prop :=
  (∀ (y : Sync) (w a : BitVec 4) (s : State), s.older .M (s.pos .M) = true → HasTurn s .M →
      let v := (s.x .M w.toNat).toNat
      let rows := min 1024 (bits v 42 32)
      let ncols := min 64 (bits v 24 18)
      let cols := min ncols (64 - bits v 17 12)
      let key (i j : Nat) : Nat := 64 * ((bits v 9 0 + i) % 1024) + bits v 17 12 + j
      let runs (i : Instr) (n : Nat) (p : State → Prop) : Prop := Ready s .M y.wait.toList n → ∃ x, Ends i s .M y.wait.toList y.sig.toList x ∧ MatrixFrame s x ∧ x.core.scratch = s.core.scratch ∧
        x.core.dstat = s.core.dstat ∧ x.core.idle = s.core.idle ∧ x.core.engM.view.seed = s.core.engM.view.seed ∧
        (∀ k, (∀ i j, i < rows → j < cols → k ≠ key i j) → Tab.get 0 x.core.acc k = Tab.get 0 s.core.acc k) ∧ p x
      (runs (.mzero y w) 0 fun x => x.core.engM.view.flags = s.core.engM.view.flags ∧ ∀ i j, i < rows → j < cols → Tab.get 0 x.core.acc (key i j) = 0) ∧
      (runs (.mlda y w a) 1 fun x => bits (s.x .M a.toNat).toNat 1 0 = 0 → s.matHome a (4 * ncols) rows (4 * cols) →
        x.core.engM.view.flags = s.core.engM.view.flags ∧
        ∀ i j, i < rows → j < cols → Tab.get 0 x.core.acc (key i j) = BitVec.ofNat 32 (s.homeNat (s.matAt a (4 * ncols) i (4 * j)) 4))) ∧
  (∀ (y : Sync) (w a n : BitVec 4) (slot : BitVec 3) (nf clr : Bool) (s : State), Ready s .M y.wait.toList 1 →
      let v := (s.x .M w.toNat).toNat
      let rows := min 1024 (bits v 42 32)
      let cols := min (min 64 (bits v 24 18)) (64 - bits v 17 12)
      let e := s.fmtEntry slot.toNat
      let mode := if bits e 13 11 = 7 then s.core.engM.view.rmode.toNat else bits e 13 11
      let val (i j : Nat) : Val := accVal (intAcc (entA e)) (Tab.get 0 s.core.acc (64 * ((bits v 9 0 + i) % 1024) + bits v 17 12 + j))
      (s.older .M (s.pos .M) = true → HasTurn s .M → ∃ x, Ends (.mdrain y w a slot n nf) s .M y.wait.toList y.sig.toList x ∧ MatrixFrame s x ∧ x.core.acc = s.core.acc ∧
        x.core.idle = s.core.idle ∧ (nf = true → x.core.engM.view.flags = s.core.engM.view.flags) ∧
        (∀ k, k ≠ n.toNat → Tab.get 0 x.core.dstat k = Tab.get 0 s.core.dstat k) ∧
        (let d := (Tab.get 0 x.core.dstat n.toNat).toNat
         bits d 0 0 = 1 ∧ bits d 63 56 = 0 ∧ bits d 7 4 = 0 ∧
         bits d 39 24 = min 0xFFFF (((List.range rows).flatMap fun i => (List.range cols).map (val i)).countP fun x => x == .inf true || x == .inf false) ∧
         (bits d 3 3 = 1 ↔ bits d 55 40 ≠ 0) ∧ (bits d 2 2 = 1 ↔ bits d 39 24 ≠ 0) ∧ (bits d 1 1 = 1 ↔ bits d 23 8 ≠ 0)) ∧
        (entD e = 0 → s.matHome a (4 * cols) rows (4 * cols) → (bits (s.x .M a.toNat).toNat 47 32 = 0 ∨ 4 * cols ≤ bits (s.x .M a.toNat).toNat 47 32) →
          (∀ o, (∀ i b, i < rows → b < 4 * cols → o ≠ s.matAt a (4 * cols) i b) → x.home o = s.home o) ∧
          ∀ i j, i < rows → j < cols → x.homeNat (s.matAt a (4 * cols) i (4 * j)) 4 =
            (toCode 0 mode (e.testBit 10) (drawAt s.core.engM.view.seed (mode == 4) (i * cols + j)).toNat (val i j)).1)) ∧
      (let z := s.setReg .M a.toNat (Tab.get 0 s.core.dstat n.toNat)
       (clr = false → Ends (.mstat y a clr n) s .M y.wait.toList y.sig.toList z) ∧
       (clr = true → s.older .M (s.pos .M) = true →
         Ends (.mstat y a clr n) s .M y.wait.toList y.sig.toList (z.mapCore fun c => { c with dstat := Tab.set 0 c.dstat n.toNat 0 }))))

/-! ## Tile registers (R179 to R206) -/

/-- R183, R187 to R190: the fate of a tile result that is resolved at issue: a mismatch sets INV, a worst case that finds no units faults, and else the outcome is written
into td. R13, R190: under the trap policy a factored result, and TCONF.CHK, pop their tokens as they begin, and run; TILE_EXECUTION_END then writes the result, or raises the rank-overflow, pool-exhaustion or
tile-live fault. -/
def Obligations.TileResults : Prop :=
  (∀ (y : Sync) (d a b r : BitVec 4) (s : State), Ready s .M y.wait.toList 1 → s.core.tileRun = none → (s.eng .M).begun = false → HasTurn s .M →
      let t := s.tdesc d
      let room := s.core.poolFree + t.units
      let fate (i : Instr) (f : State → TRes) : Prop :=
        (f s = .mismatch → Ends i s .M y.wait.toList y.sig.toList (s.orFlags .M 1)) ∧
        (∀ v raw pre fl, f s = .val v raw pre fl → (t.pol ≠ 0 ∨ ∃ m, v = .dense m) →
          let w := worstUnits t (match v with | .fact .. => true | .dense _ => false)
          (room < w → Faults i s .M 0x0E 0 (BitVec.ofNat 64 w) 0 false) ∧
          (∀ o, outcome t s.core.engM.view.tol v raw pre fl = .ok o → w ≤ room → o.units t ≤ room → (s.resolve .M).older .M (s.pos .M) = true →
            Ends i s .M y.wait.toList y.sig.toList ((s.putTile d ⟨({ t with units := o.units t, rank := o.rank, fact := o.fact } : TDesc).word, o.elems⟩).orFlags .M o.fl)))
      fate (.tadd y d a b r) (tileAdd false d a b r) ∧ fate (.tsub y d a b r) (tileAdd true d a b r) ∧ fate (.tmul y d a b) (tileMul d a b) ∧
      fate (.tscal y d a r) (tileScal d a r) ∧ fate (.txp y d a) (tileXp d a) ∧ fate (.trcmp y d a) (tileRcmp true d a) ∧
      fate (.tfact y d a) (tileRcmp false d a) ∧ fate (.tdense y d a) (tileDense d a) ∧ fate (.tld y d a r) (tileLoad y d a r)) ∧
  (∀ (y : Sync) (d a b r : BitVec 4) (s : State),
      let t := s.tdesc d
      let room := s.core.poolFree + t.units
      let after (run : Option TileRun) : State := s.mapCore fun c => { c with tileRun := run }
      let begins (i : Instr) : Prop := ∃ z, exec i s = .next z ∧ z.core.tok = (s.core.pop .M (s.pos .M) y.wait.toList).tok ∧ (z.eng .M).pc = (s.eng .M).pc ∧
        z.arch = (after (some ⟨s.pos .M, i, true⟩)).arch
      let faults (k : Nat) (aux : Word) : Prop := s.core.freeze = none → ∃ f, exec .tileExecutionEnd s =
        .next { s with core := { s.core with tileRun := none, freeze := some f } } ∧ f.cause = k ∧ f.aux = aux ∧ f.pos = s.pos .M ∧ f.eng = 4 ∧ f.after = false
      let run (i : Instr) (f : State → TRes) : Prop :=
        (∀ u w raw pre fl, f s = .val (.fact u w) raw pre fl → t.pol = 0 → s.core.tileRun = none → (s.eng .M).begun = false → Ready s .M y.wait.toList 1 → HasTurn s .M → begins i) ∧
        (∀ p, s.core.tileRun = some ⟨p, i, true⟩ → (s.eng .M).begun = true → Ready (after (some ⟨p, i, false⟩)) .M [] 1 → HasTurn (after (some ⟨p, i, false⟩)) .M →
          ∀ u w raw pre fl, f (after (some ⟨p, i, false⟩)) = .val (.fact u w) raw pre fl → t.pol = 0 →
          (∀ k, outcome t s.core.engM.view.tol (.fact u w) raw pre fl = .error k → faults 0x0D (BitVec.ofNat 64 k)) ∧
          (∀ o, outcome t s.core.engM.view.tol (.fact u w) raw pre fl = .ok o →
            (room < o.units t → faults 0x0E (BitVec.ofNat 64 (o.units t))) ∧
            (o.units t ≤ room → ((after (some ⟨p, i, false⟩)).resolve .M).older .M (s.pos .M) = true → ∃ z, exec .tileExecutionEnd s = .next z ∧ z.core.tileRun = none ∧
              z.arch = ((s.putTile d ⟨({ t with units := o.units t, rank := o.rank, fact := o.fact } : TDesc).word, o.elems⟩).orFlags .M o.fl).arch)))
      run (.tadd y d a b r) (tileAdd false d a b r) ∧ run (.tsub y d a b r) (tileAdd true d a b r) ∧ run (.tmul y d a b) (tileMul d a b) ∧
      run (.tscal y d a r) (tileScal d a r) ∧ run (.txp y d a) (tileXp d a) ∧ run (.trcmp y d a) (tileRcmp true d a) ∧
      run (.tfact y d a) (tileRcmp false d a) ∧ run (.tld y d a r) (tileLoad y d a r) ∧
      (let i := Instr.tconf y d r true
       (s.core.tileRun = none → (s.eng .M).begun = false → Ready s .M y.wait.toList 1 → begins i) ∧
       (∀ p, s.core.tileRun = some ⟨p, i, true⟩ → (s.eng .M).begun = true → Ready (after (some ⟨p, i, false⟩)) .M [] 1 → t.rank ≠ 0 → faults 0x0F (BitVec.ofNat 64 t.rank))))

/-- R180, R196 to R200: the exact values of the dense forms, element by element, before the one rounding of R188. -/
def Obligations.TileValues : Prop :=
  ∀ (d a b r : BitVec 4) (s : State),
    let t := s.tdesc d
    let p := s.tdesc a
    let q := s.tdesc b
    let x := (s.x .M r.toNat).toNat
    let al : Val := if r = 0 then .ofInt 1 else fp32.value (x % 2 ^ 32)
    let be : Val := if r = 0 then .ofInt 1 else fp32.value (x / 2 ^ 32)
    let el (k : BitVec 4) (i j : Nat) : Val := (codeValue (s.tdesc k).etype ((s.tile k).elems.getD (i * (s.tdesc k).cols + j) 0).toNat).1
    let full (k : BitVec 4) : Prop := (s.tdesc k).fact = false ∧ (s.tdesc k).rank ≠ 0 ∧ (s.tile k).elems.length = (s.tdesc k).rows * (s.tdesc k).cols
    let gives (z : TRes) (f : Nat → Nat → Val) : Prop := ∃ m fl, z = .val (.dense m) none false fl ∧ m.length = t.rows ∧
      ∀ i j, i < t.rows → j < t.cols → (m.getD i []).getD j .nan = f i j
    full a →
    (t.rows = p.rows → t.cols = p.cols →
      gives (tileScal d a r s) (fun i j => (Val.mul (fp32.value (x % 2 ^ 32)) (el a i j)).1) ∧ gives (tileDense d a s) (el a) ∧
      (full b → q.rows = p.rows → q.cols = p.cols →
        gives (tileAdd false d a b r s) (fun i j => (sumProds [(al, el a i j), (be, el b i j)]).1) ∧
        gives (tileAdd true d a b r s) (fun i j => (sumProds [(al, el a i j), (be.negate, el b i j)]).1))) ∧
    (t.rows = p.cols → t.cols = p.rows → gives (tileXp d a s) fun i j => el a j i) ∧
    (full b → q.rows = p.cols → t.rows = p.rows → t.cols = q.cols →
      gives (tileMul d a b s) fun i j => (sumProds ((List.range p.cols).map fun l => (el a i l, el b l j))).1)

/-- R193 to R195, R204, R205: TCONF makes td a zero tile of the descriptor it accepts, and replaces one it does not; TRANK, TTOL, TST and TMMA change no tile. TST writes the tile's image row by
row, the unused bits of a row's last byte as zero, which is the model's choice (log entry 125); TMMA adds the sums of R205 to its window. -/
def Obligations.TileAccess : Prop :=
  ∀ (y : Sync) (d a b r : BitVec 4) (slot : BitVec 3) (nf : Bool) (s : State),
    let x := (s.x .M r.toNat).toNat
    let ty := bits x 32 28
    let ok : Prop := bits x 63 56 = 0 ∧ bits x 13 0 = 0 ∧ 1 ≤ bits x 20 14 ∧ bits x 20 14 ≤ 64 ∧ 1 ≤ bits x 27 21 ∧ bits x 27 21 ≤ 64 ∧
      1 ≤ bits x 39 34 ∧ bits x 39 34 ≤ 32 ∧ (if x.testBit 33 then ty = 0 ∨ ty = 1 ∨ ty = 2 else isF ty || isI ty || isPacked ty)
    let pol := if bits x 41 40 = 3 then s.core.engM.view.ovfpol.toNat else bits x 41 40
    (Ready s .M y.wait.toList 1 → s.core.tileRun = none → (s.eng .M).begun = false → (s.resolve .M).older .M (s.pos .M) = true →
      (ok → Ends (.tconf y d r false) s .M y.wait.toList y.sig.toList
        (s.putTile d ⟨BitVec.ofNat 64 (x % 2 ^ 40 + pol * 2 ^ 40), []⟩)) ∧
      (¬ok → Ends (.tconf y d r false) s .M y.wait.toList y.sig.toList
        ((s.putTile d ⟨BitVec.ofNat 64 (0x0000008228100000 + s.core.engM.view.ovfpol.toNat * 2 ^ 40), []⟩).orFlags .M 1))) ∧
    (Ready s .M y.wait.toList 1 → Ends (.trank y d a) s .M y.wait.toList y.sig.toList (s.setReg .M d.toNat (s.tile a).desc)) ∧
    (Ready s .M y.wait.toList 2 →
      let z := svdSource (s.tile a)
      let c := recompress z.1 z.2.1 z.2.2 s.core.engM.view.tol
      Ends (.ttol y d a) s .M y.wait.toList y.sig.toList
        ((if c.inv then s.orFlags .M 1 else s).setReg .M d.toNat
          (if z.2.2 = 0 then 0 else if c.inv then BitVec.allOnes 64 else BitVec.ofNat 64 (c.resid * 2 ^ 32 + c.v.length)))) ∧
    (Ready s .M y.wait.toList 1 → s.older .M (s.pos .M) = true → HasTurn s .M → ∃ u, Ends (.tst y a r) s .M y.wait.toList y.sig.toList u ∧ MatrixFrame s u ∧ u.core.acc = s.core.acc ∧
      u.core.dstat = s.core.dstat ∧ ((s.tdesc a).fact = true → (s.tdesc a).rank = 0 → u.core.scratch = s.core.scratch) ∧
      let t := s.tdesc a
      let w := codeWidth t.etype
      let el (k : Nat) : Nat := if t.rank = 0 then 0 else ((s.tile a).elems.getD k 0).toNat % 2 ^ w
      let len (c : Nat) : Nat := (c * w + 7) / 8
      let fits (n : BitVec 4) (rows c : Nat) : Prop := s.matHome n (len c) rows (len c) ∧ (bits (s.x .M n.toNat).toNat 47 32 = 0 ∨ len c ≤ bits (s.x .M n.toNat).toNat 47 32)
      let named (n : BitVec 4) (rows c o : Nat) : Prop := ∃ i b, i < rows ∧ b < len c ∧ o = s.matAt n (len c) i b
      let image (n : BitVec 4) (rows c from_ : Nat) : Prop := ∀ i b, i < rows → b < len c → u.home (s.matAt n (len c) i b) =
        BitVec.ofNat 8 (((List.range c).map fun j => el (from_ + i * c + j) * 2 ^ (w * j)).sum / 2 ^ (8 * b))
      (t.fact = false → (t.rank = 0 ∨ (s.tile a).elems.length = t.rows * t.cols) → fits r t.rows t.cols →
        u.core.engM.view.flags = s.core.engM.view.flags ∧ (∀ o, ¬named r t.rows t.cols o → u.home o = s.home o) ∧ image r t.rows t.cols 0) ∧
      (t.fact = true → t.rank ≠ 0 → r ≠ 15 → (s.tile a).elems.length = (t.rows + t.cols) * t.rank → fits r t.rows t.rank → fits (r + 1) t.rank t.cols →
        (∀ o, named r t.rows t.rank o → ¬named (r + 1) t.rank t.cols o) →
        u.core.engM.view.flags = s.core.engM.view.flags ∧ (∀ o, ¬named r t.rows t.rank o → ¬named (r + 1) t.rank t.cols o → u.home o = s.home o) ∧
        image r t.rows t.rank 0 ∧ image (r + 1) t.rank t.cols (t.rows * t.rank))) ∧
    (Ready s .M y.wait.toList 1 → s.core.leave = .held →
      let e := (s.tdesc a).etype
      let f := entB (s.fmtEntry slot.toNat)
      let w := (s.x .M d.toNat).toNat
      (isF e = false ∨ f ≠ 1 ∧ f ≠ 2 → Ends (.tmma y d a b slot nf) s .M y.wait.toList y.sig.toList
        ((if nf then s else s.orFlags .M 1).mapCore fun k => { k with idle := 0 })) ∧
      (isF e = true → f = 1 ∨ f = 2 → s.older .M (s.pos .M) = true → HasTurn s .M → ∃ u, Ends (.tmma y d a b slot nf) s .M y.wait.toList y.sig.toList u ∧ MatrixFrame s u ∧
        u.core.scratch = s.core.scratch ∧ u.core.dstat = s.core.dstat ∧ (nf = true → u.core.engM.view.flags = s.core.engM.view.flags) ∧
        let t := s.tdesc a
        let n := min (min 64 (bits w 24 18)) (64 - bits w 17 12)
        let key (i j : Nat) : Nat := 64 * ((bits w 9 0 + i) % 1024) + bits w 17 12 + j
        let el (k : Nat) : Val := (codeValue e ((s.tile a).elems.getD k 0).toNat).1
        let col (j q : Nat) : Val := (codeValue f (s.homeNat (s.matAt b (2 * t.cols) j (2 * q)) 2)).1
        let adds (i j : Nat) (l : List (Val × Val)) : Prop :=
          Tab.get 0 u.core.acc (key i j) = (fpStep (Tab.get 0 s.core.acc (key i j)) (l.map fun p => (Val.mul p.1 p.2).1)).1
        (∀ k, (∀ i j, i < t.rows → j < n → k ≠ key i j) → Tab.get 0 u.core.acc k = Tab.get 0 s.core.acc k) ∧
        (s.matHome b (2 * t.cols) n (2 * t.cols) → ∀ i j, i < t.rows → j < n →
          (t.fact = false → t.rank = 0 → adds i j []) ∧
          (t.fact = false → t.rank ≠ 0 → (s.tile a).elems.length = t.rows * t.cols → adds i j ((List.range t.cols).map fun q => (el (i * t.cols + q), col j q))) ∧
          (t.fact = true → (s.tile a).elems.length = (t.rows + t.cols) * t.rank → adds i j ((List.range t.rank).map fun l =>
            (el (i * t.rank + l), bf16.value (bf16.round 0 false 0 (sumProds ((List.range t.cols).map fun q => (el (t.rows * t.rank + l * t.cols + q), col j q))).1).1))))))

/-! ## Arrivals, transfers and collectives (R87, R90, R115, R116, R366 to R391) -/

/-- R87, R90: BARV is a release and one arrival; an arrival counts at its object, or flips its phase, clears ARRIVE and keeps ERR and EXPECT. What fires on the flip is
R89's. R116, R130, R374, R376: an element is written or added at its target, and a transfer whose target takes it no longer is acknowledged with 5; an acknowledgement
ends its transfer, with LOCAL's arrival or with its status in the object; one unacknowledged for 10 ms ends with 6. R368: a packet that has room enters its
channel's buffer, and the head of a channel leaves it for its package or for the link of its route. R269: the bank has then served the port at which the element came. That an element is applied
whatever crew of its job its core runs by then, and the wrap of the counter of a stall, are the model's (log entries 106 and 94). -/
def Obligations.ArrivalsAndTransfers : Prop :=
  (∀ (y : Sync) (r : BitVec 5) (sc : Scope) (s : State),
      (Ready s .S y.wait.toList 0 → s.older .S (s.pos .S) = true →
        let i := Instr.barv y r sc
        let h := (s.x .S r.toNat).toNat
        let id := bits h 10 0
        let k := s.core.id
        let d := handleDest k h
        let ends (x : State) : Prop := Ends i s .S y.wait.toList y.sig.toList x
        (s.core.olderAny (s.pos .S) = true ∨ s.crewSends (s.pos .S) = true → Stalls i s .S scMem) ∧
        (s.core.olderAny (s.pos .S) = false → s.crewSends (s.pos .S) = false →
          (dropped s k h = true → ends (s.setErr k id 1)) ∧
          (dropped s k h = false →
            (destPkg d = Config.pkgpos → ends { s with net := { s.net with arrivals := s.net.arrivals ++ [⟨max sc.code (scopeOf k (destCore d)), destCore d, id, k⟩] } }) ∧
            (destPkg d ≠ Config.pkgpos → routePort s (coreTag s k) (destPkg d) = none → ends (s.setErr k id 4)) ∧
            (destPkg d ≠ Config.pkgpos → routePort s (coreTag s k) (destPkg d) ≠ none → ∃ x, ends x ∧ x.core = s.core ∧ x.net.nextXfer = s.net.nextXfer + 1 ∧
              x.net.arrivals = s.net.arrivals)))) ∧
      (∀ a, s.net.arrivals = [a] →
        let c := s.coreAt a.core
        let o := Tab.get 0 c.barriers a.obj
        let expect := max 1 (bits o.toNat 55 28)
        let n := bits o.toNat 27 0 + 1
        let same (t : State) : Prop := (∀ k, k ≠ a.core → t.coreAt k = s.coreAt k) ∧ (∀ j, j ≠ a.obj → Tab.get 0 (t.coreAt a.core).barriers j = Tab.get 0 c.barriers j) ∧
          t.mem = s.mem ∧ t.net.arrivals = []
        (n < expect → ∃ t, exec .barrierArrivalApply s = .next t ∧ same t ∧
          Tab.get 0 (t.coreAt a.core).barriers a.obj = mkObj (o.getLsbD 63) (bits o.toNat 59 56) (bits o.toNat 55 28) n) ∧
        (expect ≤ n → (∀ e ∈ c.armed, ¬(e.2.obj = a.obj ∧ e.2.phase = !o.getLsbD 63)) → ∃ t, exec .barrierArrivalApply s = .next t ∧ same t ∧
          Tab.get 0 (t.coreAt a.core).barriers a.obj = mkObj (!o.getLsbD 63) (bits o.toNat 59 56) (bits o.toNat 55 28) 0))) ∧
  (∀ s : State,
      (∀ e l, s.net.elems = e :: l → (∀ x ∈ l, bankOf e.off ≤ bankOf x.off) → s.behind e.req (e.core, bankOf e.off) = false →
        (delivers s e.core e.tag = true → (∀ j, j < e.bytes.length → (s.coreAt e.core).inQueue (e.off + j) = false) → e.count = false → e.last = false →
          ∃ t, exec .sendtElementApply s = .next t ∧ t.net.elems = l ∧ t.mem = s.mem ∧
            (let old := ofBytes ((List.range e.bytes.length).map fun j => s.byteAt (.spad e.core (e.off + j)))
             ofBytes ((List.range e.bytes.length).map fun j => t.byteAt (.spad e.core (e.off + j))) = transformAdd e.acc old (ofBytes e.bytes) % 2 ^ (8 * e.bytes.length)) ∧
            ∀ k o, k ≠ e.core ∨ o < e.off ∨ e.off + e.bytes.length ≤ o → t.byteAt (.spad k o) = s.byteAt (.spad k o)) ∧
        (delivers s e.core e.tag = false → e.port = false → ∃ t, exec .sendtElementApply s = .next t ∧ t.mem = s.mem ∧
          t.net = { s.net with elems := l.filter fun x => !(x.xfer == e.xfer && x.src == e.src), acks := s.net.acks ++ [⟨e.xfer, 5⟩] } ∧
          ∀ k, { t.coreAt k with bankPtr := [] } = { s.coreAt k with bankPtr := [] })) ∧
      (∀ a l, s.net.acks = a :: l →
        (s.net.xfers.find? (fun x => x.id == a.xfer) = none → exec .transferAcknowledgement s = .next { s with net := { s.net with acks := l } }) ∧
        (∀ x, s.net.xfers.find? (fun x => x.id == a.xfer) = some x → x.coll = none →
          let u : State := { s with net := { s.net with acks := l, xfers := s.net.xfers.filter fun y => y.id != x.id } }
          (a.status ≠ 0 → exec .transferAcknowledgement s = .next (u.setErr x.core x.obj a.status)) ∧
          (a.status = 0 → x.local? = none → exec .transferAcknowledgement s = .next u) ∧
          (∀ id, a.status = 0 → x.local? = some id → exec .transferAcknowledgement s = .next (applyArrival u x.core id)))) ∧
      (∀ x, s.net.xfers.find? (fun x => decide (x.since + 10000000 ≤ s.podtime) && !s.timersStop x.tag) = some x → x.coll = none →
        exec .ackTimeout s = .next (({ s with net := { s.net with xfers := s.net.xfers.filter fun y => y.id != x.id } } : State).setErr x.core x.obj 6))) ∧
  (∀ (s : State) (n vc : Nat) (p : Packet) (l : List Packet), n < 32 →
    let bufs (t : State) : List Packet := Tab.get [] (t.port n).bufs vc
    ((s.port n).service = true → s.health.sec.testBit 0 = false → p.vc = vc → 1 ≤ p.kind → p.kind ≤ 4 → p.reservedSet = false → p.payload.length ≤ 4096 → (∃ j ∈ s.net.jobs, j.1 = p.tag) → s.gang.gtag ≠ p.tag →
      s.gang.parked? p.tag = none → s.bufFits n p = true → destPkg p.dest ≠ Config.pkgpos → ∃ t, exec (.packetReceive n p 0) s = .next t ∧ bufs t = bufs s ++ [p]) ∧
    (bufs s = p :: l →
      (destPkg p.dest = Config.pkgpos → p.kind = 4 → (∃ j ∈ s.net.jobs, j.1 = p.tag) → ∃ t, exec (.packetAdvance n vc) s = .next t ∧ bufs t = l ∧ t.net.acks = s.net.acks ++ [⟨p.ctag, p.status⟩]) ∧
      (∀ q, destPkg p.dest ≠ Config.pkgpos → routePort s p.tag (destPkg p.dest) = some q → s.canEmit q p = true →
        ∃ t, exec (.packetAdvance n vc) s = .next t ∧ bufs t = l ∧ p ∈ (t.port q).out)))

/-- R97, R98, R383, R385, R389, R390: COLL hands its pointers to the unit, which refuses a pair or accepts it and readies RECV; RLINV empties cached rank lists; what the
unit's events do to the collective they concern. R391: one accepted while its crew's forced pre-emption drains aborts with status 9. The wrap of the counter of a stall is the model's (log
entry 94). -/
def Obligations.Collectives : Prop :=
  ∀ (y : Sync) (d a : BitVec 5) (slot : Option (BitVec 3)) (s : State),
    let p := s.x .S d.toNat
    let l := s.x .S a.toNat
    let k := s.core.id
    (Ready s .S y.wait.toList 0 → s.doneTo (s.pos .S) = true → s.crewSends (s.pos .S) = false →
      let i := Instr.coll y d a
      ((s.eng .S).kept = none → (∀ v, window p ≠ .global v) → (∀ v, window p ≠ .priv v) → Faults i s .S 0x03 0 0 p false) ∧
      (∀ pl, Checked s .S ((collPtr s p 64).bind fun _ => collPtr s l 16) pl →
        (16 ≤ s.core.colls.length ∨ s.core.collAsk ≠ none → Stalls i s .S scNet) ∧
        (s.core.colls.length < 16 → s.core.collAsk = none →
          Flies i s .S y.wait.toList (s.mapCore fun c => { c with collAsk := some ⟨s.pos .S, p.toNat, l.toNat⟩ })))) ∧
    (Ready s .S y.wait.toList 0 → s.core.collAsk = none → s.older .S (s.pos .S) = true →
      Ends (.rlinv y slot) s .S y.wait.toList y.sig.toList
        (s.mapCore fun c => { c with ranks := c.ranks.filter fun r => match slot with | none => false | some n => r.1 != n.toNat })) ∧
    (∀ q, s.core.collAsk = some q → s.older .S q.pos = true → s.core.colls.length < 16 →
      let c := CDesc.of ((ptrRead s q.desc 64).getD [])
      let s1 := s.mapCore fun x => { x with collAsk := none }
      (rankList s1 q.list c.slot = none → ∃ t, exec .collAccept s = .next t ∧ t.core.collAsk = none ∧ t.core.colls.length = s.core.colls.length) ∧
      (∀ ext ranks s2, rankList s1 q.list c.slot = some (ext, ranks, s2) → ∀ x, derive c ext ranks = some x → c.recv ≠ c.done →
        (∀ j ∈ s.core.colls, j.cdesc.recv ≠ c.recv ∧ j.cdesc.recv ≠ c.done ∧ j.cdesc.done ≠ c.recv ∧ j.cdesc.done ≠ c.done) →
        bufOk s.core c.src x.bytesA = true → bufOk s.core c.dst x.bytesB = true →
        ∃ t j, exec .collAccept s = .next t ∧ t.core.collAsk = none ∧ j ∈ t.core.colls ∧ t.core.colls.length = s.core.colls.length + 1 ∧
          j.tag = c.tag ∧ j.cdesc = c ∧ j.step = 0 ∧ j.status = (if s.forcedOut = true ∧ s.switching = false then 9 else 0) ∧ j.flips = 0 ∧
          Tab.get 0 t.core.barriers c.recv = mkObj ((Tab.get 0 s.core.barriers c.recv).getLsbD 63) 0 x.expect 0)) ∧
    (∀ j x r, s.collSends = some (j, x, r) → ∃ t, exec .collStep s = .next t ∧
      (routePort s (coreTag s k) r.pkg ≠ none → t.net.nextXfer = s.net.nextXfer + 1 ∧ ∃ n ∈ t.core.colls, n.desc = j.desc ∧ n.step = j.step + 1 ∧ n.sent = j.sent + 1) ∧
      (routePort s (coreTag s k) r.pkg = none → ∃ n ∈ t.core.colls, n.desc = j.desc ∧ n.status = 4)) ∧
    (∀ j, s.collOver = some j → ∃ t, exec .collCompletionArrival s = .next t ∧ t.core.colls.length + 1 = s.core.colls.length ∧
      (j.status = 0 → j.spoiled = [] → (∀ x, j.ex? = some x → ∀ n, x.kind ≠ .reduceScatter n) → t.core.scratch = s.core.scratch) ∧
      (j.status ≠ 0 → ∀ o, o ∉ j.spoiled → o ∉ j.aborted → t.home o = s.home o)) ∧
    (∀ tag j, s.core.colls.find? (fun j => j.tag == tag && !j.frozen) = some j → j.status = 0 →
      ∃ t, exec (.collAbort tag) s = .next t ∧ ∃ n ∈ t.core.colls, n.desc = j.desc ∧ n.status = 8) ∧
    (∀ j, s.core.colls.find? (fun j => j.status == 0 && !j.frozen && (j.waiting && decide (j.since + 50000000 ≤ s.podtime) ||
        s.net.xfers.any fun x => x.coll == some j.id && x.core == k && decide (x.since + 50000000 ≤ s.podtime))) = some j → s.timersStop (coreTag s k) = false →
      ∃ t, exec .collStepTimeout s = .next t ∧ ∃ n ∈ t.core.colls, n.desc = j.desc ∧ n.status = 7) ∧
    (∀ m : Packet, m.kind = 3 → m.acc = 1 → s.health.sec.testBit 0 = false → (∃ j ∈ s.net.jobs, j.1 = m.tag) → s.gang.parked? m.tag = none → s.gang.gtag ≠ m.tag → (∀ c ∈ s.cores, coreTag s c.id = m.tag → ∀ j ∈ c.colls, j.awaits m.ctag (destPkg m.src) = false) →
      (s.net.held.filter fun h => h.packet.tag == m.tag).length < 64 →
      exec (.readyMessage m) s = .next { s with net := { s.net with nextXfer := s.net.nextXfer + 1, held := s.net.held ++ [⟨s.net.nextXfer, m⟩] } }) ∧
    (∀ j, s.owesReady = some j → ∀ x, j.ex? = some x → ∀ m, x.senders = [m] → ∃ t n, exec .readyRetry s = .next t ∧ n ∈ t.core.colls ∧ n.desc = j.desc ∧
      n.retry = s.podtime + 10000 ∧ (routePort s (coreTag s k) m ≠ none → m ∈ n.told))

/-- R366 to R373, R421: a packet that fails its CRC in nine transmissions is discarded, and the ninth such packet of a link in an hour maps the link out; one that is malformed, or whose job is
not bound here, is discarded; one that has room enters its channel's buffer; the head of a channel is
delivered, or goes on toward its package where the next router has credits for it, which return when that router frees a packet, in the form the model gives the event (log entry 65); a link
that fails is mapped out. -/
def Obligations.Packets : Prop :=
  ∀ (n vc bad : Nat) (p : Packet) (s : State), n < 32 →
    let bufs (t : State) : List Packet := Tab.get [] (Tab.get Port.reset t.net.ports n).bufs p.vc
    let gone : Host.Outcome State Fault Refusal := .next { s with net := { s.net with discards := s.net.discards + 1 } }
    ((Tab.get Port.reset s.net.ports n).service = true → s.health.sec.testBit 0 = false → 8 < bad →
      let tries := s.health.retrans.filter (fun x => s.podtime < x.2 + 3600000000000) ++ [(n, s.podtime)]
      let lost : State := { s with net := { s.net with discards := s.net.discards + 1 }, health := { s.health with retrans := tries } }
      ((tries.filter fun x => x.1 == n).length ≤ 8 → exec (.packetReceive n p bad) s = .next lost) ∧
      (8 < (tries.filter fun x => x.1 == n).length → Out.link n ∉ s.health.outs → ∃ t, exec (.packetReceive n p bad) s = .next t ∧
        t.net.discards = s.net.discards + 1 ∧ Out.link n ∈ t.health.outs ∧ (Tab.get Port.reset t.net.ports n).service = false ∧ t.core = s.core ∧ t.mem = s.mem)) ∧
    ((Tab.get Port.reset s.net.ports n).service = true → s.health.sec.testBit 0 = false → bad ≤ 8 →
      (p.kind = 0 ∨ 5 < p.kind ∨ p.reservedSet = true ∨ 4096 < p.payload.length → exec (.packetReceive n p bad) s = gone) ∧
      (1 ≤ p.kind → p.kind ≤ 4 → p.reservedSet = false → p.payload.length ≤ 4096 →
        ((∀ j ∈ s.net.jobs, j.1 ≠ p.tag) → exec (.packetReceive n p bad) s = gone) ∧
        ((∃ j ∈ s.net.jobs, j.1 = p.tag) → s.gang.gtag ≠ p.tag → s.gang.parked? p.tag = none → s.bufFits n p = true →
          (destPkg p.dest ≠ Config.pkgpos ∨ bufs s ≠ [] → ∃ t, exec (.packetReceive n p bad) s = .next t ∧ bufs t = bufs s ++ [p] ∧ t.core = s.core ∧ t.mem = s.mem) ∧
          (destPkg p.dest = Config.pkgpos → bufs s = [] → p.kind = 4 →
            ∃ t, exec (.packetReceive n p bad) s = .next t ∧ bufs t = [] ∧ t.net.acks = s.net.acks ++ [⟨p.ctag, p.status⟩] ∧ t.core = s.core)))) ∧
    (∀ l, Tab.get [] (Tab.get Port.reset s.net.ports n).bufs vc = p :: l →
      let left (t : State) : Prop := Tab.get [] (Tab.get Port.reset t.net.ports n).bufs vc = l
      (destPkg p.dest ≠ Config.pkgpos →
        (routePort s p.tag (destPkg p.dest) = none → ∃ t, exec (.packetAdvance n vc) s = .next t ∧ left t ∧ t.core = s.core ∧ t.mem = s.mem ∧
          t.net.discards = s.net.discards + 1) ∧
        (∀ q, routePort s p.tag (destPkg p.dest) = some q →
          (s.canEmit q p = true → ∃ t, exec (.packetAdvance n vc) s = .next t ∧ left t ∧ t.core = s.core ∧ t.mem = s.mem ∧ p ∈ (Tab.get Port.reset t.net.ports q).out) ∧
          (s.canEmit q p = false → exec (.packetAdvance n vc) s = .next s))) ∧
      (destPkg p.dest = Config.pkgpos → (∀ j ∈ s.net.jobs, j.1 ≠ p.tag) → ∃ t, exec (.packetAdvance n vc) s = .next t ∧ left t ∧ t.core = s.core ∧ t.mem = s.mem ∧
        t.net.discards = s.net.discards + 1 ∧ t.net.elems = s.net.elems ∧ t.net.acks = s.net.acks) ∧
      (destPkg p.dest = Config.pkgpos → (∃ j ∈ s.net.jobs, j.1 = p.tag) → p.kind = 1 → delivers s (destCore p.dest) p.tag = true → ∃ t, exec (.packetAdvance n vc) s = .next t ∧ left t ∧
        t.core = s.core ∧ t.mem = s.mem ∧ (t.net.elems.drop s.net.elems.length).flatMap (·.bytes) =
          p.payload.take (p.payload.length / packetElem s p * packetElem s p)) ∧
      (destPkg p.dest = Config.pkgpos → (∃ j ∈ s.net.jobs, j.1 = p.tag) → p.kind = 4 → ∃ t, exec (.packetAdvance n vc) s = .next t ∧ left t ∧ t.net.acks = s.net.acks ++ [⟨p.ctag, p.status⟩])) ∧
    (let x := Tab.get Port.reset s.net.ports n
     ∀ a, x.ahead.find? (fun a => a.1 == vc) = some a → s.net.wait = [] →
      exec (.packetAdvance (32 + n) vc) s = .next { s with net := { s.net with ports := Tab.set Port.reset s.net.ports n { x with ahead := x.ahead.erase a } } }) ∧
    (Out.link n ∉ s.health.outs → ∃ t, exec (.linkFailure n) s = .next t ∧ (Tab.get Port.reset t.net.ports n).service = false ∧
      (Tab.get Port.reset t.net.ports n).out = [] ∧ Out.link n ∈ t.health.outs ∧ t.core = s.core ∧ t.mem = s.mem)

/-- R370, R371, R348 to R352: BIND and UNBIND set a context's job; a write of LOAD or UNLOAD sets BUSY, and while it is set the operation is
carried out: LOAD adds an object and answers its handle, UNLOAD removes one, and a failing one answers its code alone. That a second turn of the same write carries the operation out is the
model's form of its time (log entry 36). -/
def Obligations.JobsAndObjects : Prop :=
  ∀ (s : State) (fn : Nat) (v : Word), s.health.stage = 6 → fn < 33 → v.getLsbD 63 = true →
    let n := v.toNat
    let k := bits n 43 32
    let tag := bits n 15 0
    let set := bitmapPkgs s s.net.jarg.toNat
    let a := s.net.jarg.toNat
    (bits n 55 52 = 1 →
      (∀ x, s.ctx? k = some x → tag ≠ 0 → a % 64 = 0 → a + 1024 ≤ 2 ^ 52 → Config.pkgpos ∈ set → x.job = 0 →
        (∀ j, s.net.jobs.find? (fun j => j.1 == tag) = some j → j.2.pkgs = set) →
        ∃ t, exec (.bind v) s = .next t ∧ t.net.jresult = 0 ∧ t.ctx? k = some { x with job := tag } ∧ (∃ j ∈ t.net.jobs, j.1 = tag ∧ j.2.pkgs = set) ∧
          t.core = s.core ∧ t.mem = s.mem) ∧
      (s.ctx? k = none ∨ tag = 0 → ∃ t, exec (.bind v) s = .next t ∧ t.net.jresult = 1 ∧ t.ctxs = s.ctxs ∧ t.net.jobs = s.net.jobs)) ∧
    (bits n 55 52 = 2 →
      (∀ x, s.ctx? k = some x → tag ≠ 0 →
        (x.job ≠ 0 → ∃ t, exec (.unbind v) s = .next t ∧ t.net.jresult = 0 ∧ t.ctx? k = some { x with job := 0 } ∧ t.core = s.core ∧ t.mem = s.mem) ∧
        (x.job = 0 → ∃ t, exec (.unbind v) s = .next t ∧ t.net.jresult = 5 ∧ t.ctxs = s.ctxs))) ∧
    (let f := s.func fn
     let begun : State := s.setFunc fn { f with lcmd := BitVec.ofNat 64 (bits n 55 52 * 2 ^ 52 + k * 2 ^ 32 + tag), lbusy := some v }
     f.lbusy = none → (bits n 55 52 = 1 → exec (.load fn v) s = .next begun) ∧ (bits n 55 52 = 2 → exec (.unload fn v) s = .next begun)) ∧
    (let f := s.func fn
     let s1 := s.setFunc fn { f with lbusy := none }
     f.lbusy = some v → ∀ x, s.ctx? k = some x → x.fn = fn →
      (bits n 55 52 = 1 →
        (∀ u h, loadObject s1 k x f.larg.toNat = .ok (u, h) → ∃ t, exec (.load fn v) s = .next t ∧ (t.func fn).lbusy = none ∧ (t.func fn).lresult = 0 ∧ (t.func fn).lhandle = h ∧
          t.mem = u.mem ∧ t.ctxs = u.ctxs ∧ t.core = u.core) ∧
        (∀ e, loadObject s1 k x f.larg.toNat = .error e → ∃ t, exec (.load fn v) s = .next t ∧ (t.func fn).lresult = e.1 ∧ (t.func fn).ldetail = e.2 ∧
          t.ctxs = s.ctxs ∧ t.core = s.core ∧ t.mem = s.mem)) ∧
      (bits n 55 52 = 2 →
        ((∃ l ∈ s.hub.launches, l.ctx = k) → ∃ t, exec (.unload fn v) s = .next t ∧ (t.func fn).lresult = 0x0B ∧ t.ctxs = s.ctxs ∧ t.mem = s.mem) ∧
        ((∀ l ∈ s.hub.launches, l.ctx ≠ k) → (∀ o ∈ x.objs, o.handle ≠ tag) →
          ∃ t, exec (.unload fn v) s = .next t ∧ (t.func fn).lresult = 0x0C ∧ t.ctxs = s.ctxs ∧ t.mem = s.mem) ∧
        (∀ o, x.objs.find? (fun o => o.handle == tag) = some o → (∀ l ∈ s.hub.launches, l.ctx ≠ k) →
          ∃ t z, exec (.unload fn v) s = .next t ∧ (t.func fn).lresult = 0 ∧ t.ctx? k = some z ∧ ∀ q ∈ z.objs, q.handle ≠ tag)))

/-! ## Leave, migration and easy-all (R119, R177, R178, R392 to R406, R417, R418, R424) -/

/-- R177, R178, R417, R418, R119, R424: leave is granted in request order while the budget holds, given up when idle, revoked when a limit, a sample or a hot die calls
for it; a migrated page takes its contents along, and where its tier has no room it stays. The mean before ten samples and the pages taken for a larger page are the
model's choices (log entries 30 and 24). -/
def Obligations.LeaveAndMigration : Prop :=
  ∀ (s : State) (k pt : Nat) (l : List (Nat × Nat)),
    let g := s.hub.gov
    let budget (h : Gov) (granted : Nat) : Prop :=
      100 * (h.samples.sum + 3 * (granted : Int) * max 1 h.samples.length) ≤ (if h.hot = [] then 100 else 60) * (h.limit : Int) * max 1 h.samples.length
    let kept (t : State) : Prop := t.mem = s.mem ∧ t.ctxs = s.ctxs ∧ ∀ c, (t.coreAt c).crew = (s.coreAt c).crew ∧ (t.coreAt c).acc = (s.coreAt c).acc
    (g.asks = (pt, k) :: l →
      (budget g (g.granted.length + 1) →
        ∃ t, exec (.leaveGrant k) s = .next t ∧ (t.coreAt k).leave = .held ∧ (t.coreAt k).idle = 0 ∧ t.hub.gov = { g with asks := l, granted := g.granted ++ [k] } ∧ kept t) ∧
      (¬budget g (g.granted.length + 1) → exec (.leaveGrant k) s = .next s)) ∧
    (s.core.leave = .held → 4096 ≤ s.core.idle → ∃ t, exec .leaveIdleRelease s = .next t ∧ t.core.leave = .none ∧ s.core.id ∉ t.hub.gov.granted ∧ t.mem = s.mem) ∧
    (∀ v : Word, s.health.pcie = true → s.health.sec.testBit 0 = false → ∃ t, exec (.pwrlimWrite v) s = .next t ∧
      t.hub.gov.limit = min 1650 (max 400 (v.toNat % 2 ^ 16)) ∧ (t.hub.gov.granted = [] ∨ budget t.hub.gov t.hub.gov.granted.length) ∧
      t.hub.gov.granted <+: g.granted ∧ kept t) ∧
    (∀ w : Nat, ∃ t, exec (.governorTick w) s = .next t ∧ t.hub.gov.samples = (((w : Int) - 3 * (g.granted.length : Int)) :: g.samples).take 10 ∧
      (t.hub.gov.granted = [] ∨ budget t.hub.gov t.hub.gov.granted.length) ∧ kept t) ∧
    (∀ d c : Nat, ∃ t, exec (.dieTemperatureChange d c) s = .next t ∧ (105 < c → d ∈ t.hub.gov.hot) ∧ (c < 95 → d ∉ t.hub.gov.hot) ∧
      (95 ≤ c → c ≤ 105 → t.hub.gov.hot = g.hot) ∧ (t.hub.gov.granted = [] ∨ budget t.hub.gov t.hub.gov.granted.length) ∧ kept t) ∧
    (∀ x, s.core.copies.find? (fun x => !x.pages.isEmpty) = some x → ∀ w, s.core.crew = some w → ∀ va pa b r, x.pages = (va, pa, b) :: r →
      (targetRun (s.health.free (x.tier == 1)) (2 ^ (b - 16)) = none → ∃ t, exec .migrationPageMove s = .next t ∧ t.mem = s.mem ∧ t.core.tlb = s.core.tlb ∧
        ∃ f ∈ t.health.log, f.kind = 6 ∧ f.addr = pa) ∧
      (∀ dst, targetRun (s.health.free (x.tier == 1)) (2 ^ (b - 16)) = some dst → 16 ≤ b → dst + 2 ^ b ≤ pa ∨ pa + 2 ^ b ≤ dst → ∃ t, exec .migrationPageMove s = .next t ∧
        let leaf (a : Nat) : Prop := ∃ e, (lastLeaf s w.ctx va).map (·.1) = some e ∧ e ≤ a ∧ a < e + 8
        (∀ o, o < 2 ^ b → t.memByte (pa + o) = 0 ∧ (¬leaf (dst + o) → t.memByte (dst + o) = s.memByte (pa + o))) ∧
        (∀ a, a < dst ∨ dst + 2 ^ b ≤ a → a < pa ∨ pa + 2 ^ b ≤ a → ¬leaf a → t.memByte a = s.memByte a) ∧
        (∀ e, (lastLeaf s w.ctx va).map (·.1) = some e → e + 8 ≤ pa ∨ pa + 2 ^ b ≤ e →
          t.memNat e 8 = (s.memNat e 8 - bits (s.memNat e 8) 51 8 * 256 + dst) % 2 ^ 64) ∧
        ∀ z ∈ t.core.tlb, ¬(z.ctx = w.ctx ∧ z.page < va + 2 ^ b ∧ va < z.page + 2 ^ z.bits)))

/-- R393, R394, R403, R406: the gang commands: OUT arms an operation that passes its checks, IN a resume, DISCARD ends one that is only armed; a failing check leaves
RESULT alone. R395 to R405: the switch time stops the job; a marker goes to each link of its set and ends the capture at its own; with all ended and no crew left the
basin is written and the job parked; a late marker makes it corrupt; and what a resume does at its time and at its end. -/
def Obligations.EasyAll : Prop :=
  (∀ (s : State) (v : Word), s.health.stage = 6 → v.getLsbD 63 = true → bits v.toNat 15 0 ≠ 0 →
      let tag := bits v.toNat 15 0
      let op := bits v.toNat 55 52
      let g := s.gang
      let busy := g.state = 1 ∨ g.state = 2 ∨ g.state = 4 ∨ g.state = 5
      let answers (i : Instr) (r : Nat) : Prop := exec i s = .next { s with gang := { g with op := op, tag := tag, result := r } }
      let bound := ∃ c ∈ s.ctxs, c.2.job = tag
      let meets (p : Park) : Prop := p.state ≠ 0 ∧ g.base < p.base + p.size * 0x10000 ∧ p.base < g.base + g.size * 0x10000
      (op = 1 →
        (¬bound → answers (.easyAll v) 2) ∧
        (bound → g.time.toNat < s.podtime + 50000 → answers (.easyAll v) 3) ∧
        (bound → s.podtime + 50000 ≤ g.time.toNat → Config.firstTier g.base = true → 256 ≤ g.size → (∀ p ∈ g.park, ¬meets p.2) →
          (busy → answers (.easyAll v) 5) ∧
          (¬busy → g.parked? tag = none → (g.park.filter fun p => p.2.state != 0).length < 8 → ∃ t, exec (.easyAll v) s = .next t ∧ t.gang.state = 1 ∧
            t.gang.result = 0 ∧ t.gang.gtag = tag ∧ t.gang.at_ = g.time.toNat ∧ t.gang.obase = g.base ∧ t.gang.osize = g.size ∧ t.gang.late = 0 ∧ t.gang.cause = 0 ∧
            t.gang.park = g.park ∧ { t with gang := s.gang } = s))) ∧
      (op = 2 →
        (g.time.toNat < s.podtime + 500000 → answers (.gangIn v) 3) ∧
        (s.podtime + 500000 ≤ g.time.toNat →
          (busy → answers (.gangIn v) 5) ∧
          (¬busy → g.parked? tag = none → answers (.gangIn v) 6) ∧
          (∀ i p, g.parked? tag = some (i, p) → ¬busy → (p.state = 6 → answers (.gangIn v) 7) ∧
            (p.state ≠ 6 → ∃ t, exec (.gangIn v) s = .next t ∧ t.gang.state = 4 ∧ t.gang.result = 0 ∧ t.gang.gtag = tag ∧ t.gang.at_ = g.time.toNat ∧
              t.gang.park = g.park ∧ t.mem = s.mem)))) ∧
      (op = 3 →
        (g.state = 1 → g.gtag = tag → ∃ t, exec (.discard v) s = .next t ∧ t.gang.state = 0 ∧ t.gang.result = 0 ∧ t.hub.irqs = s.hub.irqs ++ [(0, 4)] ∧
          t.core = s.core ∧ t.ctxs = s.ctxs ∧ t.mem = s.mem) ∧
        (g.state = 2 ∨ g.state = 5 → answers (.discard v) 5) ∧
        (¬busy → g.parked? tag = none → answers (.discard v) 6))) ∧
  (∀ s : State,
      let g := s.gang
      (g.state = 1 → g.at_ ≤ s.podtime → g.parked? g.gtag = none → ∃ t, exec .gangSwitchTime s = .next t ∧ t.gang.state = 2 ∧ t.mem = s.mem ∧ t.ctxs = s.ctxs ∧
        (∀ p, p ∈ t.gang.inset ↔ ∃ x, (p, x) ∈ s.net.ports ∧ x.service = true ∧ x.neighbour ∈ jobPkgs s g.gtag) ∧
        ∀ k, coreTag s k = g.gtag → ∀ j ∈ (t.coreAt k).colls, j.frozen = true) ∧
      (∀ p, g.state = 2 → p ∈ g.inset → p ∉ g.sent → (s.port p).service = false → exec (.gangMarkerSend p) s = .next { s with gang := { g with sent := g.sent ++ [p] } }) ∧
      (∀ p, g.state = 2 → p ∈ g.inset → p ∉ g.sent → (s.port p).service = true → s.canEmit p (s.marker p) = true → ∃ t, exec (.gangMarkerSend p) s = .next t ∧ t.gang = { g with sent := g.sent ++ [p] } ∧
        t.core = s.core ∧ t.mem = s.mem ∧ ∃ m, (t.port p).out = (s.port p).out ++ [m] ∧ m.kind = 5 ∧ m.vc = 7 ∧ m.tag = g.gtag ∧ m.off = g.at_ ∧
          destPkg m.dest = (s.port p).neighbour) ∧
      (∀ (p : Nat) (m : Packet), m.kind = 5 → s.health.sec.testBit 0 = false → g.state = 2 → m.tag = g.gtag → m.off = g.at_ → bareMarker m = true → p ∉ g.ended →
        exec (.gangMarkerArrival p m) s = .next { s with gang := { g with marked := g.marked ++ [p], ended := g.ended ++ [p] } }) ∧
      (g.state = 2 → (∀ p ∈ g.inset, p ∈ g.ended ∧ p ∈ g.sent) → (∀ c ∈ s.cores, coreTag s c.id ≠ g.gtag) → ∃ t, exec .switchOutComplete s = .next t ∧
        t.gang.state = (if g.cause = 0 then 3 else 6) ∧ t.core = s.core ∧ t.ctxs = s.ctxs ∧ t.hub.irqs = s.hub.irqs ++ [(0, 4)] ∧
        (∃ i p, (i, p) ∈ t.gang.park ∧ p.tag = g.gtag ∧ p.state = t.gang.state ∧ p.base = g.obase ∧ p.size = g.osize ∧ p.cause = g.cause ∧ p.late = g.late) ∧
        t.memByte g.obase = 1 ∧ t.memByte (g.obase + 1) = 0 ∧ (g.gtag < 2 ^ 16 → t.memNat (g.obase + 2) 2 = g.gtag) ∧
        ∀ a, a < g.obase → t.memByte a = s.memByte a) ∧
      (∀ p l, g.inset.filter (fun p => !g.ended.contains p) = p :: l → g.state = 2 → g.at_ + 1000000 ≤ s.podtime → g.parked? g.gtag = none → g.cause = 0 →
        exec .gangMarkerTimeout s = .next { s with gang := { g with ended := g.ended ++ p :: l, cause := 3 } }) ∧
      (∀ i p, g.parked? g.gtag = some (i, p) → g.state = 4 → g.at_ ≤ s.podtime → (∀ b ∈ s.returning p, (s.coreAt b.2.2.2).crew = none) →
        ∃ t, exec .gangResumeTime s = .next t ∧ t.gang.state = 5) ∧
      (∀ i p, g.parked? g.gtag = some (i, p) → g.state = 4 → g.at_ ≤ s.podtime → s.returning p = [] → p.frozen = [] → s.basinCaps p = [] →
        ∃ t, exec .gangResumeTime s = .next t ∧ t.gang.state = 5 ∧ t.gang.enter = [] ∧ t.mem = s.mem ∧
          ∀ c ∈ t.ctxs, c.2.job = g.gtag → c.2.held = false) ∧
      (∀ i p, g.parked? g.gtag = some (i, p) → g.state = 5 → g.enter = [] → ∃ t, exec .gangResumeComplete s = .next t ∧ t.gang.state = 0 ∧
        Tab.get Park.reset t.gang.park i = Park.reset ∧ t.mem = s.mem ∧ t.hub.irqs = s.hub.irqs ++ [(0, 4)] ∧
        ∀ x ∈ t.net.xfers, x.tag = g.gtag → x.since = s.podtime))

/-! ## Boot, training, health and security (R407 to R427) -/

/-- R407 to R412: power-on checks the drive's image and a recovery image by R410's checks in their order; a good one runs from firmware SRAM, a bad one leaves its code in FAIL; a
powered-off module keeps its drive and OTP alone; update, whose write a power loss can cut short, minimum version and attestation. R410: the first check that an image fails: it can be read, its
header, the public keys, the body, the ECDSA and the LMS signature, which the model computes by FIPS 186-5 and RFC 8554 (log entry 11), the version. The second turns of power-on and update
(log entry 36), memory that reads zero after power-off (log entry 2), the body's place in firmware SRAM (log entry 109) and the monitor's regions of the PMP (log entry 131) are the model's. -/
def Obligations.BootAndFirmware : Prop :=
  (∀ (s : State) (v : Word) (image nonce : List Byte),
      let h := s.health
      let d := h.drive
      let runs (i : Instr) (img : List Byte) (rec_ : Bool) : Prop := ∃ t, exec i s = .next t ∧ t.health.stage = 3 ∧ t.health.fail = 0 ∧ t.health.fwsvn = field img 8 4 ∧
        t.health.mregs.length = h.mregs.length ∧
        (h.mregs.length = 8 → t.health.mregs.getD 1 [] = sha (h.mregs.getD 1 [] ++ sha (img.take 72)) ∧
          t.health.mregs.getD 2 [] = sha (h.mregs.getD 2 [] ++ ((if rec_ then 1 else 0) :: List.replicate 47 0))) ∧
        (h.otp.killed = false → h.otp.leaf < 2 ^ 15 → t.health.otp = { h.otp with leaf := h.otp.leaf + 1 } ∧ t.health.aliases = 1024) ∧ t.mem = s.mem ∧
        Tab.get FwCore.reset t.health.fw 0 = { FwCore.reset with on := true, pmp := monitorPmp, pc := BitVec.ofNat 64 (Config.fwBody + field img 16 4) } ∧
        ∀ k b, ((img.drop 4096).take (field img 12 4))[k]? = some b → Tab.get 0 t.health.fwsram (Config.fwBody + k) = b
      let f := imageFail h.otp (d.answers && imageWhole d.image) d.image
      let n := v.toNat % 2 ^ 32
      let img := Tab.slice 0 h.fwsram 0 (min n 0x300000)
      let r := imageFail h.otp (decide (n = 4096 + imgNat h.fwsram 12 4)) img
      exec .pcieLinkUp s = .next { s with health := { h with pcie := true } } ∧
      let quiet : Prop := h.sec.testBit 0 = false
      (quiet → h.stage = 0 → exec .powerOn s = .next { s with health := { h with stage := 1, since := s.podtime, powered := true } }) ∧
      (¬quiet → exec .powerOn s = .next s) ∧
      (quiet → h.stage = 1 → (f = 0 → runs .powerOn d.image false) ∧
        (f ≠ 0 → ∃ t, exec .powerOn s = .next t ∧ t.health.stage = 2 ∧ t.health.fail = f ∧ t.hub.irqs = s.hub.irqs ++ [(0, 5)] ∧ t.core = s.core ∧ t.mem = s.mem)) ∧
      (1 < h.stage → exec .powerOn s = .next s) ∧
      (h.stage = 2 → h.pcie = true → h.sec.testBit 0 = false → v.getLsbD 63 = true → (r = 0 → runs (.rcvctlSubmit v) img true) ∧
        (r ≠ 0 → exec (.rcvctlSubmit v) s = .next { s with health := { h with rcvlen := n, fail := r } })) ∧
      (h.stage ≠ 2 → exec (.rcvctlSubmit v) s = .next s) ∧
      (∃ t x, exec .powerOff s = .next t ∧ t.health = { Health.reset with drive := { d with image := x, writing := none }, otp := h.otp } ∧ (d.writing = none → x = d.image) ∧ t.mem = [] ∧ t.ctxs = [] ∧ t.core = State.reset.core ∧ t.others = []) ∧
      (∀ x, d.writing = some x → exec (.firmwareUpdate image) s = .next { s with health := { h with drive := { d with image := x, writing := none } } }) ∧
      (3 ≤ h.stage → h.stage ≤ 6 →
        (d.writing = none → imageFail h.otp (d.answers && decide (image.length = 4096 + field image 12 4)) image = 0 →
          exec (.firmwareUpdate image) s = .next { s with health := { h with drive := { d with writing := some image } } }) ∧
        (d.writing = none → imageFail h.otp (d.answers && decide (image.length = 4096 + field image 12 4)) image ≠ 0 → exec (.firmwareUpdate image) s = .next s) ∧
        exec .minsvnRaise s = .next { s with health := { h with otp := { h.otp with minsvn := max h.otp.minsvn h.fwsvn } } } ∧
        (h.otp.killed = false →
          (1 < h.aliases → exec (.attestationQuote nonce) s = .next { s with health := { h with quote := Config.quoteBytes h.mregs.flatten nonce, aliases := h.aliases - 1 } }) ∧
          (h.aliases = 1 → h.otp.leaf < 2 ^ 15 → exec (.attestationQuote nonce) s = .next { s with health := { h with
            quote := Config.quoteBytes h.mregs.flatten nonce, aliases := 1024, otp := { h.otp with leaf := h.otp.leaf + 1 } } })))) ∧
  (∀ (o : Otp) (img : List Byte),
      let body := (img.drop 4096).take (field img 12 4)
      let ec := (img.drop 168).take 96
      let lms := (img.drop 264).take 56
      let header : Prop := field img 0 4 = 0x5746514F ∧ 4 ≤ field img 12 4 ∧ field img 12 4 ≤ 0x2FF000 ∧ field img 16 4 % 4 = 0 ∧ field img 16 4 < field img 12 4 ∧
        field img 320 4 ≤ 2048 ∧ field img 10 2 = 0 ∧ field img 20 4 = 0 ∧ ∀ b ∈ (img.drop 324).take 1724, b = 0
      let keys : Prop := sha ec = o.ecHash ∧ sha lms = o.lmsHash
      let hash : Prop := sha body = (img.drop 24).take 48
      let one : Prop := ecdsaVerifies ec ((img.drop 72).take 96) (sha (img.take 72)) = true
      let sig := (img.drop 2048).take (field img 320 4)
      let two : Prop := lmsAccepted lms sig = true ∧ lmsVerifies (5 * (field img 267 1 - 4)) lms sig (img.take 72) = true
      let new : Prop := o.minsvn ≤ field img 8 4
      imageFail o false img = 1 ∧
      (¬header → imageFail o true img = 2) ∧
      (header → ¬keys → imageFail o true img = 3) ∧
      (header → keys → ¬hash → imageFail o true img = 4) ∧
      (header → keys → hash → ¬one → imageFail o true img = 5) ∧
      (header → keys → hash → one → ¬two → imageFail o true img = 6) ∧
      (header → keys → hash → one → two → ¬new → imageFail o true img = 7) ∧
      (header → keys → hash → one → two → new → imageFail o true img = 0))

/-- R414: the five steps of power-up in their order, and what a step that passes its limit ends in. R415, R416: memory controllers train and report, and with every device
done MMAP is taken; a port's lanes, RS-FEC and identity exchange, and the admission of the host. A step whose limit has passed counts as failed, whatever it reports afterwards. -/
def Obligations.PowerUpAndTraining : Prop :=
  (∀ (s : State) (v : Word) (d : Nat) (l : List Nat),
      let h := s.health
      let goes (i : Instr) (x : Health) : Prop := exec i s = .next { s with health := x }
      let late (ns : Nat) : Prop := h.since + ns ≤ s.podtime
      let stops (i : Instr) : Prop := ∃ t, exec i s = .next t ∧ t.health.stage = 0xFF ∧ t.health.fail = 9 ∧ t.mem = s.mem ∧ t.core = s.core
      let slow (k : Nat) : Prop := h.diestat.testBit k = false ∧ Tab.get 0 h.dsince k + 10000000 ≤ s.podtime
      let shells : Prop := ∀ k, k < 4 → h.diestat.testBit (k + 1) = true ∨ Out.die k ∈ h.outs
      h.stage = 3 →
      (h.rails ≠ 0xFF → ¬late 50000000 → goes .railsGood { h with rails := 0xFF, since := s.podtime }) ∧
      (h.rails ≠ 0xFF → late 50000000 → stops .railsGood) ∧
      (h.rails = 0xFF → v.getLsbD 0 = false → goes (.clkctlWrite v) { h with clkctl := 0, since := s.podtime }) ∧
      (h.rails = 0xFF → v.getLsbD 0 = true → h.clkctl = 0 → goes (.clkctlWrite v) { h with clkctl := 1, since := s.podtime }) ∧
      (h.rails ≠ 0xFF → exec (.clkctlWrite v) s = .next s) ∧
      (h.clkctl = 1 → ¬late 1000000 → goes .pllLock { h with clkctl := 2 ^ 63 + 1 }) ∧
      (h.clkctl = 1 → late 1000000 → stops .pllLock) ∧
      (h.clkctl.testBit 63 = true → v.toNat % 32 ≤ 1 ∨ h.diestat.testBit 0 = true → ∃ l, goes (.dierstWrite v) { h with dierst := v.toNat % 32, dsince := l } ∧
        ∀ k, k < 5 → Tab.get 0 l k = if v.getLsbD k && !h.dierst.testBit k then s.podtime else Tab.get 0 h.dsince k) ∧
      (h.clkctl.testBit 63 = false ∨ 1 < v.toNat % 32 ∧ h.diestat.testBit 0 = false → exec (.dierstWrite v) s = .next s) ∧
      (d < 5 → h.dierst.testBit d = true → (∀ k, d = k + 1 → Out.die k ∉ h.outs) →
        (¬slow d → goes (.dieReleased d) { h with diestat := h.diestat ||| 2 ^ d }) ∧ (slow d → d = 0 → stops (.dieReleased d)) ∧
        (∀ k, slow d → d = k + 1 → ∃ t, exec (.dieReleased d) s = .next t ∧ Out.die k ∈ t.health.outs ∧ t.health.stage = 3 ∧ t.mem = s.mem)) ∧
      (h.diestat.testBit 0 = true → shells →
        goes (.sraminitWrite v) { h with sram := v.toNat % 2, since := s.podtime }) ∧
      (h.sram = 1 → (∃ g, g < 12 ∧ Out.group g ∉ h.outs) → ∃ t, exec (.sramInitDone l) s = .next t ∧ t.health.stage = 4 ∧ t.health.corestat = l.filter (· < 384) ∧ t.mem = s.mem ∧
        ∀ k, k < 384 → (t.coreAt k).scratch = [] ∧ (t.coreAt k).acc = [] ∧ (k ∈ l → (t.coreAt k).out = true ∨ Out.core k ∈ h.outs)) ∧
      (h.rails ≠ 0xFF → late 50000000 → stops .powerUpTimeout) ∧
      (h.rails = 0xFF → h.clkctl = 1 → late 1000000 → stops .powerUpTimeout) ∧
      (h.rails = 0xFF → h.clkctl.testBit 63 = true → h.dierst.testBit 0 = true → slow 0 → stops .powerUpTimeout) ∧
      (h.rails = 0xFF → h.clkctl.testBit 63 = true → h.diestat.testBit 0 = true → shells → h.sram = 1 → late 20000000 → (∃ g, g < 12 ∧ Out.group g ∉ h.outs) →
        ∃ t, exec .powerUpTimeout s = .next t ∧ t.health.stage = 4 ∧ t.mem = s.mem) ∧
      (h.rails ≠ 0xFF → ¬late 50000000 → exec .powerUpTimeout s = .next s)) ∧
  (∀ (s : State) (n p : Nat) (v : Word) (lanes : BitVec 2),
      let h := s.health
      let reset : Bool := v.getLsbD 0
      let trains : Prop := n < 64 ∧ Tab.get 0 h.mctl n = 0x1F00 ∧ (Tab.get 0 h.mstat n).testBit 63 = false ∧ deviceUnit n ∉ h.outs
      let fails (i : Instr) (m : Nat) : Prop := ∃ t, exec i s = .next t ∧ Tab.get 0 t.health.mstat n = m ∧ deviceUnit n ∈ t.health.outs ∧ t.mem = s.mem ∧
        ((∃ g, g < 12 ∧ Out.group g ∉ t.health.outs) → t.health.stage = 4)
      (h.stage = 4 →
        (n < 64 → exec (.mctlWrite n v) s = .next { s with health := { h with
          mctl := Tab.set 0 h.mctl n (bits v.toNat 12 8 * 256 + v.toNat % 2)
          mstat := if reset then Tab.set 0 h.mstat n 0 else h.mstat
          msince := Tab.set 0 h.msince n s.podtime } }) ∧
        (trains → s.podtime < Tab.get 0 h.msince n + 100000000 →
          exec (.memoryTrainingDone n true) s = .next { s with health := { h with mstat := Tab.set 0 h.mstat n (2 ^ 63 + 2 ^ 62) } }) ∧
        (trains → fails (.memoryTrainingDone n false) (2 ^ 63)) ∧
        (trains → Tab.get 0 h.msince n + 100000000 ≤ s.podtime →
          fails (.memoryTrainingDone n true) (2 ^ 63 + 2 ^ 62) ∧ fails (.memoryTrainingTimeout n) (Tab.get 0 h.mstat n)) ∧
        ((∀ k, k < 64 → (Tab.get 0 h.mstat k).testBit 63 = true ∨ deviceUnit k ∈ h.outs) →
          ((∃ q, q < 32 ∧ (s.port q).service = false ∧ Out.link q ∉ h.outs) →
            exec (.mmapWrite v) s = .next { s with health := { h with mmap := bits v.toNat 27 0, stage := 5, since := s.podtime } }) ∧
          ((∀ q, q < 32 → (s.port q).service = true ∨ Out.link q ∈ h.outs) → ∃ t, exec (.mmapWrite v) s = .next t ∧ t.health.stage = 6 ∧
            t.health.mmap = bits v.toNat 27 0 ∧ t.core = s.core ∧ t.mem = s.mem)) ∧
        ((∃ k, k < 64 ∧ (Tab.get 0 h.mstat k).testBit 63 = false ∧ deviceUnit k ∉ h.outs) → exec (.mmapWrite v) s = .next s)) ∧
      (h.stage = 5 → p < 32 → Out.link p ∉ h.outs →
        let x := s.port p
        let b8 : Bool := v.getLsbD 8 && x.state.testBit 8
        let b9 : Bool := v.getLsbD 9 && x.state.testBit 9
        let out (i : Instr) : Prop := ∃ t, exec i s = .next t ∧ Out.link p ∈ t.health.outs ∧ (t.port p).service = false ∧ t.core = s.core ∧ t.mem = s.mem
        (∃ t, exec (.portctlWrite p v) s = .next t ∧ Tab.get 0 t.health.portctl p = v.toNat % 4 + (if b8 then 2 ^ 8 else 0) + (if b9 then 2 ^ 9 else 0) ∧
          (t.port p).service = b9 ∧ t.core = s.core ∧ t.mem = s.mem ∧
          ((∀ q, q < 32 → q = p ∨ (s.port q).service = true ∨ Out.link q ∈ h.outs) → b9 = true → t.health.stage = 6)) ∧
        let late (ns : Nat) : Prop := Tab.get 0 h.psince p + ns ≤ s.podtime
        (x.state = 0 → lanes.toNat &&& (Tab.get 0 h.portctl p % 4) ≠ 0 →
          (¬late 500000000 → ∃ t, exec (.laneTrainingDone p lanes) s = .next t ∧
            (t.port p).state = lanes.toNat &&& (Tab.get 0 h.portctl p % 4) ∧ t.core = s.core ∧ t.mem = s.mem) ∧
          (late 500000000 → out (.laneTrainingDone p lanes))) ∧
        (x.lanes ≠ 0 → x.state.testBit 8 = false →
          (¬late 10000000 → ∃ t, exec (.rsFecLock p) s = .next t ∧ (t.port p).state = x.state ||| 2 ^ 8 ∧ t.health = h) ∧ (late 10000000 → out (.rsFecLock p))) ∧
        ((Tab.get 0 h.portctl p).testBit 8 = true → n < 2 ^ 16 →
          (n = Config.topology p → x.state.testBit 9 = false → late 10000000 → out (.identityExchangeDone p n)) ∧
          (n = Config.topology p → x.state.testBit 9 = true ∨ ¬late 10000000 → ∃ t, exec (.identityExchangeDone p n) s = .next t ∧ (t.port p).neighbour = n ∧ (t.port p).state.testBit 9 = true ∧ t.health = h) ∧
          (n ≠ Config.topology p → out (.identityExchangeDone p n))) ∧
        (Tab.get 0 h.portctl p % 4 ≠ 0 → x.state = 0 →
          (late 500000000 → out (.linkTrainingTimeout p)) ∧
          (¬late 500000000 → exec (.linkTrainingTimeout p) s = .next s))))

/-- R369, R413, R419 to R421, R424 to R426: logged and corrected errors, a retired page, a core, a quad or a link taken out, the free lists, a plug-in that is stopped, and the alarms of a powered
module, after which it runs nothing: no context is left, no core has a crew and every queue is halted. How an alarm ends a gang operation, that a page already listed is added again, that
the pages of a unit out of service count as retired, and the unit code of a quad's failed self-test are the model's choices (log entries 82, 90, 129 and 88). -/
def Obligations.ErrorsAndSecurity : Prop :=
  ∀ (s : State) (loc addr fn : Nat) (v : Word),
    let h := s.health
    let logged (t : State) (kind unit : Nat) : Prop := ∃ f ∈ t.health.log, f.time = s.podtime ∧ f.kind = kind ∧ f.unit = unit
    let quiet : Prop := h.sec.testBit 0 = false
    let alarm (i : Instr) (b : Nat) : Prop := h.powered = true → ∃ t, exec i s = .next t ∧ t.health.stage = 0xFF ∧ t.health.sec.testBit 0 = true ∧ t.health.sec.testBit b = true ∧
      t.health.session = false ∧ logged t 7 0 ∧ t.ctxs = [] ∧ (∀ c, (t.coreAt c).crew ≠ none → (t.coreAt c).crew = (s.coreAt c).crew) ∧
      ((∀ c w, (s.coreAt c).crew = some w → s.ctx? w.ctx ≠ none) → ∀ c, (t.coreAt c).crew = none) ∧
      (s.gang.busy = true → (0, 4) ∈ t.hub.irqs ∧ t.gang.state = 0) ∧
      (∀ q f, (t.queue f q).en = true → (t.queue f q).halt = true ∧ (t.queue f q).busy = none) ∧ (b = 1 → h.otp.idz = true → t.health.otp.killed = true ∧ t.health.aliases = 0)
    exec .patrolScrub s = .next s ∧
    (quiet → ∃ t, exec (.correctedError 4 loc addr) s = .next t ∧ logged t 1 4 ∧ t.core = s.core ∧ t.mem = s.mem ∧ t.hub.irqs = s.hub.irqs) ∧
    (quiet → ∀ unit, unit = 0 ∨ unit = 2 ∨ unit = 3 → ∃ t, exec (.correctedError unit loc addr) s = .next t ∧ logged t 1 unit ∧ t.core = s.core ∧ t.mem = s.mem) ∧
    (quiet → ∃ t, exec (.correctedError 1 loc addr) s = .next t ∧ t.mem = s.mem ∧
      (destCore loc < 384 → 15 ≤ ((h.corr.filter fun e => s.podtime < e.2 + 86400000000000).filter fun e => e.1 == destCore loc).length → Out.core (destCore loc) ∉ h.outs →
        (t.coreAt (destCore loc)).out = true ∧ Out.core (destCore loc) ∈ t.health.outs)) ∧
    (quiet → destCore loc < 384 → Out.core (destCore loc) ∉ h.outs → ∃ t, exec (.uncorrectableError 1 loc addr) s = .next t ∧ (t.coreAt (destCore loc)).out = true ∧
      Out.core (destCore loc) ∈ t.health.outs ∧ ∀ k, (s.coreAt (destCore loc)).holder = some k → t.ctx? k = none) ∧
    (quiet → destCore loc / 4 < 96 → Out.quad (destCore loc / 4) ∉ h.outs → ∃ t, exec (.uncorrectableError 6 loc addr) s = .next t ∧
      Out.quad (destCore loc / 4) ∈ t.health.outs ∧ (∀ k, k / 4 = destCore loc / 4 → (t.coreAt k).out = true) ∧ t.ctxs = s.ctxs ∧ t.mem = s.mem) ∧
    (quiet → ∀ unit, unit = 0 ∨ unit = 2 ∨ unit = 3 → ∃ t, exec (.uncorrectableError unit loc addr) s = .next t ∧ addr / 0x10000 * 0x10000 ∈ t.health.drive.retired ∧
      (addr / 0x10000 * 0x10000 ∉ h.drive.retired → addr / 0x10000 * 0x10000 ∉ t.health.free1 ∧ addr / 0x10000 * 0x10000 ∉ t.health.free2) ∧
      ∀ k ∈ s.ownersOf (addr / 0x10000 * 0x10000), t.ctx? k = none) ∧
    (h.pcie = true → h.sec.testBit 0 = false → v.getLsbD 63 = true →
      let t2 := v.toNat.testBit 62
      let page := bits v.toNat 51 16
      let gone : Prop := page * 0x10000 ∈ h.drive.retired ∨ deviceUnit (Config.controllerOf (page * 0x10000)) ∈ h.outs
      (bits v.toNat 61 60 = 1 → ∃ t, exec (.freePageAdd v) s = .next t ∧
        (gone → t.health.free t2 = h.free t2) ∧ (¬gone → t.health.free t2 = h.free t2 ++ [page * 0x10000]) ∧
        ∀ a, t.memByte a = if page * 0x10000 ≤ a ∧ a < (page + 1) * 0x10000 then 0 else s.memByte a) ∧
      (bits v.toNat 61 60 = 2 → ∃ t, exec (.freePageTake v) s = .next t ∧ t.health.free t2 = (h.free t2).drop 1 ∧ t.health.fppage = (h.free t2).headD 0 / 0x10000 ∧
        t.health.free (!t2) = h.free (!t2) ∧ t.mem = s.mem)) ∧
    ((s.func fn).plugin = 1 → (∃ t, exec (.pluginViolation fn) s = .next t ∧ (t.func fn).plugin = 2 ∧ logged t 8 0) ∧
      ((∃ c ∈ s.ctxs, c.2.fn = fn ∧ ∃ e ∈ c.2.slots, e.2.plug = true ∧ e.2.since + 100000 ≤ s.podtime) → ∃ t, exec (.pluginTimeout fn) s = .next t ∧ (t.func fn).plugin = 2 ∧ logged t 8 0)) ∧
    (loc < 32 → Out.link loc ∉ h.outs → ∃ t, exec (.linkFailure loc) s = .next t ∧ (t.port loc).service = false ∧ Out.link loc ∈ t.health.outs ∧ t.mem = s.mem) ∧
    alarm (.securityAlarm 1) 1 ∧ alarm (.securityAlarm 2) 2 ∧ alarm .firmwareIsolationViolation 3
end

