-- ==== Sys2Proof/Laws/Encoding.lean ====
section
/-!
SUPPORT. The words that the encoder builds, field by field, and what the decoder makes of their upper fields (R10, R14, R29).
-/
namespace Sys2Proof

theorem fld_append_low {a b : Nat} (x : BitVec a) (y : BitVec b) (lo n : Nat) (h : lo + n ≤ b) : fld (x ++ y) lo n = fld y lo n := by
  apply BitVec.eq_of_getLsbD_eq
  intro i hi
  simp only [fld, BitVec.getLsbD_extractLsb', BitVec.getLsbD_append]
  simp [hi, show lo + i < b by omega]

theorem fld_append_high {a b : Nat} (x : BitVec a) (y : BitVec b) (lo n : Nat) (h : b ≤ lo) : fld (x ++ y) lo n = fld x (lo - b) n := by
  apply BitVec.eq_of_getLsbD_eq
  intro i hi
  simp only [fld, BitVec.getLsbD_extractLsb', BitVec.getLsbD_append]
  simp [hi, show ¬lo + i < b by omega, show lo + i - b = lo - b + i by omega]

theorem fld_self {a : Nat} (x : BitVec a) : fld x 0 a = x := by
  apply BitVec.eq_of_getLsbD_eq
  intro i hi
  simp [fld, hi]

/-! ## The fields of a short-format word (R10) -/

theorem shortWord_class (c : Eng) (y : Sync) (op : Nat) (o : BitVec 16) : fld (shortWord c y op o) 29 3 = BitVec.ofNat 3 c.cls := by
  unfold shortWord
  rw [fld_append_high _ _ _ _ (by omega), fld_append_high _ _ _ _ (by omega), fld_append_high _ _ _ _ (by omega), fld_append_high _ _ _ _ (by omega)]
  exact fld_self _

theorem shortWord_wait (c : Eng) (y : Sync) (op : Nat) (o : BitVec 16) : fld (shortWord c y op o) 26 3 = BitVec.ofNat 3 (optCode y.wait) := by
  unfold shortWord
  rw [fld_append_high _ _ _ _ (by omega), fld_append_high _ _ _ _ (by omega), fld_append_high _ _ _ _ (by omega), fld_append_low _ _ _ _ (by omega)]
  exact fld_self _

theorem shortWord_sig (c : Eng) (y : Sync) (op : Nat) (o : BitVec 16) : fld (shortWord c y op o) 23 3 = BitVec.ofNat 3 (optCode y.sig) := by
  unfold shortWord
  rw [fld_append_high _ _ _ _ (by omega), fld_append_high _ _ _ _ (by omega), fld_append_low _ _ _ _ (by omega)]
  exact fld_self _

theorem shortWord_op (c : Eng) (y : Sync) (op : Nat) (o : BitVec 16) : fld (shortWord c y op o) 16 7 = BitVec.ofNat 7 op := by
  unfold shortWord
  rw [fld_append_high _ _ _ _ (by omega), fld_append_low _ _ _ _ (by omega)]
  exact fld_self _

theorem shortWord_operand (c : Eng) (y : Sync) (op : Nat) (o : BitVec 16) : fld (shortWord c y op o) 0 16 = o := by
  unfold shortWord
  rw [fld_append_low _ _ _ _ (by omega)]
  exact fld_self _

/-! ## The fields of a long-format word (R14) -/

theorem longWord_class (c : Eng) (op : Nat) (o : BitVec 22) : fld (longWord c op o) 29 3 = BitVec.ofNat 3 c.cls := by
  unfold longWord
  rw [fld_append_high _ _ _ _ (by omega), fld_append_high _ _ _ _ (by omega), fld_append_high _ _ _ _ (by omega)]
  exact fld_self _

theorem longWord_format (c : Eng) (op : Nat) (o : BitVec 22) : fld (longWord c op o) 26 3 = 7 := by
  unfold longWord
  rw [fld_append_high _ _ _ _ (by omega), fld_append_high _ _ _ _ (by omega), fld_append_low _ _ _ _ (by omega)]
  exact fld_self _

theorem longWord_op (c : Eng) (op : Nat) (o : BitVec 22) : fld (longWord c op o) 22 4 = BitVec.ofNat 4 op := by
  unfold longWord
  rw [fld_append_high _ _ _ _ (by omega), fld_append_low _ _ _ _ (by omega)]
  exact fld_self _

theorem longWord_operand (c : Eng) (op : Nat) (o : BitVec 22) : fld (longWord c op o) 0 22 = o := by
  unfold longWord
  rw [fld_append_low _ _ _ _ (by omega)]
  exact fld_self _

/-! ## Decoding them -/

theorem ofCode_optCode (o : Option Eng) : Eng.ofCode? (optCode o) = o := by
  cases o with
  | none => rfl
  | some e => cases e <;> rfl

theorem optCode_lt (o : Option Eng) : optCode o < 6 := by
  cases o with
  | none => decide
  | some e => cases e <;> decide

theorem optCode_ne (c : Eng) (o : Option Eng) (h : o ≠ some c) : optCode o ≠ c.code := by
  cases o with
  | none => cases c <;> decide
  | some e => cases e <;> cases c <;> first | (exact absurd rfl h) | decide

theorem cls_lt (c : Eng) : c.cls < 5 := by cases c <;> decide

/-- A short-format word whose wait and signal fields are in order decodes by its opcode and operands. -/
theorem decode_shortWord (c : Eng) (m : BitVec 8) (y : Sync) (op : Nat) (o : BitVec 16) (hy : syncOk c y = true) (h0 : 0 < op) (h1 : op < 128) :
    decode c m (shortWord c y op o) = decodeShort c m y op o := by
  have hw := optCode_lt y.wait
  have hs := optCode_lt y.sig
  have hc := cls_lt c
  simp only [syncOk, Bool.and_eq_true, bne_iff_ne] at hy
  have hn := shortWord_op c y op o
  unfold decode
  rw [if_neg, shortWord_class, shortWord_wait, shortWord_sig, hn, shortWord_operand]
  · simp only [BitVec.toNat_ofNat]
    rw [Nat.mod_eq_of_lt (by omega : c.cls < 2 ^ 3), Nat.mod_eq_of_lt (by omega : optCode y.wait < 2 ^ 3), Nat.mod_eq_of_lt (by omega : optCode y.sig < 2 ^ 3),
      Nat.mod_eq_of_lt (by omega : op < 2 ^ 7)]
    rw [if_neg (by omega), if_neg (by simp), if_neg (by omega), if_neg, if_neg, ofCode_optCode, ofCode_optCode]
    · rintro (h | h)
      · omega
      · exact optCode_ne _ _ hy.2 h
    · rintro (h | h)
      · omega
      · exact optCode_ne _ _ hy.1 h
  · intro h
    rw [h] at hn
    have := congrArg BitVec.toNat hn
    simp [fld] at this
    omega

/-- A long-format word decodes by its opcode and operand. -/
theorem decode_longWord (c : Eng) (m : BitVec 8) (op : Nat) (o : BitVec 22) (h1 : op < 16) :
    decode c m (longWord c op o) = decodeLong c op o := by
  have hc := cls_lt c
  have hf := longWord_format c op o
  unfold decode
  rw [if_neg, longWord_class, hf, longWord_op, longWord_operand]
  · simp only [BitVec.toNat_ofNat]
    rw [Nat.mod_eq_of_lt (by omega : c.cls < 2 ^ 3), Nat.mod_eq_of_lt (by omega : op < 2 ^ 4)]
    rw [if_neg (by omega), if_neg (by simp), if_pos (by decide)]
  · intro h
    rw [h] at hf
    exact absurd hf (by decide)

theorem classEngine_shortWord (c : Eng) (y : Sync) (op : Nat) (o : BitVec 16) : classEngine (shortWord c y op o) = some c := by
  unfold classEngine
  rw [shortWord_class]
  cases c <;> rfl

theorem classEngine_longWord (c : Eng) (op : Nat) (o : BitVec 22) : classEngine (longWord c op o) = some c := by
  unfold classEngine
  rw [longWord_class]
  cases c <;> rfl

end Sys2Proof
end

