-- ==== Sys2Proof/Laws/State.lean ====
section
/-!
SUPPORT. What each update of the state leaves in each part of it: one lemma per part and update.
-/
namespace Sys2Proof.Machine

/-! ## An engine of a core -/

@[simp] theorem core_eng_setEng (c : Core) (e : Eng) (g : Engine) : (c.setEng e g).eng e = g := by cases e <;> rfl

theorem core_eng_setEng_ne (c : Core) {e f : Eng} (g : Engine) (h : f ≠ e) : (c.setEng e g).eng f = c.eng f := by
  cases e <;> cases f <;> first | rfl | exact absurd rfl h

@[simp] theorem core_setEng_id (c : Core) (e : Eng) (g : Engine) : (c.setEng e g).id = c.id := by cases e <;> rfl
@[simp] theorem core_setEng_crew (c : Core) (e : Eng) (g : Engine) : (c.setEng e g).crew = c.crew := by cases e <;> rfl
@[simp] theorem core_setEng_tok (c : Core) (e : Eng) (g : Engine) : (c.setEng e g).tok = c.tok := by cases e <;> rfl
@[simp] theorem core_setEng_follow (c : Core) (e : Eng) (g : Engine) : (c.setEng e g).follow = c.follow := by cases e <;> rfl
@[simp] theorem core_setEng_queues (c : Core) (e : Eng) (g : Engine) : (c.setEng e g).queues = c.queues := by cases e <;> rfl
@[simp] theorem core_setEng_freeze (c : Core) (e : Eng) (g : Engine) : (c.setEng e g).freeze = c.freeze := by cases e <;> rfl
@[simp] theorem core_setEng_scratch (c : Core) (e : Eng) (g : Engine) : (c.setEng e g).scratch = c.scratch := by cases e <;> rfl
@[simp] theorem core_setEng_stores (c : Core) (e : Eng) (g : Engine) : (c.setEng e g).stores = c.stores := by cases e <;> rfl
@[simp] theorem core_setEng_barriers (c : Core) (e : Eng) (g : Engine) : (c.setEng e g).barriers = c.barriers := by cases e <;> rfl
@[simp] theorem core_setEng_owner (c : Core) (e : Eng) (g : Engine) : (c.setEng e g).owner = c.owner := by cases e <;> rfl
@[simp] theorem core_setEng_calldepth (c : Core) (e : Eng) (g : Engine) : (c.setEng e g).calldepth = c.calldepth := by cases e <;> rfl
@[simp] theorem core_setEng_halting (c : Core) (e : Eng) (g : Engine) : (c.setEng e g).halting = c.halting := by cases e <;> rfl
@[simp] theorem core_setEng_takes (c : Core) (e : Eng) (g : Engine) : (c.setEng e g).takes = c.takes := by cases e <;> rfl
@[simp] theorem core_setEng_armed (c : Core) (e : Eng) (g : Engine) : (c.setEng e g).armed = c.armed := by cases e <;> rfl
@[simp] theorem core_setEng_fmt (c : Core) (e : Eng) (g : Engine) : (c.setEng e g).fmt = c.fmt := by cases e <;> rfl
@[simp] theorem core_setEng_acc (c : Core) (e : Eng) (g : Engine) : (c.setEng e g).acc = c.acc := by cases e <;> rfl
@[simp] theorem core_setEng_tiles (c : Core) (e : Eng) (g : Engine) : (c.setEng e g).tiles = c.tiles := by cases e <;> rfl
@[simp] theorem core_setEng_tileRun (c : Core) (e : Eng) (g : Engine) : (c.setEng e g).tileRun = c.tileRun := by cases e <;> rfl
@[simp] theorem core_setEng_ldz (c : Core) (e : Eng) (g : Engine) : (c.setEng e g).ldz = c.ldz := by cases e <;> rfl
@[simp] theorem core_setEng_loads (c : Core) (e : Eng) (g : Engine) : (c.setEng e g).loads = c.loads := by cases e <;> rfl
@[simp] theorem core_setEng_copies (c : Core) (e : Eng) (g : Engine) : (c.setEng e g).copies = c.copies := by cases e <;> rfl
@[simp] theorem core_setEng_collAsk (c : Core) (e : Eng) (g : Engine) : (c.setEng e g).collAsk = c.collAsk := by cases e <;> rfl
@[simp] theorem core_setEng_colls (c : Core) (e : Eng) (g : Engine) : (c.setEng e g).colls = c.colls := by cases e <;> rfl
@[simp] theorem core_setEng_bankPtr (c : Core) (e : Eng) (g : Engine) : (c.setEng e g).bankPtr = c.bankPtr := by cases e <;> rfl
@[simp] theorem core_setEng_preempt (c : Core) (e : Eng) (g : Engine) : (c.setEng e g).preempt = c.preempt := by cases e <;> rfl
@[simp] theorem core_setEng_time (c : Core) (e : Eng) (g : Engine) : (c.setEng e g).time = c.time := by cases e <;> rfl

/-! ## mapCore and mapEng -/

@[simp] theorem mapCore_core (s : State) (f : Core → Core) : (s.mapCore f).core = f s.core := rfl
@[simp] theorem mapCore_others (s : State) (f : Core → Core) : (s.mapCore f).others = s.others := rfl
@[simp] theorem mapCore_agenda (s : State) (f : Core → Core) : (s.mapCore f).agenda = s.agenda := rfl
@[simp] theorem mapCore_turn (s : State) (f : Core → Core) : (s.mapCore f).turn = s.turn := rfl
@[simp] theorem mapCore_free (s : State) (f : Core → Core) : (s.mapCore f).free = s.free := rfl
@[simp] theorem mapCore_mem (s : State) (f : Core → Core) : (s.mapCore f).mem = s.mem := rfl
@[simp] theorem mapCore_quads (s : State) (f : Core → Core) : (s.mapCore f).quads = s.quads := rfl
@[simp] theorem mapCore_dies (s : State) (f : Core → Core) : (s.mapCore f).dies = s.dies := rfl
@[simp] theorem mapCore_ctxs (s : State) (f : Core → Core) : (s.mapCore f).ctxs = s.ctxs := rfl
@[simp] theorem mapCore_codeBlocks (s : State) (f : Core → Core) : (s.mapCore f).codeBlocks = s.codeBlocks := rfl
@[simp] theorem mapCore_hub (s : State) (f : Core → Core) : (s.mapCore f).hub = s.hub := rfl
@[simp] theorem mapCore_net (s : State) (f : Core → Core) : (s.mapCore f).net = s.net := rfl
@[simp] theorem mapCore_gang (s : State) (f : Core → Core) : (s.mapCore f).gang = s.gang := rfl
@[simp] theorem mapCore_health (s : State) (f : Core → Core) : (s.mapCore f).health = s.health := rfl
@[simp] theorem mapCore_podtime (s : State) (f : Core → Core) : (s.mapCore f).podtime = s.podtime := rfl

@[simp] theorem mapEng_core (s : State) (e : Eng) (f : Engine → Engine) : (s.mapEng e f).core = s.core.setEng e (f (s.core.eng e)) := rfl
@[simp] theorem mapEng_others (s : State) (e : Eng) (f : Engine → Engine) : (s.mapEng e f).others = s.others := rfl
@[simp] theorem mapEng_agenda (s : State) (e : Eng) (f : Engine → Engine) : (s.mapEng e f).agenda = s.agenda := rfl
@[simp] theorem mapEng_turn (s : State) (e : Eng) (f : Engine → Engine) : (s.mapEng e f).turn = s.turn := rfl
@[simp] theorem mapEng_free (s : State) (e : Eng) (f : Engine → Engine) : (s.mapEng e f).free = s.free := rfl
@[simp] theorem mapEng_mem (s : State) (e : Eng) (f : Engine → Engine) : (s.mapEng e f).mem = s.mem := rfl
@[simp] theorem mapEng_quads (s : State) (e : Eng) (f : Engine → Engine) : (s.mapEng e f).quads = s.quads := rfl
@[simp] theorem mapEng_dies (s : State) (e : Eng) (f : Engine → Engine) : (s.mapEng e f).dies = s.dies := rfl
@[simp] theorem mapEng_ctxs (s : State) (e : Eng) (f : Engine → Engine) : (s.mapEng e f).ctxs = s.ctxs := rfl
@[simp] theorem mapEng_codeBlocks (s : State) (e : Eng) (f : Engine → Engine) : (s.mapEng e f).codeBlocks = s.codeBlocks := rfl
@[simp] theorem mapEng_hub (s : State) (e : Eng) (f : Engine → Engine) : (s.mapEng e f).hub = s.hub := rfl
@[simp] theorem mapEng_net (s : State) (e : Eng) (f : Engine → Engine) : (s.mapEng e f).net = s.net := rfl
@[simp] theorem mapEng_gang (s : State) (e : Eng) (f : Engine → Engine) : (s.mapEng e f).gang = s.gang := rfl
@[simp] theorem mapEng_health (s : State) (e : Eng) (f : Engine → Engine) : (s.mapEng e f).health = s.health := rfl
@[simp] theorem mapEng_podtime (s : State) (e : Eng) (f : Engine → Engine) : (s.mapEng e f).podtime = s.podtime := rfl

@[simp] theorem eng_mapEng (s : State) (e : Eng) (f : Engine → Engine) : (s.mapEng e f).eng e = f (s.eng e) := core_eng_setEng _ _ _

theorem eng_mapEng_ne (s : State) {e d : Eng} (f : Engine → Engine) (h : d ≠ e) : (s.mapEng e f).eng d = s.eng d := core_eng_setEng_ne _ _ h

/-! ## Registers (R62) -/

/-- Register x0 reads as zero in every engine (R62). -/
@[simp] theorem x_zero (s : State) (e : Eng) : s.x e 0 = 0 := rfl

/-- A write to x0 is discarded (R62). -/
@[simp] theorem setX_zero (v : View) (w : Word) : v.setX 0 w = v := rfl

end Sys2Proof.Machine
end

