-- ==== Sys2Proof/Laws/Issue.lean ====
section
/-!
SUPPORT. Issue, once for every word: what retiring leaves as it was, what it does to the FIFOs, and the completion that follows from what a word's body answers.
-/
namespace Sys2Proof.Machine
open Sys2Proof

/-! ## What `arch` hides -/

theorem Core.arch_setEng (c : Core) (e : Eng) (g : Engine) (h : g.arch = (c.eng e).arch) : (c.setEng e g).arch = c.arch := by
  cases e <;> simp only [Core.eng] at h <;> simp [Core.arch, Core.setEng, Core.unmarked, h]

theorem State.arch_mapEng (s : State) (e : Eng) (f : Engine → Engine) (h : (f (s.eng e)).arch = (s.eng e).arch) : (s.mapEng e f).arch = s.arch := by
  exact congrArg (fun c => ({ s with core := c, others := s.others.map fun k => { k with bankPtr := [] } } : State)) (Core.arch_setEng s.core e (f (s.core.eng e)) h)

theorem State.arch_mapCore (s : State) (f : Core → Core) (h : (f s.core).arch = s.core.arch) : (s.mapCore f).arch = s.arch := by
  simp only [State.arch, State.mapCore, h]

theorem Core.arch_pop (e : Eng) (p : Pos) (ws : List Eng) : ∀ c : Core, (c.pop e p ws).arch = c.arch := by
  induction ws with
  | nil => intro c; rfl
  | cons d l ih =>
    intro c
    rw [Core.pop, List.foldl_cons]
    refine (ih _).trans ?_
    simp only [Core.arch, Core.unmarked, Core.mk.injEq, List.map_map, true_and, and_true]
    apply List.map_congr_left
    intro q _
    simp only [Function.comp]
    split <;> simp_all

theorem Core.arch_takeSlots (e : Eng) (ws : List Eng) : ∀ c : Core, (c.takeSlots e ws).arch = c.arch := by
  induction ws with
  | nil => intro c; rfl
  | cons d l ih =>
    intro c
    rw [Core.takeSlots, List.foldl_cons]
    refine (ih _).trans ?_
    simp only [Core.arch, Core.unmarked, Core.mk.injEq, List.map_map, true_and, and_true]
    apply List.map_congr_left
    intro q _
    simp only [Function.comp]
    split <;> simp_all

theorem Core.arch_push (e : Eng) (ws : List Eng) : ∀ c : Core, (c.push e ws).arch = c.arch := by
  induction ws with
  | nil => intro c; rfl
  | cons d l ih =>
    intro c
    rw [Core.push, List.foldl_cons]
    exact (ih _).trans rfl

theorem State.arch_takeFault (s : State) (p : Pos) (ls : List Level) (eng : Nat) (t : Trap) (a b : Bool) : (s.takeFault p ls eng t a b).arch = s.arch := by
  unfold State.takeFault
  split
  · rfl
  · split <;> rfl

theorem State.arch_release (s : State) (e : Eng) (f : Flight) : (s.release e f).arch = s.arch := by
  unfold State.release
  cases s.core.overflow? e f.sigs <;> cases f.send
  · exact State.arch_mapCore _ _ (Core.arch_push ..)
  · exact (State.arch_mapCore _ _ rfl).trans (State.arch_mapCore _ _ (Core.arch_push ..))
  · exact State.arch_takeFault ..
  · exact (State.arch_takeFault ..).trans (State.arch_mapCore _ _ rfl)

theorem State.arch_settle (e : Eng) (fs : List Flight) : ∀ s : State, (s.settle e fs).arch = s.arch := by
  induction fs with
  | nil => intro s; exact State.arch_mapEng _ _ _ rfl
  | cons f fs ih =>
    intro s
    unfold State.settle
    split
    · exact (ih _).trans (State.arch_release ..)
    · exact State.arch_mapEng _ _ _ rfl

theorem State.arch_advance (s : State) (e : Eng) (p : Pos) (n : Next) : (s.advance e p n).arch = s.arch := by
  cases n <;> simp only [State.advance] <;> (try split) <;> refine State.arch_mapEng _ _ _ ?_ <;> (try split) <;> rfl

theorem State.arch_progress (s : State) : s.progress.arch = s.arch := State.arch_mapCore _ _ rfl

theorem State.arch_began (s t : State) : (s.began t).arch = t.arch := by
  unfold State.began
  split
  · exact State.arch_mapCore _ _ rfl
  · rfl

theorem State.arch_retire (s : State) (e : Eng) (p : Pos) (ws gs : List Eng) (send : Option (Eng × Word)) (fin : Bool) (n : Next) :
    (s.retire e p ws gs send fin n).arch = s.arch := by
  unfold State.retire
  refine (State.arch_settle ..).trans ((State.arch_advance ..).trans ((State.arch_mapEng _ _ _ rfl).trans ?_))
  refine (State.arch_mapCore _ _ ?_).trans (State.arch_progress s)
  rw [show ∀ c : Core, Core.arch { c with blocked := [] } = c.arch from fun _ => rfl, Core.arch_takeSlots, Core.arch_pop]

/-! ## What issuing does to the FIFOs -/

theorem Core.pop_tok (e : Eng) (p : Pos) (ws : List Eng) : ∀ c d : Core, c.tok = d.tok → (c.pop e p ws).tok = (d.pop e p ws).tok := by
  induction ws with
  | nil => intro c d h; exact h
  | cons w l ih =>
    intro c d h
    unfold Core.pop
    rw [List.foldl_cons, List.foldl_cons]
    exact ih _ _ (by simp only [h])

theorem Core.push_tok (e : Eng) (ws : List Eng) : ∀ c d : Core, c.tok = d.tok → (c.push e ws).tok = (d.push e ws).tok := by
  induction ws with
  | nil => intro c d h; exact h
  | cons w l ih =>
    intro c d h
    unfold Core.push
    rw [List.foldl_cons, List.foldl_cons]
    exact ih _ _ (by simp only [h])

theorem Core.takeSlots_tok (e : Eng) (ws : List Eng) : ∀ c : Core, (c.takeSlots e ws).tok = c.tok := by
  induction ws with
  | nil => intro c; rfl
  | cons w l ih =>
    intro c
    unfold Core.takeSlots
    rw [List.foldl_cons]
    exact ih _

theorem Core.pop_same (e : Eng) (p : Pos) (ws : List Eng) : ∀ c : Core, (c.pop e p ws).freeze = c.freeze ∧ (c.pop e p ws).follow = c.follow ∧ ∀ d, (c.pop e p ws).eng d = c.eng d := by
  induction ws with
  | nil => intro c; exact ⟨rfl, rfl, fun _ => rfl⟩
  | cons w l ih =>
    intro c
    unfold Core.pop
    rw [List.foldl_cons]
    refine ⟨(ih _).1, (ih _).2.1, fun d => ((ih _).2.2 d).trans ?_⟩
    cases d <;> rfl

theorem Core.takeSlots_same (e : Eng) (ws : List Eng) : ∀ c : Core, (c.takeSlots e ws).freeze = c.freeze ∧ (c.takeSlots e ws).follow = c.follow ∧ ∀ d, (c.takeSlots e ws).eng d = c.eng d := by
  induction ws with
  | nil => intro c; exact ⟨rfl, rfl, fun _ => rfl⟩
  | cons w l ih =>
    intro c
    unfold Core.takeSlots
    rw [List.foldl_cons]
    refine ⟨(ih _).1, (ih _).2.1, fun d => ((ih _).2.2 d).trans ?_⟩
    cases d <;> rfl

theorem Core.push_same (e : Eng) (ws : List Eng) : ∀ c : Core, (c.push e ws).freeze = c.freeze ∧ (c.push e ws).follow = c.follow := by
  induction ws with
  | nil => intro c; exact ⟨rfl, rfl⟩
  | cons w l ih =>
    intro c
    unfold Core.push
    rw [List.foldl_cons]
    exact ⟨(ih _).1, (ih _).2⟩

theorem State.advance_core (s : State) (e : Eng) (p : Pos) (n : Next) :
    (s.advance e p n).core.freeze = s.core.freeze ∧ (s.advance e p n).core.follow = s.core.follow ∧ (s.advance e p n).core.tok = s.core.tok ∧
      ((s.advance e p n).eng e).flights = (s.eng e).flights := by
  cases n <;> simp only [State.advance] <;> (try split) <;> simp [State.eng] <;> (try split) <;> rfl

/-- What retiring a word does to the freeze and the FIFOs when no push waits before it and its own overflow none. -/
theorem State.retire_fifos (s : State) (e : Eng) (p : Pos) (ws gs : List Eng) (n : Next) (hf : (s.eng e).flights = [])
    (ho : (s.core.pop e p ws).overflow? e gs = none) :
    (s.retire e p ws gs none true n).core.freeze = s.core.freeze.map (fun f => { f with stuck := 0 }) ∧ (s.retire e p ws gs none true n).core.follow = s.core.follow ∧
      (s.retire e p ws gs none true n).core.tok = ((s.core.pop e p ws).push e gs).tok := by
  unfold State.retire
  simp only []
  generalize hu : ((s.progress.mapCore fun c => { (c.pop e p ws).takeSlots e gs with blocked := [] }).mapEng e fun g =>
    { g with stall := 0xFF, kept := none, resolved := none, banks := none, got := [], wait := none, begun := false,
             call := if e = .S ∧ 0 < p.call then g.call + 1 else g.call }) = u
  have h1 : u.core.freeze = s.core.freeze.map fun f => { f with stuck := 0 } := by
    subst hu; simp [(Core.takeSlots_same ..).1, (Core.pop_same ..).1, State.progress]
  have h2 : u.core.follow = s.core.follow := by
    subst hu; simp [(Core.takeSlots_same ..).2.1, (Core.pop_same ..).2.1, State.progress]
  have h3 : u.core.tok = (s.core.pop e p ws).tok := by
    subst hu
    simp only [mapEng_core, core_setEng_tok, mapCore_core, Core.takeSlots_tok]
    exact Core.pop_tok _ _ _ _ _ rfl
  have h4 : (u.eng e).flights = [] := by
    subst hu
    rw [eng_mapEng]
    have : (Core.eng { (s.progress.core.pop e p ws).takeSlots e gs with blocked := [] } e) = s.core.eng e := by
      rw [show ∀ c : Core, Core.eng { c with blocked := [] } e = c.eng e from fun c => by cases e <;> rfl, (Core.takeSlots_same ..).2.2, (Core.pop_same ..).2.2]
      cases e <;> rfl
    simp only [State.eng, mapCore_core, this]
    exact hf
  obtain ⟨a1, a2, a3, a4⟩ := State.advance_core u e p n
  have ho' : (u.advance e p n).core.overflow? e gs = none := by
    unfold Core.overflow? at ho ⊢
    rw [a3, h3]; exact ho
  have hk : ∀ d ∈ gs, Tab.get 0 (u.advance e p n).core.tok (pairIdx e.code d.code) < 63 := by
    intro d hd
    simp only [Core.overflow?, Option.map_eq_none_iff, List.find?_eq_none, decide_eq_true_eq] at ho'
    exact Nat.lt_of_not_le (ho' d hd)
  rw [a4, h4, List.nil_append, State.settle]
  simp only [if_true, State.release, ho', State.settle, Option.isSome_none, Bool.false_eq_true, if_false]
  simp only [mapEng_core, core_setEng_freeze, core_setEng_follow, core_setEng_tok, mapCore_core]
  refine ⟨?_, ?_, ?_⟩
  · simp [(Core.push_same ..).1, a1, h1]
  · simp [(Core.push_same ..).2, a2, h2]
  · exact Core.push_tok _ _ _ _ (a3.trans h3)

/-- The same for a word that finishes later. -/
theorem State.retire_fly (s : State) (e : Eng) (p : Pos) (ws gs : List Eng) (send : Option (Eng × Word)) (n : Next) (hf : (s.eng e).flights = []) :
    (s.retire e p ws gs send false n).core.freeze = s.core.freeze.map (fun f => { f with stuck := 0 }) ∧ (s.retire e p ws gs send false n).core.follow = s.core.follow ∧
      (s.retire e p ws gs send false n).core.tok = (s.core.pop e p ws).tok := by
  unfold State.retire
  simp only []
  generalize hu : ((s.progress.mapCore fun c => { (c.pop e p ws).takeSlots e gs with blocked := [] }).mapEng e fun g =>
    { g with stall := 0xFF, kept := none, resolved := none, banks := none, got := [], wait := none, begun := false,
             call := if e = .S ∧ 0 < p.call then g.call + 1 else g.call }) = u
  have h1 : u.core.freeze = s.core.freeze.map fun f => { f with stuck := 0 } := by
    subst hu; simp [(Core.takeSlots_same ..).1, (Core.pop_same ..).1, State.progress]
  have h2 : u.core.follow = s.core.follow := by
    subst hu; simp [(Core.takeSlots_same ..).2.1, (Core.pop_same ..).2.1, State.progress]
  have h3 : u.core.tok = (s.core.pop e p ws).tok := by
    subst hu
    simp only [mapEng_core, core_setEng_tok, mapCore_core, Core.takeSlots_tok]
    exact Core.pop_tok _ _ _ _ _ rfl
  have h4 : (u.eng e).flights = [] := by
    subst hu
    rw [eng_mapEng]
    have : (Core.eng { (s.progress.core.pop e p ws).takeSlots e gs with blocked := [] } e) = s.core.eng e := by
      rw [show ∀ c : Core, Core.eng { c with blocked := [] } e = c.eng e from fun c => by cases e <;> rfl, (Core.takeSlots_same ..).2.2, (Core.pop_same ..).2.2]
      cases e <;> rfl
    simp only [State.eng, mapCore_core, this]
    exact hf
  obtain ⟨a1, a2, a3, a4⟩ := State.advance_core u e p n
  rw [a4, h4, List.nil_append, State.settle]
  simp only [Bool.false_eq_true, if_false]
  exact ⟨by simp [a1, h1], by simp [a2, h2], by simp [a3, h3]⟩

/-! ## Issue -/

/-- What `began` leaves: all but the snapshots and the time of a freeze that the step began. -/
theorem State.began_core (s t : State) : (s.began t).core.follow = t.core.follow ∧ (s.began t).core.tok = t.core.tok ∧
    (∀ e, (s.began t).eng e = t.eng e) ∧ ((∀ f, s.core.freeze ≠ none ∨ t.core.freeze ≠ some f) → (s.began t).core.freeze = t.core.freeze) := by
  unfold State.began
  split
  · next f h1 h2 => exact ⟨rfl, rfl, fun e => by cases e <;> rfl, fun h => absurd h2 ((h f).resolve_left (absurd h1))⟩
  · exact ⟨rfl, rfl, fun _ => rfl, fun _ => rfl⟩

/-- A ready word whose body answers `done` retires, where its writes leave at most 16 pending. -/
theorem issue_done {e : Eng} {ws gs : List Eng} {n : Nat} {send : Option (Eng × Word)} {body : Pos → State → Res} {s s' : State} {nx : Next}
    (hr : Ready s e ws n) (hb : body (s.pos e) s = .done s' nx) (hp : (s'.eng e).pending ≤ (s.eng e).pending + n) :
    issue e ws gs send body s = .next (s.began (s'.retire e (s.pos e) ws gs send true nx)) := by
  obtain ⟨h1, h2, h3⟩ := hr
  unfold issue
  rw [h1]
  simp [h2, hb, show ¬16 < (s'.eng e).pending by omega]

theorem issue_fly {e : Eng} {ws gs : List Eng} {n : Nat} {send : Option (Eng × Word)} {body : Pos → State → Res} {s s' : State} {nx : Next}
    (hr : Ready s e ws n) (hb : body (s.pos e) s = .fly s' nx) (hp : (s'.eng e).pending ≤ (s.eng e).pending + n) :
    issue e ws gs send body s = .next (s.began (s'.retire e (s.pos e) ws gs send false nx)) := by
  obtain ⟨h1, h2, h3⟩ := hr
  unfold issue
  rw [h1]
  simp [h2, hb, show ¬16 < (s'.eng e).pending by omega]

theorem issue_trap {e : Eng} {ws gs : List Eng} {n : Nat} {send : Option (Eng × Word)} {body : Pos → State → Res} {s s' : State} {t : Trap} {a : Bool}
    (hr : Ready s e ws n) (hb : body (s.pos e) s = .trap t a s') : issue e ws gs send body s = .next (s.began (s'.trapAt e t a)) := by
  obtain ⟨h1, h2, -⟩ := hr
  unfold issue
  rw [h1]
  simp [h2, hb]

theorem issue_begin {e : Eng} {ws gs : List Eng} {n : Nat} {send : Option (Eng × Word)} {body : Pos → State → Res} {s s' : State}
    (hr : Ready s e ws n) (hb : body (s.pos e) s = .begin s') :
    issue e ws gs send body s = .next ((s'.progress.mapCore fun k => { k.pop e (s.pos e) ws with blocked := [] }).mapEng e fun g => { g with begun := true }) := by
  obtain ⟨h1, h2, -⟩ := hr
  unfold issue
  rw [h1]
  simp [h2, hb]

theorem issue_stop {e : Eng} {ws gs : List Eng} {n : Nat} {send : Option (Eng × Word)} {body : Pos → State → Res} {s s' : State}
    (hr : Ready s e ws n) (hb : body (s.pos e) s = .stop s') : issue e ws gs send body s = .next s' := by
  obtain ⟨h1, h2, -⟩ := hr
  unfold issue
  rw [h1]
  simp [h2, hb]

/-- The completion of a word that issues through `issue`, from what its body answers. -/
theorem ends_of_done {i : Instr} {e : Eng} {ws gs : List Eng} {n : Nat} {body : Pos → State → Res} {s s' x : State} {nx : Next}
    (hx : exec i s = issue e ws gs none body s) (hr : Ready s e ws n) (hb : body (s.pos e) s = .done s' nx)
    (hp : (s'.eng e).pending ≤ (s.eng e).pending + n)
    (ha : s'.arch = x.arch) (hf : (s'.eng e).flights = (s.eng e).flights) (hs : s'.core.tok = s.core.tok)
    (hz : s'.core.freeze = s.core.freeze) (h1 : s'.core.freeze = x.core.freeze)
    (h2 : s'.core.follow = x.core.follow) (h3 : s'.core.tok = x.core.tok) : Ends i s e ws gs x := by
  refine ⟨_, hx.trans (issue_done hr hb hp), (State.arch_began ..).trans ((State.arch_retire ..).trans ha), fun hq ho => ?_⟩
  have ho' : (s'.core.pop e (s.pos e) ws).overflow? e gs = none := by
    unfold Core.overflow? at ho ⊢
    rw [Core.pop_tok _ _ _ _ _ hs]; exact ho
  obtain ⟨b1, b2, b3⟩ := State.retire_fifos s' e (s.pos e) ws gs nx (hf.trans hq) ho'
  obtain ⟨c1, c2, -, c3⟩ := State.began_core s (s'.retire e (s.pos e) ws gs none true nx)
  refine ⟨(c3 fun f => ?_).trans (b1.trans (h1 ▸ rfl)), c1.trans (b2.trans h2), c2.trans (b3.trans (Core.push_tok _ _ _ _ (Core.pop_tok _ _ _ _ _ h3)))⟩
  rw [b1, hz]
  cases s.core.freeze <;> simp

theorem flies_of_fly {i : Instr} {e : Eng} {ws gs : List Eng} {n : Nat} {body : Pos → State → Res} {s s' x : State} {nx : Next}
    (hx : exec i s = issue e ws gs none body s) (hr : Ready s e ws n) (hb : body (s.pos e) s = .fly s' nx)
    (hp : (s'.eng e).pending ≤ (s.eng e).pending + n)
    (ha : s'.arch = x.arch) (hf : (s'.eng e).flights = (s.eng e).flights) (hz : s'.core.freeze = s.core.freeze) (h1 : s'.core.freeze = x.core.freeze)
    (h2 : s'.core.follow = x.core.follow) (h3 : s'.core.tok = x.core.tok) : Flies i s e ws x := by
  refine ⟨_, hx.trans (issue_fly hr hb hp), (State.arch_began ..).trans ((State.arch_retire ..).trans ha), fun hq => ?_⟩
  obtain ⟨b1, b2, b3⟩ := State.retire_fly s' e (s.pos e) ws gs none nx (hf.trans hq)
  obtain ⟨c1, c2, -, c3⟩ := State.began_core s (s'.retire e (s.pos e) ws gs none false nx)
  refine ⟨(c3 fun f => ?_).trans (b1.trans (h1 ▸ rfl)), c1.trans (b2.trans h2), c2.trans (b3.trans (Core.pop_tok _ _ _ _ _ h3))⟩
  rw [b1, hz]
  cases s.core.freeze <;> simp

theorem State.arch_write (s : State) (e : Eng) (p : Pos) (n : Nat) (f : View → View) : (s.write e p n f).arch = (s.setView e f).arch := by
  cases e <;> rfl

theorem State.arch_writeX (s : State) (e : Eng) (p : Pos) (d : Nat) (w : Word) : (s.writeX e p d w).arch = (s.setReg e d w).arch := by
  unfold State.writeX
  split
  · next h => subst h; cases e <;> rfl
  · split
    · rfl
    · exact State.arch_write ..

theorem State.writeX_core (s : State) (e : Eng) (p : Pos) (d : Nat) (w : Word) :
    ((s.writeX e p d w).eng e).flights = (s.eng e).flights ∧ (s.writeX e p d w).core.tok = s.core.tok ∧
      (s.writeX e p d w).core.freeze = s.core.freeze ∧ (s.writeX e p d w).core.follow = s.core.follow := by
  unfold State.writeX State.write
  split
  · exact ⟨rfl, rfl, rfl, rfl⟩
  · split <;> simp

theorem State.writeX_pending (s : State) (e : Eng) (p : Pos) (d : Nat) (w : Word) : ((s.writeX e p d w).eng e).pending ≤ (s.eng e).pending + 1 := by
  unfold State.writeX State.write
  split
  · omega
  · split <;> simp [Engine.pending]

/-- A word that writes one register with a value of the state at issue (R62, R276). -/
theorem ends_setReg {i : Instr} {e : Eng} {y : Sync} {d : Nat} {f : State → Word} {v : Word} {s : State}
    (hx : exec i s = issueY e y (setReg e d f) s) (hr : Ready s e y.wait.toList 1) (hv : f s = v) :
    Ends i s e y.wait.toList y.sig.toList (s.setReg e d v) := by
  subst hv
  obtain ⟨h1, h2, h3, h4⟩ := State.writeX_core s e (s.pos e) d (f s)
  refine ends_of_done hx hr rfl (State.writeX_pending ..) (State.arch_writeX ..) h1 h2 h3 ?_ ?_ ?_
  · rw [h3]; simp [State.setReg, State.setView]
  · rw [h4]; simp [State.setReg, State.setView]
  · rw [h2]; simp [State.setReg, State.setView]

/-! ## Turns at the banks (R269) -/

theorem State.arch_serveAt (s : State) (e : Eng) (bs : List (Nat × Nat)) : (s.serveAt e bs).arch = s.arch := by
  simp only [State.arch, State.serveAt]
  congr 1
  split
  · rfl
  · simp [Core.servedAt]

/-- A word whose turn it is at every bank it reaches does what its body does; the banks then have served it last. -/
theorem banked_done {e : Eng} {offs : List (Nat × Nat)} {s t : State} {n : Next} (h : s.bankHeld e offs = []) :
    banked e offs s (.done t n) = .done (t.serveAt e (s.wants e offs)) n := by
  simp [banked, h, List.filter_eq_self.2]

/-- The same for a word that finishes later. -/
theorem banked_fly {e : Eng} {offs : List (Nat × Nat)} {s t : State} {n : Next} (h : s.bankHeld e offs = []) :
    banked e offs s (.fly t n) = .fly (t.serveAt e (s.wants e offs)) n := by
  simp [banked, h, List.filter_eq_self.2]

/-! ## Where control goes -/

/-- The next pc and loop levels of an engine after a word (R66, R67). -/
def nextOf (d : Nat) (g : Engine) : Next → Word × List Level
  | .fall => endTest d g.pc g.loops
  | .jump t => (t, branchLoops d t g.loops)
  | .goto t => (t, g.loops)
  | .enter l => (g.pc + 4, l :: g.loops)
  | .skip n => endTest d (g.pc + BitVec.ofNat 64 (4 * n)) g.loops

theorem State.takeFault_eng (s : State) (p : Pos) (ls : List Level) (eng : Nat) (t : Trap) (a b : Bool) (e : Eng) :
    (s.takeFault p ls eng t a b).eng e = s.eng e := by
  unfold State.takeFault
  split
  · cases e <;> rfl
  · split
    · cases e <;> rfl
    · rfl

theorem Core.push_eng (d : Eng) (ws : List Eng) (e : Eng) : ∀ c : Core, (c.push d ws).eng e = c.eng e := by
  induction ws with
  | nil => intro c; rfl
  | cons w l ih =>
    intro c
    unfold Core.push
    rw [List.foldl_cons]
    refine (ih _).trans ?_
    cases e <;> rfl

theorem State.release_eng (s : State) (d : Eng) (f : Flight) (e : Eng) : (s.release d f).eng e = s.eng e := by
  have h : ∀ (c : Core) a b, Core.eng { c with follow := a, blocked := b } e = c.eng e := fun c _ _ => by cases e <;> rfl
  unfold State.release
  cases s.core.overflow? d f.sigs <;> cases f.send
  · exact Core.push_eng ..
  · simp [State.eng, h, Core.push_eng]
  · exact State.takeFault_eng ..
  · refine (State.takeFault_eng ..).trans ?_
    simp [State.eng, h]

theorem State.settle_pc (e : Eng) (fs : List Flight) : ∀ s : State, ((s.settle e fs).eng e).pc = (s.eng e).pc ∧ ((s.settle e fs).eng e).loops = (s.eng e).loops := by
  induction fs with
  | nil => intro s; simp [State.settle]
  | cons f fs ih =>
    intro s
    unfold State.settle
    split
    · rw [(ih _).1, (ih _).2, State.release_eng]; exact ⟨rfl, rfl⟩
    · simp

theorem State.advance_pc (s : State) (e : Eng) (p : Pos) (n : Next) :
    ((s.advance e p n).eng e).pc = (nextOf s.core.calldepth (s.eng e) n).1 ∧ ((s.advance e p n).eng e).loops = (nextOf s.core.calldepth (s.eng e) n).2 := by
  cases n <;> simp only [State.advance, nextOf] <;> (try split) <;> rw [eng_mapEng] <;> (try split) <;> simp_all [Engine.goOn]

theorem Core.pop_depth (e : Eng) (p : Pos) (ws : List Eng) : ∀ c : Core, (c.pop e p ws).calldepth = c.calldepth := by
  induction ws with
  | nil => intro c; rfl
  | cons w l ih => intro c; unfold Core.pop; rw [List.foldl_cons]; exact ih _

theorem Core.takeSlots_depth (e : Eng) (ws : List Eng) : ∀ c : Core, (c.takeSlots e ws).calldepth = c.calldepth := by
  induction ws with
  | nil => intro c; rfl
  | cons w l ih => intro c; unfold Core.takeSlots; rw [List.foldl_cons]; exact ih _

theorem State.retire_pc (s : State) (e : Eng) (p : Pos) (ws gs : List Eng) (send : Option (Eng × Word)) (fin : Bool) (n : Next) :
    ((s.retire e p ws gs send fin n).eng e).pc = (nextOf s.core.calldepth (s.eng e) n).1 ∧
      ((s.retire e p ws gs send fin n).eng e).loops = (nextOf s.core.calldepth (s.eng e) n).2 := by
  unfold State.retire
  simp only []
  rw [(State.settle_pc ..).1, (State.settle_pc ..).2, (State.advance_pc ..).1, (State.advance_pc ..).2]
  have h : (Core.eng { (s.progress.core.pop e p ws).takeSlots e gs with blocked := [] } e) = s.core.eng e := by
    rw [show ∀ c : Core, Core.eng { c with blocked := [] } e = c.eng e from fun c => by cases e <;> rfl, (Core.takeSlots_same ..).2.2, (Core.pop_same ..).2.2]
    cases e <;> rfl
  have hd : ∀ (c : Core) (g : Engine), (c.setEng e g).calldepth = c.calldepth := fun c g => by cases e <;> rfl
  have h1 : ((s.progress.mapCore fun c => { (c.pop e p ws).takeSlots e gs with blocked := [] }).mapEng e fun g =>
      { g with stall := 0xFF, kept := none, resolved := none, banks := none, got := [], wait := none, begun := false,
               call := if e = .S ∧ 0 < p.call then g.call + 1 else g.call }).core.calldepth = s.core.calldepth := by
    simp [hd, Core.takeSlots_depth, Core.pop_depth, State.progress]
  rw [h1, eng_mapEng]
  simp only [State.eng, mapCore_core, h]
  cases n <;> exact ⟨rfl, rfl⟩

theorem goes_of_done {i : Instr} {e : Eng} {ws gs : List Eng} {n : Nat} {body : Pos → State → Res} {s s' x : State} {nx : Next} {pc : Word} {ls : List Level}
    (hx : exec i s = issue e ws gs none body s) (hr : Ready s e ws n) (hb : body (s.pos e) s = .done s' nx)
    (hq : (s'.eng e).pending ≤ (s.eng e).pending + n)
    (ha : s'.arch = x.arch) (hp : nextOf s'.core.calldepth (s'.eng e) nx = (pc, ls)) : Goes i s e x pc ls := by
  refine ⟨_, hx.trans (issue_done hr hb hq), (State.arch_began ..).trans ((State.arch_retire ..).trans ha), ?_⟩
  rw [(State.began_core ..).2.2.1, (State.retire_pc ..).1, (State.retire_pc ..).2, hp]
  exact ⟨rfl, rfl⟩

/-- A ready word whose body faults freezes the crew, and nothing else changes. -/
theorem faults_of_trap {i : Instr} {e : Eng} {ws gs : List Eng} {n : Nat} {send : Option (Eng × Word)} {body : Pos → State → Res} {s : State} {t : Trap} {a : Bool}
    (hx : exec i s = issue e ws gs send body s) (hr : Ready s e ws n) (hb : body (s.pos e) s = .trap t a s) :
    Faults i s e t.cause t.detail t.aux t.faddr a := by
  intro hf
  refine ⟨s.newFreeze (s.pos e) (s.eng e).loops e.code t a false, ?_, rfl, rfl, rfl, rfl, rfl, rfl, rfl, rfl, rfl⟩
  rw [hx, issue_trap hr hb, State.trapAt, State.takeFault, hf]
  simp only [State.began, hf, mapCore_core]
  rfl

theorem State.mapEng_mapEng (s : State) (e : Eng) (f h : Engine → Engine) : (s.mapEng e f).mapEng e h = s.mapEng e fun g => h (f g) := by
  cases e <;> rfl

theorem State.arch_mapEng_congr (s : State) (e : Eng) (f h : Engine → Engine) (hg : (f (s.eng e)).arch = (h (s.eng e)).arch) :
    (s.mapEng e f).arch = (s.mapEng e h).arch := by
  have h1 := State.arch_mapEng (s.mapEng e h) e (fun _ => f (s.eng e)) (by rw [eng_mapEng]; exact hg)
  rwa [State.mapEng_mapEng] at h1

theorem State.stallOn_frame (s : State) (e : Eng) (c : Nat) (b : Bool) :
    let t := s.stallOn e c b
    t.arch = (s.mapEng e fun g => { g with sc := Tab.set 0 g.sc c ((Tab.get 0 g.sc c + 1) % 2 ^ 48) }).arch ∧
      t.core.tok = s.core.tok ∧ t.core.follow = s.core.follow ∧ t.core.freeze = s.core.freeze ∧
      (t.eng e).pc = (s.eng e).pc ∧ (t.eng e).loops = (s.eng e).loops := by
  intro t
  have h : t.arch = _ := State.arch_mapCore _ _ rfl
  refine ⟨h.trans (State.arch_mapEng_congr s e _ _ rfl), ?_, ?_, ?_, ?_, ?_⟩
  all_goals (cases e <;> simp only [t, State.stallOn, State.mapCore, State.mapEng, Core.setEng, Core.eng, State.eng, Engine.count])

theorem stalls_of_stall {i : Instr} {e : Eng} {ws gs : List Eng} {n : Nat} {send : Option (Eng × Word)} {body : Pos → State → Res} {s : State} {c : Nat} {b : Bool}
    (hx : exec i s = issue e ws gs send body s) (hr : Ready s e ws n) (hb : body (s.pos e) s = .stall c b s) : Stalls i s e c := by
  obtain ⟨h1, h2, -⟩ := hr
  refine ⟨_, hx.trans ?_, State.stallOn_frame s e c b⟩
  unfold issue
  rw [h1]
  simp [h2, hb]

/-- A word whose wait FIFOs hold no token stalls. -/
theorem stalls_of_wait {i : Instr} {e : Eng} {ws gs : List Eng} {send : Option (Eng × Word)} {body : Pos → State → Res} {s : State}
    (hx : exec i s = issue e ws gs send body s) (h1 : s.gate e = .go) (h2 : s.core.canPop e ws = false) : Stalls i s e (s.core.popCause e ws) := by
  refine ⟨_, hx.trans ?_, State.stallOn_frame s e (s.core.popCause e ws) true⟩
  unfold issue
  rw [h1]
  simp [h2]

end Sys2Proof.Machine
end

