-- ==== Sys2Proof/Laws/Memory.lean ====
section
/-!
SUPPORT. Sparse tables and memory: a read after a write, and that every operation over memory keeps its canonical form (log entry 2).
-/
namespace Sys2Proof.Machine

variable {α : Type}

/-! ## Rising keys -/

theorem rising_append (t u : Tab α) (ht : Tab.rising t = true) (hu : Tab.rising u = true) (h : ∀ x ∈ t, ∀ y ∈ u, x.1 < y.1) :
    Tab.rising (t ++ u) = true := by
  induction t with
  | nil => simpa using hu
  | cons c t ih =>
    simp only [Tab.rising, Bool.and_eq_true, List.all_eq_true, decide_eq_true_eq] at ht
    simp only [List.cons_append, Tab.rising, Bool.and_eq_true, List.all_eq_true, decide_eq_true_eq, List.mem_append]
    refine ⟨fun x hx => hx.elim (ht.1 x) (h c (by simp) x), ih ht.2 fun x hx => h x (by simp [hx])⟩

theorem rising_filter (p : Nat × α → Bool) (t : Tab α) (ht : Tab.rising t = true) : Tab.rising (t.filter p) = true := by
  induction t with
  | nil => rfl
  | cons c t ih =>
    simp only [Tab.rising, Bool.and_eq_true, List.all_eq_true, decide_eq_true_eq] at ht
    rw [List.filter_cons]
    split
    · simp only [Tab.rising, Bool.and_eq_true, List.all_eq_true, decide_eq_true_eq]
      exact ⟨fun x hx => ht.1 x (List.mem_filter.mp hx).1, ih ht.2⟩
    · exact ih ht.2

theorem rising_map (f : Nat × α → Nat × α) (t : Tab α) (ht : Tab.rising t = true) (h : ∀ x ∈ t, ∀ y ∈ t, x.1 < y.1 → (f x).1 < (f y).1) :
    Tab.rising (t.map f) = true := by
  induction t with
  | nil => rfl
  | cons c t ih =>
    simp only [Tab.rising, Bool.and_eq_true, List.all_eq_true, decide_eq_true_eq] at ht
    simp only [List.map_cons, Tab.rising, Bool.and_eq_true, List.all_eq_true, decide_eq_true_eq, List.mem_map]
    refine ⟨?_, ih ht.2 fun x hx y hy => h x (by simp [hx]) y (by simp [hy])⟩
    rintro _ ⟨y, hy, rfl⟩
    exact h c (by simp) y (by simp [hy]) (ht.1 y hy)

/-- Consecutive keys from an address are rising. -/
theorem rising_run (pa : Nat) (l : List α) : ∀ k, Tab.rising ((l.zipIdx k).map fun b => (pa + b.2, b.1)) = true := by
  induction l with
  | nil => intro k; rfl
  | cons a l ih =>
    intro k
    simp only [List.zipIdx_cons, List.map_cons, Tab.rising, Bool.and_eq_true, List.all_eq_true, decide_eq_true_eq, List.mem_map]
    refine ⟨?_, ih (k + 1)⟩
    rintro _ ⟨b, hb, rfl⟩
    have := List.le_snd_of_mem_zipIdx hb
    dsimp only
    omega

/-! ## Canonical tables -/

variable [DecidableEq α]

theorem wf_iff (d : α) (t : Tab α) : Tab.wf d t = true ↔ Tab.rising t = true ∧ ∀ c ∈ t, c.2 ≠ d := by
  simp [Tab.wf, List.all_eq_true]

theorem wf_nil (d : α) : Tab.wf d ([] : Tab α) = true := rfl

theorem wf_filter (d : α) (p : Nat × α → Bool) (t : Tab α) (h : Tab.wf d t = true) : Tab.wf d (t.filter p) = true := by
  rw [wf_iff] at *
  exact ⟨rising_filter p t h.1, fun c hc => h.2 c (List.mem_filter.mp hc).1⟩

/-- A canonical middle between what stands below its first key and what stands above its last. -/
theorem wf_splice (d : α) (t m : Tab α) (lo hi : Nat) (ht : Tab.wf d t = true) (hm : Tab.wf d m = true) (h : ∀ x ∈ m, lo ≤ x.1 ∧ x.1 < hi) (hh : lo ≤ hi) :
    Tab.wf d (t.filter (fun c => c.1 < lo) ++ m ++ t.filter fun c => hi ≤ c.1) = true := by
  rw [wf_iff] at *
  constructor
  · refine rising_append _ _ (rising_append _ _ (rising_filter _ _ ht.1) hm.1 ?_) (rising_filter _ _ ht.1) ?_
    · intro x hx y hy
      have hx := (List.mem_filter.mp hx).2
      simp only [decide_eq_true_eq] at hx
      have := (h y hy).1
      omega
    · intro x hx y hy
      have hy := (List.mem_filter.mp hy).2
      simp only [decide_eq_true_eq] at hy
      rcases List.mem_append.mp hx with hx | hx
      · have hx := (List.mem_filter.mp hx).2
        simp only [decide_eq_true_eq] at hx
        omega
      · have := (h x hx).2
        omega
  · intro c hc
    simp only [List.mem_append, List.mem_filter] at hc
    rcases hc with (hc | hc) | hc
    · exact ht.2 c hc.1
    · exact hm.2 c hc
    · exact ht.2 c hc.1

theorem wf_set (d : α) (t : Tab α) (i : Nat) (v : α) (h : Tab.wf d t = true) : Tab.wf d (Tab.set d t i v) = true := by
  have := wf_splice d t (if v = d then [] else [(i, v)]) i (i + 1) h
    (by split <;> simp_all [Tab.wf, Tab.rising]) (by split <;> simp) (by omega)
  exact this

theorem wf_setAll (d : α) (l : List (Nat × α)) : ∀ t : Tab α, Tab.wf d t = true → Tab.wf d (Tab.setAll d t l) = true := by
  induction l with
  | nil => intro t h; exact h
  | cons c l ih => intro t h; exact ih _ (wf_set d t c.1 c.2 h)

theorem wf_norm (d : α) (l : List (Nat × α)) : Tab.wf d (Tab.norm d l) = true := by
  induction l with
  | nil => rfl
  | cons c l ih =>
    simp only [Tab.norm]
    split
    · rename_i h
      rw [wf_iff] at *
      refine ⟨?_, ?_⟩
      · revert h ih
        generalize Tab.norm d l = t
        intro ih h
        simp only [Tab.rising, Bool.and_eq_true, List.all_eq_true, decide_eq_true_eq]
        refine ⟨?_, ih.1⟩
        intro x hx
        cases t with
        | nil => cases hx
        | cons y t =>
          have h1 : c.1 < y.1 := h.2 y (by simp)
          rcases List.mem_cons.mp hx with rfl | hx
          · exact h1
          · have := ih.1
            simp only [Tab.rising, Bool.and_eq_true, List.all_eq_true, decide_eq_true_eq] at this
            have := this.1 x hx
            omega
      · intro x hx
        rcases List.mem_cons.mp hx with rfl | hx
        · exact h.1
        · exact ih.2 x hx
    · exact wf_set d _ _ _ ih

/-! ## Reading after writing -/

omit [DecidableEq α] in
theorem get_of_notMem (d : α) (t : Tab α) (i : Nat) (h : ∀ c ∈ t, c.1 ≠ i) : Tab.get d t i = d := by
  induction t with
  | nil => rfl
  | cons c t ih =>
    simp only [Tab.get]
    rw [if_neg (h c (by simp)), ih fun x hx => h x (by simp [hx])]

omit [DecidableEq α] in
theorem get_append_right (d : α) (t u : Tab α) (i : Nat) (h : ∀ c ∈ t, c.1 ≠ i) : Tab.get d (t ++ u) i = Tab.get d u i := by
  induction t with
  | nil => rfl
  | cons c t ih =>
    simp only [List.cons_append, Tab.get]
    rw [if_neg (h c (by simp)), ih fun x hx => h x (by simp [hx])]

omit [DecidableEq α] in
theorem get_append_left (d : α) (t u : Tab α) (i : Nat) (h : ∀ c ∈ u, c.1 ≠ i) : Tab.get d (t ++ u) i = Tab.get d t i := by
  induction t with
  | nil => simp [Tab.get, get_of_notMem d u i h]
  | cons c t ih => simp only [List.cons_append, Tab.get, ih]

omit [DecidableEq α] in
theorem get_filter (d : α) (p : Nat → Bool) (t : Tab α) (i : Nat) (h : p i = true) : Tab.get d (t.filter fun c => p c.1) i = Tab.get d t i := by
  induction t with
  | nil => rfl
  | cons c t ih =>
    rw [List.filter_cons]
    split
    · simp only [Tab.get, ih]
    · rename_i hc
      simp only [Tab.get]
      rw [if_neg (by intro e; rw [e] at hc; exact hc h), ih]

omit [DecidableEq α] in
theorem get_filter_out (d : α) (p : Nat → Bool) (t : Tab α) (i : Nat) (h : p i = false) : Tab.get d (t.filter fun c => p c.1) i = d :=
  get_of_notMem _ _ _ fun c hc e => by
    have := (List.mem_filter.mp hc).2
    rw [e, h] at this
    cases this

/-- The key written reads as what was written (R5). -/
@[simp] theorem get_set (d : α) (t : Tab α) (i : Nat) (v : α) : Tab.get d (Tab.set d t i v) i = v := by
  unfold Tab.set
  rw [get_append_left _ _ _ _ (by intro c hc e; have := (List.mem_filter.mp hc).2; simp at this; omega),
    get_append_right _ _ _ _ (by intro c hc e; have := (List.mem_filter.mp hc).2; simp at this; omega)]
  split
  · rename_i h; simp [Tab.get, h]
  · simp [Tab.get]

/-- Every other key reads as before. -/
theorem get_set_ne (d : α) (t : Tab α) {i j : Nat} (v : α) (h : j ≠ i) : Tab.get d (Tab.set d t i v) j = Tab.get d t j := by
  unfold Tab.set
  rcases Nat.lt_or_gt_of_ne h with h | h
  · rw [List.append_assoc, get_append_left, get_filter d (fun k => decide (k < i)) t j (by simpa using h)]
    intro c hc e
    rcases List.mem_append.mp hc with hc | hc
    · split at hc <;> simp at hc; subst hc; dsimp only at e; omega
    · have := (List.mem_filter.mp hc).2; simp at this; omega
  · rw [get_append_right, get_filter d (fun k => decide (i < k)) t j (by simpa using h)]
    intro c hc e
    rcases List.mem_append.mp hc with hc | hc
    · have := (List.mem_filter.mp hc).2; simp at this; omega
    · split at hc <;> simp at hc; subst hc; dsimp only at e; omega

theorem get_setAll_ne (d : α) (l : List (Nat × α)) (j : Nat) : ∀ t : Tab α, (∀ c ∈ l, c.1 ≠ j) → Tab.get d (Tab.setAll d t l) j = Tab.get d t j := by
  induction l with
  | nil => intro t _; rfl
  | cons c l ih =>
    intro t h
    simp only [Tab.setAll, List.foldl_cons]
    exact (ih _ fun x hx => h x (by simp [hx])).trans (get_set_ne d t c.2 fun e => h c (by simp) e.symm)

/-- Bytes written from an address on read as what was written. -/
theorem get_setAll_run (d : α) (l : List α) (i : Nat) : ∀ (t : Tab α) (n k : Nat), k < l.length →
    Tab.get d (Tab.setAll d t ((l.zipIdx n).map fun c => (i + c.2, c.1))) (i + n + k) = l.getD k d := by
  induction l with
  | nil => intro t n k h; simp at h
  | cons a l ih =>
    intro t n k h
    simp only [List.zipIdx_cons, List.map_cons, Tab.setAll, List.foldl_cons]
    cases k with
    | zero =>
      have : ∀ c ∈ (l.zipIdx (n + 1)).map (fun c => (i + c.2, c.1)), c.1 ≠ i + n := by
        intro c hc e
        obtain ⟨b, hb, rfl⟩ := List.mem_map.mp hc
        have := List.le_snd_of_mem_zipIdx hb
        dsimp only at e
        omega
      exact (get_setAll_ne d _ _ _ this).trans (by simp)
    | succ k =>
      have := ih (Tab.set d t (i + n) a) (n + 1) k (by simpa using h)
      rw [show i + n + (k + 1) = i + (n + 1) + k by omega]
      simpa [Tab.setAll] using this

/-! ## Memory operations -/

/-- Writing a byte of memory keeps its canonical form. -/
theorem wf_setMem (s : State) (pa : Nat) (b : Byte) (h : s.mem.wf = true) : (s.setMem pa b).mem.wf = true := wf_set _ _ _ _ h

theorem wf_setMemBytes (s : State) (pa : Nat) (l : List Byte) (h : s.mem.wf = true) : (s.setMemBytes pa l).mem.wf = true := wf_setAll _ _ _ h

@[simp] theorem memByte_setMem (s : State) (pa : Nat) (b : Byte) : (s.setMem pa b).memByte pa = b := get_set _ _ _ _

theorem memByte_setMem_ne (s : State) {pa a : Nat} (b : Byte) (h : a ≠ pa) : (s.setMem pa b).memByte a = s.memByte a := get_set_ne _ _ _ h

theorem memByte_setMemBytes (s : State) (pa k : Nat) (l : List Byte) (h : k < l.length) : (s.setMemBytes pa l).memByte (pa + k) = l.getD k 0 := by
  simpa [State.memByte, State.setMemBytes] using get_setAll_run 0 l pa s.mem 0 k h

theorem memByte_setMemBytes_ne (s : State) (pa a : Nat) (l : List Byte) (h : a < pa ∨ pa + l.length ≤ a) : (s.setMemBytes pa l).memByte a = s.memByte a := by
  refine get_setAll_ne _ _ _ _ ?_
  intro c hc e
  obtain ⟨b, hb, rfl⟩ := List.mem_map.mp hc
  have h1 := List.snd_lt_of_mem_zipIdx hb
  dsimp only at e
  omega

@[simp] theorem putCore_mem (s : State) (c : Core) : (s.putCore c).mem = s.mem := by unfold State.putCore; split <;> rfl

theorem wf_setByte (s : State) (l : Loc) (b : Byte) (h : s.mem.wf = true) : (s.setByte l b).mem.wf = true := by
  cases l with
  | mem pa => exact wf_setMem s pa b h
  | spad k off => simpa [State.setByte] using h

theorem wf_setBytes (l : List (Loc × Byte)) : ∀ s : State, s.mem.wf = true → (s.setBytes l).mem.wf = true := by
  induction l with
  | nil => intro s h; exact h
  | cons c l ih => intro s h; exact ih _ (wf_setByte s c.1 c.2 h)

@[simp] theorem setHome_mem (s : State) (l : List (Nat × Byte)) : (s.setHome l).mem = s.mem := rfl

/-- A write through a context's translation keeps the canonical form. -/
theorem wf_ctxWrite (s t : State) (ctx va : Nat) (l : List Byte) (h : s.mem.wf = true) (ht : ctxWrite s ctx va l = some t) : t.mem.wf = true := by
  simp only [ctxWrite, Option.map_eq_some_iff] at ht
  obtain ⟨as, -, rfl⟩ := ht
  exact wf_setAll _ _ _ h

/-- Freed pages leave canonical memory canonical. -/
theorem wf_addFree (s : State) (second : Bool) (pa n : Nat) (h : s.mem.wf = true) : (s.addFree second pa n).mem.wf = true := by
  exact wf_filter (0 : Byte) (fun c => decide (c.1 < pa) || decide (pa + 0x10000 * n ≤ c.1)) s.mem h

theorem wf_putRun (m : Memory) (pa : Nat) (l : List Byte) (h : m.wf = true) : Memory.wf (putRun m pa l) = true := by
  refine wf_splice 0 m _ pa (pa + l.length) h ?_ ?_ (by omega)
  · rw [wf_iff]
    refine ⟨rising_filter _ _ (rising_run pa l 0), fun c hc => ?_⟩
    simpa using (List.mem_filter.mp hc).2
  · intro x hx
    obtain ⟨b, hb, rfl⟩ := List.mem_map.mp (List.mem_filter.mp hx).1
    have h1 := List.snd_lt_of_mem_zipIdx hb
    dsimp only
    omega

theorem wf_putRuns (rs : List (Nat × Nat × Nat)) (l : List Byte) : ∀ m : Memory, m.wf = true → Memory.wf (putRuns m rs l) = true := by
  induction rs with
  | nil => intro m h; exact h
  | cons r rs ih => intro m h; exact ih _ (wf_putRun _ _ _ h)

/-- One piece of an image written over a page leaves canonical memory canonical. -/
theorem wf_piece (m : Memory) (u : Tab Byte) (pa lo n : Nat) (hn : Tab.wf (0 : Byte) u = true) (h : m.wf = true) :
    Memory.wf (m.filter (fun c => c.1 < pa) ++ (u.filter fun b => lo ≤ b.1 && b.1 < lo + n).map (fun b => (pa + (b.1 - lo), b.2)) ++ m.filter fun c => pa + n ≤ c.1) = true := by
  refine wf_splice 0 m _ pa (pa + n) h ?_ ?_ (by omega)
  · have hf := wf_filter (0 : Byte) (fun b => decide (lo ≤ b.1) && decide (b.1 < lo + n)) u hn
    rw [wf_iff] at hf ⊢
    refine ⟨rising_map _ _ hf.1 ?_, ?_⟩
    · intro x hx y hy hxy
      have hx := (List.mem_filter.mp hx).2
      have hy := (List.mem_filter.mp hy).2
      simp at hx hy
      dsimp only
      omega
    · intro c hc
      obtain ⟨b, hb, rfl⟩ := List.mem_map.mp hc
      exact hf.2 b hb
  · intro x hx
    obtain ⟨b, hb, rfl⟩ := List.mem_map.mp hx
    have hb := (List.mem_filter.mp hb).2
    simp at hb
    dsimp only
    omega

/-- The pieces of a region, one after another. -/
theorem wf_region (fn : Nat) (u : Tab Byte) (hn : Tab.wf (0 : Byte) u = true) (ps : List (Nat × Nat × Nat)) : ∀ s : State, s.mem.wf = true →
    (ps.foldl (fun s p => match guestPa s fn p.2.1 with
      | none => s
      | some (pa, _, _) => { s with mem := s.mem.filter (fun c => c.1 < pa) ++
          (u.filter fun b => p.1 ≤ b.1 && b.1 < p.1 + p.2.2).map (fun b => (pa + (b.1 - p.1), b.2)) ++ s.mem.filter fun c => pa + p.2.2 ≤ c.1 }) s).mem.wf = true := by
  induction ps with
  | nil => exact fun _ h => h
  | cons p ps ih =>
    intro s h
    rw [List.foldl_cons]
    apply ih
    split
    · exact h
    · exact wf_piece s.mem u _ p.1 p.2.2 hn h

/-- An image written over a region leaves canonical memory canonical. -/
theorem wf_writeRegion (s : State) (fn a n : Nat) (t : Tab Byte) (h : s.mem.wf = true) : (writeRegion s fn a n t).mem.wf = true :=
  wf_region fn _ (wf_norm 0 t) (pagePieces a n) s h

/-- Whatever writes a run of bytes piece by piece leaves canonical memory canonical. -/
theorem wf_pieces (fn : Nat) (f : Memory → Nat → Nat × Nat × Nat → Memory) (hf : ∀ m pa p, m.wf = true → Memory.wf (f m pa p) = true) (ps : List (Nat × Nat × Nat)) :
    ∀ s t : State, s.mem.wf = true → ps.foldlM (fun (s : State) p => (guestPa s fn p.2.1).map fun g => { s with mem := f s.mem g.1 p }) s = some t → t.mem.wf = true := by
  induction ps with
  | nil => rintro s t h ⟨⟩; exact h
  | cons p ps ih =>
    intro s t h ht
    rw [List.foldlM_cons] at ht
    obtain ⟨u, hu, ht⟩ := Option.bind_eq_some_iff.mp ht
    obtain ⟨g, -, rfl⟩ := Option.map_eq_some_iff.mp hu
    exact ih _ t (hf _ _ _ h) ht

theorem wf_gWrite {s t : State} {fn a : Nat} {l : List Byte} (h : s.mem.wf = true) (ht : gWrite s fn a l = some t) : t.mem.wf = true :=
  wf_pieces fn (fun m pa p => putRun m pa ((l.drop p.1).take p.2.2)) (fun _ _ _ => wf_putRun _ _ _) _ s t h ht

theorem wf_gClear {s t : State} {fn a n : Nat} (h : s.mem.wf = true) (ht : gClear s fn a n = some t) : t.mem.wf = true :=
  wf_pieces fn (fun m pa p => Tab.clear m pa p.2.2) (fun _ _ _ => wf_filter _ _ _) _ s t h ht

/-- A page moved by a migration leaves canonical memory canonical. -/
theorem wf_movePage (s : State) (ctx va pa b tier dst : Nat) (h : s.mem.wf = true) : (s.movePage ctx va pa b tier dst).mem.wf = true := by
  have hm : Memory.wf (s.mem.filter (fun c => c.1 < dst) ++ (s.mem.filter fun c => pa ≤ c.1 && c.1 < pa + 2 ^ b).map (fun c => (dst + (c.1 - pa), c.2)) ++
      s.mem.filter fun c => dst + 2 ^ b ≤ c.1) = true := by
    refine wf_splice 0 s.mem _ dst (dst + 2 ^ b) h ?_ ?_ (Nat.le_add_right _ _)
    · have hf := wf_filter (0 : Byte) (fun c => decide (pa ≤ c.1) && decide (c.1 < pa + 2 ^ b)) s.mem h
      rw [wf_iff] at hf ⊢
      refine ⟨rising_map _ _ hf.1 ?_, ?_⟩
      · intro x hx y hy hxy
        have hx := (List.mem_filter.mp hx).2
        have hy := (List.mem_filter.mp hy).2
        simp at hx hy
        dsimp only
        omega
      · intro c hc
        obtain ⟨d, hd, rfl⟩ := List.mem_map.mp hc
        exact hf.2 d hd
    · intro x hx
      obtain ⟨d, hd, rfl⟩ := List.mem_map.mp hx
      have hd := (List.mem_filter.mp hd).2
      simp at hd
      dsimp only
      omega
  unfold State.movePage
  apply wf_addFree
  cases lastLeaf s ctx va with
  | none => simp only [Option.map_none]; (repeat' split) <;> exact hm
  | some e => simp only [Option.map_some]; (repeat' split) <;> exact wf_setMemBytes _ _ _ hm

/-! ## Issue -/

/-- The state that a body's answer carries. -/
def Res.state : Res → State
  | .done s _ => s
  | .begin s => s
  | .fly s _ => s
  | .stall _ _ s => s
  | .trap _ _ s => s
  | .stop s => s

/-- States that agree in what a program can see agree in memory. -/
theorem mem_of_arch {s t : State} (h : s.arch = t.arch) : s.mem = t.mem := show s.arch.mem = t.arch.mem by rw [h]

theorem retire_mem (s : State) (e : Eng) (p : Pos) (ws gs : List Eng) (send : Option (Eng × Word)) (fin : Bool) (n : Next) :
    (s.retire e p ws gs send fin n).mem = s.mem := mem_of_arch (State.arch_retire s e p ws gs send fin n)

theorem began_mem (s t : State) : (s.began t).mem = t.mem := mem_of_arch (State.arch_began s t)

theorem takeFault_mem (s : State) (p : Pos) (ls : List Level) (eng : Nat) (t : Trap) (a b : Bool) : (s.takeFault p ls eng t a b).mem = s.mem :=
  mem_of_arch (State.arch_takeFault s p ls eng t a b)

theorem trapAt_mem (s : State) (e : Eng) (t : Trap) (a : Bool) : (s.trapAt e t a).mem = s.mem := takeFault_mem ..

@[simp] theorem stallOn_mem (s : State) (e : Eng) (c : Nat) (b : Bool) : (s.stallOn e c b).mem = s.mem := rfl

/-- Issue itself leaves memory alone: what holds of memory before and of what the word's body answers holds after. -/
theorem issue_keeps (P : Memory → Prop) {e : Eng} {ws gs : List Eng} {send : Option (Eng × Word)} {body : Pos → State → Res} {s t : State}
    (hs : P s.mem) (hb : P (body (s.pos e) s).state.mem) (ht : issue e ws gs send body s = .next t) : P t.mem := by
  have hi {c : Prop} [Decidable c] {a b : State} (h1 : P a.mem) (h2 : P b.mem) : P (if c then a else b).mem := by split <;> assumption
  unfold issue at ht
  split at ht
  · cases ht; exact hs
  · cases ht; exact hs
  · dsimp only at ht
    split at ht
    · cases ht; exact hs
    · generalize body (s.pos e) s = r at hb ht
      cases r <;> cases ht
      · exact hi hs (by rw [began_mem, retire_mem]; exact hb)
      · exact hb
      · exact hi hs (by rw [began_mem, retire_mem]; exact hb)
      · exact hb
      · rw [began_mem, trapAt_mem]; exact hb
      · exact hb

/-- The memory after reset is canonical. -/
theorem wf_reset : State.reset.mem.wf = true := rfl

end Sys2Proof.Machine
end

