-- ==== Sys2Proof/Laws/PerInstr.lean ====
section
/-!
SUPPORT. One family over all instructions: the word that the encoder gives an instruction is a short-format word with an opcode from 1 on, or a long-format word (R10, R14).
-/
namespace Sys2Proof

/-- What the word of an instruction looks like; the event rows have none. -/
def Laws.WordForm.Statement (i : Instr) : Prop :=
  ∀ w, encode i = some w →
    (∃ (c : Eng) (y : Sync) (op : Nat) (o : BitVec 16), w = shortWord c y op o ∧ 0 < op ∧ op < 128) ∨ ∃ (c : Eng) (op : Nat) (o : BitVec 22), w = longWord c op o ∧ op < 16

theorem Laws.WordForm.short {c : Eng} {y : Sync} {op : Nat} {o : BitVec 16} {w : IWord} (h : some (shortWord c y op o) = some w) (h0 : 0 < op ∧ op < 128) :
    (∃ (c : Eng) (y : Sync) (op : Nat) (o : BitVec 16), w = shortWord c y op o ∧ 0 < op ∧ op < 128) ∨ ∃ (c : Eng) (op : Nat) (o : BitVec 22), w = longWord c op o ∧ op < 16 :=
  .inl ⟨c, y, op, o, (Option.some.inj h).symm, h0⟩

theorem Laws.WordForm.long {c : Eng} {op : Nat} {o : BitVec 22} {w : IWord} (h : some (longWord c op o) = some w) (h0 : op < 16) :
    (∃ (c : Eng) (y : Sync) (op : Nat) (o : BitVec 16), w = shortWord c y op o ∧ 0 < op ∧ op < 128) ∨ ∃ (c : Eng) (op : Nat) (o : BitVec 22), w = longWord c op o ∧ op < 16 :=
  .inr ⟨c, op, o, (Option.some.inj h).symm, h0⟩

theorem Laws.WordForm.illegalInstruction (e : Eng) (word : IWord) (detail : Nat) : Laws.WordForm.Statement (.illegalInstruction e word detail) := fun _ h => nomatch h
theorem Laws.WordForm.nop (c : Eng) (y : Sync) : Laws.WordForm.Statement (.nop c y) := fun _ h => Laws.WordForm.short h (by decide)
theorem Laws.WordForm.add (c : Eng) (y : Sync) (d : BitVec 5) (a : BitVec 5) (b : BitVec 5) (w : Bool) : Laws.WordForm.Statement (.add c y d a b w) := fun _ h => Laws.WordForm.short h (by decide)
theorem Laws.WordForm.sub (c : Eng) (y : Sync) (d : BitVec 5) (a : BitVec 5) (b : BitVec 5) (w : Bool) : Laws.WordForm.Statement (.sub c y d a b w) := fun _ h => Laws.WordForm.short h (by decide)
theorem Laws.WordForm.mul (c : Eng) (y : Sync) (d : BitVec 5) (a : BitVec 5) (b : BitVec 5) (w : Bool) : Laws.WordForm.Statement (.mul c y d a b w) := fun _ h => Laws.WordForm.short h (by decide)
theorem Laws.WordForm.mulh (c : Eng) (y : Sync) (d : BitVec 5) (a : BitVec 5) (b : BitVec 5) (w : Bool) : Laws.WordForm.Statement (.mulh c y d a b w) := fun _ h => Laws.WordForm.short h (by decide)
theorem Laws.WordForm.mulhu (c : Eng) (y : Sync) (d : BitVec 5) (a : BitVec 5) (b : BitVec 5) (w : Bool) : Laws.WordForm.Statement (.mulhu c y d a b w) := fun _ h => Laws.WordForm.short h (by decide)
theorem Laws.WordForm.div (c : Eng) (y : Sync) (d : BitVec 5) (a : BitVec 5) (b : BitVec 5) (w : Bool) : Laws.WordForm.Statement (.div c y d a b w) := fun _ h => Laws.WordForm.short h (by decide)
theorem Laws.WordForm.divu (c : Eng) (y : Sync) (d : BitVec 5) (a : BitVec 5) (b : BitVec 5) (w : Bool) : Laws.WordForm.Statement (.divu c y d a b w) := fun _ h => Laws.WordForm.short h (by decide)
theorem Laws.WordForm.rem (c : Eng) (y : Sync) (d : BitVec 5) (a : BitVec 5) (b : BitVec 5) (w : Bool) : Laws.WordForm.Statement (.rem c y d a b w) := fun _ h => Laws.WordForm.short h (by decide)
theorem Laws.WordForm.remu (c : Eng) (y : Sync) (d : BitVec 5) (a : BitVec 5) (b : BitVec 5) (w : Bool) : Laws.WordForm.Statement (.remu c y d a b w) := fun _ h => Laws.WordForm.short h (by decide)
theorem Laws.WordForm.and (c : Eng) (y : Sync) (d : BitVec 5) (a : BitVec 5) (b : BitVec 5) (w : Bool) : Laws.WordForm.Statement (.and c y d a b w) := fun _ h => Laws.WordForm.short h (by decide)
theorem Laws.WordForm.or (c : Eng) (y : Sync) (d : BitVec 5) (a : BitVec 5) (b : BitVec 5) (w : Bool) : Laws.WordForm.Statement (.or c y d a b w) := fun _ h => Laws.WordForm.short h (by decide)
theorem Laws.WordForm.xor (c : Eng) (y : Sync) (d : BitVec 5) (a : BitVec 5) (b : BitVec 5) (w : Bool) : Laws.WordForm.Statement (.xor c y d a b w) := fun _ h => Laws.WordForm.short h (by decide)
theorem Laws.WordForm.andn (c : Eng) (y : Sync) (d : BitVec 5) (a : BitVec 5) (b : BitVec 5) (w : Bool) : Laws.WordForm.Statement (.andn c y d a b w) := fun _ h => Laws.WordForm.short h (by decide)
theorem Laws.WordForm.shl (c : Eng) (y : Sync) (d : BitVec 5) (a : BitVec 5) (b : BitVec 5) (w : Bool) : Laws.WordForm.Statement (.shl c y d a b w) := fun _ h => Laws.WordForm.short h (by decide)
theorem Laws.WordForm.shr (c : Eng) (y : Sync) (d : BitVec 5) (a : BitVec 5) (b : BitVec 5) (w : Bool) : Laws.WordForm.Statement (.shr c y d a b w) := fun _ h => Laws.WordForm.short h (by decide)
theorem Laws.WordForm.sra (c : Eng) (y : Sync) (d : BitVec 5) (a : BitVec 5) (b : BitVec 5) (w : Bool) : Laws.WordForm.Statement (.sra c y d a b w) := fun _ h => Laws.WordForm.short h (by decide)
theorem Laws.WordForm.slt (c : Eng) (y : Sync) (d : BitVec 5) (a : BitVec 5) (b : BitVec 5) (w : Bool) : Laws.WordForm.Statement (.slt c y d a b w) := fun _ h => Laws.WordForm.short h (by decide)
theorem Laws.WordForm.sltu (c : Eng) (y : Sync) (d : BitVec 5) (a : BitVec 5) (b : BitVec 5) (w : Bool) : Laws.WordForm.Statement (.sltu c y d a b w) := fun _ h => Laws.WordForm.short h (by decide)
theorem Laws.WordForm.min (c : Eng) (y : Sync) (d : BitVec 5) (a : BitVec 5) (b : BitVec 5) (w : Bool) : Laws.WordForm.Statement (.min c y d a b w) := fun _ h => Laws.WordForm.short h (by decide)
theorem Laws.WordForm.max (c : Eng) (y : Sync) (d : BitVec 5) (a : BitVec 5) (b : BitVec 5) (w : Bool) : Laws.WordForm.Statement (.max c y d a b w) := fun _ h => Laws.WordForm.short h (by decide)
theorem Laws.WordForm.minu (c : Eng) (y : Sync) (d : BitVec 5) (a : BitVec 5) (b : BitVec 5) (w : Bool) : Laws.WordForm.Statement (.minu c y d a b w) := fun _ h => Laws.WordForm.short h (by decide)
theorem Laws.WordForm.maxu (c : Eng) (y : Sync) (d : BitVec 5) (a : BitVec 5) (b : BitVec 5) (w : Bool) : Laws.WordForm.Statement (.maxu c y d a b w) := fun _ h => Laws.WordForm.short h (by decide)
theorem Laws.WordForm.sel (c : Eng) (y : Sync) (d : BitVec 5) (a : BitVec 5) (b : BitVec 5) : Laws.WordForm.Statement (.sel c y d a b) := fun _ h => Laws.WordForm.short h (by decide)
theorem Laws.WordForm.clz (c : Eng) (y : Sync) (d : BitVec 5) (a : BitVec 5) (w : Bool) : Laws.WordForm.Statement (.clz c y d a w) := fun _ h => Laws.WordForm.short h (by decide)
theorem Laws.WordForm.popc (c : Eng) (y : Sync) (d : BitVec 5) (a : BitVec 5) (w : Bool) : Laws.WordForm.Statement (.popc c y d a w) := fun _ h => Laws.WordForm.short h (by decide)
theorem Laws.WordForm.addi (c : Eng) (y : Sync) (d : BitVec 5) (a : BitVec 5) (i : BitVec 6) : Laws.WordForm.Statement (.addi c y d a i) := fun _ h => Laws.WordForm.short h (by decide)
theorem Laws.WordForm.andi (c : Eng) (y : Sync) (d : BitVec 5) (a : BitVec 5) (i : BitVec 6) : Laws.WordForm.Statement (.andi c y d a i) := fun _ h => Laws.WordForm.short h (by decide)
theorem Laws.WordForm.ori (c : Eng) (y : Sync) (d : BitVec 5) (a : BitVec 5) (i : BitVec 6) : Laws.WordForm.Statement (.ori c y d a i) := fun _ h => Laws.WordForm.short h (by decide)
theorem Laws.WordForm.xori (c : Eng) (y : Sync) (d : BitVec 5) (a : BitVec 5) (i : BitVec 6) : Laws.WordForm.Statement (.xori c y d a i) := fun _ h => Laws.WordForm.short h (by decide)
theorem Laws.WordForm.shli (c : Eng) (y : Sync) (d : BitVec 5) (a : BitVec 5) (i : BitVec 6) : Laws.WordForm.Statement (.shli c y d a i) := fun _ h => Laws.WordForm.short h (by decide)
theorem Laws.WordForm.shri (c : Eng) (y : Sync) (d : BitVec 5) (a : BitVec 5) (i : BitVec 6) : Laws.WordForm.Statement (.shri c y d a i) := fun _ h => Laws.WordForm.short h (by decide)
theorem Laws.WordForm.srai (c : Eng) (y : Sync) (d : BitVec 5) (a : BitVec 5) (i : BitVec 6) : Laws.WordForm.Statement (.srai c y d a i) := fun _ h => Laws.WordForm.short h (by decide)
theorem Laws.WordForm.slti (c : Eng) (y : Sync) (d : BitVec 5) (a : BitVec 5) (i : BitVec 6) : Laws.WordForm.Statement (.slti c y d a i) := fun _ h => Laws.WordForm.short h (by decide)
theorem Laws.WordForm.sltiu (c : Eng) (y : Sync) (d : BitVec 5) (a : BitVec 5) (i : BitVec 6) : Laws.WordForm.Statement (.sltiu c y d a i) := fun _ h => Laws.WordForm.short h (by decide)
theorem Laws.WordForm.sync (c : Eng) (waits sigs : BitVec 5) : Laws.WordForm.Statement (.sync c waits sigs) := fun _ h => Laws.WordForm.short h (by decide)
theorem Laws.WordForm.syncV1 (c : Eng) (w g : Option Eng) : Laws.WordForm.Statement (.syncV1 c w g) := fun _ h => Laws.WordForm.short h (by decide)
theorem Laws.WordForm.loop (c : Eng) (y : Sync) (s : BitVec 5) (len : BitVec 11) : Laws.WordForm.Statement (.loop c y s len) := fun _ h => Laws.WordForm.short h (by decide)
theorem Laws.WordForm.loopi (c : Eng) (y : Sync) (n : BitVec 9) (len : BitVec 7) : Laws.WordForm.Statement (.loopi c y n len) := fun _ h => Laws.WordForm.short h (by decide)
theorem Laws.WordForm.follow (c : Eng) (y : Sync) (d : BitVec 5) : Laws.WordForm.Statement (.follow c y d) := fun _ h => Laws.WordForm.short h (by decide)
theorem Laws.WordForm.brf (c : Eng) (y : Sync) (d : BitVec 5) (off : BitVec 11) : Laws.WordForm.Statement (.brf c y d off) := fun _ h => Laws.WordForm.short h (by decide)
theorem Laws.WordForm.crr (c : Eng) (y : Sync) (d : BitVec 5) (r : CtlReg) : Laws.WordForm.Statement (.crr c y d r) := fun _ h => Laws.WordForm.short h (by decide)
theorem Laws.WordForm.crw (c : Eng) (y : Sync) (s : BitVec 5) (r : CtlReg) : Laws.WordForm.Statement (.crw c y s r) := fun _ h => Laws.WordForm.short h (by decide)
theorem Laws.WordForm.li (c : Eng) (d : BitVec 5) (i : BitVec 17) : Laws.WordForm.Statement (.li c d i) := fun _ h => Laws.WordForm.long h (by decide)
theorem Laws.WordForm.lih (c : Eng) (d : BitVec 5) (i : BitVec 17) : Laws.WordForm.Statement (.lih c d i) := fun _ h => Laws.WordForm.long h (by decide)
theorem Laws.WordForm.addpc (off : BitVec 22) : Laws.WordForm.Statement (.addpc off) := fun _ h => Laws.WordForm.long h (by decide)
theorem Laws.WordForm.j (off : BitVec 22) : Laws.WordForm.Statement (.j off) := fun _ h => Laws.WordForm.long h (by decide)
theorem Laws.WordForm.call (off : BitVec 22) : Laws.WordForm.Statement (.call off) := fun _ h => Laws.WordForm.long h (by decide)
theorem Laws.WordForm.beqz (y : Sync) (s : BitVec 5) (off : BitVec 11) : Laws.WordForm.Statement (.beqz y s off) := fun _ h => Laws.WordForm.short h (by decide)
theorem Laws.WordForm.bnez (y : Sync) (s : BitVec 5) (off : BitVec 11) : Laws.WordForm.Statement (.bnez y s off) := fun _ h => Laws.WordForm.short h (by decide)
theorem Laws.WordForm.bltz (y : Sync) (s : BitVec 5) (off : BitVec 11) : Laws.WordForm.Statement (.bltz y s off) := fun _ h => Laws.WordForm.short h (by decide)
theorem Laws.WordForm.bgez (y : Sync) (s : BitVec 5) (off : BitVec 11) : Laws.WordForm.Statement (.bgez y s off) := fun _ h => Laws.WordForm.short h (by decide)
theorem Laws.WordForm.bgtz (y : Sync) (s : BitVec 5) (off : BitVec 11) : Laws.WordForm.Statement (.bgtz y s off) := fun _ h => Laws.WordForm.short h (by decide)
theorem Laws.WordForm.blez (y : Sync) (s : BitVec 5) (off : BitVec 11) : Laws.WordForm.Statement (.blez y s off) := fun _ h => Laws.WordForm.short h (by decide)
theorem Laws.WordForm.callr (y : Sync) (s : BitVec 5) : Laws.WordForm.Statement (.callr y s) := fun _ h => Laws.WordForm.short h (by decide)
theorem Laws.WordForm.callx (y : Sync) (s : BitVec 5) (idx : BitVec 11) : Laws.WordForm.Statement (.callx y s idx) := fun _ h => Laws.WordForm.short h (by decide)
theorem Laws.WordForm.ret (y : Sync) : Laws.WordForm.Statement (.ret y) := fun _ h => Laws.WordForm.short h (by decide)
theorem Laws.WordForm.callUnpark : Laws.WordForm.Statement .callUnpark := fun _ h => nomatch h
theorem Laws.WordForm.ld (y : Sync) (d : BitVec 5) (a : BitVec 5) (sz : Size) (o : BitVec 4) : Laws.WordForm.Statement (.ld y d a sz o) := fun _ h => Laws.WordForm.short h (by decide)
theorem Laws.WordForm.st (y : Sync) (s : BitVec 5) (a : BitVec 5) (sz : Size) (o : BitVec 4) : Laws.WordForm.Statement (.st y s a sz o) := fun _ h => Laws.WordForm.short h (by decide)
theorem Laws.WordForm.lda (y : Sync) (d : BitVec 5) (a : BitVec 5) (sc : Scope) (o : BitVec 4) : Laws.WordForm.Statement (.lda y d a sc o) := fun _ h => Laws.WordForm.short h (by decide)
theorem Laws.WordForm.stl (y : Sync) (s : BitVec 5) (a : BitVec 5) (sc : Scope) (o : BitVec 4) : Laws.WordForm.Statement (.stl y s a sc o) := fun _ h => Laws.WordForm.short h (by decide)
theorem Laws.WordForm.amo (y : Sync) (d : BitVec 5) (a : BitVec 5) (op : AmoOp) (w : Bool) : Laws.WordForm.Statement (.amo y d a op w) := fun _ h => Laws.WordForm.short h (by decide)
theorem Laws.WordForm.cas (y : Sync) (d : BitVec 5) (a : BitVec 5) (b : BitVec 5) (w : Bool) : Laws.WordForm.Statement (.cas y d a b w) := fun _ h => Laws.WordForm.short h (by decide)
theorem Laws.WordForm.fence (y : Sync) (s : BitVec 5) (sc : Scope) : Laws.WordForm.Statement (.fence y s sc) := fun _ h => Laws.WordForm.short h (by decide)
theorem Laws.WordForm.sptest (y : Sync) (d : BitVec 5) (a : BitVec 5) : Laws.WordForm.Statement (.sptest y d a) := fun _ h => Laws.WordForm.short h (by decide)
theorem Laws.WordForm.spcast (y : Sync) (d : BitVec 5) (a : BitVec 5) (w : BitVec 2) : Laws.WordForm.Statement (.spcast y d a w) := fun _ h => Laws.WordForm.short h (by decide)
theorem Laws.WordForm.binit (y : Sync) (s : BitVec 5) (id : BitVec 11) : Laws.WordForm.Statement (.binit y s id) := fun _ h => Laws.WordForm.short h (by decide)
theorem Laws.WordForm.barv (y : Sync) (s : BitVec 5) (sc : Scope) : Laws.WordForm.Statement (.barv y s sc) := fun _ h => Laws.WordForm.short h (by decide)
theorem Laws.WordForm.bwait (y : Sync) (p : Bool) (id : BitVec 11) : Laws.WordForm.Statement (.bwait y p id) := fun _ h => Laws.WordForm.short h (by decide)
theorem Laws.WordForm.btry (y : Sync) (d : BitVec 4) (p : Bool) (id : BitVec 11) : Laws.WordForm.Statement (.btry y d p id) := fun _ h => Laws.WordForm.short h (by decide)
theorem Laws.WordForm.arm (y : Sync) (s : BitVec 5) (a : BitVec 5) (slot : BitVec 6) : Laws.WordForm.Statement (.arm y s a slot) := fun _ h => Laws.WordForm.short h (by decide)
theorem Laws.WordForm.disarm (y : Sync) (slot : BitVec 6) : Laws.WordForm.Statement (.disarm y slot) := fun _ h => Laws.WordForm.short h (by decide)
theorem Laws.WordForm.fmtw (y : Sync) (s : BitVec 5) (n : BitVec 6) : Laws.WordForm.Statement (.fmtw y s n) := fun _ h => Laws.WordForm.short h (by decide)
theorem Laws.WordForm.pwlw (y : Sync) (s : BitVec 5) (n : BitVec 6) : Laws.WordForm.Statement (.pwlw y s n) := fun _ h => Laws.WordForm.short h (by decide)
theorem Laws.WordForm.qbind (y : Sync) (s : BitVec 5) (p q : Eng) : Laws.WordForm.Statement (.qbind y s p q) := fun _ h => Laws.WordForm.short h (by decide)
theorem Laws.WordForm.send (y : Sync) (s : BitVec 5) (t : Eng) : Laws.WordForm.Statement (.send y s t) := fun _ h => Laws.WordForm.short h (by decide)
theorem Laws.WordForm.svc (y : Sync) (code : BitVec 11) : Laws.WordForm.Statement (.svc y code) := fun _ h => Laws.WordForm.short h (by decide)
theorem Laws.WordForm.bkpt (y : Sync) (code : BitVec 11) : Laws.WordForm.Statement (.bkpt y code) := fun _ h => Laws.WordForm.short h (by decide)
theorem Laws.WordForm.halt (y : Sync) : Laws.WordForm.Statement (.halt y) := fun _ h => Laws.WordForm.short h (by decide)
theorem Laws.WordForm.haltComplete : Laws.WordForm.Statement .haltComplete := fun _ h => nomatch h
theorem Laws.WordForm.coll (y : Sync) (s : BitVec 5) (a : BitVec 5) : Laws.WordForm.Statement (.coll y s a) := fun _ h => Laws.WordForm.short h (by decide)
theorem Laws.WordForm.rlinv (y : Sync) (slot : Option (BitVec 3)) : Laws.WordForm.Statement (.rlinv y slot) := by
  cases slot <;> exact fun _ h => Laws.WordForm.short h (by decide)
theorem Laws.WordForm.ldr (y : Sync) (d : BitVec 4) (a : BitVec 4) (sx : Bool) (sz : Size) (o : BitVec 4) : Laws.WordForm.Statement (.ldr y d a sx sz o) := fun _ h => Laws.WordForm.short h (by decide)
theorem Laws.WordForm.ldt (y : Sync) (m : BitVec 4) (p : BitVec 3) (q : Bool) (o : BitVec 4) : Laws.WordForm.Statement (.ldt y m p q o) := fun _ h => Laws.WordForm.short h (by decide)
theorem Laws.WordForm.ldt3 (y : Sync) (m : BitVec 4) (p : BitVec 3) (q : Bool) (o : BitVec 4) (z : BitVec 4) : Laws.WordForm.Statement (.ldt3 y m p q o z) := fun _ h => Laws.WordForm.short h (by decide)
theorem Laws.WordForm.ldg (y : Sync) (m : BitVec 4) (p : BitVec 3) (q : Bool) (o : BitVec 4) (sz : Size) : Laws.WordForm.Statement (.ldg y m p q o sz) := fun _ h => Laws.WordForm.short h (by decide)
theorem Laws.WordForm.ldx (y : Sync) (m : BitVec 4) (p : BitVec 3) (q : Bool) (o : BitVec 4) (sz : Size) : Laws.WordForm.Statement (.ldx y m p q o sz) := fun _ h => Laws.WordForm.short h (by decide)
theorem Laws.WordForm.ldz (y : Sync) (m : BitVec 4) (p : BitVec 3) (q : Bool) (o : BitVec 4) (trap : Bool) : Laws.WordForm.Statement (.ldz y m p q o trap) := fun _ h => Laws.WordForm.short h (by decide)
theorem Laws.WordForm.ldzDecodeDone : Laws.WordForm.Statement .ldzDecodeDone := fun _ h => nomatch h
theorem Laws.WordForm.ldzWatchdog : Laws.WordForm.Statement .ldzWatchdog := fun _ h => nomatch h
theorem Laws.WordForm.pref (y : Sync) (m : BitVec 4) (g : BitVec 4) (lvl : PrefLevel) : Laws.WordForm.Statement (.pref y m g lvl) := fun _ h => Laws.WordForm.short h (by decide)
theorem Laws.WordForm.stx (y : Sync) (s : BitVec 4) (a : BitVec 4) (sz : Size) (o : BitVec 4) : Laws.WordForm.Statement (.stx y s a sz o) := fun _ h => Laws.WordForm.short h (by decide)
theorem Laws.WordForm.stt (y : Sync) (m : BitVec 4) (p : BitVec 3) (q : Bool) (o : BitVec 4) : Laws.WordForm.Statement (.stt y m p q o) := fun _ h => Laws.WordForm.short h (by decide)
theorem Laws.WordForm.stt3 (y : Sync) (m : BitVec 4) (p : BitVec 3) (q : Bool) (o : BitVec 4) (z : BitVec 4) : Laws.WordForm.Statement (.stt3 y m p q o z) := fun _ h => Laws.WordForm.short h (by decide)
theorem Laws.WordForm.sts (y : Sync) (m : BitVec 4) (p : BitVec 3) (q : Bool) (o : BitVec 4) (sz : Size) : Laws.WordForm.Statement (.sts y m p q o sz) := fun _ h => Laws.WordForm.short h (by decide)
theorem Laws.WordForm.sttc (y : Sync) (m : BitVec 4) (p : BitVec 3) (q : Bool) (o : BitVec 4) (e : BitVec 4) : Laws.WordForm.Statement (.sttc y m p q o e) := fun _ h => Laws.WordForm.short h (by decide)
theorem Laws.WordForm.red (y : Sync) (m : BitVec 4) (p : BitVec 3) (q : Bool) (o : BitVec 4) (op : RedOp) : Laws.WordForm.Statement (.red y m p q o op) := fun _ h => Laws.WordForm.short h (by decide)
theorem Laws.WordForm.sendt (y : Sync) (x : BitVec 4) : Laws.WordForm.Statement (.sendt y x) := fun _ h => Laws.WordForm.short h (by decide)
theorem Laws.WordForm.pub (y : Sync) (h : BitVec 4) (sc : Scope) : Laws.WordForm.Statement (.pub y h sc) := fun _ h => Laws.WordForm.short h (by decide)
theorem Laws.WordForm.bcopy (y : Sync) (d : BitVec 4) (s : BitVec 4) (n : BitVec 4) (md : CopyMode) : Laws.WordForm.Statement (.bcopy y d s n md) := fun _ h => Laws.WordForm.short h (by decide)
theorem Laws.WordForm.bcopyMoveComplete : Laws.WordForm.Statement .bcopyMoveComplete := fun _ h => nomatch h
theorem Laws.WordForm.migrationPageMove : Laws.WordForm.Statement .migrationPageMove := fun _ h => nomatch h
theorem Laws.WordForm.addressUnitCheck : Laws.WordForm.Statement .addressUnitCheck := fun _ h => nomatch h
theorem Laws.WordForm.dset (y : Sync) (d : BitVec 4) (s : BitVec 4) (md : DsetMode) : Laws.WordForm.Statement (.dset y d s md) := fun _ h => Laws.WordForm.short h (by decide)
theorem Laws.WordForm.vadd (y : Sync) (d : BitVec 4) (a : BitVec 4) (b : BitVec 4) (r : Rnd) (nf : Bool) : Laws.WordForm.Statement (.vadd y d a b r nf) := fun _ h => Laws.WordForm.short h (by decide)
theorem Laws.WordForm.vsub (y : Sync) (d : BitVec 4) (a : BitVec 4) (b : BitVec 4) (r : Rnd) (nf : Bool) : Laws.WordForm.Statement (.vsub y d a b r nf) := fun _ h => Laws.WordForm.short h (by decide)
theorem Laws.WordForm.vmul (y : Sync) (d : BitVec 4) (a : BitVec 4) (b : BitVec 4) (r : Rnd) (nf : Bool) : Laws.WordForm.Statement (.vmul y d a b r nf) := fun _ h => Laws.WordForm.short h (by decide)
theorem Laws.WordForm.vfma (y : Sync) (d : BitVec 4) (a : BitVec 4) (b : BitVec 4) (r : Rnd) (nf : Bool) : Laws.WordForm.Statement (.vfma y d a b r nf) := fun _ h => Laws.WordForm.short h (by decide)
theorem Laws.WordForm.vmin (y : Sync) (d : BitVec 4) (a : BitVec 4) (b : BitVec 4) (r : Rnd) (nf : Bool) : Laws.WordForm.Statement (.vmin y d a b r nf) := fun _ h => Laws.WordForm.short h (by decide)
theorem Laws.WordForm.vmax (y : Sync) (d : BitVec 4) (a : BitVec 4) (b : BitVec 4) (r : Rnd) (nf : Bool) : Laws.WordForm.Statement (.vmax y d a b r nf) := fun _ h => Laws.WordForm.short h (by decide)
theorem Laws.WordForm.vabs (y : Sync) (d : BitVec 4) (a : BitVec 4) (r : Rnd) (nf : Bool) : Laws.WordForm.Statement (.vabs y d a r nf) := fun _ h => Laws.WordForm.short h (by decide)
theorem Laws.WordForm.vneg (y : Sync) (d : BitVec 4) (a : BitVec 4) (r : Rnd) (nf : Bool) : Laws.WordForm.Statement (.vneg y d a r nf) := fun _ h => Laws.WordForm.short h (by decide)
theorem Laws.WordForm.vand (y : Sync) (d : BitVec 4) (a : BitVec 4) (b : BitVec 4) : Laws.WordForm.Statement (.vand y d a b) := fun _ h => Laws.WordForm.short h (by decide)
theorem Laws.WordForm.vor (y : Sync) (d : BitVec 4) (a : BitVec 4) (b : BitVec 4) : Laws.WordForm.Statement (.vor y d a b) := fun _ h => Laws.WordForm.short h (by decide)
theorem Laws.WordForm.vxor (y : Sync) (d : BitVec 4) (a : BitVec 4) (b : BitVec 4) : Laws.WordForm.Statement (.vxor y d a b) := fun _ h => Laws.WordForm.short h (by decide)
theorem Laws.WordForm.vshl (y : Sync) (d : BitVec 4) (a : BitVec 4) (b : BitVec 4) : Laws.WordForm.Statement (.vshl y d a b) := fun _ h => Laws.WordForm.short h (by decide)
theorem Laws.WordForm.vshr (y : Sync) (d : BitVec 4) (a : BitVec 4) (b : BitVec 4) : Laws.WordForm.Statement (.vshr y d a b) := fun _ h => Laws.WordForm.short h (by decide)
theorem Laws.WordForm.vsra (y : Sync) (d : BitVec 4) (a : BitVec 4) (b : BitVec 4) : Laws.WordForm.Statement (.vsra y d a b) := fun _ h => Laws.WordForm.short h (by decide)
theorem Laws.WordForm.vcmp (y : Sync) (d : BitVec 4) (a : BitVec 4) (b : BitVec 4) (cond : Cond) (nf : Bool) : Laws.WordForm.Statement (.vcmp y d a b cond nf) := fun _ h => Laws.WordForm.short h (by decide)
theorem Laws.WordForm.vsel (y : Sync) (d : BitVec 4) (a : BitVec 4) (b : BitVec 4) (m : BitVec 4) : Laws.WordForm.Statement (.vsel y d a b m) := fun _ h => Laws.WordForm.short h (by decide)
theorem Laws.WordForm.vmov (y : Sync) (d : BitVec 4) (a : BitVec 4) : Laws.WordForm.Statement (.vmov y d a) := fun _ h => Laws.WordForm.short h (by decide)
theorem Laws.WordForm.vfill (y : Sync) (d : BitVec 4) (s : BitVec 4) : Laws.WordForm.Statement (.vfill y d s) := fun _ h => Laws.WordForm.short h (by decide)
theorem Laws.WordForm.viota (y : Sync) (d : BitVec 4) (s : BitVec 4) (r : Rnd) (nf : Bool) : Laws.WordForm.Statement (.viota y d s r nf) := fun _ h => Laws.WordForm.short h (by decide)
theorem Laws.WordForm.vcvt (y : Sync) (d : BitVec 4) (a : BitVec 4) (ns : Bool) (r : Rnd) (nf : Bool) : Laws.WordForm.Statement (.vcvt y d a ns r nf) := fun _ h => Laws.WordForm.short h (by decide)
theorem Laws.WordForm.vcvtV1 (y : Sync) (d : BitVec 4) (a : BitVec 4) (r : Rnd) (nf : Bool) : Laws.WordForm.Statement (.vcvtV1 y d a r nf) := fun _ h => Laws.WordForm.short h (by decide)
theorem Laws.WordForm.vqnt (y : Sync) (d : BitVec 4) (a : BitVec 4) (b : BitVec 4) (r : Rnd) (nf : Bool) : Laws.WordForm.Statement (.vqnt y d a b r nf) := fun _ h => Laws.WordForm.short h (by decide)
theorem Laws.WordForm.vdqnt (y : Sync) (d : BitVec 4) (a : BitVec 4) (b : BitVec 4) (r : Rnd) (nf : Bool) : Laws.WordForm.Statement (.vdqnt y d a b r nf) := fun _ h => Laws.WordForm.short h (by decide)
theorem Laws.WordForm.vrshr (y : Sync) (d : BitVec 4) (a : BitVec 4) (b : BitVec 4) (r : Rnd) (nf : Bool) : Laws.WordForm.Statement (.vrshr y d a b r nf) := fun _ h => Laws.WordForm.short h (by decide)
theorem Laws.WordForm.vclamp (y : Sync) (d : BitVec 4) (a : BitVec 4) (lo : BitVec 4) (hi : BitVec 4) : Laws.WordForm.Statement (.vclamp y d a lo hi) := fun _ h => Laws.WordForm.short h (by decide)
theorem Laws.WordForm.vred (y : Sync) (d : BitVec 4) (a : BitVec 4) (op : CombOp) (r : Rnd) (nf : Bool) : Laws.WordForm.Statement (.vred y d a op r nf) := fun _ h => Laws.WordForm.short h (by decide)
theorem Laws.WordForm.vscan (y : Sync) (d : BitVec 4) (a : BitVec 4) (op : CombOp) (r : Rnd) (nf : Bool) : Laws.WordForm.Statement (.vscan y d a op r nf) := fun _ h => Laws.WordForm.short h (by decide)
theorem Laws.WordForm.vpwl (y : Sync) (d : BitVec 4) (a : BitVec 4) (t : PwlTable) (ns : Bool) (r : Rnd) (nf : Bool) : Laws.WordForm.Statement (.vpwl y d a t ns r nf) := fun _ h => Laws.WordForm.short h (by decide)
theorem Laws.WordForm.vrcp (y : Sync) (d : BitVec 4) (a : BitVec 4) (r : Rnd) (nf : Bool) : Laws.WordForm.Statement (.vrcp y d a r nf) := fun _ h => Laws.WordForm.short h (by decide)
theorem Laws.WordForm.vrsqrt (y : Sync) (d : BitVec 4) (a : BitVec 4) (r : Rnd) (nf : Bool) : Laws.WordForm.Statement (.vrsqrt y d a r nf) := fun _ h => Laws.WordForm.short h (by decide)
theorem Laws.WordForm.vsqrt (y : Sync) (d : BitVec 4) (a : BitVec 4) (r : Rnd) (nf : Bool) : Laws.WordForm.Statement (.vsqrt y d a r nf) := fun _ h => Laws.WordForm.short h (by decide)
theorem Laws.WordForm.vdiv (y : Sync) (d : BitVec 4) (a : BitVec 4) (b : BitVec 4) (r : Rnd) (nf : Bool) : Laws.WordForm.Statement (.vdiv y d a b r nf) := fun _ h => Laws.WordForm.short h (by decide)
theorem Laws.WordForm.vgth (y : Sync) (d : BitVec 4) (a : BitVec 4) (b : BitVec 4) : Laws.WordForm.Statement (.vgth y d a b) := fun _ h => Laws.WordForm.short h (by decide)
theorem Laws.WordForm.vsct (y : Sync) (d : BitVec 4) (a : BitVec 4) (b : BitVec 4) : Laws.WordForm.Statement (.vsct y d a b) := fun _ h => Laws.WordForm.short h (by decide)
theorem Laws.WordForm.vflg (y : Sync) (d : BitVec 4) (clr : BitVec 6) : Laws.WordForm.Statement (.vflg y d clr) := fun _ h => Laws.WordForm.short h (by decide)
theorem Laws.WordForm.mma (y : Sync) (c : BitVec 4) (a : BitVec 4) (b : BitVec 4) (slot : BitVec 3) (nf : Bool) : Laws.WordForm.Statement (.mma y c a b slot nf) := fun _ h => Laws.WordForm.short h (by decide)
theorem Laws.WordForm.mmas (y : Sync) (c : BitVec 4) (a : BitVec 4) (b : BitVec 4) (slot : BitVec 3) (nf : Bool) : Laws.WordForm.Statement (.mmas y c a b slot nf) := fun _ h => Laws.WordForm.short h (by decide)
theorem Laws.WordForm.mmat (y : Sync) (c : BitVec 4) (a : BitVec 4) (b : BitVec 4) (slot : BitVec 3) (nf : Bool) : Laws.WordForm.Statement (.mmat y c a b slot nf) := fun _ h => Laws.WordForm.short h (by decide)
theorem Laws.WordForm.mzero (y : Sync) (w : BitVec 4) : Laws.WordForm.Statement (.mzero y w) := fun _ h => Laws.WordForm.short h (by decide)
theorem Laws.WordForm.mdrain (y : Sync) (w : BitVec 4) (s : BitVec 4) (slot : BitVec 3) (e : BitVec 4) (nf : Bool) : Laws.WordForm.Statement (.mdrain y w s slot e nf) := fun _ h => Laws.WordForm.short h (by decide)
theorem Laws.WordForm.mlda (y : Sync) (w : BitVec 4) (s : BitVec 4) : Laws.WordForm.Statement (.mlda y w s) := fun _ h => Laws.WordForm.short h (by decide)
theorem Laws.WordForm.mstat (y : Sync) (d : BitVec 4) (clr : Bool) (e : BitVec 4) : Laws.WordForm.Statement (.mstat y d clr e) := fun _ h => Laws.WordForm.short h (by decide)
theorem Laws.WordForm.tconf (y : Sync) (d : BitVec 4) (s : BitVec 4) (chk : Bool) : Laws.WordForm.Statement (.tconf y d s chk) := fun _ h => Laws.WordForm.short h (by decide)
theorem Laws.WordForm.tld (y : Sync) (d : BitVec 4) (s : BitVec 4) (k : BitVec 4) : Laws.WordForm.Statement (.tld y d s k) := fun _ h => Laws.WordForm.short h (by decide)
theorem Laws.WordForm.tst (y : Sync) (t : BitVec 4) (s : BitVec 4) : Laws.WordForm.Statement (.tst y t s) := fun _ h => Laws.WordForm.short h (by decide)
theorem Laws.WordForm.tmul (y : Sync) (d : BitVec 4) (a : BitVec 4) (b : BitVec 4) : Laws.WordForm.Statement (.tmul y d a b) := fun _ h => Laws.WordForm.short h (by decide)
theorem Laws.WordForm.tadd (y : Sync) (d : BitVec 4) (a : BitVec 4) (b : BitVec 4) (s : BitVec 4) : Laws.WordForm.Statement (.tadd y d a b s) := fun _ h => Laws.WordForm.short h (by decide)
theorem Laws.WordForm.tsub (y : Sync) (d : BitVec 4) (a : BitVec 4) (b : BitVec 4) (s : BitVec 4) : Laws.WordForm.Statement (.tsub y d a b s) := fun _ h => Laws.WordForm.short h (by decide)
theorem Laws.WordForm.tscal (y : Sync) (d : BitVec 4) (a : BitVec 4) (s : BitVec 4) : Laws.WordForm.Statement (.tscal y d a s) := fun _ h => Laws.WordForm.short h (by decide)
theorem Laws.WordForm.txp (y : Sync) (d : BitVec 4) (a : BitVec 4) : Laws.WordForm.Statement (.txp y d a) := fun _ h => Laws.WordForm.short h (by decide)
theorem Laws.WordForm.trcmp (y : Sync) (d : BitVec 4) (a : BitVec 4) : Laws.WordForm.Statement (.trcmp y d a) := fun _ h => Laws.WordForm.short h (by decide)
theorem Laws.WordForm.tdense (y : Sync) (d : BitVec 4) (a : BitVec 4) : Laws.WordForm.Statement (.tdense y d a) := fun _ h => Laws.WordForm.short h (by decide)
theorem Laws.WordForm.tfact (y : Sync) (d : BitVec 4) (a : BitVec 4) : Laws.WordForm.Statement (.tfact y d a) := fun _ h => Laws.WordForm.short h (by decide)
theorem Laws.WordForm.tmma (y : Sync) (c : BitVec 4) (a : BitVec 4) (b : BitVec 4) (slot : BitVec 3) (nf : Bool) : Laws.WordForm.Statement (.tmma y c a b slot nf) := fun _ h => Laws.WordForm.short h (by decide)
theorem Laws.WordForm.trank (y : Sync) (d : BitVec 4) (a : BitVec 4) : Laws.WordForm.Statement (.trank y d a) := fun _ h => Laws.WordForm.short h (by decide)
theorem Laws.WordForm.ttol (y : Sync) (d : BitVec 4) (a : BitVec 4) : Laws.WordForm.Statement (.ttol y d a) := fun _ h => Laws.WordForm.short h (by decide)
theorem Laws.WordForm.tileExecutionEnd : Laws.WordForm.Statement .tileExecutionEnd := fun _ h => nomatch h
theorem Laws.WordForm.leaveGrant (core : Nat) : Laws.WordForm.Statement (.leaveGrant core) := fun _ h => nomatch h
theorem Laws.WordForm.leaveIdleRelease : Laws.WordForm.Statement .leaveIdleRelease := fun _ h => nomatch h
theorem Laws.WordForm.sliceDeadlock : Laws.WordForm.Statement .sliceDeadlock := fun _ h => nomatch h
theorem Laws.WordForm.fetchLineFill (e : Eng) : Laws.WordForm.Statement (.fetchLineFill e) := fun _ h => nomatch h
theorem Laws.WordForm.bankServe (bank : Nat) : Laws.WordForm.Statement (.bankServe bank) := fun _ h => nomatch h
theorem Laws.WordForm.loadDataReturn : Laws.WordForm.Statement .loadDataReturn := fun _ h => nomatch h
theorem Laws.WordForm.storePerform : Laws.WordForm.Statement .storePerform := fun _ h => nomatch h
theorem Laws.WordForm.pendingWriteCommit (e : Eng) : Laws.WordForm.Statement (.pendingWriteCommit e) := fun _ h => nomatch h
theorem Laws.WordForm.horizonWriteRelease : Laws.WordForm.Statement .horizonWriteRelease := fun _ h => nomatch h
theorem Laws.WordForm.memoryChecksComplete (e : Eng) : Laws.WordForm.Statement (.memoryChecksComplete e) := fun _ h => nomatch h
theorem Laws.WordForm.faultDrainEnd : Laws.WordForm.Statement .faultDrainEnd := fun _ h => nomatch h
theorem Laws.WordForm.sliceSetDrainTimeout : Laws.WordForm.Statement .sliceSetDrainTimeout := fun _ h => nomatch h
theorem Laws.WordForm.barrierArrivalApply : Laws.WordForm.Statement .barrierArrivalApply := fun _ h => nomatch h
theorem Laws.WordForm.sendtElementApply : Laws.WordForm.Statement .sendtElementApply := fun _ h => nomatch h
theorem Laws.WordForm.transferAcknowledgement : Laws.WordForm.Statement .transferAcknowledgement := fun _ h => nomatch h
theorem Laws.WordForm.ackTimeout : Laws.WordForm.Statement .ackTimeout := fun _ h => nomatch h
theorem Laws.WordForm.packetReceive (port : Nat) (p : Packet) (badCrcs : Nat) : Laws.WordForm.Statement (.packetReceive port p badCrcs) := fun _ h => nomatch h
theorem Laws.WordForm.packetAdvance (port vc : Nat) : Laws.WordForm.Statement (.packetAdvance port vc) := fun _ h => nomatch h
theorem Laws.WordForm.collAccept : Laws.WordForm.Statement .collAccept := fun _ h => nomatch h
theorem Laws.WordForm.readyMessage (p : Packet) : Laws.WordForm.Statement (.readyMessage p) := fun _ h => nomatch h
theorem Laws.WordForm.readyRetry : Laws.WordForm.Statement .readyRetry := fun _ h => nomatch h
theorem Laws.WordForm.collStep : Laws.WordForm.Statement .collStep := fun _ h => nomatch h
theorem Laws.WordForm.collCompletionArrival : Laws.WordForm.Statement .collCompletionArrival := fun _ h => nomatch h
theorem Laws.WordForm.collAbort (tag : Nat) : Laws.WordForm.Statement (.collAbort tag) := fun _ h => nomatch h
theorem Laws.WordForm.collStepTimeout : Laws.WordForm.Statement .collStepTimeout := fun _ h => nomatch h
theorem Laws.WordForm.qcfgWrite (fn q : Nat) (v : Word) : Laws.WordForm.Statement (.qcfgWrite fn q v) := fun _ h => nomatch h
theorem Laws.WordForm.qbaseWrite (fn q : Nat) (v : Word) : Laws.WordForm.Statement (.qbaseWrite fn q v) := fun _ h => nomatch h
theorem Laws.WordForm.doorbell (fn q : Nat) (v : Word) : Laws.WordForm.Statement (.doorbell fn q v) := fun _ h => nomatch h
theorem Laws.WordForm.frontEndConsume : Laws.WordForm.Statement .frontEndConsume := fun _ h => nomatch h
theorem Laws.WordForm.nopCommand : Laws.WordForm.Statement .nopCommand := fun _ h => nomatch h
theorem Laws.WordForm.launch : Laws.WordForm.Statement .launch := fun _ h => nomatch h
theorem Laws.WordForm.drain : Laws.WordForm.Statement .drain := fun _ h => nomatch h
theorem Laws.WordForm.drainCompletion (fn q : Nat) : Laws.WordForm.Statement (.drainCompletion fn q) := fun _ h => nomatch h
theorem Laws.WordForm.waitmem : Laws.WordForm.Statement .waitmem := fun _ h => nomatch h
theorem Laws.WordForm.waitmemPoll (fn q : Nat) : Laws.WordForm.Statement (.waitmemPoll fn q) := fun _ h => nomatch h
theorem Laws.WordForm.pipe : Laws.WordForm.Statement .pipe := fun _ h => nomatch h
theorem Laws.WordForm.coreFreeDispatch (core : Nat) : Laws.WordForm.Statement (.coreFreeDispatch core) := fun _ h => nomatch h
theorem Laws.WordForm.preemptTrigger : Laws.WordForm.Statement .preemptTrigger := fun _ h => nomatch h
theorem Laws.WordForm.preemptBoundarySave : Laws.WordForm.Statement .preemptBoundarySave := fun _ h => nomatch h
theorem Laws.WordForm.preemptForce : Laws.WordForm.Statement .preemptForce := fun _ h => nomatch h
theorem Laws.WordForm.create (fn : Nat) (v : Word) : Laws.WordForm.Statement (.create fn v) := fun _ h => nomatch h
theorem Laws.WordForm.destroy (fn : Nat) (v : Word) : Laws.WordForm.Statement (.destroy fn v) := fun _ h => nomatch h
theorem Laws.WordForm.save (fn : Nat) (v : Word) : Laws.WordForm.Statement (.save fn v) := fun _ h => nomatch h
theorem Laws.WordForm.restore (fn : Nat) (v : Word) : Laws.WordForm.Statement (.restore fn v) := fun _ h => nomatch h
theorem Laws.WordForm.switch (fn : Nat) (v : Word) : Laws.WordForm.Statement (.switch fn v) := fun _ h => nomatch h
theorem Laws.WordForm.resume (fn : Nat) (v : Word) : Laws.WordForm.Statement (.resume fn v) := fun _ h => nomatch h
theorem Laws.WordForm.inval (fn : Nat) (v : Word) : Laws.WordForm.Statement (.inval fn v) := fun _ h => nomatch h
theorem Laws.WordForm.vfsusp (fn : Nat) (v : Word) : Laws.WordForm.Statement (.vfsusp fn v) := fun _ h => nomatch h
theorem Laws.WordForm.vfres (fn : Nat) (v : Word) : Laws.WordForm.Statement (.vfres fn v) := fun _ h => nomatch h
theorem Laws.WordForm.vffeatWrite (vf : Nat) (v : Word) : Laws.WordForm.Statement (.vffeatWrite vf v) := fun _ h => nomatch h
theorem Laws.WordForm.s2rootWrite (vf : Nat) (v : Word) : Laws.WordForm.Statement (.s2rootWrite vf v) := fun _ h => nomatch h
theorem Laws.WordForm.functionLevelReset (vf : Nat) : Laws.WordForm.Statement (.functionLevelReset vf) := fun _ h => nomatch h
theorem Laws.WordForm.pageWalkComplete (die : Nat) : Laws.WordForm.Statement (.pageWalkComplete die) := fun _ h => nomatch h
theorem Laws.WordForm.load (fn : Nat) (v : Word) : Laws.WordForm.Statement (.load fn v) := fun _ h => nomatch h
theorem Laws.WordForm.unload (fn : Nat) (v : Word) : Laws.WordForm.Statement (.unload fn v) := fun _ h => nomatch h
theorem Laws.WordForm.depstatWrite (fn : Nat) (v : Word) : Laws.WordForm.Statement (.depstatWrite fn v) := fun _ h => nomatch h
theorem Laws.WordForm.bind (v : Word) : Laws.WordForm.Statement (.bind v) := fun _ h => nomatch h
theorem Laws.WordForm.unbind (v : Word) : Laws.WordForm.Statement (.unbind v) := fun _ h => nomatch h
theorem Laws.WordForm.easyAll (v : Word) : Laws.WordForm.Statement (.easyAll v) := fun _ h => nomatch h
theorem Laws.WordForm.gangIn (v : Word) : Laws.WordForm.Statement (.gangIn v) := fun _ h => nomatch h
theorem Laws.WordForm.discard (v : Word) : Laws.WordForm.Statement (.discard v) := fun _ h => nomatch h
theorem Laws.WordForm.gangSwitchTime : Laws.WordForm.Statement .gangSwitchTime := fun _ h => nomatch h
theorem Laws.WordForm.gangMarkerSend (port : Nat) : Laws.WordForm.Statement (.gangMarkerSend port) := fun _ h => nomatch h
theorem Laws.WordForm.gangMarkerArrival (port : Nat) (p : Packet) : Laws.WordForm.Statement (.gangMarkerArrival port p) := fun _ h => nomatch h
theorem Laws.WordForm.switchOutComplete : Laws.WordForm.Statement .switchOutComplete := fun _ h => nomatch h
theorem Laws.WordForm.gangMarkerTimeout : Laws.WordForm.Statement .gangMarkerTimeout := fun _ h => nomatch h
theorem Laws.WordForm.gangResumeTime : Laws.WordForm.Statement .gangResumeTime := fun _ h => nomatch h
theorem Laws.WordForm.gangResumeComplete : Laws.WordForm.Statement .gangResumeComplete := fun _ h => nomatch h
theorem Laws.WordForm.pcieLinkUp : Laws.WordForm.Statement .pcieLinkUp := fun _ h => nomatch h
theorem Laws.WordForm.powerOn : Laws.WordForm.Statement .powerOn := fun _ h => nomatch h
theorem Laws.WordForm.rcvctlSubmit (v : Word) : Laws.WordForm.Statement (.rcvctlSubmit v) := fun _ h => nomatch h
theorem Laws.WordForm.railsGood : Laws.WordForm.Statement .railsGood := fun _ h => nomatch h
theorem Laws.WordForm.clkctlWrite (v : Word) : Laws.WordForm.Statement (.clkctlWrite v) := fun _ h => nomatch h
theorem Laws.WordForm.pllLock : Laws.WordForm.Statement .pllLock := fun _ h => nomatch h
theorem Laws.WordForm.dierstWrite (v : Word) : Laws.WordForm.Statement (.dierstWrite v) := fun _ h => nomatch h
theorem Laws.WordForm.dieReleased (die : Nat) : Laws.WordForm.Statement (.dieReleased die) := fun _ h => nomatch h
theorem Laws.WordForm.sraminitWrite (v : Word) : Laws.WordForm.Statement (.sraminitWrite v) := fun _ h => nomatch h
theorem Laws.WordForm.sramInitDone (failing : List Nat) : Laws.WordForm.Statement (.sramInitDone failing) := fun _ h => nomatch h
theorem Laws.WordForm.powerUpTimeout : Laws.WordForm.Statement .powerUpTimeout := fun _ h => nomatch h
theorem Laws.WordForm.mctlWrite (n : Nat) (v : Word) : Laws.WordForm.Statement (.mctlWrite n v) := fun _ h => nomatch h
theorem Laws.WordForm.memoryTrainingDone (n : Nat) (pass : Bool) : Laws.WordForm.Statement (.memoryTrainingDone n pass) := fun _ h => nomatch h
theorem Laws.WordForm.memoryTrainingTimeout (n : Nat) : Laws.WordForm.Statement (.memoryTrainingTimeout n) := fun _ h => nomatch h
theorem Laws.WordForm.mmapWrite (v : Word) : Laws.WordForm.Statement (.mmapWrite v) := fun _ h => nomatch h
theorem Laws.WordForm.portctlWrite (p : Nat) (v : Word) : Laws.WordForm.Statement (.portctlWrite p v) := fun _ h => nomatch h
theorem Laws.WordForm.laneTrainingDone (p : Nat) (lanes : BitVec 2) : Laws.WordForm.Statement (.laneTrainingDone p lanes) := fun _ h => nomatch h
theorem Laws.WordForm.rsFecLock (p : Nat) : Laws.WordForm.Statement (.rsFecLock p) := fun _ h => nomatch h
theorem Laws.WordForm.identityExchangeDone (p neighbour : Nat) : Laws.WordForm.Statement (.identityExchangeDone p neighbour) := fun _ h => nomatch h
theorem Laws.WordForm.linkTrainingTimeout (p : Nat) : Laws.WordForm.Statement (.linkTrainingTimeout p) := fun _ h => nomatch h
theorem Laws.WordForm.firmwareUpdate (image : List Byte) : Laws.WordForm.Statement (.firmwareUpdate image) := fun _ h => nomatch h
theorem Laws.WordForm.minsvnRaise : Laws.WordForm.Statement .minsvnRaise := fun _ h => nomatch h
theorem Laws.WordForm.attestationQuote (nonce : List Byte) : Laws.WordForm.Statement (.attestationQuote nonce) := fun _ h => nomatch h
theorem Laws.WordForm.pluginTimeout (fn : Nat) : Laws.WordForm.Statement (.pluginTimeout fn) := fun _ h => nomatch h
theorem Laws.WordForm.pluginViolation (fn : Nat) : Laws.WordForm.Statement (.pluginViolation fn) := fun _ h => nomatch h
theorem Laws.WordForm.firmwareIsolationViolation : Laws.WordForm.Statement .firmwareIsolationViolation := fun _ h => nomatch h
theorem Laws.WordForm.pwrlimWrite (v : Word) : Laws.WordForm.Statement (.pwrlimWrite v) := fun _ h => nomatch h
theorem Laws.WordForm.governorTick (measured : Nat) : Laws.WordForm.Statement (.governorTick measured) := fun _ h => nomatch h
theorem Laws.WordForm.dieTemperatureChange (die celsius : Nat) : Laws.WordForm.Statement (.dieTemperatureChange die celsius) := fun _ h => nomatch h
theorem Laws.WordForm.correctedError (unit loc addr : Nat) : Laws.WordForm.Statement (.correctedError unit loc addr) := fun _ h => nomatch h
theorem Laws.WordForm.uncorrectableError (unit loc addr : Nat) : Laws.WordForm.Statement (.uncorrectableError unit loc addr) := fun _ h => nomatch h
theorem Laws.WordForm.patrolScrub : Laws.WordForm.Statement .patrolScrub := fun _ h => nomatch h
theorem Laws.WordForm.freePageAdd (v : Word) : Laws.WordForm.Statement (.freePageAdd v) := fun _ h => nomatch h
theorem Laws.WordForm.freePageTake (v : Word) : Laws.WordForm.Statement (.freePageTake v) := fun _ h => nomatch h
theorem Laws.WordForm.securityAlarm (source : Nat) : Laws.WordForm.Statement (.securityAlarm source) := fun _ h => nomatch h
theorem Laws.WordForm.registerWrite (fn off : Nat) (v : Word) : Laws.WordForm.Statement (.registerWrite fn off v) := fun _ h => nomatch h
theorem Laws.WordForm.powerOff : Laws.WordForm.Statement .powerOff := fun _ h => nomatch h
theorem Laws.WordForm.linkFailure (p : Nat) : Laws.WordForm.Statement (.linkFailure p) := fun _ h => nomatch h
theorem Laws.WordForm.policyPluginDone (resume : Bool) (ctx slot : Nat) : Laws.WordForm.Statement (.policyPluginDone resume ctx slot) := fun _ h => nomatch h

end Sys2Proof
end

