-- ==== Sys2Proof/Tests/Slice0.lean ====
section
/-!
SUPPORT. The model's own tests: ill-formed terms, words written out from the spec's encodings, one step on small states, and a witness for the hypotheses of each statement.
-/
namespace Sys2Proof

open Sys2Proof.Machine

set_option Elab.async false

/-! ## Small states -/

/-- The address of the one word that runs. -/
def T.at_ : Word := 0x780000000000

/-- A core about to run one word of an engine in context 1, with a page of data at 0x10000, one at 0x30000 that nothing may touch, and some registers. -/
def T.base (e : Eng) (regs : List (Nat × Word)) : State :=
  let s := State.reset.placeWord e ((encode (.nop e Sync.none)).getD 0)
  let s := s.mapEng e fun g => { g with view := { g.view with regs := Tab.setAll 0 [] regs } }
  let s := s.mapCore fun c => { c with
    tlb := c.tlb ++ [⟨0, 1, 0x10000, 16, 0x200000, true, true, false⟩, ⟨0, 1, 0x30000, 16, 0x210000, false, false, false⟩]
    leave := .held }
  { s with ctxs := [(1, ⟨0, 0x500000, 0x600000, 0x200000, 20, 0, false, 0, [], []⟩)], health := { s.health with stage := 6, pcie := true } }

/-- The state that an outcome answers. -/
def T.next (o : Host.Outcome State Fault Refusal) : State := match o with | .next s => s | _ => State.reset

/-- The focus core changed. -/
def T.core (s : State) (f : Core → Core) : State := s.mapCore f

def T.isOk {α : Type} (c : Chk α) : Bool := match c with | .ok _ => true | _ => false

theorem T.ok_of {α : Type} {c : Chk α} (h : T.isOk c = true) : ∃ r, c = .ok r := by
  cases c with
  | ok r => exact ⟨r, rfl⟩
  | bad _ _ _ => cases h
  | walk _ => cases h

/-- The checks of an engine's word find places for which `p` holds, and the banks serve it. -/
def T.checks (s : State) (e : Eng) (c : Chk Places) (p : Places → Bool := fun _ => true) : Bool :=
  match s.known e c with
  | .ok pl => decide (s.bankHeld e (pl.home s.core.id e) = []) && p pl
  | _ => false

theorem T.checked_of {s : State} {e : Eng} {c : Chk Places} {p : Places → Bool} (h : T.checks s e c p = true) : ∃ pl, Checked s e c pl ∧ p pl = true := by
  unfold T.checks at h
  split at h
  · rename_i pl hk
    simp only [Bool.and_eq_true, decide_eq_true_eq] at h
    exact ⟨pl, ⟨hk, h.1⟩, h.2⟩
  · cases h

/-- No load data, no element and no word of any core waits at a bank. -/
def T.calm (s : State) : Bool := s.net.elems == [] && (s.core :: s.others).all fun c => c.loads == [] && Eng.all.all fun e => (c.eng e).banks == none

theorem T.turn (s : State) (e : Eng) (h : T.calm s = true) : HasTurn s e := by
  simp only [T.calm, Bool.and_eq_true, beq_iff_eq, List.all_eq_true] at h
  have hc (k : Nat) : (s.focusOn k).core.loads = [] ∧ ∀ e : Eng, ((s.focusOn k).core.eng e).banks = none := by
    have all (c : Core) (hm : c ∈ s.core :: s.others) : c.loads = [] ∧ ∀ e : Eng, (c.eng e).banks = none :=
      ⟨(h.2 c hm).1, fun e => (h.2 c hm).2 e (by cases e <;> decide)⟩
    have reset : (Core.reset k).loads = [] ∧ ∀ e : Eng, ((Core.reset k).eng e).banks = none := ⟨rfl, fun e => by cases e <;> rfl⟩
    unfold State.focusOn State.coreAt
    split
    · exact all _ (.head _)
    · cases hf : s.others.find? (fun c => c.id == k) with
      | none => exact reset
      | some c => exact all c (.tail _ (List.mem_of_find?_eq_some hf))
  have hw (k b : Nat) : s.waitsAt k b = [] := by
    simp [State.waitsAt, State.waiting, State.eng, State.placeable, State.elemOf, h.1, hc]
  intro offs
  simp [State.bankHeld, State.behind, hw]
theorem T.ready (e : Eng) (regs : List (Nat × Word)) (h : (T.base e regs).gate e = .go ∧ (T.base e regs).core.canPop e [] = true ∧ ((T.base e regs).eng e).pending + 2 ≤ 16) :
    ∀ n ≤ 2, Ready (T.base e regs) e [] n := fun _ hn => ⟨h.1, h.2.1, Nat.le_trans (Nat.add_le_add_left hn _) h.2.2⟩

/-- The word's own address may be jumped to. -/
theorem T.executable (s : State) (e : Eng) (t : Word)
    (h : (match s.core.crew with
      | none => false
      | some c => t.toNat % 4 == 0 && (bits t.toNat 63 55 == 0 || bits t.toNat 63 55 == 0x1FF) &&
        match lookup s (s.eng e).got c.fn c.ctx (va56 t) with
        | some (.hit x) => x.x
        | _ => false) = true) : Executable s e t := by
  split at h
  · cases h
  · rename_i c hc
    simp only [Bool.and_eq_true, beq_iff_eq, Bool.or_eq_true] at h
    obtain ⟨⟨h1, h2⟩, h3⟩ := h
    split at h3
    · rename_i x hx
      exact ⟨c, x, hc, h1, h2, hx, h3⟩
    · cases h3

/-! ## Well-formedness (R12, R15, R17 to R22): each check refuses a term -/

theorem test_wf_register : (Instr.add .L Sync.none 16 0 0 false).wf = false := by decide
theorem test_wf_register_S : (Instr.add .S Sync.none 31 31 31 false).wf = true := by decide
theorem test_wf_wait : (Instr.nop .S ⟨some .S, none⟩).wf = false := by decide
theorem test_wf_signal : (Instr.nop .V ⟨none, some .V⟩).wf = false := by decide
theorem test_wf_mask : (Instr.sync .S 1 0).wf = false := by decide
theorem test_wf_mask_signals : (Instr.sync .L 0 2).wf = false := by decide
theorem test_wf_syncV1 : (Instr.syncV1 .M (some .M) none).wf = false := by decide
theorem test_wf_qbind : (Instr.qbind Sync.none 1 .L .L).wf = false := by decide
theorem test_wf_loop_length : (Instr.loop .S Sync.none 1 0).wf = false := by decide
theorem test_wf_loopi_count : (Instr.loopi .S Sync.none 0 1).wf = false := by decide
theorem test_wf_follow_S : (Instr.follow .S Sync.none 1).wf = false := by decide
theorem test_wf_brf_S : (Instr.brf .S Sync.none 1 0).wf = false := by decide
theorem test_wf_crw_readonly : (Instr.crw .S Sync.none 1 .time).wf = false := by decide
theorem test_wf_lda_scope : (Instr.lda Sync.none 1 2 .engine 0).wf = false := by decide
theorem test_wf_barv_scope : (Instr.barv Sync.none 1 .engine).wf = false := by decide
theorem test_wf_send_S : (Instr.send Sync.none 1 .S).wf = false := by decide
theorem test_wf_load_slot : (Instr.ldt Sync.none 1 0 true 0).wf = false := by decide
theorem test_wf_ldx_size : (Instr.ldx Sync.none 1 0 false 0 .w).wf = false := by decide
theorem test_wf_store_slot : (Instr.stt Sync.none 1 0 true 0).wf = false := by decide
theorem test_wf_scan : (Instr.vscan Sync.none 1 2 .amax .rn false).wf = false := by decide

/-! ## Decoding: words written out from the spec's encodings, one of each family -/

theorem test_decode_add : decodeTableWord 32 0x00021844 = some (.add .S Sync.none 3 1 2 false) := by decide +kernel
theorem test_decode_addi : decodeTableWord 32 0x34202110 = some (.addi .L ⟨some .W, none⟩ 4 4 16) := by decide +kernel
theorem test_decode_sync : decodeTableWord 32 0x40305400 = some (.sync .V 0x0a 0x10) := by decide +kernel
theorem test_decode_syncV1 : decodeTableWord 32 0x40315400 = some (.syncV1 .V (some .L) (some .W)) := by decide +kernel
theorem test_decode_li : decodeTableWord 32 0x3C0DFFFD = some (.li .L 6 0x1FFFD) := by decide +kernel
theorem test_decode_j : decodeTableWord 32 0x1CFFFFF8 = some (.j 0x3FFFF8) := by decide +kernel
theorem test_decode_loopi : decodeTableWord 32 0x20330302 = some (.loopi .L Sync.none 6 2) := by decide +kernel
theorem test_decode_lda : decodeTableWord 32 0x00523130 = some (.lda Sync.none 6 4 .pod 0) := by decide +kernel
theorem test_decode_barv : decodeTableWord 32 0x00613A00 = some (.barv Sync.none 7 .quad) := by decide +kernel
theorem test_decode_rlinv : decodeTableWord 32 0x00790010 = some (.rlinv Sync.none none) := by decide +kernel
theorem test_decode_rlinv_slot : decodeTableWord 32 0x00790003 = some (.rlinv Sync.none (some 3)) := by decide +kernel
theorem test_decode_ldt : decodeTableWord 32 0x21C13500 = some (.ldt ⟨none, some .V⟩ 3 2 true 0) := by decide +kernel
theorem test_decode_stx : decodeTableWord 32 0x80405233 = some (.stx Sync.none 5 2 .d 3) := by decide +kernel
theorem test_decode_bcopy : decodeTableWord 32 0x80484894 = some (.bcopy Sync.none 4 8 9 .mig) := by decide +kernel
theorem test_decode_vmul : decodeTableWord 32 0x4AC3201E = some (.vmul ⟨some .L, some .W⟩ 2 0 1 .eng false) := by decide +kernel
theorem test_decode_vcmp : decodeTableWord 32 0x404F3124 = some (.vcmp Sync.none 3 1 2 .lt false) := by decide +kernel
theorem test_decode_mma : decodeTableWord 32 0x68404232 = some (.mma ⟨some .L, none⟩ 4 2 3 1 false) := by decide +kernel
theorem test_decode_tadd : decodeTableWord 32 0x60543120 = some (.tadd Sync.none 3 1 2 0) := by decide +kernel
theorem test_decode_zero : decode .S 0 0 = .illegal 0x01 := by decide +kernel
theorem test_decode_class : decode .S 0 0x20021844 = .illegal 0x03 := by decide +kernel
theorem test_decode_own_wait : decode .L 0 0x28021844 = .illegal 0x04 := by decide +kernel
theorem test_decode_reserved : decode .S 0 0x00010001 = .illegal 0x0A := by decide +kernel
theorem test_decode_masked : decode .M 1 0x60543120 = .illegal 0x07 := by decide +kernel
theorem test_decode_bytes : decodeBytes .S 0 [0x44, 0x18, 0x02, 0x00, 0xFF] = some (.ok (.add .S Sync.none 3 1 2 false), [0xFF]) := by decide +kernel

/-! ## Witnesses: encoding, steps, invariants -/

theorem witness_DecodeEncode : (Instr.vcmp ⟨some .L, none⟩ 15 0 1 .un true).wf = true ∧ (encode (.vcmp ⟨some .L, none⟩ 15 0 1 .un true)).isSome = true := by decide
theorem witness_EncodeDecode : decode .W 0x20 0x80C69000 = .ok (.sendt ⟨none, some .S⟩ 9) := by decide
theorem witness_StepRunsWord_engine :
    let s := T.base .S []
    let u := ({ s with agenda := [] } : State).clock
    s.agenda = [.engine .S] ∧ s.core.crew ≠ none ∧ s.core.held = false ∧ u.gate .S = .go ∧
      (match u.opEntry? .S (u.eng .S).pc with
        | some o => decide ((u.touch o).decodeAt .S (u.eng .S).pc (u.eng .S).loops o.word = .ok (.nop .S Sync.none))
        | none => false) = true := by decide +kernel
theorem witness_StepRunsWord_illegal :
    let u := ({ State.reset.placeWord .S 0x00010001 with agenda := [] } : State).clock
    u.gate .S = .go ∧ (match u.opEntry? .S (u.eng .S).pc with
        | some o => decide ((u.touch o).decodeAt .S (u.eng .S).pc (u.eng .S).loops o.word = .illegal 0x0A)
        | none => false) = true := by decide +kernel
theorem witness_StepRunsWord_event : ({ State.reset with agenda := [.event .patrolScrub] } : State).agenda = [.event .patrolScrub] ∧ encode .patrolScrub = none ∧
    ∀ e w d, Instr.patrolScrub ≠ .illegalInstruction e w d := ⟨rfl, rfl, fun _ _ _ h => nomatch h⟩
theorem witness_MemoryCanonical : (T.base .S []).mem.wf = true ∧ ∃ t, Machine.step (T.base .S []) = .next t := ⟨by decide +kernel, _, rfl⟩

/-! ## Witnesses: the common group -/

def T.gateOk (e : Eng) (regs : List (Nat × Word)) : Bool :=
  decide ((T.base e regs).gate e = .go) && (T.base e regs).core.canPop e [] && decide (((T.base e regs).eng e).pending + 2 ≤ 16)

theorem T.ready_base (e : Eng) (regs : List (Nat × Word)) (n : Nat) (hn : n ≤ 2) (h : T.gateOk e regs = true := by decide +kernel) : Ready (T.base e regs) e [] n := by
  simp only [T.gateOk, Bool.and_eq_true, decide_eq_true_eq] at h
  exact T.ready _ _ ⟨h.1.1, h.1.2, h.2⟩ n hn

theorem witness_IntegerOperations (c : Eng) : Ready (T.base c [(1, 5)]) c Sync.none.wait.toList 1 := T.ready_base c _ 1 (by decide) (by cases c <;> decide +kernel)
theorem witness_DivisionCorners : Ready (T.base .S [(1, 0x8000000000000000), (2, 0xFFFFFFFFFFFFFFFF)]) .S [] 1 := T.ready_base .S _ 1 (by decide)
theorem witness_ImmediateForms (c : Eng) : Ready (T.base c []) c [] 1 := T.ready_base c _ 1 (by decide) (by cases c <;> decide +kernel)
theorem witness_SyncWords_pops : Ready (T.core (T.base .V []) fun c => { c with tok := Tab.set 0 c.tok (pairIdx Eng.L.code Eng.V.code) 1 }) .V [.L] 0 := ⟨by decide +kernel, by decide +kernel, by decide +kernel⟩
theorem witness_SyncWords_stalls : (T.base .V []).gate .V = .go ∧ ∃ e ∈ Eng.all.filter fun e => (2 : BitVec 5).getLsbD (e.code - 1),
    Tab.get 0 (T.base .V []).core.tok (pairIdx e.code Eng.V.code) = 0 := ⟨by decide +kernel, .L, by decide, by decide +kernel⟩
theorem witness_SyncWords_v1 : ∃ k x, (T.base .S []).core.crew = some k ∧ (T.base .S []).ctx? k.ctx = some x ∧
    Ready (T.base .S []) .S [] 0 ∧ (T.base .S []).older .S ((T.base .S []).pos .S) = true := ⟨_, _, rfl, rfl, T.ready_base .S _ 0 (by decide), by decide +kernel⟩
theorem witness_Loops_skip : Ready (T.base .L [(1, 0x100000000)]) .L [] 0 ∧ ((T.base .L [(1, 0x100000000)]).x .L 1).toNat % 2 ^ 32 = 0 := ⟨T.ready_base .L _ 0 (by decide), by decide +kernel⟩
theorem witness_Loops_begin : Ready (T.base .L [(1, 0xFFFFFFFF)]) .L [] 0 ∧ ((T.base .L [(1, 0xFFFFFFFF)]).x .L 1).toNat % 2 ^ 32 ≠ 0 ∧
    (T.base .L [(1, 0xFFFFFFFF)]).olderActivation ((T.base .L [(1, 0xFFFFFFFF)]).pos .L) ((T.base .L [(1, 0xFFFFFFFF)]).eng .L).loops.length = false :=
  ⟨T.ready_base .L _ 0 (by decide), by decide +kernel, by decide +kernel⟩

/-- A level of depth 0. -/
def T.level (start stop : Word) (remaining : Nat) : Level := ⟨start, stop, remaining, 0, 0, 0, remaining⟩
def T.loops (l : List Level) : State := (T.base .S []).mapEng .S fun g => { g with loops := l }

theorem T.ready_loops (l : List Level) (h : (T.loops l).gate .S = .go ∧ (T.loops l).core.canPop .S [] = true ∧ ((T.loops l).eng .S).pending ≤ 16) : Ready (T.loops l) .S [] 0 := h
theorem witness_Loops_over : Ready (T.loops [T.level T.at_ T.at_ 1]) .S [] 0 ∧ ((T.loops [T.level T.at_ T.at_ 1]).eng .S).loops = [T.level T.at_ T.at_ 1] ++ [] ∧
    (T.level T.at_ T.at_ 1).stop = ((T.loops [T.level T.at_ T.at_ 1]).eng .S).pc := ⟨T.ready_loops _ (by decide +kernel), by decide +kernel, by decide +kernel⟩
theorem witness_Loops_again : Ready (T.loops [T.level T.at_ T.at_ 1, T.level T.at_ T.at_ 2]) .S [] 0 ∧
    ((T.loops [T.level T.at_ T.at_ 1, T.level T.at_ T.at_ 2]).eng .S).loops = [T.level T.at_ T.at_ 1] ++ [T.level T.at_ T.at_ 2] ∧ 1 < (T.level T.at_ T.at_ 2).remaining :=
  ⟨T.ready_loops _ (by decide +kernel), by decide +kernel, by decide⟩
theorem witness_Loops_inside : Ready (T.loops [T.level T.at_ (T.at_ + 4) 1]) .S [] 0 ∧ (T.level T.at_ (T.at_ + 4) 1).stop ≠ ((T.loops [T.level T.at_ (T.at_ + 4) 1]).eng .S).pc :=
  ⟨T.ready_loops _ (by decide +kernel), by decide +kernel⟩

theorem witness_Branches_taken : Ready (T.base .S []) .S [] 0 ∧ ((T.base .S []).x .S 1).toInt = 0 ∧ Executable (T.base .S []) .S (((T.base .S []).eng .S).pc + BitVec.ofInt 64 (4 * (0 : BitVec 11).toInt)) :=
  ⟨T.ready_base .S _ 0 (by decide), by decide +kernel, T.executable _ _ _ (by decide +kernel)⟩
theorem witness_Branches_fall : Ready (T.base .S [(1, 1)]) .S [] 0 ∧ ((T.base .S [(1, 1)]).x .S 1).toInt ≠ 0 := ⟨T.ready_base .S _ 0 (by decide), by decide +kernel⟩
theorem witness_Branches_brf : let s := T.core (T.base .L []) fun c => { c with follow := [(2, [1])] }
    Ready s .L [] 1 ∧ Tab.get [] s.core.follow Eng.L.code = 1 :: [] ∧ Executable s .L (s.eng .L).pc :=
  ⟨⟨by decide +kernel, by decide +kernel, by decide +kernel⟩, by decide +kernel, T.executable _ _ _ (by decide +kernel)⟩
theorem witness_Branches_jump : let s := T.loops [T.level (T.at_ + 4) (T.at_ + 4) 1, T.level T.at_ (T.at_ + 4) 1]
    Ready s .S [] 0 ∧ Executable s .S (s.eng .S).pc ∧ (s.eng .S).loops = [] ++ T.level (T.at_ + 4) (T.at_ + 4) 1 :: [T.level T.at_ (T.at_ + 4) 1] ∧
      ¬((T.level (T.at_ + 4) (T.at_ + 4) 1).depth ≠ s.core.calldepth ∨ (T.level (T.at_ + 4) (T.at_ + 4) 1).start.toNat ≤ (s.eng .S).pc.toNat) ∧
      (T.level T.at_ (T.at_ + 4) 1).start.toNat ≤ (s.eng .S).pc.toNat ∧ (s.eng .S).pc.toNat ≤ (T.level T.at_ (T.at_ + 4) 1).stop.toNat :=
  ⟨T.ready_loops _ (by decide +kernel), T.executable _ _ _ (by decide +kernel), by decide +kernel, by decide +kernel, by decide +kernel, by decide +kernel⟩

/-- Registers for a call through a pointer to a pointer to the word itself. -/
def T.call : State := (T.base .S [(1, T.at_), (2, 0x10000), (31, T.at_)]).setMemBytes 0x200000 (toBytes 8 0x780000000000)

theorem T.ready_call : ∀ n ≤ 2, Ready T.call .S [] n := fun _ hn => ⟨by decide +kernel, by decide +kernel, by rw [show (T.call.eng .S).pending = 0 from rfl]; omega⟩
theorem witness_CallsAndReturn_call : Ready T.call .S [] 1 ∧ Executable T.call .S (T.call.x .S 1) ∧ T.call.older .S (T.call.pos .S) = true ∧
    (T.call.resolve .S).older .S (T.call.pos .S) = true ∧ T.call.core.calldepth = 0 ∧ T.call.core.drained = true ∧ Eng.all.all (fun b => b == .S || T.call.reached b (T.call.pos .S)) = true :=
  ⟨T.ready_call 1 (by decide), T.executable _ _ _ (by decide +kernel), by decide +kernel, by decide +kernel, by decide +kernel, by decide +kernel, by decide +kernel⟩
theorem witness_CallsAndReturn_callx : Ready T.call .S [] 2 ∧
    Checked T.call .S (checkMem T.call (T.call.eng .S).got .read (T.call.x .S 2 + BitVec.ofNat 64 (8 * (0 : BitVec 11).toNat)) 8)
      { mem := (List.range 8).map fun k => .mem (0x200000 + k) } ∧
    T.call.core.olderStore (T.call.pos .S) 0 = false ∧ Executable T.call .S (BitVec.ofNat 64 (T.call.locsNat ((List.range 8).map fun k => .mem (0x200000 + k)))) :=
  ⟨T.ready_call 2 (by decide), ⟨by decide +kernel, by decide +kernel⟩, by decide +kernel, T.executable _ _ _ (by decide +kernel)⟩
theorem witness_CallsAndReturn_ret : Ready T.call .S [] 0 ∧ (T.call.resolve .S).older .S (T.call.pos .S) = true ∧ Executable T.call .S (T.call.x .S 31) :=
  ⟨T.ready_call 0 (by decide), by decide +kernel, T.executable _ _ _ (by decide +kernel)⟩
theorem witness_CallsAndReturn_misaligned : ((T.base .S [(31, 1)]).x .S 31).toNat % 4 ≠ 0 ∧ Ready (T.base .S [(31, 1)]) .S [] 0 ∧
    ((T.base .S [(31, 1)]).eng .S).resolved ≠ some ((T.base .S [(31, 1)]).pos .S) := ⟨by decide +kernel, T.ready_base .S _ 0 (by decide), by decide +kernel⟩
theorem witness_CallsAndReturn_hole : let t := (T.base .S [(31, 0x0080000000000000)]).x .S 31
    t.toNat % 4 = 0 ∧ bits t.toNat 63 55 ≠ 0 ∧ bits t.toNat 63 55 ≠ 0x1FF := by decide +kernel
theorem witness_CallsAndReturn_unmapped : let s := (T.base .S [(31, 0x20000)]).mapEng .S fun g => { g with got := [.fault 0x20000 1] }
    Ready s .S [] 0 ∧ lookup s (s.eng .S).got 0 1 (va56 (s.x .S 31)) = some (.fault 0x20000 1) := ⟨⟨by decide +kernel, by decide +kernel, by decide +kernel⟩, by decide +kernel⟩
theorem witness_CallsAndReturn_data : ∃ x, lookup (T.base .S [(31, 0x10000)]) [] 0 1 (va56 ((T.base .S [(31, 0x10000)]).x .S 31)) = some (.hit x) ∧ x.x = false :=
  ⟨⟨0, 1, 0x10000, 16, 0x200000, true, true, false⟩, by decide +kernel, rfl⟩

theorem witness_FollowPath_full : let s := T.core (T.base .S []) fun c => { c with follow := [(2, List.replicate 32 0)] }
    Ready s .S [] 0 ∧ 32 ≤ s.followLoad .L := ⟨⟨by decide +kernel, by decide +kernel, by decide +kernel⟩, by decide +kernel⟩
theorem witness_FollowPath_room : let s := T.core (T.base .S []) fun c => { c with follow := [(2, List.replicate 31 0)] }
    Ready s .S [] 0 ∧ s.followLoad .L < 32 ∧ (s.eng .S).flights = [] ∧ (s.core.pop .S (s.pos .S) []).overflow? .S [] = none :=
  ⟨⟨by decide +kernel, by decide +kernel, by decide +kernel⟩, by decide +kernel, by decide +kernel, by decide +kernel⟩
theorem witness_FollowPath_empty : Ready (T.base .L []) .L [] 1 ∧ Tab.get [] (T.base .L []).core.follow Eng.L.code = [] := ⟨T.ready_base .L _ 1 (by decide), by decide +kernel⟩
theorem witness_ControlRegisters : Ready (T.base .V [(1, 5)]) .V [] 2 ∧ ∃ k x, (T.base .V [(1, 5)]).core.crew = some k ∧ (T.base .V [(1, 5)]).ctx? k.ctx = some x ∧
    (T.base .V [(1, 5)]).older .V ((T.base .V [(1, 5)]).pos .V) = true ∧ ∀ b : Eng, ((T.base .V [(1, 5)]).eng b).past = [] :=
  ⟨T.ready_base .V _ 2 (by decide), _, _, rfl, rfl, by decide +kernel, fun b => by cases b <;> rfl⟩

/-! ## Witnesses: scalar memory -/

theorem witness_Loads : Ready (T.base .S [(2, 0x1FFF8)]) .S [] 1 ∧ (T.base .S [(2, 0x1FFF8)]).core.olderStore ((T.base .S [(2, 0x1FFF8)]).pos .S) 15 = false ∧
    T.checks (T.base .S [(2, 0x1FFF8)]) .S (checkMem (T.base .S [(2, 0x1FFF8)]) [] .read ((T.base .S [(2, 0x1FFF8)]).x .S 2) 8) = true ∧
    ((T.base .S [(2, 0x1FFF8)]).eng .S).kept = none := ⟨T.ready_base .S _ 1 (by decide), by decide +kernel, by decide +kernel, by decide +kernel⟩
theorem witness_Loads_illegal : window 0xF300000000000000 = .illegal := by decide +kernel
theorem witness_Loads_own_misaligned : window 0xF000000000000001 = .own 0 1 := by decide +kernel
theorem witness_Loads_own_foreign : window 0xF000000001000008 = .own 1 8 ∧ 1 ≠ (T.base .S []).core.id % 4 := by decide +kernel
theorem witness_Loads_own_range : window 0xF000000000180000 = .own 0 0x180000 := by decide +kernel
theorem witness_Loads_global_misaligned : window 0x10001 = .global 0x10001 := by decide +kernel
theorem witness_Loads_global_walk : let s := (T.base .S []).mapEng .S fun g => { g with got := [.fault 0x20000 1] }
    lookup s (s.eng .S).got 0 1 0x20000 = some (.fault 0x20000 1) ∧ Ready s .S [] 1 := ⟨by decide +kernel, by decide +kernel, by decide +kernel, by decide +kernel⟩
theorem witness_Loads_global_permission : lookup (T.base .S []) [] 0 1 0x30000 = some (.hit ⟨0, 1, 0x30000, 16, 0x210000, false, false, false⟩) := by decide +kernel
theorem witness_Loads_private : window 0xF200000000000000 = .priv 0 ∧ ((T.base .S []).core.crew.map (·.segSize)) = some 0 := by decide +kernel
theorem witness_Stores : let s := T.base .S [(2, 0x10000)]
    Ready s .S [] 0 ∧ (s.resolve .S).older .S (s.pos .S) = true ∧ s.core.olderAny (s.pos .S) = false ∧ s.crewSends (s.pos .S) = false ∧
      T.checks s .S (checkMem s [] .write (s.x .S 2) 8) (fun pl => !pl.mem.any s.moving) = true :=
  ⟨T.ready_base .S _ 0 (by decide), by decide +kernel, by decide +kernel, by decide +kernel, by decide +kernel⟩
/-- A store of class 3 older than the word. -/
def T.older (e : Eng) (released : Bool) : State := T.core (T.base e [(1, 8)]) fun c => { c with stores := [⟨⟨0, 0, [], []⟩, .S, 3, released, [.bytes [(.mem 0x200000, 7)]]⟩] }
def T.olderAt (e : Eng) : State := (T.older e false).mapEng e fun g => { g with pc := T.at_ + 4, len := 2 }
theorem witness_Stores_fence : let s := T.olderAt .S
    Ready s .S [] 0 ∧ ∃ x ∈ s.core.stores, x.pos.lt (s.pos .S) = true ∧ ((s.x .S 1).setWidth 16).getLsbD x.cls = true :=
  ⟨⟨by decide +kernel, by decide +kernel, by decide +kernel⟩, ⟨⟨0, 0, [], []⟩, .S, 3, false, [.bytes [(.mem 0x200000, 7)]]⟩, by decide +kernel, by decide +kernel, by decide +kernel⟩
theorem witness_Atomics : let s := T.base .S [(2, 0x10000)]
    T.checks s .S (checkMem s [] .both (s.x .S 2) 8) (fun pl => !pl.mem.any s.moving && pl.mem.length == 8) = true ∧ Ready s .S [] 1 ∧ (s.resolve .S).older .S (s.pos .S) = true ∧
      s.core.olderStore (s.pos .S) 0 = false := ⟨by decide +kernel, T.ready_base .S _ 1 (by decide), by decide +kernel, by decide +kernel⟩
theorem witness_Pointers : ∃ c, (T.base .S []).core.crew = some c ∧ Ready (T.base .S []) .S [] 1 := ⟨_, rfl, T.ready_base .S _ 1 (by decide)⟩
theorem witness_Pointers_windows :
    (0x007FFFFFFFFFFFFF / 2 ^ 56 = 0 ∧ 0x007FFFFFFFFFFFFF % 2 ^ 56 < 2 ^ 55) ∧ (0xFF80000000000000 / 2 ^ 56 = 0xFF ∧ 2 ^ 55 ≤ 0xFF80000000000000 % 2 ^ 56) ∧
    (0xF0000000031FFFFF / 2 ^ 56 = 0xF0 ∧ 0xF0000000031FFFFF % 2 ^ 56 / 2 ^ 26 = 0 ∧ 0xF0000000031FFFFF % 2 ^ 56 / 2 ^ 21 % 8 = 0) ∧
    (0xF100000000000000 / 2 ^ 56 = 0xF1 ∧ 0xF100000000000000 % 2 ^ 56 = 0) ∧ 0xF2FFFFFFFFFFFFFF / 2 ^ 56 = 0xF2 ∧
    (0xFE00000000000000 / 2 ^ 56 ≠ 0 ∧ 0xFE00000000000000 / 2 ^ 56 ≠ 0xF2 ∧ 0xF000000000200000 % 2 ^ 56 / 2 ^ 21 % 8 ≠ 0) := by decide

/-! ## Witnesses: barrier objects, tables, queues, traps -/

theorem witness_BarrierObjects_binit : let s := T.base .S [(1, 0x10000000)]
    Ready s .S [] 0 ∧ s.older .S (s.pos .S) = true ∧ ∃ o : Word, o.getLsbD 63 = (Tab.get 0 s.core.barriers 2047).getLsbD 63 ∧ bits o.toNat 62 56 = 0 ∧ bits o.toNat 55 28 = 0x0FFFFFFF ∧ bits o.toNat 27 0 = 0 :=
  ⟨T.ready_base .S _ 0 (by decide), by decide +kernel, 0x00FFFFFFF0000000, by decide +kernel⟩
theorem witness_BarrierObjects_wait : Ready (T.base .S []) .S [] 0 ∧ (Tab.get 0 (T.base .S []).core.barriers 0).getLsbD 63 = false := ⟨T.ready_base .S _ 0 (by decide), by decide +kernel⟩
theorem witness_BarrierObjects_arm : let s := T.core (T.base .S []) fun c => { c with scratch := [(0, 2), (1, 1)] }
    s.older .S (s.pos .S) = true ∧ Ready s .S [] 1 ∧ Tab.get 0 s.core.scratch 0 = 2 ∧ (Tab.get 0 s.core.scratch 1).toNat < 2 ∧ Tab.get 0 s.core.scratch 3 = 0 ∧
      s.bankHeld .S (s.here ((List.range 64).map (0 + ·))) = [] :=
  ⟨by decide +kernel, ⟨by decide +kernel, by decide +kernel, by decide +kernel⟩, by decide +kernel, by decide +kernel, by decide +kernel, by decide +kernel⟩
theorem witness_BarrierObjects_refused : let s := T.base .S [(1, 0x180000)]
    s.older .S (s.pos .S) = true ∧ Ready s .S [] 1 ∧ 0x180000 ≤ (s.x .S 1).toNat / 64 * 64 := ⟨by decide +kernel, T.ready_base .S _ 1 (by decide), by decide +kernel⟩
theorem witness_TablesAndQueues_tables : let s := T.base .S [(1, 0x1FFFFFFF)]
    Ready s .S [] 1 ∧ s.older .S (s.pos .S) = true ∧ s.bankHeld .S (s.here ((List.range 32).map (bits (s.x .S 1).toNat 20 5 * 32 + ·))) = [] :=
  ⟨T.ready_base .S _ 1 (by decide), by decide +kernel, by decide +kernel⟩
theorem witness_TablesAndQueues_refused : bits ((T.base .S [(1, 1)]).x .S 1).toNat 5 0 ≠ 0 ∧ Ready (T.base .S [(1, 1)]) .S [] 1 := ⟨by decide +kernel, T.ready_base .S _ 1 (by decide)⟩
/-- A full-range slot: base 0x17FFC0, one slot of 64 bytes. -/
theorem witness_TablesAndQueues_bound : let v := ((T.base .S [(1, 0x000000000117FFC0)]).x .S 1).toNat
    bits v 63 42 = 0 ∧ bits v 23 21 = 0 ∧ bits v 5 0 = 0 ∧ bits v 20 6 * 64 + (bits v 41 36 + 1) * (bits v 35 24 * 64) = 0x180000 ∧ bits v 35 24 * 64 ≠ 0 ∧
      (T.base .S []).core.queues = [] := by decide +kernel
theorem witness_TablesAndQueues_unbound : let v := ((T.base .S []).x .S 1).toNat
    bits v 35 24 * 64 = 0 ∧ bits v 20 6 * 64 + (bits v 41 36 + 1) * (bits v 35 24 * 64) ≤ 0x180000 := by decide +kernel
theorem witness_Traps : Ready (T.base .S []) .S [] 0 := T.ready_base .S _ 0 (by decide)
/-- An illegal word at an engine's pc. -/
theorem witness_Traps_illegal : let s := State.reset.placeWord .S 0x00010001
    s.core.freeze = none ∧ s.gate .S = .go ∧ (s.illegal? .S).isSome = true ∧ s.wordAt .S (s.eng .S).pc = some 0x00010001 ∧
      s.decodeAt .S (s.eng .S).pc (s.eng .S).loops 0x00010001 = .illegal 0x0A := by decide +kernel

/-! ## Witnesses: tiles, the sparse decoder, publishing and sending -/

theorem witness_TileLoads_ldr : let s := T.base .L [(4, 0x1FFFF)]
    T.checks s .L (checkMem s (s.eng .L).got .read (s.x .L 4) 1) (fun pl => !pl.mem.any s.unfilledLoc && pl.mem.length == 1) = true ∧ Ready s .L [] 1 ∧ s.core.ldz = none ∧
      s.core.olderStore (s.pos .L) 0 = false := ⟨by decide +kernel, T.ready_base .L _ 1 (by decide), by decide +kernel, by decide +kernel⟩
theorem witness_TileLoads_empty : let s := T.base .L [(4, 0x10000)]
    Ready s .L [] 0 ∧ tileBytes (s.x .L 2) (s.x .L 3) 0 (s.x .L 4) false false = [] := ⟨T.ready_base .L _ 0 (by decide), by decide +kernel⟩

/-- What a tile or indexed movement of an engine needs of its bytes. -/
def T.moves (s : State) (e : Eng) (need : Need) (ptr : Word) (l : List Touched) : Bool :=
  T.checks s e (runPlan s (s.eng e).got e Sync.none false (fun _ => 0) need ptr (.bytes l))
    (fun k => k.mem != [] && !k.list.any s.unfilled && !k.mem.any s.unfilledLoc && !k.mem.any s.moving) && !s.core.olderStore (s.pos e) 15 && s.core.ldz == none

/-- Two rows of the last 4 bytes below 0x20000, 8 apart, to the end of home scratchpad. -/
def T.tile (e : Eng) : State := T.base e [(2, 0x000000000017FFF8), (3, 0xFFFFFFF800020004), (4, 0x1FFFC), (5, 0x0000001000010002)]
theorem witness_TileLoads_ldt : Ready (T.tile .L) .L [] 0 ∧ loadSlot (T.tile .L) Sync.none false none ∧
    T.moves (T.tile .L) .L .read 0x1FFFC (tileBytes 0x17FFF8 0xFFFFFFF800020004 0 0x1FFFC false false) = true := ⟨T.ready_base .L _ 0 (by decide), .inl ⟨rfl, rfl⟩, by decide +kernel⟩
theorem witness_TileLoads_slot : let q : Queue := ⟨0x17FF00, 64, 4, 3, 0⟩
    let s := T.core (T.tile .L) fun c => { c with queues := [(pairIdx Eng.L.code Eng.V.code, q)] }
    loadSlot s ⟨none, some .V⟩ true (some (0x17FF00 + 64 * 3, q)) := .inr ⟨rfl, .V, _, rfl, rfl, rfl⟩
theorem witness_TileLoads_ldt3 : T.moves (T.tile .L) .L .read 0x1FFFC (tileBytes 0x170000 0xFFFFFFF800020004 0xFFFFF00000020001 0x1FFFC true false) = true := by decide +kernel
theorem witness_TileLoads_ldg : T.moves (T.tile .L) .L .read 0x10000 (indexedBytes (T.tile .L) 0x170000 0x0000000200000000 0x10000 8) = true ∧
    (T.tile .L).core.loads = [] := by decide +kernel
theorem witness_TileLoads_pref : Ready (T.tile .L) .L [] 0 := T.ready_base .L _ 0 (by decide)
/-- One row of eight dense bytes from four kept ones and one byte of indices. -/
def T.ldx : State := T.base .L [(2, 0), (3, 0x10008), (4, 0x10000)]
theorem witness_TileLoads_ldx_fault : let s := T.base .L [(3, 0x10007), (4, 0x10000)]
    bits (s.x .L 3).toNat 15 0 ≠ 0 ∧ bits (s.x .L 3).toNat 31 16 ≠ 0 ∧ bits (s.x .L 3).toNat 15 0 % 8 ≠ 0 ∧ Ready s .L [] 1 ∧ (s.eng .L).kept = none :=
  ⟨by decide +kernel, by decide +kernel, by decide +kernel, T.ready_base .L _ 1 (by decide), by decide +kernel⟩
theorem witness_TileLoads_ldx : let h := T.ldx.shape .L 1 none
    Ready T.ldx .L [] 1 ∧ T.moves T.ldx .L .read 0x10000 (h.lines.flatMap fun r =>
      ((List.range 5).map fun b => Touched.mem (0x10000 + BitVec.ofInt 64 (r.1 + (b : Nat))) false) ++ (List.range h.rbytes).map fun b => .spad ((r.2 + b : Nat) : Int)) = true :=
  ⟨T.ready_base .L _ 1 (by decide), by decide +kernel⟩
theorem witness_SparseValues_rows : (1 = 1 ∨ 1 = 2) ∧ ([7, 8, 9, 10, 0x1E] : List Byte).length = 4 * 1 * 1 + 1 ∧ 1 < 2 * 1 ∧ 3 < 4 ∧
    (expandRow 1 8 [7, 8, 9, 10, 0x1E]).2 = true := by decide
/-- Nine elements of one byte, of which element 0 and element 8 are stored. -/
def T.chunk : List Byte := [9, 0, 0, 0, 20, 0, 0, 0, 0, 0, 0, 0, 0, 0, 0, 0, 1, 1, 5, 6]
theorem witness_SparseValues_chunk : let b := T.chunk
    let bit (k : Nat) : Bool := ((b.getD (16 + k / 8) 0).toNat.testBit (k % 8))
    1 = 2 ^ field b 8 1 ∧ field b 9 7 = 0 ∧ field b 0 4 = 9 * 1 ∧ 16 + (9 + 7) / 8 + (List.range 9).countP bit * 1 ≤ field b 4 4 ∧ field b 4 4 ≤ b.length ∧ 9 * 1 ≤ 9 ∧
      9 * 1 ≤ (4 * field b 4 4 + 64) * 64 ∧ 8 < 9 := by decide
theorem witness_SparseLoad_starts : let s := (T.base .L [(2, 0x17FFF7), (3, 9), (4, 0x10000)]).setMemBytes 0x200000 T.chunk
    Ready s .L [] 1 ∧ s.core.ldz = none ∧ (s.eng .L).begun = false ∧ s.core.olderStore (s.pos .L) 0 = false ∧ s.core.loads = [] ∧
      T.isOk (chunkStart s Sync.none false (s.x .L 4) (s.x .L 2) (bits (s.x .L 3).toNat 20 0)) = true :=
  ⟨⟨by decide +kernel, by decide +kernel, by decide +kernel⟩, by decide +kernel, by decide +kernel, by decide +kernel, by decide +kernel, by decide +kernel⟩
/-- The decoder at the word at the pc, which has begun. -/
def T.ldz (busy trap : Bool) (code : Nat) (w : List (Nat × Byte)) : State :=
  (T.core (T.base .L []) fun c => { c with ldz := some ⟨⟨0, 0, [], []⟩, Sync.none, 1, trap, false, code, w.length, busy, w, 0⟩ }).mapEng .L fun g => { g with begun := true }
theorem witness_SparseLoad_ends : let s := T.ldz false true 0 [(0, 5)]
    Ready s .L [] 1 ∧ (s.eng .L).begun = true ∧ (s.resolve .L).older .L (s.pos .L) = true ∧ s.core.loads = [] ∧ s.core.ldz.map (·.busy) = some false :=
  ⟨⟨by decide +kernel, by decide +kernel, by decide +kernel⟩, by decide +kernel, by decide +kernel, by decide +kernel, by decide +kernel⟩
theorem witness_SparseLoad_traps : let s := T.ldz false true 3 []
    Ready s .L [] 1 ∧ s.core.freeze = none ∧ s.core.ldz.map (fun z => z.trap && z.code != 0 && !z.busy) = some true :=
  ⟨⟨by decide +kernel, by decide +kernel, by decide +kernel⟩, by decide +kernel, by decide +kernel⟩
theorem witness_SparseLoad_done : let s := T.core (T.ldz true false 2 []) fun c => { c with ldz := c.ldz.map fun z => { z with busy := false } }
    Ready s .L [] 1 ∧ (T.ldz true false 2 []).core.ldz.map (fun z => z.busy && !z.trap && z.code != 4 && z.writes == []) = some true :=
  ⟨⟨by decide +kernel, by decide +kernel, by decide +kernel⟩, by decide +kernel⟩
theorem witness_SparseLoad_watchdog : let s := T.core (T.ldz true false 4 []) fun c => { c with ldz := c.ldz.map fun z => { z with busy := false } }
    Ready s .L [] 1 ∧ (T.ldz true false 4 []).core.ldz.map (fun z => z.busy && !z.trap && z.code == 4 && z.writes == []) = some true :=
  ⟨⟨by decide +kernel, by decide +kernel, by decide +kernel⟩, by decide +kernel⟩

theorem witness_TileStores_empty : let s := T.base .W [(4, 0x10000)]
    Ready s .W [] 0 ∧ tileBytes (s.x .W 2) (s.x .W 3) 0 (s.x .W 4) false false = [] ∧ bits (s.x .W 3).toNat 15 0 % 4 = 0 := ⟨T.ready_base .W _ 0 (by decide), by decide +kernel, by decide +kernel⟩
theorem witness_TileStores : Ready (T.tile .W) .W [] 1 ∧ storeSlot (T.tile .W) Sync.none false none ∧
    T.moves (T.tile .W) .W .write 0x1FFFC (tileBytes 0x17FFF8 0xFFFFFFF800020004 0 0x1FFFC false false) = true ∧
    T.moves (T.tile .W) .W .write 0x1FFFC (tileBytes 0x17F000 0xFFFFFFF800020004 0xFFFFF00000020001 0x1FFFC true false) = true ∧
    T.moves (T.tile .W) .W .write 0x10000 (indexedBytes (T.tile .W) 0x170000 0x0000000200000000 0x10000 2) = true :=
  ⟨T.ready_base .W _ 1 (by decide), .inl ⟨rfl, rfl⟩, by decide +kernel, by decide +kernel, by decide +kernel⟩
theorem witness_TileStores_slot : let q : Queue := ⟨0, 4096, 1, 0, 0⟩
    let s := T.core (T.tile .W) fun c => { c with queues := [(pairIdx Eng.V.code Eng.W.code, q)] }
    storeSlot s ⟨some .V, none⟩ true (some (0 + 4096 * 0, q)) := .inr ⟨rfl, .V, _, rfl, rfl, rfl⟩
theorem witness_TileStores_red : T.moves (T.tile .W) .W .both 0x1FFFC (tileBytes 0x17FFF8 0xFFFFFFF800020004 0 0x1FFFC false false) = true ∧
    bits (0xFFFFFFF800020004 : Word).toNat 15 0 % 4 = 0 := by decide +kernel
theorem witness_TileStores_stx : let s := T.base .W [(4, 0x1FFF8)]
    T.moves s .W .write 0x1FFF8 ((List.range 8).map fun k => .mem (0x1FFF8 + BitVec.ofNat 64 k) false) = true := by decide +kernel
theorem witness_TileStores_sttc : (Tab.get 0 (T.core (T.tile .W) fun c => { c with dstat := [(15, 2)] }).core.dstat 15).getLsbD 1 = true ∧
    (Tab.get 0 (T.tile .W).core.dstat 15).getLsbD 1 = false := by decide +kernel

theorem witness_PublishAndCopy_pub : let s := (T.base .W [(4, 0x1FFC0)]).setMemBytes 0x20FFC0 [0xFF, 0xFF, 0xFF, 0xFF, 0xFF, 0xFF, 0xFF, 0xFF]
    Ready s .W [] 0 ∧ T.checks s .W (runPlan s (s.eng .W).got .W Sync.none false (fun _ => 0) .write 0x1FFC0 (.bytes ((List.range 8).map fun k => .mem (0x1FFC0 + BitVec.ofNat 64 k) false)))
      (fun pl => pl.mem.length == 8 && !pl.mem.any s.moving) = true ∧ (s.resolve .W).older .W (s.pos .W) = true ∧ s.core.olderAny (s.pos .W) = false ∧ s.crewSends (s.pos .W) = false :=
  ⟨⟨by decide +kernel, by decide +kernel, by decide +kernel⟩, by decide +kernel, by decide +kernel, by decide +kernel, by decide +kernel⟩
theorem witness_PublishAndCopy_empty : let s := T.base .W [(4, 0x10000), (5, 0x10000)]
    T.checks s .W (checkCopy s (s.eng .W).got (s.x .W 4) (s.x .W 5) 0 .copy) (fun r => r.move == [] && r.pages == []) = true ∧ Ready s .W [] 0 :=
  ⟨by decide +kernel, T.ready_base .W _ 0 (by decide)⟩
theorem witness_PublishAndCopy_copy : let s := T.base .W [(4, 0x10004), (5, 0x10000), (6, 4)]
    T.checks s .W (checkCopy s (s.eng .W).got (s.x .W 4) (s.x .W 5) (s.x .W 6) .copy) (fun r => r.move != []) = true ∧ (s.resolve .W).older .W (s.pos .W) = true :=
  ⟨by decide +kernel, by decide +kernel⟩
theorem witness_PublishAndCopy_moves : let m : List (Loc × Loc) := [(.mem 0x200000, .mem 0x200001)]
    let s := T.core (T.base .W []) fun c => { c with copies := [⟨⟨0, 0, [], []⟩, .copy, m, [], 0⟩] }
    s.movable.map (·.move) = some m ∧ (m.map (·.2)).Nodup ∧ ∀ a ∈ m, a.1 ∉ m.map (·.2) := by decide +kernel

/-- A block of `rows` rows of 4 bytes from scratchpad 0x1000 to 0x17FFFC of the target. -/
def T.block (target rows : Nat) : List Byte := toBytes 8 target ++ toBytes 8 0x17FFFC ++ toBytes 8 0x1000 ++ toBytes 8 (rows * 2 ^ 16 + 4) ++ List.replicate 16 0
def T.send (target rows : Nat) : State :=
  let s := T.core (T.base .W [(4, 0x2000)]) fun c => { c with scratch := Tab.setAll 0 [] ((T.block target rows).zipIdx.map fun p => (0x2000 + p.2, p.1)) }
  { s with net := { s.net with jobs := [(0, ⟨[0, 1], 0⟩)] } }
def T.sendReady (s : State) : Bool := decide (s.gate .W = .go) && s.core.canPop .W [] && decide ((s.eng .W).pending + 1 ≤ 16) && s.older .W (s.pos .W) &&
  decide ((s.eng .W).kept = none ∧ s.sendWaits s.core.id = false ∧ s.net.wait = []) && T.calm s
/-- The word may issue, and nothing stands before it at the injection port or at a bank. -/
def T.maySend (s : State) : Prop :=
  Ready s .W [] 1 ∧ s.older .W (s.pos .W) = true ∧ (s.eng .W).kept = none ∧ s.sendWaits s.core.id = false ∧ s.net.wait = [] ∧ HasTurn s .W
theorem T.send_ready {s : State} (h : T.sendReady s = true) : T.maySend s := by
  simp only [T.sendReady, Bool.and_eq_true, decide_eq_true_eq] at h
  obtain ⟨⟨⟨⟨⟨hg, hp⟩, hn⟩, ho⟩, hk, hs, hw⟩, hq⟩ := h
  exact ⟨⟨hg, hp, hn⟩, ho, hk, hs, hw, T.turn s .W hq⟩
theorem witness_SendTile_past : let s := T.base .W [(4, 0x180000)]
    T.maySend s ∧ 0x180000 ≤ bits (s.x .W 4).toNat 20 6 * 64 := ⟨T.send_ready (by decide +kernel), by decide +kernel⟩
theorem witness_SendTile_block : let s := T.send 7 2
    T.maySend s ∧ (parseBlock (s.homeBytes 0x2000 48)).ok = false := ⟨T.send_ready (by decide +kernel), by decide +kernel⟩
theorem witness_SendTile_empty : let s := T.send 7 0
    let b := parseBlock (s.homeBytes 0x2000 48)
    T.maySend s ∧ b.ok = true ∧ dropped s s.core.id b.target = false ∧ b.rows = 0 := ⟨T.send_ready (by decide +kernel), by decide +kernel⟩
theorem witness_SendTile_inside : let s := T.send 7 1
    let b := parseBlock (s.homeBytes 0x2000 48)
    T.maySend s ∧ b.ok = true ∧ dropped s s.core.id b.target = false ∧ b.rows ≠ 0 ∧ b.rbytes ≠ 0 ∧
      destPkg (handleDest s.core.id b.target) = Config.pkgpos := ⟨T.send_ready (by decide +kernel), by decide +kernel⟩
theorem witness_SendTile_unrouted : let s := T.send (2 ^ 33 + 2 ^ 20 + 7) 1
    let b := parseBlock (s.homeBytes 0x2000 48)
    T.maySend s ∧ b.ok = true ∧ dropped s s.core.id b.target = false ∧ b.rows ≠ 0 ∧ b.rbytes ≠ 0 ∧
      destPkg (handleDest s.core.id b.target) ≠ Config.pkgpos ∧ routePort s (coreTag s s.core.id) (destPkg (handleDest s.core.id b.target)) = none := ⟨T.send_ready (by decide +kernel), by decide +kernel⟩

/-! ## Witnesses: commits, checks, fetching -/

/-- A write of an engine's instruction, pending while another engine stands earlier (`back`) or not. -/
def T.past (back : Bool) : State :=
  let s := (T.base .S []).mapEng .S fun g => { g with past := [⟨⟨0, 0, [], []⟩, 1, g.view, false⟩], pc := T.at_ + 4, len := 2 }
  if back then s.mapEng .L fun g => { g with len := 2 } else s
theorem witness_Performances_commit : ((T.past false).eng .S).past.length = 1 ∧ (T.past false).older .S ⟨0, 0, [], []⟩ = true := by decide +kernel
theorem witness_Performances_waits : let s := (T.past true).mapEng .S fun g => { g with past := [⟨⟨0, 1, [], []⟩, 1, g.view, false⟩] }
    (s.eng .S).past.length = 1 ∧ s.older .S ⟨0, 1, [], []⟩ = false := by decide +kernel
theorem witness_Performances_load : let s := T.core (T.base .L []) fun c => { c with loads := [⟨⟨0, 0, [], []⟩, true, [(0x17FFFF, 7)]⟩] }
    s.placeable.map (·.writes) = some [(0x17FFFF, 7)] ∧ 0x17FFFF / 64 % 48 = 47 ∧ s.behind 1 (s.core.id, 47) = false ∧ Tab.get 6 s.core.bankPtr 47 ≤ 6 ∧ s.waiting .L (s.core.id, 47) = false := by decide +kernel
/-- A word of V waits at bank 5, and load data too; either's turn may be first. -/
def T.contends (last : Nat) : State :=
  T.core ((T.base .V []).mapEng .V fun g => { g with banks := some [(0, 5)] }) fun c => { c with loads := [⟨⟨0, 0, [], []⟩, true, [(0x140, 7)]⟩], bankPtr := [(5, last)] }
theorem witness_Performances_bank : (T.contends 1).waiting .V ((T.contends 1).core.id, 5) = true ∧ (T.contends 1).behind (bankReq .V) ((T.contends 1).core.id, 5) = false ∧
    (T.contends 0).behind (bankReq .V) ((T.contends 0).core.id, 5) = true ∧ (T.contends 1).behind 1 ((T.contends 1).core.id, 5) = true ∧ Tab.get 6 (T.contends 1).core.bankPtr 5 ≤ 6 := by decide +kernel
theorem witness_Performances_release : (T.older .S false).releasable.isSome = true := by decide +kernel
theorem witness_Performances_store : (T.older .S true).performable.map (·.writes) = some [.bytes [(.mem 0x200000, 7)]] := by decide +kernel
theorem witness_Performances_reduces : let w : StoreWrite := .red .iadd ((List.range 4).map fun k => .mem (0x200000 + k)) [1, 0, 0, 0x80]
    (T.core (T.base .S []) fun c => { c with stores := [⟨⟨0, 0, [], []⟩, .W, 0, true, [w]⟩] }).performable.map (·.writes) = some [w] := by decide +kernel
/-- R113, R131: 1.0 and 2.0 as FP32 make 3.0; a minimum takes the negative zero. -/
theorem test_red_floats : ((fp32.round 0 false 0 (Val.add 0 (fp32.value 0x3F800000) (fp32.value 0x40000000)).1).1 % 2 ^ 32 = 0x40400000) ∧
    ((bf16.round 0 false 0 (Val.add 0 (bf16.value 0x3F80) (bf16.value 0x4000)).1).1 % 2 ^ 16 = 0x4040) ∧
    redVal? .fmin 0 0x80000000 = 0x80000000 := by decide +kernel
theorem witness_Performances_red : let v : List Byte := [1, 0, 0, 0x80]
    let ls := (List.range 4).map fun k => Loc.mem (0x200000 + k)
    ls.Nodup ∧ ls.length = v.length ∧ v.length = 4 := by decide
theorem witness_Performances_ladd : let ls := (List.range 8).map fun k => Loc.mem (0x200000 + k)
    ls.Nodup ∧ ls.length = (List.replicate 8 (0xFF : Byte)).length := by decide

theorem witness_ChecksAndWalks_answer : let s := (T.base .L []).mapEng .L fun g => { g with wait := some 0x10000 }
    (s.eng .L).wait = some 0x10000 ∧ s.core.crew.isSome = true ∧ (lookup s (s.eng .L).got 0 1 0x10000).isSome = true := by decide +kernel
/-- The first GiB of context 1 and its code page mapped as they stand, with these permission bits. -/
def T.map (s : State) (perm : Nat) : State :=
  (((s.setMemBytes 0x500000 (toBytes 8 0x510001)).setMemBytes 0x500078 (toBytes 8 0x510001)).setMemBytes 0x510000 (toBytes 8 (perm * 4 + 3)))
theorem witness_ChecksAndWalks_walk : let s := (T.map (T.base .L []) 7).setDie 0 ⟨[⟨0, 1, 0x10000, [(0, .L)]⟩], [], []⟩
    (s.die 0).walks = [⟨0, 1, 0x10000, [(0, .L)]⟩] ∧ (s.ctx? 1).isSome = true ∧
      walkFrom s 0 1 0x10000 (walkStart (s.die 0).pwc 0 1 0x10000 0x500000).1 (walkStart (s.die 0).pwc 0 1 0x10000 0x500000).2 = .hit ⟨0, 1, 0, 30, 0, true, true, true⟩ := by decide +kernel
/-- The write engine at a store. -/
def T.unit (a : Word) : State :=
  let w := (encode (.stx Sync.none 4 5 .d 0)).getD 0
  let s := (T.base .W [(5, a)]).setMemBytes 0x100000 (bytesOfWord w)
  s.touch ⟨1, 2, .W, T.at_, w, 0, false⟩
theorem witness_ChecksAndWalks_unit : let s := T.unit 0x1FFF8
    (match s.unitWork with | some u => (match unitCheck s u with | .ok _ => true | _ => false) | none => false) = true ∧
      s.core.unit.checked.length < 4 ∧ s.core.unit.wait = none := by decide +kernel
theorem witness_ChecksAndWalks_unit_faults : let s := T.unit 0x1FFF9
    (match s.unitWork with | some u => (match unitCheck s u with | .bad _ _ _ => true | _ => false) | none => false) = true ∧ s.core.unit.checked.length < 4 ∧
      s.core.unit.wait = none ∧ s.core.freeze = none := by decide +kernel

/-- What translates an engine's pc: its answers of walks and the TLBs. -/
def T.fetched (s : State) (e : Eng) : Option Walked := lookup s (s.eng e).got 0 1 (va56 (s.eng e).pc)
theorem witness_Fetching_asks : let s := T.core (T.base .V []) fun c => { c with tlb := [] }
    s.gate .V = .go ∧ s.core.crew.isSome = true ∧ T.fetched s .V = none := by decide +kernel
theorem witness_Fetching_unmapped : let s := (T.core (T.base .V []) fun c => { c with tlb := [] }).mapEng .V fun g => { g with got := [.fault 0x780000000000 1] }
    s.gate .V = .go ∧ T.fetched s .V = some (.fault 0x780000000000 1) := by decide +kernel
theorem witness_Fetching_data : let s := T.core (T.base .V []) fun c => { c with tlb := [⟨0, 1, 0x780000000000, 30, 0, true, true, false⟩] }
    s.gate .V = .go ∧ T.fetched s .V = some (.hit ⟨0, 1, 0x780000000000, 30, 0, true, true, false⟩) := by decide +kernel
theorem witness_Fetching_code : (T.base .V []).gate .V = .go ∧ (T.base .V []).featMask = 0 ∧
    (match T.fetched (T.base .V []) .V with | some (.hit t) => t.x | _ => false) = true := by decide +kernel

/-! ## Witnesses: the end of a crew, faults, pre-emption -/

/-- The bytes of a LAUNCH of `n` crews of one core each, of the slice set at 0x40000, arguments at 0x10000. -/
def T.launchBytes (flags n : Nat) : List Byte := toBytes 8 (1 + flags * 2 ^ 8 + 1 * 2 ^ 16 + 1 * 2 ^ 24 + n * 2 ^ 32) ++ toBytes 8 0x40000 ++ toBytes 8 0x10000 ++ List.replicate 104 0
def T.launchOf (n prio last : Nat) : Launch :=
  { serial := 0, ctx := 1, fn := 0, queue := 0, proc := 0, cmd := T.launchBytes 0 n, args := List.replicate 64 0, tok := List.replicate 20 0, prio := prio, next := 0, ended := 0, lslot := 0,
    pipe := [], stage := 0, pipeId := 0, start := 0, last := last, recv := 0, yielded := [] }
def T.launched (s : State) (l : Launch) : State := { s with hub := { s.hub with launches := [l] } }
/-- A crew at its HALT, marked. -/
def T.halt (n : Nat) : State :=
  let w := (encode (.halt Sync.none)).getD 0
  let s := (T.base .S []).setMemBytes 0x100000 (bytesOfWord w)
  T.launched (T.core (s.touch ⟨1, 2, .S, T.at_, w, 0, false⟩) fun c => { c with halting := true }) (T.launchOf n 0 0)
theorem witness_HaltEndsCrew_marks : Ready (T.base .S []) .S [] 0 := T.ready_base .S _ 0 (by decide)
theorem witness_HaltEndsCrew_last : (T.halt 1).core.crew.isSome = true ∧ (T.halt 1).haltReady = true ∧ ((T.halt 1).launch? 0).map (fun l => (l.ncrew, l.ended)) = some (1, 0) := by decide +kernel
theorem witness_HaltEndsCrew_more : (T.halt 2).haltReady = true ∧ ((T.halt 2).launch? 0).map (fun l => (l.ncrew, l.ended)) = some (2, 0) := by decide +kernel

/-- A crew frozen at its word. -/
def T.frozen (cause : Nat) (aux : Word) (set : Bool) (stuck : Nat) : State :=
  T.core (T.base .S []) fun c => { c with freeze := some ⟨⟨0, 0, [], []⟩, [], 1, cause, 0, aux, 0, 0, false, set, set, none, [], [], 0, stuck⟩ }
theorem witness_DrainsEnd : let s := T.frozen 0x10 0x3FF false 0
    s.drainedTo ⟨0, 0, [], []⟩ = true ∧ s.core.crew.isSome = true ∧ (s.ctx? 1).bind Ctx.freeSlot? = some 0 := by decide +kernel
theorem witness_DrainsEnd_sliceset : let s := T.frozen 0x12 0 true 65536
    s.slotReady = true ∧ s.core.freeze.map (fun f => (f.sliceset, f.stuck)) = some (true, 65536) ∧ s.drainedTo ⟨0, 0, [], []⟩ = true := by decide +kernel

theorem witness_FaultsAndParking_deadlock : let s := T.core (T.base .S []) fun c => { c with blocked := [(1, 65536), (2, 65536), (3, 65536), (4, 65536), (5, 65536)] }
    (∀ e : Eng, 65536 ≤ Tab.get 0 s.core.blocked e.code) ∧ s.core.crew ≠ none ∧ s.core.freeze = none ∧ s.oldestOpen.isSome = true :=
  ⟨fun e => by cases e <;> decide +kernel, by decide +kernel, by decide +kernel, by decide +kernel⟩
/-- Every engine idle behind its slice's end, with no HALT. -/
theorem witness_FaultsAndParking_idle : let s := T.core (T.base .S []) fun c => { c with engS := { c.engS with len := 0 }, blocked := [(1, 65536), (2, 65536), (3, 65536), (4, 65536), (5, 65536)] }
    s.core.crew ≠ none ∧ s.core.freeze = none ∧ s.oldestOpen = none := by decide +kernel
theorem witness_FaultsAndParking_earlier : let s := T.core (T.frozen 0x05 0 false 0) fun c => { c with freeze := c.freeze.map fun f => { f with pos := ⟨0, 1, [], []⟩ } }
    Ready s .S [] 0 ∧ (s.pos .S).lt ⟨0, 1, [], []⟩ = true := ⟨⟨by decide +kernel, by decide +kernel, by decide +kernel⟩, by decide +kernel⟩
theorem witness_FaultsAndParking_later : ((T.frozen 0x05 0 false 0).pos .S).lt ⟨0, 0, [], []⟩ = false := by decide +kernel
theorem witness_FaultsAndParking_unpark : let s := T.core (T.base .S []) fun c => { c with parked := true }
    s.core.parked = true ∧ s.core.calldepth = 0 ∧ s.core.drained = true := by decide +kernel

theorem witness_Preemption_trigger : let s := { T.launched ((T.base .S []).setView .S fun v => { v with prelvl := 0 }) (T.launchOf 1 1 0) with podtime := 1000000 }
    let s := s.mapEng .S fun g => { g with loops := [T.level T.at_ T.at_ 2] }
    s.trigger.map (·.2) = some [s.core.id] ∧ s.core.crew ≠ none ∧ s.core.preempt = none ∧ s.core.freeze = none ∧ s.core.stands = none ∧ s.boundary.isSome = true := by decide +kernel
theorem witness_Preemption_boundary : let s := T.core (T.base .S []) fun c => { c with preempt := some ⟨⟨0, 0, [], []⟩, [], 0⟩ }
    s.core.freeze = none ∧ s.core.stands = none ∧ s.drainedTo ⟨0, 0, [], []⟩ = true ∧ s.core.crew.isSome = true ∧ (s.ctx? 1).bind Ctx.freeSlot? = some 0 := by decide +kernel
theorem witness_Preemption_force : let s := { T.core (T.base .S []) fun c => { c with preempt := some ⟨⟨0, 5, [], []⟩, [], 0⟩ } with podtime := 20000 }
    s.core.freeze = none ∧ s.core.stands = none ∧ s.core.crew.isSome = true ∧ (s.ctx? 1).map (fun x => decide (0 + 1000 * x.deadline ≤ s.podtime)) = some true ∧ s.core.colls = [] := by decide +kernel

/-! ## Witnesses: queues, commands, crews, contexts, functions -/

/-- A running module with queue 0 of the physical function at context 1, its ring at 0x20000. -/
def T.queue (f : CmdQueue → CmdQueue) : State := (T.map (T.base .S []) 7).setQueue 0 0 (f { CmdQueue.reset with ctx := 1, base := 0x20000, logsz := 4 })
theorem witness_QueueRegisters_on : (T.queue fun x => { x with en := true }).health.stage = 6 ∧ ((T.queue fun x => { x with en := true }).queue 0 0).en = true ∧
    ((T.queue fun x => { x with en := true }).queue 0 0).halt = false ∧ ((16 : BitVec 32) - 0).toNat ≤ 2 ^ 4 ∧ 2 ^ 4 < ((17 : BitVec 32) - 0).toNat := by decide +kernel
theorem witness_QueueRegisters_off : ((T.queue id).queue 0 0).en = false ∧ (0x8000000000000000 : Word).toNat.testBit 63 = true ∧ (0 : Word).toNat.testBit 63 = false := by decide +kernel
theorem witness_QueueRegisters_stores : (T.queue id).health.stage = 6 ∧ ((T.queue id).func 0).cbusy = none ∧ State.reset.health.stage ≠ 6 := by decide +kernel
theorem witness_QueueRegisters_boot : let s := { State.reset with health := { State.reset.health with stage := 2, pcie := true } }
    s.health.pcie = true ∧ s.health.sec.testBit 0 = false ∧ s.health.stage = 2 ∧ 0x2FFFF8 + 8 ≤ 0x300000 := by decide +kernel

def T.waiting (b : List Byte) : State := (T.queue fun x => { x with en := true, tail := 3 }).setMemBytes 0x20000 b
theorem witness_Commands_taken : let s := T.waiting [4, 2]
    s.hub.current = none ∧ s.nextQueue = some (0, 0) ∧ s.queueCtx 0 (s.queue 0 0) ≠ none ∧
      (match s.slotBytes (s.queue 0 0) with | some b => decide (field b 0 1 ≤ 4) && !commandReserved b | none => false) = true := by decide +kernel
theorem witness_Commands_unknown : (match (T.waiting [5]).slotBytes ((T.waiting [5]).queue 0 0) with | some b => decide (4 < field b 0 1) | none => false) = true ∧
    (T.waiting [5]).nextQueue = some (0, 0) := by decide +kernel
theorem witness_Commands_reserved : (match (T.waiting [0, 1]).slotBytes ((T.waiting [0, 1]).queue 0 0) with | some b => decide (field b 0 1 ≤ 4) && commandReserved b | none => false) = true ∧
    (T.waiting [0, 1]).nextQueue = some (0, 0) := by decide +kernel
def T.taking (b : List Byte) : State := let s := T.waiting b; { s with hub := { s.hub with current := some ⟨0, 0, b⟩ } }
/-- What each command asks of its queue. -/
def T.takes (s : State) : Bool := (s.queue 0 0).en && !(s.queue 0 0).halt && (s.queue 0 0).pipeN == 0 && !(s.func 0).susp
theorem witness_Commands_nop : T.takes (T.taking []) = true ∧ field [] 0 1 = 0 := by decide +kernel
theorem witness_Commands_drain : T.takes (T.taking [2]) = true ∧ ¬((field [2] 1 1).testBit 2 ∧ field [2] 64 8 % 8 ≠ 0) := by decide +kernel
theorem witness_Commands_waitmem : let b : List Byte := [3, 0, 0, 0, 0, 0, 0, 0, 8, 0, 1]
    T.takes (T.taking b) = true ∧ field b 8 8 % 8 = 0 ∧ ctxRead (T.taking b) 1 (field b 8 8) 8 ≠ none := by decide +kernel
theorem witness_Commands_pipe : let b : List Byte := [4, 2, 0, 0, 0, 0, 0, 0, 0, 0, 1]
    T.takes (T.taking b) = true ∧ 2 ≤ field b 1 1 ∧ field b 1 1 ≤ 8 ∧ stageQueue (T.taking b) 1 (BitVec.ofNat 64 (field b 8 8)) ≠ none := by decide +kernel
/-- Context 1 holding the one-word slice set of the scalar engine at 0x40000. -/
def T.loaded (s : State) : State :=
  let o : Obj := ⟨1, 0x780000000000, 0x10000, 0, 0, 0, [], [], [], [{ oneWordSet .S with addr := 0x40000 }], [], 0, 0, []⟩
  { s with ctxs := s.ctxs.map fun c => (c.1, { c.2 with objs := [o] }) }
theorem witness_Commands_launch : let s := T.loaded (T.taking (T.launchBytes 0 3))
    (match s.queueCtx 0 (s.queue 0 0) with
      | some c => match checkLaunch s (s.queue 0 0) c (T.launchBytes 0 3) with | .ok _ => true | .error _ => false
      | none => false) = true ∧ T.takes s = true := by decide +kernel
theorem witness_Commands_launch_refused : let s := T.loaded (T.taking (T.launchBytes 0 0))
    (match s.queueCtx 0 (s.queue 0 0) with
      | some c => match checkLaunch s (s.queue 0 0) c (T.launchBytes 0 0) with | .ok _ => false | .error e => e == 0x12
      | none => false) = true ∧ T.takes s = true := by decide +kernel
theorem witness_Commands_drained : let s := T.queue fun x => { x with en := true, busy := some [2] }
    (s.queue 0 0).busy = some [2] ∧ (s.queue 0 0).en = true ∧ (s.func 0).susp = false ∧ ∀ l ∈ s.hub.launches, l.fn = 0 → l.queue ≠ 0 := by decide +kernel
theorem witness_Commands_polled : let b : List Byte := [3, 0, 0, 0, 0, 0, 0, 0, 0, 0, 1, 0, 0, 0, 0, 0, 1]
    let s := T.queue fun x => { x with en := true, busy := some b }
    (ctxRead s 1 (field b 8 8) 8).map ofBytes = some 0 ∧ 0 < field b 16 8 ∧ ((ctxRead (s.setMemBytes 0x10000 [1]) 1 (field b 8 8) 8).map ofBytes) = some (field b 16 8) := by decide +kernel

theorem witness_ContextCommands_create : let v : Word := 0x8010000000000000
    let s := (T.base .S []).setFunc 0 { Func.reset with carg := 0x80000 }
    let s := s.setMemBytes 0x80000 (toBytes 8 0x500000 ++ toBytes 8 0x600000 ++ toBytes 8 0x1FC000)
    starts s 0 1 v ∧ s.freeCtx.isSome = true ∧ (match ctxDescriptor s 0 (s.func 0).carg.toNat with
      | some d => decide (field d 24 1 = 0 ∧ field d 25 1 = 0 ∧ field d 0 8 % 0x10000 = 0 ∧ field d 8 8 % 0x10000 = 0 ∧ 0x1FC000 ≤ field d 16 8) && (d.drop 28).all (· == 0)
      | none => false) = true :=
  ⟨⟨by decide +kernel, by decide, by decide, by decide, by decide +kernel⟩, by decide +kernel, by decide +kernel⟩
theorem witness_ContextCommands_create_refused : let s := (T.base .S []).setFunc 0 { Func.reset with carg := 8 }
    starts s 0 1 0x8010000000000000 ∧ s.freeCtx ≠ none ∧ ctxDescriptor s 0 (s.func 0).carg.toNat = none :=
  ⟨⟨by decide +kernel, by decide, by decide, by decide, by decide +kernel⟩, by decide +kernel, by decide +kernel⟩
theorem witness_ContextCommands_destroy : starts (T.base .S []) 0 2 0x8020000100000000 ∧ ((T.base .S []).ctx? 1).map (·.fn) = some 0 ∧ (T.base .S []).ctx? 0xFFF = none :=
  ⟨⟨by decide +kernel, by decide, by decide, by decide, by decide +kernel⟩, by decide +kernel, by decide +kernel⟩
/-- Context 1 saved, with a crew in slot 0 whose record may resume. -/
def T.saved (feat : Nat) : State :=
  let s := (T.core (T.base .S []) fun c => { c with crew := none }).setMemBytes 0x600008 (toBytes 8 feat)
  let s := s.setMemBytes (0x600000 + saveHeader + 0x405) [1]
  { s with ctxs := (s.ctxs.map fun c => (c.1, { c.2 with held := true, slots := [(0, ⟨0, 0, 2, true, false, 0, 0, 0, []⟩)] })) ++ [(2, ⟨0, 0x500000, 0x900000, 0x200000, 20, 0, false, 0, [], []⟩)] }
theorem witness_ContextCommands_restore : starts (T.saved 0) 0 4 0x8040000100000000 ∧ ((T.saved 0).ctx? 1).map (fun x => (x.fn, x.held, (T.saved 0).featOk 0 ((T.saved 0).featHeader x))) = some (0, true, true) :=
  ⟨⟨by decide +kernel, by decide, by decide, by decide, by decide +kernel⟩, by decide +kernel⟩
theorem witness_ContextCommands_restore_refused : starts (T.saved 256) 0 4 0x8040000100000000 ∧ ((T.saved 256).ctx? 1).map (fun x => (x.fn, x.held, (T.saved 256).featOk 0 ((T.saved 256).featHeader x))) = some (0, true, false) :=
  ⟨⟨by decide +kernel, by decide, by decide, by decide, by decide +kernel⟩, by decide +kernel⟩

theorem witness_SaveSwitchResume_save : starts (T.saved 0) 0 3 0x8030000100000000 ∧ (T.saved 0).allSaved 1 = true ∧ ((T.saved 0).func 0).susp = false ∧ ((T.saved 0).ctx? 1).map (·.fn) = some 0 :=
  ⟨⟨by decide +kernel, by decide, by decide, by decide, by decide +kernel⟩, by decide +kernel, by decide +kernel, by decide +kernel⟩
theorem witness_SaveSwitchResume_switch : starts (T.saved 0) 0 5 0x8050000100000002 ∧ (T.saved 0).allSaved 1 = true ∧ ((T.saved 0).ctx? 2).map (fun y => (y.fn, y.held)) = some (0, false) :=
  ⟨⟨by decide +kernel, by decide, by decide, by decide, by decide +kernel⟩, by decide +kernel, by decide +kernel⟩
theorem witness_SaveSwitchResume_resume : starts (T.saved 0) 0 6 0x8060000100000000 ∧
    (((T.saved 0).ctx? 1).bind fun x => (x.slots.find? (fun e => e.1 == ((T.saved 0).func 0).carg.toNat)).map fun z => (z.2.kind,
      (imgNat (readRegion (T.saved 0) x.fn (x.save + saveHeader + ((T.saved 0).func 0).carg.toNat * blockBytes + 0x405) 1) 0 1).testBit 0)) = some (2, true) ∧
    ∀ c ∈ (T.saved 0).cores, c.stands = none :=
  ⟨⟨by decide +kernel, by decide, by decide, by decide, by decide +kernel⟩, by decide +kernel, by decide +kernel⟩
theorem witness_SaveSwitchResume_inval : let s := (T.base .S []).setFunc 0 { Func.reset with carg := 0x10000 }
    starts s 0 7 0x8070000100000000 ∧ (s.ctx? 1).map (·.fn) = some 0 ∧ ∃ e ∈ s.core.tlb, e.ctx = 1 ∧ e.page < 0x20000 ∧ 0x10000 < e.page + 2 ^ e.bits :=
  ⟨⟨by decide +kernel, by decide, by decide, by decide, by decide +kernel⟩, by decide +kernel, by decide +kernel⟩

theorem witness_VirtualFunctions_suspend : (T.base .S []).health.stage = 6 ∧ starts (T.base .S []) 0 8 0x8080001F00000000 ∧ starts (T.base .S []) 0 9 0x8090001F00000000 ∧
    ((T.base .S []).func 32).cbusy = none ∧ (T.base .S []).cores.all (fun c => match c.crew with | some w => w.fn != 32 | none => true) = true :=
  ⟨by decide +kernel, ⟨by decide +kernel, by decide, by decide, by decide, by decide +kernel⟩, ⟨by decide +kernel, by decide, by decide, by decide, by decide +kernel⟩,
    by decide +kernel, by decide +kernel⟩
theorem witness_VirtualFunctions_free : ∀ c ∈ (T.base .S []).ctxs, c.2.fn ≠ 31 + 1 := by decide +kernel
theorem witness_VirtualFunctions_holds : ∃ c ∈ (T.base .S []).ctxs.map (fun c => (c.1, { c.2 with fn := 1 })), c.2.fn = 0 + 1 := by decide +kernel
theorem witness_VirtualFunctions_reset : ((T.base .S []).func (31 + 1)).flr = false ∧ (((T.base .S []).setFunc 32 { Func.reset with flr := true }).func (31 + 1)).flr = true := by decide +kernel
theorem witness_VirtualFunctions_depstat : (0x8000000000000000 : Word).getLsbD 63 = true ∧ ((T.base .S []).ctx? 1).isSome = true ∧
    ∀ c ∈ (T.base .S []).cores, c.stands = none := by decide +kernel

def T.crews : State := T.launched (T.loaded (T.core (T.base .S []) fun c => { c with crew := none })) (T.launchOf 2 3 0)
theorem witness_CrewStarts : 0 < 384 ∧ (T.crews.coreAt 0).crew = none ∧ (T.crews.coreAt 0).out = false ∧
    (T.crews.choose).map (fun o => (o.cores, o.crews, (T.crews.ctx? o.launch.ctx).bind fun x => (crewOf x o.launch 0 (T.crews.hub.recvs + 1)).map (·.num))) =
      some ([0], [(0, none)], some 0) := by decide +kernel

/-! ## Witnesses: the vector engine -/

/-- A vector engine with descriptors, and registers x1 to x3. -/
def T.vec (ds : List (Nat × Word)) : State := (T.base .V [(1, 5), (2, 7), (3, 0xFFFFFFFFFFFFFFFF)]).setView .V fun v => { v with descs := ds }
def T.desc (type count off : Nat) : Word := BitVec.ofNat 64 (type * 2 ^ 59 + count * 2 ^ 37 + 1 * 2 ^ 21 + off)

def T.passesAll (s : State) (pend : Nat) (ops : List VOpnd) (more : List Region → Chk (List Nat)) : Bool :=
  match checkOps s Sync.none ops more with
  | .ok pl => decide (pl = { regs := pl.regs, idx := pl.idx }) && decide (s.known .V (.ok pl) = .ok pl) && decide (s.gate .V = .go) && s.core.canPop .V [] &&
      decide ((s.eng .V).pending + pend ≤ 16) && (!(ops.zip pl.regs).any (fun o => o.1.dst && !o.2.slot) || (s.resolve .V).older .V (s.pos .V)) &&
      T.calm s
  | _ => false

theorem T.passesAll_of {s : State} {pend : Nat} {ops : List VOpnd} {more : List Region → Chk (List Nat)} (h : T.passesAll s pend ops more = true) :
    ∃ rs ix, PassesAll s Sync.none pend ops more { regs := rs, idx := ix } := by
  unfold T.passesAll at h
  split at h
  · rename_i pl hr
    simp only [Bool.and_eq_true, Bool.or_eq_true, decide_eq_true_eq, Bool.not_eq_true'] at h
    obtain ⟨⟨⟨⟨⟨⟨he, hk⟩, hg⟩, hp⟩, hn⟩, ho⟩, hq⟩ := h
    refine ⟨pl.regs, pl.idx, by rw [← he]; exact hr, by rw [← he]; exact hk, T.turn s .V hq _, ⟨hg, hp, hn⟩, fun ha => ?_⟩
    cases ho with
    | inl hn => rw [ha] at hn; cases hn
    | inr ho => exact ho
  · cases h

def T.passes (s : State) (pend : Nat) (ops : List VOpnd) : Bool := T.passesAll s pend ops fun _ => .ok []

theorem T.passes_of {s : State} {pend : Nat} {ops : List VOpnd} (h : T.passes s pend ops = true) : ∃ rs, Passes s Sync.none pend ops rs := by
  obtain ⟨rs, ix, hp⟩ := T.passesAll_of h
  have hx : ix = [] := by
    have hc := hp.1
    unfold checkOps at hc
    cases hr : Chk.each (checkOpnd s Sync.none) ops with
    | ok r => rw [hr] at hc; injection hc with hc; injection hc with _ _ _ _ _ _ hx; exact hx.symm
    | bad _ _ _ => rw [hr] at hc; cases hc
    | walk _ => rw [hr] at hc; cases hc
  subst hx
  exact ⟨rs, hp⟩

theorem T.apart_one (d : Region) (srcs : List Region) : Apart d srcs 1 id := ⟨.inr fun i j hij hj => by omega, .inl (by decide)⟩

theorem witness_VectorArithmetic : let s := T.vec [(0, T.desc 0x09 1 0), (1, T.desc 0x09 1 0x17FFFF), (2, T.desc 0x0C 1 8)]
    ∃ rs, Passes s Sync.none 1 [vdst 0 isFI, vsrc s 0 1 (sameClass (s.desc 0).type), vsrc s 0 2 (sameClass (s.desc 0).type)] rs ∧ Apart (reg rs 0) rs.tail 1 id :=
  have h := T.passes_of (by decide +kernel)
  h.elim fun _ h => ⟨_, h, T.apart_one _ _⟩
theorem witness_VectorArithmetic_float : let s := T.vec [(0, T.desc 0 1 0), (1, T.desc 2 1 16)]
    ∃ rs, Passes s Sync.none 1 [vdst 0 isFI, vsrc s 0 1 (sameClass (s.desc 0).type)] rs := T.passes_of (by decide +kernel)
theorem witness_VectorArithmetic_shift : let s := T.vec [(0, T.desc 0x0A 1 0), (1, T.desc 0x0C 1 16), (2, T.desc 0x09 1 32)]
    ∃ rs, Passes s Sync.none 1 [vdst 0 isI, vsrc s 0 1 isI, vsrc s 0 2 isI] rs := T.passes_of (by decide +kernel)
theorem T.vec_ready (ds : List (Nat × Word)) (h : ((T.vec ds).gate .V = .go ∧ (T.vec ds).core.canPop .V [] = true ∧ ((T.vec ds).eng .V).pending + 1 ≤ 16)) : Ready (T.vec ds) .V [] 1 := h
theorem witness_VectorPatterns_dset : Ready (T.vec []) .V [] 1 ∧ ((T.vec []).eng .V).kept = none := ⟨T.vec_ready _ (by decide +kernel), by decide +kernel⟩
/-- One descriptor for each failing check. -/
theorem witness_VectorPatterns_checks :
    let f (w : Word) : Nat := w.toNat
    (isFI (bits (f (T.desc 5 1 0)) 63 59) = false) ∧
    (isFI (bits (f (T.desc 0 0 0)) 63 59) = true ∧ bits (f (T.desc 0 0 0)) 52 37 = 0) ∧
    (isFI (bits (f (T.desc 0 1 3)) 63 59) = true ∧ bits (f (T.desc 0 1 3)) 52 37 ≠ 0 ∧ bits (f (T.desc 0 1 3)) 20 0 % (codeWidth 0 / 8) ≠ 0) ∧
    (let w := f (T.desc 0 1 4 ||| 1 <<< 58)
     isFI (bits w 63 59) = true ∧ bits w 52 37 ≠ 0 ∧ bits w 20 0 % (codeWidth 0 / 8) = 0 ∧ bits w 58 58 = 1) := by decide +kernel
theorem witness_VectorPatterns_bitwise : let s := T.vec [(0, T.desc 0 1 0), (1, T.desc 0x0C 1 8), (2, T.desc 0x0C 1 16)]
    ∃ rs, Passes s Sync.none 0 [vdst 0 fun k => isFIS k && codeWidth k ≤ 32, vsrc s 0 1 fun k => isFIS k && codeWidth k == 32, vsrc s 0 2 fun k => isFIS k && codeWidth k == 32] rs :=
  T.passes_of (by decide +kernel)
theorem witness_VectorPatterns_shifts : let s := T.vec [(0, T.desc 0x0A 1 0), (1, T.desc 0x0A 1 8), (2, T.desc 0x0C 1 16)]
    ∃ rs, Passes s Sync.none 0 [vdst 0 isI, vsrc s 0 1 (· == 0x0A), vsrc s 0 2 isI] rs := T.passes_of (by decide +kernel)
theorem witness_VectorPatterns_select : let s := T.vec [(0, T.desc 5 1 0), (1, T.desc 5 1 8), (2, T.desc 5 1 9), (3, T.desc 0x0C 1 16)]
    ∃ rs, Passes s Sync.none 0 [vdst 0 isFIS, vsrc s 0 1 (· == 5), vsrc s 0 2 (· == 5), vsrc s 0 3 isI] rs := T.passes_of (by decide +kernel)
theorem witness_VectorPatterns_move : let s := T.vec [(0, T.desc 8 2 0), (1, T.desc 8 2 8)]
    ∃ rs, Passes s Sync.none 0 [vdst 0 isAny, vsrc s 0 1 (· == 8)] rs := T.passes_of (by decide +kernel)
theorem witness_VectorPatterns_compare : let s := T.vec [(0, T.desc 0x0C 1 0), (1, T.desc 0 1 8), (2, T.desc 1 1 16)]
    ∃ rs, Passes s Sync.none 1 [vdst 0 isI, vsrc s 0 1 isFI, vsrc s 0 2 (sameClass (s.desc 1).type)] rs := T.passes_of (by decide +kernel)

theorem witness_VectorConversions_vcvt : let s := T.vec [(0, T.desc 5 1 0), (1, T.desc 0 1 8)]
    ∃ rs, Passes s Sync.none 1 [vdst 0 isCvt, vsrc s 0 1 isCvt] rs := T.passes_of (by decide +kernel)
theorem witness_VectorConversions_vdqnt : let s := T.vec [(0, T.desc 0 33 0x1000), (1, T.desc 0x10 33 0), (2, T.desc 5 2 0x800)]
    ∃ rs, Passes s Sync.none 1 [vdst 0 isF, ⟨1, false, isMX, fun c => c == 33, true⟩, ⟨2, false, isScale, fun c => c == (33 + 31) / 32, true⟩] rs := T.passes_of (by decide +kernel)
theorem witness_VectorConversions_vqnt : let s := T.vec [(0, T.desc 0x10 1 0x1000), (1, T.desc 0 1 0), (2, T.desc 5 1 0x800)]
    ∃ rs, Passes s Sync.none 1 [vdst 0 isMX, ⟨1, false, isF, fun c => c == 1, true⟩, ⟨2, true, isScale, fun c => c == (1 + 31) / 32, true⟩] rs ∧ 1 ≤ 128 ∧
      Apart (reg rs 0) [reg rs 2] 1 id ∧ Apart (reg rs 2) [] 1 id :=
  have h := T.passes_of (by decide +kernel)
  h.elim fun _ h => ⟨_, h, by decide, T.apart_one _ _, T.apart_one _ _⟩
theorem witness_VectorConversions_vqnt_apart : let d : Region := ⟨0x10, 1, 1, 0x1000, false, 0⟩
    let e : Region := ⟨5, 1, 1, 0x800, false, 0⟩
    ∀ k, k < 1 → ∀ j, j < e.nb → ¬Touches d 1 id (e.at k + j) := by
  intro d e k hk j hj
  obtain rfl : k = 0 := by omega
  obtain rfl : j = 0 := by have : e.nb = 1 := by decide
                           omega
  rintro ⟨i, l, hi, hl, h⟩
  obtain rfl : i = 0 := by omega
  obtain rfl : l = 0 := by have : d.nb = 1 := by decide
                           omega
  exact absurd h (by decide +kernel)
theorem witness_VectorConversions_divide : let s := T.vec [(0, T.desc 4 1 0), (1, T.desc 0 1 8), (2, T.desc 3 1 16)]
    ∃ rs, Passes s Sync.none 1 (vdst 0 isF :: [1, 2].map fun k => vsrc s 0 k isF) rs := T.passes_of (by decide +kernel)

theorem witness_VectorReductions_vred : let s := T.vec [(0, T.desc 0x0C 1 0), (1, T.desc 0x0C 3 8)]
    (∃ rs, Passes s Sync.none 1 [⟨0, true, isFI, fun c => c == 1, true⟩, ⟨1, false, sameClass (s.desc 0).type, fun _ => true, true⟩] rs) ∧ (intRange? 0x0C).isSome = true :=
  ⟨T.passes_of (by decide +kernel), by decide⟩
theorem witness_VectorReductions_vscan : let s := T.vec [(0, T.desc 0x0C 1 0), (1, T.desc 0x0C 1 8)]
    (∃ rs, Passes s Sync.none 1 [vdst 0 isFI, ⟨1, false, sameClass (s.desc 0).type, fun c => c == (s.desc 0).count, true⟩] rs) ∧ CombOp.add ≠ .amax ∧ (intRange? 0x0C).isSome = true :=
  ⟨T.passes_of (by decide +kernel), by decide, by decide⟩
/-- Index 1 of a table of two elements. -/
theorem witness_VectorReductions_gather : let s := T.core (T.vec [(0, T.desc 0x0C 1 0), (1, T.desc 0x0C 2 8), (2, T.desc 0x0C 1 0x100)]) fun c => { c with scratch := [(0x100, 1)] }
    let ops : List VOpnd := [vdst 0 isFIS, ⟨1, false, fun t => t == (s.desc 0).type, fun _ => true, false⟩, ⟨2, false, fun t => t == 0x0C, fun c => c == (s.desc 0).count, true⟩]
    ∃ rs ix, PassesAll s Sync.none 0 ops (fun rs => checkTable s Sync.none false (reg rs 1) (reg rs 2)) { regs := rs, idx := ix } := T.passesAll_of (by decide +kernel)
theorem witness_VectorReductions_scatter : let s := T.core (T.vec [(0, T.desc 0x0C 2 0), (1, T.desc 0x0C 1 8), (2, T.desc 0x0C 1 0x100)]) fun c => { c with scratch := [(0x100, 1)] }
    let ops : List VOpnd := [⟨0, true, isFIS, fun _ => true, false⟩, ⟨1, false, fun t => t == (s.desc 0).type, fun _ => true, true⟩, ⟨2, false, fun t => t == 0x0C, fun c => c == (s.desc 1).count, true⟩]
    ∃ rs ix, PassesAll s Sync.none 0 ops (fun rs => checkTable s Sync.none true (reg rs 0) (reg rs 2)) { regs := rs, idx := ix } := T.passesAll_of (by decide +kernel)
theorem witness_VectorReductions_vflg : let s := T.vec [(0, T.desc 0x0A 128 0)]
    ∃ rs, Passes s Sync.none 1 [vdst 0 fun t => t == 0x0A] rs ∧ (s.desc 0).count = 128 := (T.passes_of (by decide +kernel)).elim fun _ h => ⟨_, h, by decide +kernel⟩

/-! ## Witnesses: the matrix engine and its tiles -/

/-- A matrix engine that holds leave, with format entry 0. -/
def T.mat (fmt : BitVec 32) (regs : List (Nat × Word)) (tiles : List (Nat × Tile)) : State :=
  T.core (T.base .M regs) fun c => { c with fmt := [(0, fmt)], tiles := tiles, scratch := [(0x100, 3)] }
def T.matOk (s : State) : Bool := decide (s.gate .M = .go) && s.core.canPop .M [] && decide ((s.eng .M).pending + 2 ≤ 16) && s.older .M (s.pos .M) && (s.resolve .M).older .M (s.pos .M) &&
  decide (s.core.leave = .held) && T.calm s
/-- The engine may issue, in resolved order too, with leave and the banks' turn. -/
def T.mayRun (s : State) : Prop :=
  (∀ n ≤ 2, Ready s .M [] n) ∧ s.older .M (s.pos .M) = true ∧ (s.resolve .M).older .M (s.pos .M) = true ∧ s.core.leave = .held ∧ HasTurn s .M
theorem T.mat_ready {s : State} (h : T.matOk s = true) : T.mayRun s := by
  simp only [T.matOk, Bool.and_eq_true, decide_eq_true_eq] at h
  obtain ⟨⟨⟨⟨⟨⟨hg, hp⟩, hn⟩, ho⟩, hr⟩, hl⟩, hq⟩ := h
  exact ⟨fun n hk => ⟨hg, hp, Nat.le_trans (Nat.add_le_add_left hk _) hn⟩, ho, hr, hl, T.turn s .M hq⟩
theorem witness_MatrixMultiply_asks : let s := T.core (T.base .M []) fun c => { c with leave := .none }
    s.gate .M = .go ∧ s.core.leave ≠ .held ∧ s.core.leave ≠ .asked ∧ s.core.canPop .M [] = true := by decide +kernel
theorem witness_MatrixMultiply_ready : T.mayRun (T.mat 0x09480000 [] []) := T.mat_ready (by decide +kernel)
/-- Format entries of INT8, BF16 and ternary operands. -/
theorem witness_MatrixMultiply_formats :
    (entA ((T.mat 0x09480000 [] []).fmtEntry 0) = 9 ∧ entB ((T.mat 0x09480000 [] []).fmtEntry 0) = 9) ∧
    (entA ((T.mat 0x02100000 [] []).fmtEntry 0) = 2 ∧ entB ((T.mat 0x02100000 [] []).fmtEntry 0) = 2 ∧ entA ((T.mat 0x02100000 [] []).fmtEntry 0) ∈ [1, 2, 3, 4, 9, 10]) ∧
    entA ((T.mat 0x06000000 [] []).fmtEntry 0) = 6 ∧ entA ((T.mat 0x08000000 [] []).fmtEntry 0) ∉ [1, 2, 3, 4, 9, 10] := by decide +kernel
theorem T.mat_home {s : State} {n : BitVec 4} {packed rows len : Nat} (h : (bits (s.x .M n.toNat).toNat 63 61 == 0 &&
    (List.range rows).all fun r => (List.range len).all fun b => decide (s.matAt n packed r b < 0x180000) && !s.core.inQueue (s.matAt n packed r b)) = true) : s.matHome n packed rows len := by
  simp only [Bool.and_eq_true, beq_iff_eq, List.all_eq_true, List.mem_range, decide_eq_true_eq, Bool.not_eq_true'] at h
  exact ⟨h.1, fun r b hr hb => h.2 r hr b hb⟩
/-- Operands at both ends of home scratchpad. -/
theorem witness_MatrixMultiply_home : let s := T.mat 0x09480000 [(1, 0x17FD00), (2, 0)] []
    s.matHome 1 48 16 48 ∧ s.matHome 2 48 16 48 := by
  exact ⟨T.mat_home (by decide +kernel), T.mat_home (by decide +kernel)⟩

theorem witness_AccumulatorMoves : let s := T.mat 0 [(1, 0x0000040001000000), (2, 0x17FF00)] []
    T.mayRun s ∧ bits (s.x .M 2).toNat 1 0 = 0 ∧ bits (s.x .M 2).toNat 47 32 = 0 := ⟨T.mat_ready (by decide +kernel), by decide +kernel⟩
/-- A window of one row of 64 columns from the last 256 bytes of home scratchpad. -/
theorem witness_AccumulatorMoves_home : let s := T.mat 0 [(2, 0x17FF00)] []
    s.matHome 2 256 1 256 ∧ entD (s.fmtEntry 0) = 0 := by
  exact ⟨T.mat_home (by decide +kernel), by decide +kernel⟩

/-- The descriptor of a tile. -/
def T.tdesc (units rank pol : Nat) (fact : Bool) (etype cols rows : Nat) : Word := TDesc.word ⟨units, rank, pol, 1, fact, etype, cols, rows⟩
/-- Tile 0: one by one, dense, FP32; tile 1: two rows; tile 3: factored, rank 1, policy trap; tile 4: factored, rank 0, policy trap; tile 5 takes `used` units. -/
def T.tiles (used : Nat) : State := T.mat 0x01080000 [(1, 0x3F8000003F800000), (2, 0x0000018228100000), (3, 1)]
  [(0, ⟨T.tdesc 0 63 1 false 0 1 1, [0x3F800000]⟩), (1, ⟨T.tdesc 0 63 1 false 0 1 2, [0, 0]⟩), (3, ⟨T.tdesc 0 1 0 true 0 1 1, [0x40000000, 0x3F800000]⟩),
   (4, ⟨T.tdesc 0 0 0 true 0 1 1, []⟩), (5, ⟨T.tdesc used 0 0 false 0 1 1, []⟩)]
theorem witness_TileResults_ready : T.mayRun (T.tiles 1) ∧ (T.tiles 1).core.tileRun = none := ⟨T.mat_ready (by decide +kernel), by decide +kernel⟩
theorem witness_TileResults_mismatch : tileAdd false 0 0 1 0 (T.tiles 1) = .mismatch := by decide +kernel
/-- What a result resolved at issue asks: the worst case finds its units, and the outcome too. -/
def T.fits (s : State) (d : BitVec 4) (z : TRes) : Bool :=
  let t := s.tdesc d
  let room := s.core.poolFree + t.units
  match z with
  | .val v raw pre fl => (t.pol != 0 || (match v with | .dense _ => true | .fact .. => false)) && worstUnits t (match v with | .fact .. => true | .dense _ => false) ≤ room &&
      (match outcome t 0 v raw pre fl with | .ok o => decide (o.units t ≤ room) | .error _ => false)
  | .mismatch => false
theorem witness_TileResults_dense : T.fits (T.tiles 191) 0 (tileAdd false 0 0 0 1 (T.tiles 191)) = true ∧ (T.tiles 191).core.engM.view.tol = 0 := by decide +kernel
theorem witness_TileResults_full : let s := T.tiles 192
    (match tileXp 0 0 s with | .val (.dense _) _ _ _ => decide (s.core.poolFree + (s.tdesc 0).units < worstUnits (s.tdesc 0) false) | _ => false) = true := by decide +kernel
/-- What a factored result under the trap policy comes to: nothing, an overflow of this rank, or units that are there or not. -/
def T.traps (s : State) (d : BitVec 4) (z : TRes) : Option (Nat ⊕ Bool) :=
  let t := s.tdesc d
  match z with
  | .val (.fact u w) raw pre fl => if t.pol ≠ 0 then none else
      match outcome t 0 (.fact u w) raw pre fl with
      | .error k => some (.inl k)
      | .ok o => some (.inr (decide (o.units t ≤ s.core.poolFree + t.units)))
  | _ => none
theorem witness_TileResults_runs : T.traps (T.tiles 191) 3 (tileXp 3 3 (T.tiles 191)) = some (.inr true) ∧ (T.tiles 191).core.tileRun = none := by decide +kernel
theorem witness_TileResults_overflows : T.traps (T.tiles 1) 3 (tileAdd false 3 3 3 0 (T.tiles 1)) = some (.inl 2) := by decide +kernel
theorem witness_TileResults_exhausts : T.traps (T.tiles 192) 4 (tileXp 4 3 (T.tiles 192)) = some (.inr false) := by decide +kernel
def T.running (i : Instr) (busy : Bool) : State := (T.core (T.tiles 191) fun c => { c with tileRun := some ⟨⟨0, 0, [], []⟩, i, busy⟩ }).mapEng .M fun g => { g with begun := true }
theorem witness_TileResults_ends : let s := T.running (.txp Sync.none 3 3) false
    T.mayRun s := T.mat_ready (by decide +kernel)
theorem witness_TileResults_chk : let s := T.running (.tconf Sync.none 3 2 true) false
    T.mayRun s ∧ (s.tdesc 3).rank ≠ 0 := ⟨T.mat_ready (by decide +kernel), by decide +kernel⟩
theorem witness_TileValues : ((T.tiles 1).tdesc 0).fact = false ∧ ((T.tiles 1).tdesc 0).rank ≠ 0 ∧
    ((T.tiles 1).tile 0).elems.length = ((T.tiles 1).tdesc 0).rows * ((T.tiles 1).tdesc 0).cols ∧ ((T.tiles 1).tdesc 0).rows = ((T.tiles 1).tdesc 0).cols := by decide +kernel
/-- What TCONF accepts. -/
def T.accepts (x : Nat) : Bool :=
  bits x 63 56 == 0 && bits x 13 0 == 0 && 1 ≤ bits x 20 14 && bits x 20 14 ≤ 64 && 1 ≤ bits x 27 21 && bits x 27 21 ≤ 64 && 1 ≤ bits x 39 34 && bits x 39 34 ≤ 32 &&
    (if x.testBit 33 then bits x 32 28 ≤ 2 else isF (bits x 32 28) || isI (bits x 32 28) || isPacked (bits x 32 28))
theorem witness_TileAccess_descriptors : T.accepts ((T.tiles 1).x .M 2).toNat = true ∧ T.accepts ((T.tiles 1).x .M 3).toNat = false := by decide +kernel
theorem witness_TileAccess_tst : ((T.tiles 1).tdesc 4).fact = true ∧ ((T.tiles 1).tdesc 4).rank = 0 := by decide +kernel
theorem witness_TileAccess_tmma : isF ((T.tiles 1).tdesc 0).etype = true ∧ entB ((T.tiles 1).fmtEntry 0) = 1 ∧ entB ((T.mat 0x09480000 [] []).fmtEntry 0) ≠ 1 ∧
    entB ((T.mat 0x09480000 [] []).fmtEntry 0) ≠ 2 := by decide +kernel

/-! ## Witnesses: arrivals, transfers, collectives, packets, jobs -/

def T.barv (h : Word) : State := let s := T.base .S [(7, h)]; { s with net := { s.net with jobs := [(0, ⟨[0, 1], 0⟩)] } }
def T.scalarOk (s : State) : Bool := decide (s.gate .S = .go) && s.core.canPop .S [] && decide ((s.eng .S).pending ≤ 16) && s.older .S (s.pos .S)
theorem T.scalar_ready {s : State} (h : T.scalarOk s = true) : Ready s .S [] 0 ∧ s.older .S (s.pos .S) = true := by
  simp only [T.scalarOk, Bool.and_eq_true, decide_eq_true_eq] at h
  exact ⟨⟨h.1.1.1, h.1.1.2, h.1.2⟩, h.2⟩
theorem witness_ArrivalsAndTransfers_waits : let s := T.olderAt .S
    (Ready s .S [] 0 ∧ s.older .S (s.pos .S) = true) ∧ s.core.olderAny (s.pos .S) = true := ⟨T.scalar_ready (by decide +kernel), by decide +kernel⟩
theorem witness_ArrivalsAndTransfers_dropped : let s := T.barv (1 <<< 34)
    (Ready s .S [] 0 ∧ s.older .S (s.pos .S) = true) ∧ s.core.olderAny (s.pos .S) = false ∧ s.crewSends (s.pos .S) = false ∧ dropped s s.core.id (s.x .S 7).toNat = true :=
  ⟨T.scalar_ready (by decide +kernel), by decide +kernel⟩
theorem witness_ArrivalsAndTransfers_inside : let s := T.barv 0x7FF
    (Ready s .S [] 0 ∧ s.older .S (s.pos .S) = true) ∧ dropped s s.core.id (s.x .S 7).toNat = false ∧ destPkg (handleDest s.core.id (s.x .S 7).toNat) = Config.pkgpos :=
  ⟨T.scalar_ready (by decide +kernel), by decide +kernel⟩
/-- Port 31 leads to package 1. -/
def T.route (s : State) : State := { s with net := { s.net with ports := [(31, { Port.reset with service := true, lanes := 3, neighbour := 1 })] } }
theorem witness_ArrivalsAndTransfers_outside : let s := T.barv (2 ^ 33 + 2 ^ 20)
    dropped s s.core.id (s.x .S 7).toNat = false ∧ destPkg (handleDest s.core.id (s.x .S 7).toNat) ≠ Config.pkgpos ∧ routePort s (coreTag s s.core.id) 1 = none := by decide +kernel
theorem witness_ArrivalsAndTransfers_counts : (1 < max 1 2 ∧ max 1 0 ≤ 1) ∧ ∀ e ∈ (T.barv 0).core.armed, ¬(e.2.obj = 0 ∧ e.2.phase = !(0 : Word).getLsbD 63) := by decide +kernel
theorem witness_ArrivalsAndTransfers_element : let s := T.base .S []
    let e : Elem := ⟨0, 0x17FFFC, [1, 2, 3, 4], 1, false, 0, 0, 0, 1, false, false, false⟩
    delivers s e.core e.tag = true ∧ (∀ j, j < e.bytes.length → (s.coreAt e.core).inQueue (e.off + j) = false) ∧ delivers s 383 0 = false :=
  ⟨by decide +kernel, fun j _ => rfl, by decide +kernel⟩
theorem witness_ArrivalsAndTransfers_acks : let x : Xfer := ⟨1, 0, 0, 0, 0, some 5, some ⟨0, 0, [], []⟩, none, 0⟩
    [x].find? (fun y => y.id == 1) = some x ∧ x.coll = none ∧ [x].find? (fun y => y.id == 2) = none ∧ x.since + 10000000 ≤ 10000000 := by decide

/-- A descriptor of an all-gather of two floats over one axis, objects 5 and 6. -/
def T.cbytes : List Byte := [1, 0, 0, 0, 9, 0, 0, 0, 2, 0, 1, 0, 1, 0, 1, 0, 0, 0xFF, 0xFF, 0xFF, 0, 0, 0, 0, 0xFF, 0xFF, 0xFF, 0xFF, 0, 0, 0, 0] ++
  toBytes 8 0x1000 ++ toBytes 8 0x17FFF8 ++ toBytes 8 0x60005 ++ List.replicate 8 0
/-- A crew of job 9 over packages 0 and 1, with the descriptor at 0x10000 and the rank list at 0x10040. -/
def T.job : State :=
  let s := (T.map (T.base .S [(1, 0x10000), (2, 0x10040), (3, 0xF000000000000000)]) 7)
  let s := (s.setMemBytes 0x10000 T.cbytes).setMemBytes 0x10040 ([1, 0, 1, 0, 2, 0, 0, 0, 0, 0, 0, 0, 0, 0, 0, 0] ++ [0, 0, 0, 0, 1, 0, 0, 0])
  { s with ctxs := s.ctxs.map fun c => (c.1, { c.2 with job := 9 }), net := { s.net with jobs := [(9, ⟨[0, 1], 0x8000⟩)] } }
theorem witness_Collectives_pointer : (Ready T.job .S [] 0 ∧ T.job.older .S (T.job.pos .S) = true) ∧ T.job.doneTo (T.job.pos .S) = true ∧
    T.job.crewSends (T.job.pos .S) = false ∧ (T.job.eng .S).kept = none ∧ window (T.job.x .S 3) = .own 0 0 :=
  ⟨T.scalar_ready (by decide +kernel), by decide +kernel, by decide +kernel, by decide +kernel, by decide +kernel⟩
theorem witness_Collectives_asks : T.checks T.job .S ((collPtr T.job (T.job.x .S 1) 64).bind fun _ => collPtr T.job (T.job.x .S 2) 16) = true ∧
    T.job.core.colls.length < 16 ∧ T.job.core.collAsk = none := by decide +kernel
def T.asked (list : Nat) : State := T.core T.job fun c => { c with collAsk := some ⟨⟨0, 0, [], []⟩, 0x10000, list⟩ }
theorem witness_Collectives_refuses : (T.asked 0x10100).older .S ⟨0, 0, [], []⟩ = true ∧ (rankList (T.asked 0x10100) 0x10100 0).isNone = true := by decide +kernel
/-- The all-gather as accepted, its peer heard from or not. -/
def T.coll (ready : List ReadyMsg) (step flips : Nat) : Coll := ⟨0, 9, T.cbytes, 0x10040, [2], [0, 1], step, flips, [], ready, 0, 0, 0, 0, false, [], []⟩
/-- A ready message of package 1: buffer offset 0x2000, object 5. -/
def T.heard : ReadyMsg := ⟨0, { Packet.blank 9 3 5 0 512 with off := 0x2000, acc := 1, obj := 5, ctag := 9, last := true }⟩
theorem witness_Collectives_accepts : let s := T.asked 0x10040
    let c := CDesc.of ((ptrRead s 0x10000 64).getD [])
    s.older .S ⟨0, 0, [], []⟩ = true ∧ c = CDesc.of T.cbytes ∧ c.recv ≠ c.done ∧ (match rankList (s.mapCore fun x => { x with collAsk := none }) 0x10040 c.slot with
      | some (ext, ranks, _) => (match derive c ext ranks with
          | some x => bufOk s.core c.src x.bytesA && bufOk s.core c.dst x.bytesB
          | none => false)
      | none => false) = true := by decide +kernel
def T.colls (l : List Coll) : State := T.core T.job fun c => { c with colls := l }
theorem witness_Collectives_steps : (T.colls [T.coll [T.heard] 0 0]).collSends.isSome = true ∧
    routePort (T.colls [T.coll [T.heard] 0 0]) 9 1 = none ∧ routePort (T.route (T.colls [])) 9 1 = some 31 := by decide +kernel
theorem witness_Collectives_ends : (T.colls [T.coll [] 1 1]).collOver.isSome = true ∧ (T.colls [{ T.coll [] 0 0 with status := 8 }]).collOver.isSome = true := by decide +kernel
theorem witness_Collectives_aborts : let s := { T.colls [T.coll [] 0 0] with podtime := 50000000 }
    (s.core.colls.find? (fun j => j.tag == 9 && !j.frozen)).isSome = true ∧
      (s.core.colls.find? (fun j => j.status == 0 && !j.frozen && (j.waiting && decide (j.since + 50000000 ≤ s.podtime) ||
        s.net.xfers.any fun x => x.coll == some j.id && x.core == s.core.id && decide (x.since + 50000000 ≤ s.podtime)))).isSome = true ∧ s.timersStop (coreTag s s.core.id) = false := by decide +kernel
/-- A packet of job 9 from package 1. -/
def T.packet (kind acc dest : Nat) : Packet := ⟨9, kind, 2, dest, 512, 0, 0x1000, acc, false, 5, none, true, 9, 0, false, [1, 2, 3, 4]⟩
theorem witness_Collectives_ready : (T.packet 3 1 0).kind = 3 ∧ (T.packet 3 1 0).acc = 1 ∧
    T.job.cores.all (fun c => c.colls.all fun j => !j.awaits 9 1) = true ∧ T.job.switchingTag 9 = false ∧ (T.job.net.held.filter fun h => h.packet.tag == 9).length < 64 := by decide +kernel
theorem witness_Collectives_retry : (T.colls [T.coll [] 0 0]).owesReady.bind Coll.ex? |>.map (·.senders) |> (· = some [1]) := by decide +kernel

theorem witness_Packets_malformed : let p := T.packet 6 0 0
    let s := T.route T.job
    (Tab.get Port.reset s.net.ports 31).service = true ∧ 8 ≤ 8 ∧ 5 < p.kind := by decide +kernel
theorem witness_Packets_enters : let s := T.route T.job
    (Tab.get Port.reset s.net.ports 31).service = true ∧ (∃ j ∈ s.net.jobs, j.1 = 9) ∧ s.gang.gtag ≠ 9 ∧ s.gang.parked? 9 = none ∧ s.bufFits 31 (T.packet 1 0 512) = true ∧
      destPkg (T.packet 1 0 512).dest ≠ Config.pkgpos ∧ s.bufFits 31 (T.packet 4 0 0) = true ∧ destPkg (T.packet 4 0 0).dest = Config.pkgpos ∧
      Tab.get [] (Tab.get Port.reset s.net.ports 31).bufs 2 = [] := by decide +kernel
def T.buffered (p : Packet) : State := (T.route T.job).enterBuf 31 p
theorem witness_Packets_advances : Tab.get [] (Tab.get Port.reset (T.buffered (T.packet 1 0 0)).net.ports 31).bufs 2 = [T.packet 1 0 0] ∧
    delivers (T.buffered (T.packet 1 0 0)) (destCore 0) 9 = true ∧ destPkg (T.packet 1 0 512).dest ≠ Config.pkgpos := by decide +kernel
/-- Toward package 1 through port 31 with room beyond it, and with none, when the next router holds as much of the job as it may. -/
theorem witness_Packets_credits : let p := T.packet 1 0 512
    let x : Port := { Port.reset with service := true, lanes := 3, neighbour := 1, ahead := [(2, 9, 0x8000)] }
    let s : State := { T.route T.job with net := { (T.route T.job).net with ports := [(31, x)] } }
    routePort (T.route T.job) 9 1 = some 31 ∧ (T.route T.job).canEmit 31 p = true ∧ routePort s 9 1 = some 31 ∧ s.canEmit 31 p = false ∧
      x.ahead.find? (fun a => a.1 == 2) = some (2, 9, 0x8000) ∧ s.net.wait = [] := by decide +kernel
theorem witness_Packets_fails : Out.link 31 ∉ T.job.health.outs := by decide +kernel

/-- The set of packages 0 and 1 at 0x80000. -/
def T.bind (job : Nat) : State :=
  let s := (T.base .S []).setMemBytes 0x80000 [3]
  { s with ctxs := s.ctxs.map fun c => (c.1, { c.2 with job := job }), net := { s.net with jarg := 0x80000 } }
theorem witness_JobsAndObjects_bind : let v : Word := 0x8010000100000009
    let s := T.bind 0
    (s.health.stage = 6 ∧ 0 < 33 ∧ v.getLsbD 63 = true ∧ bits v.toNat 55 52 = 1) ∧ (s.ctx? 1).map (·.job) = some 0 ∧ 0x80000 % 64 = 0 ∧ 0x80000 + 1024 ≤ 2 ^ 52 ∧ (∀ j ∈ s.net.jobs, j.1 ≠ 9) ∧
      Config.pkgpos ∈ bitmapPkgs s 0x80000 ∧ s.net.jobs.find? (fun j => j.1 == 9) = none ∧ bits (0x8010000100000000 : Word).toNat 15 0 = 0 := by decide +kernel
theorem witness_JobsAndObjects_unbind : bits (0x8020000100000009 : Word).toNat 55 52 = 2 ∧ ((T.bind 9).ctx? 1).map (·.job) = some 9 ∧ ((T.bind 0).ctx? 1).map (·.job) = some 0 := by decide +kernel
theorem witness_JobsAndObjects_load_refused : let s := T.base .S []
    (match s.ctx? 1 with
      | some x => x.fn == 0 && (match loadObject s 1 x 0 with | .error _ => true | .ok _ => false)
      | none => false) = true := by decide +kernel
def T.isOkE {ε α : Type} (x : Except ε α) : Bool := match x with | .ok _ => true | .error _ => false
/-- The SHA-384 of the object's bytes from 128. -/
def T.digest : List Byte := [209, 226, 15, 167, 45, 87, 41, 94, 7, 160, 238, 104, 41, 115, 11, 158, 122, 147, 239, 148, 21, 250, 31, 196, 170, 106, 192, 214, 188, 35, 45, 103, 59, 90, 79, 82, 160, 26, 122, 97, 69, 28, 112, 25, 134, 201, 131, 227]
/-- A load object of one section that holds one procedure of four words. -/
def T.object : List Byte := [79, 81, 79, 1, 2, 0, 0, 0, 1, 0, 0, 0, 1] ++ List.replicate 11 0 ++ [144, 0, 0, 0, 176, 0, 0, 0, 192, 0, 0, 0, 192, 0, 0, 0, 192, 0, 0, 0, 16, 0, 0, 0, 208] ++ List.replicate 7 0 ++ [208] ++ List.replicate 23 0 ++ T.digest ++
  [68, 8, 2, 0, 64, 8, 21, 0, 70, 8, 20, 0, 0, 0, 74, 0, 1, 0, 0, 0, 1, 0, 0, 0, 4, 0, 0, 0, 128, 0, 0, 0, 16, 0, 0, 0, 16] ++ List.replicate 11 0 ++ [7, 0, 0, 0, 0, 0, 3, 1, 0, 0, 0, 0, 16, 0, 0, 0, 0, 46, 116, 101, 120, 116, 0, 99, 108, 97, 109, 112, 115, 117, 109, 0]
/-- The object at 0x30000, its request at 0x10000: data at 0x40000, arena of 1 MiB at 0x1000000, report at 0x50000. -/
def T.loads : State :=
  let s := ((T.map (T.base .S []) 7).setMemBytes 0x500078 [0]).setFunc 0 { Func.reset with larg := 0x10000 }
  { s with mem := putRun (putRun s.mem 0x30000 T.object) 0x10000 (toBytes 8 0x30000 ++ toBytes 8 0x40000 ++ toBytes 8 0x1000000 ++ toBytes 8 0x100000 ++ toBytes 8 0x50000) }
theorem witness_JobsAndObjects_load :
    (match T.loads.ctx? 1 with
      | some x => x.fn == 0 && T.isOkE (loadObject T.loads 1 x 0x10000)
      | none => false) = true := by decide +kernel
theorem witness_JobsAndObjects_begins : ((T.base .S []).func 0).lbusy = none := by decide +kernel
theorem witness_JobsAndObjects_unload : let s := T.loaded (T.base .S [])
    (∃ l ∈ (T.launched s (T.launchOf 1 0 0)).hub.launches, l.ctx = 1) ∧ (∀ l ∈ s.hub.launches, l.ctx ≠ 1) ∧
      (s.ctx? 1).map (fun x => ((x.objs.find? fun o => o.handle == 1).isSome, x.objs.all fun o => o.handle != 2)) = some (true, true) := by decide +kernel

/-! ## Witnesses: leave, migration, easy-all -/

def T.gov (g : Gov) : State := let s := T.base .S []; { s with hub := { s.hub with gov := g } }
theorem witness_LeaveAndMigration_grant : let g : Gov := ⟨400, [397], [(0, 383)], [], []⟩
    (T.gov g).hub.gov.asks = [(0, 383)] ∧ 100 * (g.samples.sum + 3 * ((0 : Int) + 1) * max 1 g.samples.length) ≤ (if g.hot = [] then 100 else 60) * (g.limit : Int) * max 1 g.samples.length ∧
      ¬100 * ((398 : Int) + 3 * (0 + 1) * 1) ≤ 100 * (400 : Int) * 1 := by decide +kernel
theorem witness_LeaveAndMigration_idle : let s := T.core (T.base .M []) fun c => { c with idle := 4096 }
    s.core.leave = .held ∧ 4096 ≤ s.core.idle := by decide +kernel
theorem witness_LeaveAndMigration_limit : (T.base .S []).health.pcie = true ∧ (T.base .S []).health.sec.testBit 0 = false := by decide +kernel
/-- A movement of one 64 KiB page of context 1 at 0x20000, with this list of free pages. -/
def T.migrates (free : List Nat) : State :=
  let s := T.core (T.map (T.base .W []) 7) fun c => { c with copies := [⟨⟨0, 0, [], []⟩, .mig, [], [(0x20000, 0x20000, 16)], 1⟩] }
  { s with health := { s.health with free2 := free } }
theorem witness_LeaveAndMigration_full : ((T.migrates []).core.copies.find? (fun x => !x.pages.isEmpty)).map (·.pages) = some [(0x20000, 0x20000, 16)] ∧ (T.migrates []).core.crew.isSome = true ∧
    targetRun ((T.migrates []).health.free (1 == 1)) (2 ^ (16 - 16)) = none := by decide +kernel
theorem witness_LeaveAndMigration_moves : targetRun ((T.migrates [0x90000]).health.free (1 == 1)) (2 ^ (16 - 16)) = some 0x90000 ∧ 16 ≤ 16 ∧ 0x20000 + 2 ^ 16 ≤ 0x90000 := by decide +kernel

def T.gang (g : Gang) : State := { T.job with gang := g, podtime := 1000000 }
theorem witness_EasyAll_command : T.job.health.stage = 6 ∧ (0x8010000000000009 : Word).getLsbD 63 = true ∧ bits (0x8010000000000009 : Word).toNat 15 0 = 9 ∧
    bits (0x8010000000000009 : Word).toNat 55 52 = 1 ∧ bits (0x8020000000000009 : Word).toNat 55 52 = 2 ∧ bits (0x8030000000000009 : Word).toNat 55 52 = 3 := by decide +kernel
theorem witness_EasyAll_unbound : ¬∃ c ∈ (T.gang Gang.reset).ctxs, c.2.job = 8 := by decide +kernel
theorem witness_EasyAll_bound : (∃ c ∈ (T.gang Gang.reset).ctxs, c.2.job = 9) ∧ (1049999 : Word).toNat < 1000000 + 50000 ∧ 1000000 + 50000 ≤ (1050000 : Word).toNat := by decide +kernel
/-- Where basins may lie is a fixed value of the package, so that a basin at 0x10000 lies in the first tier is a premise. -/
theorem witness_EasyAll_out (h : Config.firstTier 0x10000 = true) : let g : Gang := { Gang.reset with time := 1050000, base := 0x10000, size := 256 }
    Config.firstTier g.base = true ∧ 256 ≤ g.size ∧ g.park = [] ∧ ¬(g.state = 1 ∨ g.state = 2 ∨ g.state = 4 ∨ g.state = 5) ∧ g.parked? 9 = none := by
  refine ⟨h, ?_⟩
  decide +kernel
/-- Job 9 parked in entry 7. -/
def T.parked (state : Nat) : Gang := { Gang.reset with time := 1500000, gtag := 9, park := [(7, { Park.reset with state := state, tag := 9, base := 0x10000, size := 256 })] }
theorem witness_EasyAll_in : ((T.parked 3).parked? 9).isSome = true ∧ ((T.parked 6).parked? 9).map (·.2.state) = some 6 ∧ 1000000 + 500000 ≤ (T.parked 3).time.toNat ∧ Gang.reset.parked? 9 = none := by decide +kernel
theorem witness_EasyAll_discard : let g : Gang := { Gang.reset with state := 1, gtag := 9 }
    g.state = 1 ∧ g.gtag = 9 ∧ ¬(Gang.reset.state = 1 ∨ Gang.reset.state = 2 ∨ Gang.reset.state = 4 ∨ Gang.reset.state = 5) := by decide
theorem witness_EasyAll_time : let g : Gang := { Gang.reset with state := 1, gtag := 9, at_ := 1000000 }
    g.at_ ≤ (T.gang g).podtime ∧ g.parked? g.gtag = none ∧ coreTag (T.gang g) 0 = 9 := by decide +kernel
/-- An operation in progress on the job's one link. -/
def T.out (ended : List Nat) : State := T.route (T.gang { Gang.reset with state := 2, gtag := 9, at_ := 1000, inset := [31], ended := ended, obase := 0x100000, osize := 256 })
theorem witness_EasyAll_marker : 31 ∈ (T.out []).gang.inset ∧ 31 ∉ (T.out []).gang.sent ∧ ((T.out []).port 31).service = true ∧ 31 ∉ (T.out []).gang.ended ∧
    (T.out []).canEmit 31 ((T.out []).marker 31) = true ∧
    (({ T.out [] with net := { (T.out []).net with ports := [] } } : State).port 31).service = false := by decide +kernel
theorem witness_EasyAll_complete : let s := T.core (T.out [31]) fun c => { c with crew := none }
    let s : State := { s with gang := { s.gang with sent := [31] } }
    s.gang.state = 2 ∧ (∀ p ∈ s.gang.inset, p ∈ s.gang.ended ∧ p ∈ s.gang.sent) ∧ s.cores.all (fun c => coreTag s c.id != s.gang.gtag) = true := by decide +kernel
theorem witness_EasyAll_timeout : let g := { (T.out []).gang with at_ := 0 }
    g.inset.filter (fun p => !g.ended.contains p) = [31] ∧ 0 + 1000000 ≤ (T.out []).podtime ∧ g.parked? g.gtag = none ∧ g.cause = 0 := by decide +kernel
theorem witness_EasyAll_resume : let g := { T.parked 3 with state := 4, at_ := 1000000 }
    (g.parked? g.gtag).map (fun p => ((T.gang g).returning p.2 == [] && p.2.frozen == [] && (T.gang g).basinCaps p.2 == [])) = some true ∧ g.at_ ≤ (T.gang g).podtime := by decide +kernel
theorem witness_EasyAll_resumed : let g := { T.parked 3 with state := 5 }
    (g.parked? g.gtag).isSome = true ∧ g.enter = [] := by decide +kernel

/-! ## Witnesses: boot, training, errors. An image that passes rests on signature checks whose outcome no rule computes, so the witness names the failing one -/

theorem witness_BootAndFirmware_bad : State.reset.health.stage = 0 ∧ ({ Health.reset with stage := 1 } : Health).stage = 1 ∧ imageFail State.reset.health.otp (State.reset.health.drive.answers && imageWhole State.reset.health.drive.image) State.reset.health.drive.image = 1 := by decide +kernel
/-- A good image, whatever the fuses and the signature checks make of it. -/
theorem witness_BootAndFirmware_good (img : List Byte) (otp : Otp) (h : imageFail otp (imageWhole img) img = 0) :
    let s : State := { State.reset with health := { Health.reset with stage := 1, drive := ⟨true, img, [], [], [], none⟩, otp := otp } }
    s.health.stage = 1 ∧ imageFail s.health.otp (s.health.drive.answers && imageWhole s.health.drive.image) s.health.drive.image = 0 ∧ s.health.mregs.length = 8 :=
  ⟨rfl, h, rfl⟩
theorem witness_BootAndFirmware_recovery : let h : Health := { Health.reset with stage := 2, pcie := true }
    h.stage = 2 ∧ h.pcie = true ∧ h.sec.testBit 0 = false ∧ (0x8000000000001004 : Word).getLsbD 63 = true ∧
      imageFail h.otp (decide (0x1000 = 4096 + imgNat h.fwsram 12 4)) [] = 2 := by decide +kernel
theorem witness_BootAndFirmware_running : let h : Health := { Health.reset with stage := 3, aliases := 1 }
    (3 ≤ h.stage ∧ h.stage ≤ 6) ∧ imageFail h.otp (h.drive.answers && decide (([] : List Byte).length = 4096 + field [] 12 4)) [] = 1 ∧ h.drive.writing = none ∧ h.otp.killed = false ∧ h.otp.leaf < 2 ^ 15 ∧ h.aliases = 1 := by decide +kernel

theorem witness_BootAndFirmware_writes : ({ Health.reset with drive := { Health.reset.drive with writing := some [] } } : Health).drive.writing = some [] := rfl

theorem witness_PowerUpAndTraining_steps : let h : Health := { Health.reset with stage := 3 }
    h.stage = 3 ∧ h.rails ≠ 0xFF ∧ h.since + 50000000 ≤ 50000000 ∧ ¬h.since + 50000000 ≤ 49999999 := by decide
theorem witness_PowerUpAndTraining_clocks : let h : Health := { Health.reset with stage := 3, rails := 0xFF, clkctl := 1 }
    h.rails = 0xFF ∧ h.clkctl = 1 ∧ h.clkctl.testBit 0 = true ∧ h.clkctl.testBit 63 = false ∧ h.since + 1000000 ≤ 1000000 := by decide
theorem witness_PowerUpAndTraining_dies : let h : Health := { Health.reset with stage := 3, rails := 0xFF, clkctl := 2 ^ 63 + 1, dierst := 3 }
    h.clkctl.testBit 63 = true ∧ h.diestat.testBit 0 = false ∧ h.dierst.testBit 1 = true ∧ Tab.get 0 h.dsince 1 + 10000000 ≤ 10000000 ∧ ¬Tab.get 0 h.dsince 1 + 10000000 ≤ 9999999 ∧
      (1 : Word).toNat % 32 ≤ 1 ∧ 1 < (2 : Word).toNat % 32 ∧ ∀ k, 1 = k + 1 → Out.die k ∉ h.outs := by
  refine ⟨by decide, by decide, by decide, by decide, by decide, by decide, by decide, fun k _ => by simp [Health.reset]⟩
theorem witness_PowerUpAndTraining_sram : let h : Health := { Health.reset with stage := 3, rails := 0xFF, clkctl := 2 ^ 63 + 1, diestat := 31, sram := 1 }
    h.diestat.testBit 0 = true ∧ (∀ k, k < 4 → h.diestat.testBit (k + 1) = true ∨ Out.die k ∈ h.outs) ∧ h.sram = 1 ∧ h.rails = 0xFF ∧ h.clkctl.testBit 63 = true ∧
      h.since + 20000000 ≤ 20000000 ∧ ∃ g, g < 12 ∧ Out.group g ∉ h.outs :=
  ⟨by decide, by decide, by decide, by decide, by decide, by decide, 11, by decide, by decide⟩
theorem witness_PowerUpAndTraining_controller : let h : Health := { Health.reset with stage := 4, mctl := [(63, 0x1F00)] }
    63 < 64 ∧ Tab.get 0 h.mctl 63 = 0x1F00 ∧ (Tab.get 0 h.mstat 63).testBit 63 = false ∧ deviceUnit 63 ∉ h.outs ∧ Tab.get 0 h.msince 63 + 100000000 ≤ 100000000 := by decide +kernel
theorem witness_PowerUpAndTraining_mapped : let h : Health := { Health.reset with stage := 4, mstat := (List.range 64).map fun k => (k, 2 ^ 63 + 2 ^ 62) }
    (∀ k, k < 64 → (Tab.get 0 h.mstat k).testBit 63 = true ∨ deviceUnit k ∈ h.outs) ∧ ∃ k, k < 64 ∧ (Tab.get 0 Health.reset.mstat k).testBit 63 = false ∧ deviceUnit k ∉ Health.reset.outs :=
  ⟨by decide +kernel, 63, by decide, by decide +kernel, by decide +kernel⟩
theorem witness_PowerUpAndTraining_untrained : (∃ q, q < 32 ∧ (State.reset.port q).service = false ∧ Out.link q ∉ State.reset.health.outs) ∧
    ∀ q, q < 32 → (State.reset.port q).service = true ∨ Out.link q ∈ ({ Health.reset with outs := (List.range 32).map Out.link } : Health).outs :=
  ⟨⟨31, by decide, by decide, by decide⟩, by decide⟩
theorem witness_PowerUpAndTraining_port : let h : Health := { Health.reset with stage := 5, portctl := [(31, 0x103)] }
    h.stage = 5 ∧ 31 < 32 ∧ Out.link 31 ∉ h.outs ∧ Port.reset.state = 0 ∧ (1 : BitVec 2).toNat &&& (Tab.get 0 h.portctl 31 % 4) ≠ 0 ∧ (Tab.get 0 h.portctl 31).testBit 8 = true ∧
      Tab.get 0 h.portctl 31 % 4 ≠ 0 ∧ Tab.get 0 h.psince 31 + 500000000 ≤ 500000000 ∧ 499999999 < Tab.get 0 h.psince 31 + 500000000 := by decide +kernel
theorem witness_PowerUpAndTraining_lanes : ({ Port.reset with lanes := 1 } : Port).lanes ≠ 0 ∧ ((BitVec.ofNat 16 (Config.topology 0)).toNat < 2 ^ 16) := ⟨by decide, BitVec.isLt _⟩

theorem witness_ErrorsAndSecurity_core : let h : Health := { Health.reset with corr := List.replicate 15 (383, 1) }
    destCore 0x1DF < 384 ∧ 15 ≤ ((h.corr.filter fun e => 2 < e.2 + 86400000000000).filter fun e => e.1 == destCore 0x1DF).length ∧ Out.core (destCore 0x1DF) ∉ h.outs := by decide +kernel
theorem witness_ErrorsAndSecurity_page : 0x12345 / 0x10000 * 0x10000 ∉ (T.base .S []).health.drive.retired := by decide +kernel
theorem witness_ErrorsAndSecurity_lists : (T.base .S []).health.pcie = true ∧ (T.base .S []).health.sec.testBit 0 = false ∧ bits (0x9000000000000001 : Word).toNat 61 60 = 1 ∧
    bits (0xE000000000000001 : Word).toNat 61 60 = 2 ∧ (0xE000000000000001 : Word).getLsbD 63 = true := by decide +kernel
theorem witness_ErrorsAndSecurity_plugin : let s := (T.saved 0).setFunc 0 { Func.reset with plugin := 1 }
    let s : State := { s with ctxs := s.ctxs.map fun c => (c.1, { c.2 with slots := c.2.slots.map fun e => (e.1, { e.2 with plug := true }) }) }
    (s.func 0).plugin = 1 ∧ ∃ c ∈ s.ctxs, c.2.fn = 0 ∧ ∃ e ∈ c.2.slots, e.2.plug = true ∧ e.2.since + 100000 ≤ 100000 := by decide +kernel
theorem witness_ErrorsAndSecurity_link : 31 < 32 ∧ Out.link 31 ∉ (T.base .S []).health.outs ∧ (T.base .S []).gang.busy = false ∧ (T.gang { Gang.reset with state := 1 }).gang.busy = true := by decide +kernel
theorem witness_ContextCommands_loader : let s := T.loads.setFunc 0 { Func.reset with larg := 0x10000, lbusy := some 0x8010000100000000 }
    (s.func 0).lbusy = some 0x8010000100000000 ∧ s.setFunc 0 { s.func 0 with lbusy := none } = T.loads ∧ (s.func 0).larg.toNat = 0x10000 ∧
      (match T.loads.ctx? 1 with
        | some x => x.fn == 0 && T.isOkE (loadObject T.loads 1 x 0x10000)
        | none => false) = true := ⟨by decide +kernel, by decide +kernel, by decide +kernel, witness_JobsAndObjects_load⟩

/-! ## Witnesses of further clauses -/

/-- A module that an alarm has stopped takes no patrol scrub. -/
theorem witness_StepRunsWord_stopped : let s := { State.reset with agenda := [.event .patrolScrub], health := { State.reset.health with sec := 1 } }
    s.agenda = [.event .patrolScrub] ∧ encode .patrolScrub = none ∧ s.health.sec.testBit 0 = true ∧ Instr.patrolScrub ≠ .powerOff ∧ Instr.patrolScrub ≠ .firmwareIsolationViolation ∧
      ∀ k, Instr.patrolScrub ≠ .securityAlarm k := ⟨rfl, rfl, by decide, nofun, nofun, nofun⟩
theorem witness_StepsGoOn : let s := { State.reset with agenda := [.focus 384] }
    s.agenda = [.focus 384] ∧ 384 ≤ 384 ∧ Machine.step s = .fault (.noSuchCore 384) := ⟨rfl, by decide, by rfl⟩
/-- A deprecated word behind no other engine's: the count that reaches its threshold. -/
theorem witness_SyncWords_counts : let s := (T.base .V []).mapEng .V fun g => { g with past := [⟨⟨0, 0, [], []⟩, 0, g.view, true⟩], pc := T.at_ + 4, len := 2 }
    let s := s.setFunc 0 { s.func 0 with depthr := 1 }
    (s.eng .V).past = [⟨⟨0, 0, [], []⟩, 0, (s.eng .V).view, true⟩] ∧ s.older .V ⟨0, 0, [], []⟩ = true ∧ s.core.crew.map (·.ctx) = some 1 ∧ (s.ctx? 1).map (·.depcnt) = some 0 ∧
      (s.func 0).depthr = 1 := by decide +kernel
theorem witness_ControlRegisters_depcnt : let s := T.base .V []
    s.older .V (s.pos .V) = true ∧ (Eng.all.all fun b => b == .V || !s.counts b || s.reached b (s.pos .V)) = true := by decide +kernel
/-- A page of the shape that no TLB has and that a walk finds. -/
def T.pref : State := T.map (T.base .L [(4, 0x20000), (5, 0x10001)]) 7
theorem witness_TileLoads_pref_asks : (Ready T.pref .L [] 0) ∧ (shapeOf 0 (T.pref.x .L 5) none).lines = [(0, 0)] ∧ bits (T.pref.x .L 5).toNat 15 0 = 1 ∧
    window (T.pref.x .L 4) = .global 0x20000 ∧ lookup T.pref [] 0 1 0x20000 = none ∧ (match fullWalk T.pref 1 0x20000 with | .hit e => e.r | _ => false) = true :=
  ⟨⟨by decide +kernel, by decide +kernel, by decide +kernel⟩, by decide +kernel, by decide +kernel, by decide +kernel, by decide +kernel, by decide +kernel⟩
/-- The bytes at a pointer of L that pass their checks. -/
def T.bytesAt (s : State) (ptr : Word) (n : Nat) : List Byte := (List.range n).map fun k =>
  match checkByte s (s.eng .L).got .read ptr false (ptr + BitVec.ofNat 64 k) with | .ok l => s.byteAt l | _ => 0
/-- A chunk of nine one-byte elements, and one whose header names an element size that does not exist. -/
theorem witness_SparseValues_decodes : let s := (T.base .L []).setMemBytes 0x200000 T.chunk
    let b := T.bytesAt s 0x10000 19
    let bit (k : Nat) : Bool := ((b.getD (16 + k / 8) 0).toNat.testBit (k % 8))
    T.isOk (chunkStart s Sync.none false 0x10000 0x17FFF7 9) = true ∧ ¬(field b 4 4 < 16 ∨ 2 < field b 8 1 ∨ field b 9 7 ≠ 0 ∨ field b 0 4 % 2 ^ field b 8 1 ≠ 0) ∧ 1 = 2 ^ field b 8 1 ∧
      field b 0 4 = 9 * 1 ∧ 16 + (9 + 7) / 8 + (List.range 9).countP bit * 1 ≤ field b 4 4 ∧ 9 ≤ (4 * field b 4 4 + 64) * 64 ∧ bit 8 = true ∧ 8 * 1 < min 9 9 := by decide +kernel
theorem witness_SparseValues_header : let s := (T.base .L []).setMemBytes 0x200000 [9, 0, 0, 0, 20, 0, 0, 0, 3]
    T.isOk (chunkStart s Sync.none false 0x10000 0 9) = true ∧ 2 < field (T.bytesAt s 0x10000 16) 8 1 := by decide +kernel
/-- BCOPY.SHD of 4 bytes behind a header whose selector's bit 0 is set. -/
theorem witness_PublishAndCopy_shadow : let s := (T.base .W [(4, 0x10000), (5, 0x10100), (6, 4)]).setMemBytes 0x200000 (toBytes 8 1 ++ toBytes 8 0x10040 ++ toBytes 8 0x10080 ++ toBytes 8 0x20)
    T.checks s .W (checkCopy s (s.eng .W).got (s.x .W 4) (s.x .W 5) (s.x .W 6) .shd) (fun r => r.move.map (·.1) == [Loc.mem 0x200040, .mem 0x200041, .mem 0x200042, .mem 0x200043] ||
      r.move.map (·.2) == [Loc.mem 0x200040, .mem 0x200041, .mem 0x200042, .mem 0x200043]) = true ∧ s.core.olderStore (s.pos .W) 0 = false := by decide +kernel
/-- A SENDT that has begun, with a packet of its core at the injection port or none. -/
def T.sent (wait : List Packet) : State := let s := (T.send 7 1).mapEng .W fun g => { g with begun := true }; { s with net := { s.net with wait := wait } }
theorem witness_SendTile_begun : ((T.sent []).eng .W).begun = true ∧ Ready (T.sent []) .W [] 0 ∧ (T.sent []).sendWaits (T.sent []).core.id = false :=
  ⟨by decide +kernel, ⟨by decide +kernel, by decide +kernel, by decide +kernel⟩, by decide +kernel⟩
theorem witness_ChecksAndWalks_unit_walks : let s := T.unit 0x20000
    (match s.unitWork with | some u => (match unitCheck s u with | .walk p => p == 0x20000 | _ => false) | none => false) = true ∧ s.unitFull = false ∧ s.core.unit.wait = none ∧
      s.core.crew.isSome = true := by decide +kernel
theorem witness_HaltEndsCrew_begins : ((T.base .S []).eng .S).begun = false ∧ (let s := (T.base .S []).mapEng .S fun g => { g with begun := true }
    (s.eng .S).begun = true ∧ Ready s .S [] 0) := ⟨by decide +kernel, by decide +kernel, ⟨by decide +kernel, by decide +kernel, by decide +kernel⟩⟩
theorem witness_DrainsEnd_slices : let s := T.core (T.frozen 0x05 0 false 65536) fun c => { c with freeze := c.freeze.map fun f => { f with slices := true } }
    s.slotReady = true ∧ s.core.crew.isSome = true ∧ s.core.freeze.map (fun f => (f.slices, f.sliceset, f.stuck)) = some (true, false, 65536) := by decide +kernel
theorem witness_QueueRegisters_loader : ((T.queue id).func 0).lbusy = none ∧ (((T.queue id).setFunc 0 { Func.reset with lbusy := some 0 }).func 0).lbusy ≠ none := by decide +kernel
theorem witness_SendTile_waits : let s := T.sent [{ Packet.blank 0 1 0 512 0 with ctag := 3 }]
    let s : State := { s with net := { s.net with xfers := [⟨3, 0, 0, 512, 7, none, some ⟨0, 0, [], []⟩, none, 0⟩] } }
    s.sendWaits s.core.id = true ∧ (s.eng .W).begun = true ∧ s.gate .W = .go := by decide +kernel
theorem witness_SaveSwitchResume_block : let s := T.saved 0
    ((s.ctx? 1).map fun x => let b := readRegion s x.fn (x.save + saveHeader + (s.func 0).carg.toNat * blockBytes) 0x4000
      (imgNat b 0x405 1).testBit 0 && blockOk b) = some true ∧ blockOk [(0, 2), (0x405, 0x80)] = false := by decide +kernel
/-- A range whose tables a die's cache holds, and whose page a word of the crew has been answered. -/
theorem witness_SaveSwitchResume_inval_caches : let e : TlbEntry := ⟨0, 1, 0x10000, 16, 0x200000, true, true, false⟩
    let s := ((T.base .S []).setDie 0 ⟨[], [⟨0, 1, 3, 0, 0x510000⟩], []⟩).mapEng .L fun g => { g with got := [.hit e] }
    (⟨0, 1, 3, 0, 0x510000⟩ : PwcEntry) ∈ (s.die 0).pwc ∧ .hit e ∈ (s.core.eng .L).got ∧ s.core.crew.map (·.ctx) = some 1 ∧ 0 * 2 ^ 21 < 0x20000 ∧ 0x10000 < (0 + 1) * 2 ^ 21 := by decide +kernel
theorem witness_VirtualFunctions_quiet : (T.base .S []).health.sec.testBit 0 = false := by decide +kernel
theorem witness_VectorReductions_float : let s := T.vec [(0, T.desc 0 1 0), (1, T.desc 2 3 16)]
    (∃ rs, Passes s Sync.none 1 [⟨0, true, isFI, fun c => c == 1, true⟩, ⟨1, false, sameClass (s.desc 0).type, fun _ => true, true⟩] rs) ∧ isF (s.desc 0).type = true :=
  ⟨T.passes_of (by decide +kernel), by decide +kernel⟩
theorem witness_VectorReductions_scans : let s := T.vec [(0, T.desc 0 2 0), (1, T.desc 0 2 16)]
    (∃ rs, Passes s Sync.none 1 [vdst 0 isFI, ⟨1, false, sameClass (s.desc 0).type, fun c => c == (s.desc 0).count, true⟩] rs) ∧ CombOp.max ≠ .amax :=
  ⟨T.passes_of (by decide +kernel), by decide⟩
/-- A tile that TST writes whole: dense at the end of home scratchpad, and a factored one's two halves apart. -/
def T.stored (a r : BitVec 4) : Bool :=
  let s := T.mat 0 [(2, 0x17FFFC), (3, 0x100)] [(0, ⟨T.tdesc 0 63 1 false 0 1 1, [0x3F800000]⟩), (3, ⟨T.tdesc 0 1 0 true 0 1 1, [0x40000000, 0x3F800000]⟩)]
  let t := s.tdesc a
  let home (n : BitVec 4) : Bool := bits (s.x .M n.toNat).toNat 63 61 == 0 && decide (s.matAt n 4 0 0 + 4 ≤ 0x180000) && !s.core.inQueue (s.matAt n 4 0 0) && bits (s.x .M n.toNat).toNat 47 32 == 0
  T.matOk s && home r && (t.fact == false || home (r + 1) && s.matAt r 4 0 0 != s.matAt (r + 1) 4 0 0) && (s.tile a).elems.length == (if t.fact then (t.rows + t.cols) * t.rank else t.rows * t.cols)
theorem witness_TileAccess_image : T.stored 0 2 = true ∧ T.stored 3 2 = true := by decide +kernel
/-- TMMA of tile 0, of FP32, by one BF16 column of home scratchpad; and of the factored tile 3. -/
theorem witness_TileAccess_adds : let s := T.tiles 1
    T.matOk s = true ∧ isF (s.tdesc 0).etype = true ∧ (s.tile 0).elems.length = (s.tdesc 0).rows * (s.tdesc 0).cols ∧ isF (s.tdesc 3).etype = true ∧
      (s.tile 3).elems.length = ((s.tdesc 3).rows + (s.tdesc 3).cols) * (s.tdesc 3).rank ∧ entB (s.fmtEntry 0) = 1 := by decide +kernel
theorem witness_TileAccess_column : (T.mat 0x01080000 [(2, 0x17FFFE)] []).matHome 2 2 1 2 := T.mat_home (by decide +kernel)
theorem witness_TileResults_begins : ((T.tiles 1).eng .M).begun = false := by decide +kernel
theorem witness_ArrivalsAndTransfers_turn : let e : Elem := ⟨0, 0x17FFFC, [1, 2, 3, 4], 1, false, 0, 0, 0, 1, false, false, false⟩
    let s : State := { T.base .S [] with net := { (T.base .S []).net with elems := [e] } }
    s.net.elems = e :: [] ∧ s.behind e.req (e.core, bankOf e.off) = false ∧ delivers s e.core e.tag = true := by decide +kernel
theorem witness_ArrivalsAndTransfers_undelivered : let e : Elem := ⟨383, 0, [1, 2, 3, 4], 1, false, 0, 0, 0, 1, false, false, false⟩
    let s : State := { T.base .S [] with net := { (T.base .S []).net with elems := [e] } }
    s.behind e.req (e.core, bankOf e.off) = false ∧ delivers s e.core e.tag = false ∧ e.port = false := by decide +kernel
theorem witness_Collectives_forced : let s := T.core (T.asked 0x10040) fun c => { c with freeze := (T.frozen 0x14 0 false 0).core.freeze.map fun f => { f with pos := ⟨0, 1, [], []⟩ } }
    s.forcedOut = true ∧ s.switching = false ∧ s.older .S ⟨0, 0, [], []⟩ = true := by decide +kernel
theorem witness_Collectives_ready_bound : T.job.health.sec.testBit 0 = false ∧ (∃ j ∈ T.job.net.jobs, j.1 = 9) ∧ T.job.gang.parked? 9 = none ∧ T.job.gang.gtag ≠ 9 := by decide +kernel
theorem witness_Packets_lost : let s := T.route T.job
    let t : State := { s with health := { s.health with retrans := List.replicate 8 (31, 0) } }
    let tries (s : State) : List (Nat × Nat) := s.health.retrans.filter (fun x => s.podtime < x.2 + 3600000000000) ++ [(31, s.podtime)]
    8 < 9 ∧ s.health.sec.testBit 0 = false ∧ (Tab.get Port.reset s.net.ports 31).service = true ∧
      ((tries s).filter fun x => x.1 == 31).length ≤ 8 ∧ 8 < ((tries t).filter fun x => x.1 == 31).length ∧ Out.link 31 ∉ t.health.outs := by decide +kernel
theorem witness_Packets_unbound : ∀ j ∈ (T.route T.job).net.jobs, j.1 ≠ (Packet.blank 8 1 0 0 512).tag := by decide +kernel
theorem witness_EasyAll_bare : let g := (T.out []).gang
    let m : Packet := { Packet.blank 9 5 7 0 512 with off := g.at_ }
    bareMarker m = true ∧ bareMarker { m with obj := 1 } = false ∧ m.kind = 5 ∧ m.off = g.at_ ∧ m.tag = g.gtag ∧ (T.out []).health.sec.testBit 0 = false := by decide +kernel
theorem witness_BootAndFirmware_alarmed : State.reset.health.sec.testBit 0 = false ∧ (1 : Nat).testBit 0 = true := by decide
theorem witness_PowerUpAndTraining_late : let h : Health := { Health.reset with stage := 4, mctl := [(63, 0x1F00)], portctl := [(31, 0x103)] }
    (0 : Nat) < Tab.get 0 h.msince 63 + 100000000 ∧ Tab.get 0 h.msince 63 + 100000000 ≤ 100000000 ∧ Tab.get 0 h.psince 31 + 10000000 ≤ 10000000 ∧ ¬Tab.get 0 h.psince 31 + 10000000 ≤ 9999999 := by decide +kernel
theorem witness_ErrorsAndSecurity_powered : ({ Health.reset with powered := true } : Health).powered = true ∧ State.reset.health.sec.testBit 0 = false ∧ destCore 0 / 4 < 96 ∧
    Out.quad (destCore 0 / 4) ∉ State.reset.health.outs ∧ (0 = 0 ∨ 0 = 2 ∨ 0 = 3) := by decide +kernel

/-! ## One step on small states -/

/-- R63: 64-bit addition wraps. -/
theorem test_add_wraps : (T.next (exec (.add .S Sync.none 3 1 2 false) (T.base .S [(1, 0xFFFFFFFFFFFFFFFF), (2, 2)]))).x .S 3 = 1 := by decide +kernel
/-- R62: a write to x0 changes nothing. -/
theorem test_add_zero_register : (T.next (exec (.add .L Sync.none 0 1 1 false) (T.base .L [(1, 5)]))).x .L 0 = 0 := by decide +kernel
/-- R64: the most negative number divided by -1. -/
theorem test_div_overflow : (T.next (exec (.div .S Sync.none 3 1 2 false) (T.base .S [(1, 0x8000000000000000), (2, 0xFFFFFFFFFFFFFFFF)]))).x .S 3 = 0x8000000000000000 := by decide +kernel
/-- R77: a byte load zero-extends. -/
theorem test_ld_byte : (T.next (exec (.ld Sync.none 3 2 .b 0) ((T.base .S [(2, 0x1FFFF)]).setMemBytes 0x20FFFF [0x80]))).x .S 3 = 0x80 := by decide +kernel
/-- R74: a misaligned jump target faults before it is taken. -/
theorem test_ret_misaligned : ((T.next (exec (.ret Sync.none) (T.base .S [(31, 2)]))).core.freeze.map (·.cause)) = some 0x02 := by decide +kernel
/-- R15: LI sign-extends its immediate; the word is the spec's own example. -/
theorem test_step_fetched : (T.next (Machine.step (State.reset.withFetchWord 32 0x3C0DFFFD))).x .L 6 = -3 := by decide +kernel
/-- R18: a reserved bit set. -/
theorem test_step_illegal : ((T.next (Machine.step (State.reset.withFetchWord 32 0x00010001))).core.freeze.map fun f => (f.cause, f.detail)) = some (0x01, 0x0A) := by decide +kernel
/-- R46, R132: a sum beyond INT8 is limited. -/
theorem test_vadd_saturates : let s := T.core (T.vec [(0, T.desc 0x09 1 0), (1, T.desc 0x09 1 8), (2, T.desc 0x09 1 16)]) fun c => { c with scratch := [(8, 100), (16, 100)] }
    (T.next (exec (.vadd Sync.none 0 1 2 .rn false) s)).home 0 = 127 := by decide +kernel
/-- Firmware core 0 of a running module at this word of firmware SRAM, in machine mode. -/
def T.firmware (w : Nat) (regs : List (Nat × Word)) : FwCore :=
  let c : FwCore := { FwCore.reset with on := true, pc := 0x100, regs := regs, csrs := [(0x305, 0x400)] }
  let h : Health := { Health.reset with stage := 6, powered := true, fw := [(0, c)], fwsram := (toBytes 4 w).zipIdx.map fun p => (0x100 + p.2, p.1) }
  Tab.get FwCore.reset (State.fwTurn { State.reset with health := h } 0).health.fw 0
/-- R413 (log entry 131): ADDI x1, x2, -1 from firmware SRAM; the same as C.ADDI on x1; ECALL from machine mode traps with cause 11. -/
theorem test_firmware_addi : ((T.firmware 0xFFF10093 [(2, 5)]).x 1, (T.firmware 0xFFF10093 [(2, 5)]).pc) = (4, 0x104) := by decide +kernel
theorem test_firmware_compressed : ((T.firmware 0x10FD [(1, 5)]).x 1, (T.firmware 0x10FD [(1, 5)]).pc) = (4, 0x102) := by decide +kernel
theorem test_firmware_ecall : ((T.firmware 0x73 []).pc, (T.firmware 0x73 []).csr 0x342, (T.firmware 0x73 []).csr 0x341) = (0x400, 11, 0x100) := by decide +kernel

end Sys2Proof
end

section
/-!
SUPPORT. MMA, MMAS and MMAT (R163 to R167, R177): what asking for leave, a refused format and the block operation do to the state, and the INT8 and BF16 sums of MMA.
-/
namespace Sys2Proof.Machine
open Sys2Proof

/-! ## Writing a list of keys -/

/-- A key that the list gives one value only reads as that value. -/
theorem get_setAll_mem {α : Type} [DecidableEq α] (d : α) (l : List (Nat × α)) {k : Nat} {v : α} :
    ∀ t : Tab α, (k, v) ∈ l → (∀ c ∈ l, c.1 = k → c.2 = v) → Tab.get d (Tab.setAll d t l) k = v := by
  induction l with
  | nil => intro t hm; simp at hm
  | cons c l ih =>
    intro t hm hu
    have hl : ∀ x ∈ l, x.1 = k → x.2 = v := fun x hx => hu x (List.mem_cons_of_mem _ hx)
    rw [Tab.setAll, List.foldl_cons]
    by_cases hk : (k, v) ∈ l
    · exact ih _ hk hl
    · obtain rfl : (k, v) = c := (List.mem_cons.mp hm).resolve_right hk
      have hne : ∀ x ∈ l, x.1 ≠ k := by
        rintro ⟨k', v'⟩ hx rfl
        obtain rfl : v' = v := hl _ hx rfl
        exact hk hx
      exact (get_setAll_ne d l k _ hne).trans (get_set d t k v)

/-! ## Completion of a matrix word -/

/-- M's unmade pushes, the FIFOs and a freeze, of which a completion speaks beside `arch`, are the same in both states. -/
structure SameOrders (s t : State) : Prop where
  flights : (t.eng .M).flights = (s.eng .M).flights
  tok : t.core.tok = s.core.tok
  freeze : t.core.freeze = s.core.freeze
  follow : t.core.follow = s.core.follow

theorem SameOrders.refl (s : State) : SameOrders s s := ⟨rfl, rfl, rfl, rfl⟩

theorem SameOrders.trans {s t u : State} (h : SameOrders s t) (k : SameOrders t u) : SameOrders s u :=
  ⟨k.flights.trans h.flights, k.tok.trans h.tok, k.freeze.trans h.freeze, k.follow.trans h.follow⟩

/-- A ready matrix word whose body answers `done t` ends with the effect of any `x` that shows what `t` shows. -/
theorem matrix_ends {i : Instr} {y : Sync} {n : Nat} {body : Pos → State → Res} {s t x : State} (hi : exec i s = issueY .M y body s)
    (hr : Ready s .M y.wait.toList n) (hb : body (s.pos .M) s = .done t .fall) (hp : (t.eng .M).pending ≤ (s.eng .M).pending + n)
    (ha : t.arch = x.arch) (ht : SameOrders s t) (hx : SameOrders s x) : Ends i s .M y.wait.toList y.sig.toList x :=
  ends_of_done hi hr hb hp ha ht.flights ht.tok ht.freeze (ht.freeze.trans hx.freeze.symm) (ht.follow.trans hx.follow.symm) (ht.tok.trans hx.tok.symm)

/-! ## Flags that NF may suppress (R56) -/

/-- The state with flags set in M, unless NF suppresses them. -/
def State.flagged (s : State) (nf : Bool) (f : BitVec 6) : State := if nf then s else s.orFlags .M f

theorem State.orFlags_zero (s : State) : s.orFlags .M 0 = s := by
  simp [State.orFlags, State.setView, State.mapEng, Core.eng, Core.setEng]

theorem arch_mFlags (s : State) (p : Pos) (nf : Bool) (f : BitVec 6) : (s.mFlags p nf f).arch = (s.flagged nf f).arch := by
  cases nf with
  | true => rfl
  | false =>
    by_cases hf : f = 0
    · subst hf
      exact congrArg State.arch s.orFlags_zero.symm
    · rw [State.mFlags, if_neg (by simpa using hf)]
      exact State.arch_write s .M p 1 _

theorem sameOrders_mFlags (s : State) (p : Pos) (nf : Bool) (f : BitVec 6) : SameOrders s (s.mFlags p nf f) := by
  unfold State.mFlags
  split <;> exact ⟨rfl, rfl, rfl, rfl⟩

theorem sameOrders_flagged (s : State) (nf : Bool) (f : BitVec 6) : SameOrders s (s.flagged nf f) := by
  cases nf <;> exact ⟨rfl, rfl, rfl, rfl⟩

theorem pending_mFlags (s : State) (p : Pos) (nf : Bool) (f : BitVec 6) : ((s.mFlags p nf f).eng .M).pending ≤ (s.eng .M).pending + 1 := by
  unfold State.mFlags
  split
  · exact Nat.le_succ _
  · simp [State.write, Engine.pending]

/-- A heavy word begins the clocks of R178 anew, before or after it sets its flags. -/
theorem mFlags_idle (s : State) (p : Pos) (nf : Bool) (f : BitVec 6) :
    (s.mFlags p nf f).mapCore (fun k => { k with idle := 0 }) = (s.mapCore fun k => { k with idle := 0 }).mFlags p nf f := by
  unfold State.mFlags
  split <;> rfl

theorem flagged_idle (s : State) (nf : Bool) (f : BitVec 6) :
    (s.flagged nf f).mapCore (fun k => { k with idle := 0 }) = (s.mapCore fun k => { k with idle := 0 }).flagged nf f := by
  cases nf <;> rfl

/-! ## Leave (R177) -/

theorem mem_withAsk (l : List (Nat × Nat)) (a : Nat × Nat) : a ∈ withAsk l a := by simp [withAsk]

/-- Asking for leave marks the core, enters its request unless it has asked before, and leaves accumulators, tokens and M alone. -/
theorem State.askLeave_frame (s : State) : s.askLeave.core.leave = .asked ∧ s.askLeave.core.acc = s.core.acc ∧ s.askLeave.core.tok = s.core.tok ∧
    (s.askLeave.eng .M).pc = (s.eng .M).pc ∧ (s.core.leave ≠ .asked → (s.podtime, s.core.id) ∈ s.askLeave.hub.gov.asks) := by
  unfold State.askLeave
  split
  · next h => exact ⟨h, rfl, rfl, rfl, fun k => absurd h k⟩
  · exact ⟨rfl, rfl, rfl, rfl, fun _ => mem_withAsk ..⟩

/-- Without leave a heavy word that is next to issue asks for it and stalls, whatever it would do. -/
theorem heavy_asks {s : State} (y : Sync) (run : State → Host.Outcome State Fault Refusal) (hg : s.gate .M = .go) (hl : s.core.leave ≠ .held) :
    ∃ c b, heavy y run s = .next (s.askLeave.stallOn .M c b) := by
  unfold heavy
  rw [hg]
  simp only [if_neg hl]
  split <;> exact ⟨_, _, rfl⟩

/-- With leave a heavy word issues as any word does. -/
theorem heavy_held {s : State} (y : Sync) (run : State → Host.Outcome State Fault Refusal) (hg : s.gate .M = .go) (hl : s.core.leave = .held) :
    heavy y run s = run s := by
  unfold heavy
  rw [hg]
  simp only [if_pos hl]

theorem macInstr_asks {i : Instr} {s : State} {y : Sync} {c a b : BitVec 4} {slot : BitVec 3} {nf sparse : Bool} {ok : Nat → Bool}
    (hi : exec i s = macInstr y c a b slot nf sparse ok s) (hg : s.gate .M = .go) (hl : s.core.leave ≠ .held) :
    ∃ t, exec i s = .next t ∧ t.core.leave = .asked ∧ t.core.acc = s.core.acc ∧ t.core.tok = s.core.tok ∧
      (t.eng .M).pc = (s.eng .M).pc ∧ (s.core.leave ≠ .asked → (s.podtime, s.core.id) ∈ t.hub.gov.asks) := by
  obtain ⟨k, b, h⟩ := heavy_asks y _ hg hl
  exact ⟨s.askLeave.stallOn .M k b, hi.trans h, s.askLeave_frame⟩

/-! ## The block operation (R163) -/

theorem blockKey_eq (xc i j : Nat) : blockKey xc i j = 64 * ((xc % 1024 + i) % 1024) + 16 * bits xc 17 16 + j := by
  simp [blockKey, bits]

/-- Different elements of a block are different accumulator elements. -/
theorem blockKey_inj {xc i j k l : Nat} (hi : i < 16) (hj : j < 16) (hk : k < 16) (hl : l < 16) (h : blockKey xc i j = blockKey xc k l) : i = k ∧ j = l := by
  rw [blockKey_eq, blockKey_eq] at h
  have hb : bits xc 17 16 < 4 := Nat.mod_lt _ (by decide)
  omega

/-- The new bits of a block's elements, with their keys, from its operands' rows and the accumulators. -/
def macCells (int mx dense : Bool) (xc : Nat) (ra rb : Nat → MRow) (acc : Tab (BitVec 32)) : List (Nat × BitVec 32) :=
  (List.range 16).flatMap fun i => (List.range 16).map fun j =>
    (blockKey xc i j, (macElem int mx dense (ra i) (rb j) (Tab.get 0 acc (blockKey xc i j))).1)

theorem mem_macCells {int mx dense : Bool} {xc : Nat} {ra rb : Nat → MRow} {acc : Tab (BitVec 32)} {c : Nat × BitVec 32} :
    c ∈ macCells int mx dense xc ra rb acc ↔
      ∃ i < 16, ∃ j < 16, (blockKey xc i j, (macElem int mx dense (ra i) (rb j) (Tab.get 0 acc (blockKey xc i j))).1) = c := by
  simp only [macCells, List.mem_flatMap, List.mem_map, List.mem_range]

/-- Each element of the block gets its own sum. -/
theorem get_macCells (int mx dense : Bool) (xc : Nat) (ra rb : Nat → MRow) (acc : Tab (BitVec 32)) {i j : Nat} (hi : i < 16) (hj : j < 16) :
    Tab.get 0 (Tab.setAll 0 acc (macCells int mx dense xc ra rb acc)) (blockKey xc i j) =
      (macElem int mx dense (ra i) (rb j) (Tab.get 0 acc (blockKey xc i j))).1 := by
  refine get_setAll_mem 0 _ _ (mem_macCells.mpr ⟨i, hi, j, hj, rfl⟩) ?_
  intro c hc hk
  obtain ⟨k, hk', l, hl, rfl⟩ := mem_macCells.mp hc
  obtain ⟨rfl, rfl⟩ := blockKey_inj hk' hl hi hj hk
  rfl

/-- No other accumulator element changes. -/
theorem get_macCells_ne (int mx dense : Bool) (xc : Nat) (ra rb : Nat → MRow) (acc : Tab (BitVec 32)) {k : Nat}
    (hk : ∀ i j, i < 16 → j < 16 → k ≠ blockKey xc i j) :
    Tab.get 0 (Tab.setAll 0 acc (macCells int mx dense xc ra rb acc)) k = Tab.get 0 acc k := by
  refine get_setAll_ne 0 _ _ _ fun c hc => ?_
  obtain ⟨i, hi, j, hj, rfl⟩ := mem_macCells.mp hc
  exact (hk i j hi hj).symm

/-- The accumulators after a block operation, with its clocks in SC_BANK; its flags are not set yet. -/
def macWritten (s : State) (clk : Nat) (lines : List Nat) (cells : List (Nat × BitVec 32)) : State :=
  (s.bankTerm clk lines).mapCore fun x => { x.setAcc cells with idle := 0 }

theorem macBlock_eq (s : State) (p : Pos) (nf int mx dense : Bool) (xc k : Nat) (ra rb : Nat → MRow) (lines : List Nat) :
    ∃ clk f, macBlock s p nf int mx dense xc k ((List.range 16).map ra) ((List.range 16).map rb) lines =
      (macWritten s clk lines (macCells int mx dense xc ra rb s.core.acc)).mFlags p nf f := by
  have hz (g : Nat → MRow) : ((List.range 16).map g).zipIdx = (List.range 16).map fun i => (g i, i) := by
    apply List.ext_getElem <;> simp
  simp only [macBlock, macWritten, macCells, hz, List.map_flatMap, List.flatMap_map, List.map_map, Function.comp_def]
  exact ⟨_, _, rfl⟩

/-- What a block operation shows: its accumulators alone, SC_BANK and its flags unless NF suppresses them. -/
structure BlockOp (s : State) (nf : Bool) (xc : Nat) (x : State) : Prop where
  frame : MatrixFrame s x
  scratch : x.core.scratch = s.core.scratch
  dstat : x.core.dstat = s.core.dstat
  seed : x.core.engM.view.seed = s.core.engM.view.seed
  flags : nf = true → x.core.engM.view.flags = s.core.engM.view.flags
  acc : ∀ k, (∀ i j, i < 16 → j < 16 → k ≠ blockKey xc i j) → Tab.get 0 x.core.acc k = Tab.get 0 s.core.acc k

theorem sameOrders_macWritten (s : State) (clk : Nat) (lines : List Nat) (cells : List (Nat × BitVec 32)) : SameOrders s (macWritten s clk lines cells) :=
  ⟨rfl, rfl, rfl, rfl⟩

theorem acc_macWritten (s : State) (clk : Nat) (lines : List Nat) (cells : List (Nat × BitVec 32)) (nf : Bool) (f : BitVec 6) :
    ((macWritten s clk lines cells).flagged nf f).core.acc = Tab.setAll 0 s.core.acc cells := by cases nf <;> rfl

theorem sc_bankTerm (s : State) (clk : Nat) (lines : List Nat) {c : Nat} (hc : c ≠ scBank) :
    Tab.get 0 (s.bankTerm clk lines).core.engM.sc c = Tab.get 0 s.core.engM.sc c := by
  unfold State.bankTerm
  exact get_set_ne 0 _ _ hc

theorem matrixFrame_macWritten (s : State) (clk : Nat) (lines : List Nat) (cells : List (Nat × BitVec 32)) (nf : Bool) (f : BitVec 6) :
    MatrixFrame s ((macWritten s clk lines cells).flagged nf f) := by
  have hsc := fun c => sc_bankTerm s clk lines (c := c)
  cases nf <;> exact ⟨rfl, hsc⟩

theorem blockOp_macCells (s : State) (clk : Nat) (lines : List Nat) (int mx dense nf : Bool) (xc : Nat) (ra rb : Nat → MRow) (f : BitVec 6) :
    BlockOp s nf xc ((macWritten s clk lines (macCells int mx dense xc ra rb s.core.acc)).flagged nf f) where
  frame := matrixFrame_macWritten ..
  scratch := by cases nf <;> rfl
  dstat := by cases nf <;> rfl
  seed := by cases nf <;> rfl
  flags := by rintro rfl; rfl
  acc k hk := by
    rw [acc_macWritten]
    exact get_macCells_ne _ _ _ _ _ _ _ hk

/-! ## The three instructions -/

/-- Bytes of a packed row of operand A, and of operand B (R160, R165). -/
def macBytesA (sparse : Bool) (fa : Nat) : Nat := if sparse then 64 else if fa = 0x06 then 12 else 48
def macBytesB (sparse : Bool) : Nat := if sparse then 64 else 48

/-- Row `i` of the operand that register `r` names, of format `code` and `n` bytes, when A's format is `fa`. -/
def macRow (s : State) (y : Sync) (sparse : Bool) (fa : Nat) (r : BitVec 4) (code n i : Nat) : MRow :=
  let o := s.mOpnd y r.toNat false n
  if sparse then sparseRow s o code i else denseRow s o (s.scaleReg r.toNat) code (groupK fa) n i

/-- The new bits of block element (i, j), of old bits `old`, under format entry `e`. -/
def macNew (s : State) (y : Sync) (sparse : Bool) (e : Nat) (a b : BitVec 4) (i j : Nat) (old : BitVec 32) : BitVec 32 :=
  (macElem (intAcc (entA e)) (isMX (entA e)) (!sparse) (macRow s y sparse (entA e) a (entA e) (macBytesA sparse (entA e)) i)
    (macRow s y sparse (entA e) b (entB e) (macBytesB sparse) j) old).1

/-- What the body of MMA, MMAS and MMAT answers: a refused format, or the block operation on the rows its operands have when it issues. -/
theorem macInstr_body (y : Sync) (c a b : BitVec 4) (slot : BitVec 3) (nf sparse : Bool) (ok : Nat → Bool) :
    ∃ body : Pos → State → Res, macInstr y c a b slot nf sparse ok = heavy y (issueY .M y body) ∧ ∀ p s,
      let e := s.fmtEntry slot.toNat
      let fa := entA e
      (ok fa = false → body p s = .done ((s.mFlags p nf flagINV).mapCore fun k => { k with idle := 0 }) .fall) ∧
      (ok fa = true → s.older .M p = true → HasTurn s .M → ∃ lines bs, body p s =
        .done ((macBlock s p nf (intAcc fa) (isMX fa) (!sparse) (s.x .M c.toNat).toNat (groupK fa)
          ((List.range 16).map (macRow s y sparse fa a fa (macBytesA sparse fa)))
          ((List.range 16).map (macRow s y sparse fa b (entB e) (macBytesB sparse))) lines).serveAt .M bs) .fall) := by
  refine ⟨_, rfl, fun p s => ⟨fun hok => ?_, fun hok ho ht => ?_⟩⟩
  · simp only [hok, Bool.not_false, if_true]
  · simp only [hok, Bool.not_true, Bool.false_eq_true, if_false, whenOlder, ho, if_true, banked_done (ht _)]
    exact ⟨_, _, rfl⟩

section
variable {i : Instr} {s : State} {y : Sync} {c a b : BitVec 4} {slot : BitVec 3} {nf sparse : Bool} {ok : Nat → Bool}

/-- A format that the word does not accept sets INV and nothing else but the clocks of R178. -/
theorem macInstr_refuses (hi : exec i s = macInstr y c a b slot nf sparse ok s) (hl : s.core.leave = .held) (hr : Ready s .M y.wait.toList 1)
    (hok : ok (entA (s.fmtEntry slot.toNat)) = false) :
    Ends i s .M y.wait.toList y.sig.toList ((s.flagged nf flagINV).mapCore fun k => { k with idle := 0 }) := by
  obtain ⟨body, hm, hb⟩ := macInstr_body y c a b slot nf sparse ok
  have h0 : SameOrders s (s.mapCore fun k => { k with idle := 0 }) := ⟨rfl, rfl, rfl, rfl⟩
  rw [flagged_idle]
  refine matrix_ends (hi.trans ((congrFun hm s).trans (heavy_held y _ hr.1 hl))) hr (((hb _ s).1 hok).trans (congrArg (Res.done · _) (mFlags_idle ..))) ?_
    (arch_mFlags ..) (h0.trans (sameOrders_mFlags ..)) (h0.trans (sameOrders_flagged ..))
  exact pending_mFlags (s.mapCore fun k => { k with idle := 0 }) _ _ _

/-- With an accepted format the word is a block operation on its operands' rows, as they are when it issues. -/
theorem macInstr_runs (hi : exec i s = macInstr y c a b slot nf sparse ok s) (hl : s.core.leave = .held) (hr : Ready s .M y.wait.toList 1)
    (ho : s.older .M (s.pos .M) = true) (ht : HasTurn s .M) (hok : ok (entA (s.fmtEntry slot.toNat)) = true) :
    let e := s.fmtEntry slot.toNat
    let xc := (s.x .M c.toNat).toNat
    ∃ x, Ends i s .M y.wait.toList y.sig.toList x ∧ BlockOp s nf xc x ∧ ∀ i j, i < 16 → j < 16 →
      Tab.get 0 x.core.acc (blockKey xc i j) = macNew s y sparse e a b i j (Tab.get 0 s.core.acc (blockKey xc i j)) := by
  intro e xc
  obtain ⟨body, hm, hb⟩ := macInstr_body y c a b slot nf sparse ok
  obtain ⟨lines, bs, hd⟩ := (hb _ s).2 hok ho ht
  obtain ⟨clk, f, he⟩ := macBlock_eq s (s.pos .M) nf (intAcc (entA e)) (isMX (entA e)) (!sparse) xc (groupK (entA e))
    (macRow s y sparse (entA e) a (entA e) (macBytesA sparse (entA e))) (macRow s y sparse (entA e) b (entB e) (macBytesB sparse)) lines
  rw [he] at hd
  generalize hw : macCells _ _ _ _ _ _ _ = cells at hd
  have h0 := sameOrders_macWritten s clk lines cells
  have hs : ∀ t : State, SameOrders t (t.serveAt .M bs) := fun _ => ⟨rfl, rfl, rfl, rfl⟩
  refine ⟨(macWritten s clk lines cells).flagged nf f, ?_, hw ▸ blockOp_macCells .., fun i j hi hj => ?_⟩
  · exact matrix_ends (hi.trans ((congrFun hm s).trans (heavy_held y _ hr.1 hl))) hr hd (pending_mFlags (macWritten s clk lines cells) _ nf f)
      ((State.arch_serveAt ..).trans (arch_mFlags ..)) ((h0.trans (sameOrders_mFlags ..)).trans (hs _)) (h0.trans (sameOrders_flagged ..))
  · rw [acc_macWritten, ← hw]
    exact get_macCells _ _ _ _ _ _ _ hi hj
end

/-! ## Operand rows in home scratchpad (R155, R156, R160) -/

/-- Bits 63:61 of an operand register are Q and the rotation (R155). -/
theorem select_of_bits {v : Nat} (h : bits v 63 61 = 0) : v.testBit 63 = false ∧ bits v 62 61 = 0 := by
  simp only [bits, Nat.shiftRight_eq_div_pow] at h ⊢
  rw [Nat.testBit_eq_decide_div_mod_eq, decide_eq_false_iff_not]
  omega

/-- Of a home operand without rotation, a row within the bytes it may reach reads the bytes of the scratchpad. -/
theorem read_matHome {s : State} {n : BitVec 4} {packed rows len r : Nat} (y : Sync) (h : s.matHome n packed rows len) (hr : r < rows) :
    let o := s.mOpnd y n.toNat false packed
    o.read s (o.row r len) = (List.range len).map fun b => s.home (s.matAt n packed r b) := by
  intro o
  obtain ⟨hsel, hin⟩ := h
  have hv : s.mReg n.toNat = (s.x .M n.toNat).toNat := if_pos n.isLt
  obtain ⟨hsel63, hsel62⟩ := select_of_bits hsel
  have hq : o.q = false := by simp only [o, State.mOpnd, hv, hsel63]
  have hst : o.step = 0 := by simp only [o, State.mOpnd, hv, hsel62]
  have ha (b : Nat) : o.addr r b = s.matAt n packed r b := by
    simp only [MOpnd.addr, hst, if_true, State.matAt]
    simp only [o, State.mOpnd, hv]
  simp only [MOpnd.read, MOpnd.row, List.map_map]
  refine List.map_congr_left fun b hb => ?_
  obtain ⟨hlt, hqu⟩ := hin r b hr (List.mem_range.mp hb)
  simp [MOpnd.place, hq, ha, hlt, hqu, Config.scratchBytes]

/-- A field of bytes listed by their number. -/
theorem field_range (h : Nat → Byte) {n i m : Nat} (hm : i + m ≤ n) :
    field ((List.range n).map h) i m = ofBytes ((List.range m).map fun j => h (i + j)) := by
  unfold field
  congr 1
  apply List.ext_getElem
  · simp; omega
  · intro k h1 h2
    simp

/-- Element `k` of a row of elements of `m` bytes is formed by bytes `m * k` on. -/
theorem rowElems_range {code m : Nat} (hw : codeWidth code = 8 * m) (hm : 0 < m) (n : Nat) (h : Nat → Byte) :
    rowElems code n ((List.range (n * m)).map h) = (List.range n).map fun k => ofBytes ((List.range m).map fun j => h (m * k + j)) := by
  unfold rowElems
  refine List.map_congr_left fun k hk => ?_
  have hk := List.mem_range.mp hk
  have h1 : k * (8 * m) / 8 = m * k := by
    rw [Nat.mul_left_comm, Nat.mul_div_cancel_left _ (by decide : 0 < 8), Nat.mul_comm]
  have h2 : m * k + m ≤ n * m := by
    rw [← Nat.mul_succ, Nat.mul_comm]
    exact Nat.mul_le_mul_right m hk
  simp only [hw, show ¬8 * m < 8 by omega, if_false, h1, Nat.mul_div_cancel_left m (by decide : 0 < 8)]
  exact field_range h h2

/-- Elements of a dense row of a format without scales. -/
theorem denseRow_els (s : State) (o : MOpnd) (sc : ScaleReg) {code : Nat} (k bytes r : Nat) (hx : isMX code = false) :
    (denseRow s o sc code k bytes r).els.map (·.2) = (rowElems code k (o.read s (o.row r bytes))).map fun b => ((codeValue code b).1, 127) := by
  have hl : (rowElems code k (o.read s (o.row r bytes))).length = k := by simp [rowElems]
  apply List.ext_getElem <;> simp [denseRow, hx, hl]

/-- The values of a row of home scratchpad: `n` elements of `m` bytes each. -/
theorem macRow_els {s : State} {y : Sync} {r : BitVec 4} {fa code n m i : Nat} (hx : isMX code = false) (hw : codeWidth code = 8 * m) (hm : 0 < m)
    (hk : groupK fa = n) (hn : n * m = 48) (h : s.matHome r 48 16 48) (hi : i < 16) :
    (macRow s y false fa r code 48 i).els.map (·.2) = (List.range n).map fun k => ((codeValue code (s.homeNat (s.matAt r 48 i (m * k)) m)).1, 127) := by
  have hr := read_matHome y h hi
  dsimp only at hr
  simp only [macRow, Bool.false_eq_true, if_false]
  rw [denseRow_els _ _ _ _ _ _ hx, hr, hk, ← hn, rowElems_range hw hm, List.map_map]
  refine List.map_congr_left fun k _ => ?_
  simp only [Function.comp_apply, State.homeNat, State.matAt, Nat.add_assoc]

/-! ## Sums (R49) -/

/-- The sum of R49 in INT32 is exact, and limited to its range. -/
theorem intStep_value (c : BitVec 32) (ps : List Int) : (intStep c ps).1 = BitVec.ofInt 32 (max (-2 ^ 31) (min (2 ^ 31 - 1) (c.toInt + ps.sum))) := by
  unfold intStep
  dsimp only
  split
  · next hlo => exact congrArg (BitVec.ofInt 32) (by omega)
  · next hlo =>
    split
    · next hhi => exact congrArg (BitVec.ofInt 32) (by omega)
    · next hhi => exact congrArg (BitVec.ofInt 32) (by omega)

/-- A dense element of integer rows adds the products of its rows' elements. -/
theorem macElem_int {mx : Bool} {a b : MRow} {n : Nat} {x z : Nat → Int} (c : BitVec 32)
    (ha : a.els.map (·.2) = (List.range n).map fun k => (Val.ofInt (x k), 127)) (hb : b.els.map (·.2) = (List.range n).map fun k => (Val.ofInt (z k), 127)) :
    (macElem true mx true a b c).1 = (intStep c ((List.range n).map fun k => x k * z k)).1 := by
  have hi (i : Int) : (if i < 0 then -(i.natAbs : Int) else i.natAbs) = i := by split <;> omega
  simp only [macElem, if_true, ha, hb, List.zip_map', List.map_map, Function.comp_def, Val.ofInt, decide_eq_true_eq, hi]

/-- A dense element of rows of real values without scales takes one FP32 step with the exact sum of their products. -/
theorem macElem_real {a b : MRow} {n : Nat} {x z : Nat → Val} (c : BitVec 32)
    (ha : a.els.map (·.2) = (List.range n).map fun k => (x k, 127)) (hb : b.els.map (·.2) = (List.range n).map fun k => (z k, 127)) :
    (macElem false false true a b c).1 = (fpStep c ((List.range n).map fun k => (Val.mul (x k) (z k)).1)).1 := by
  simp only [macElem, Bool.false_eq_true, if_false, if_true, ha, hb, List.zip_map', List.map_map, Function.comp_def]

theorem codeValue_int8 (b : Nat) : (codeValue 0x09 b).1 = .ofInt (signed 8 b) := rfl
theorem codeValue_bf16 (b : Nat) : (codeValue 0x02 b).1 = bf16.value b := rfl

/-! ## The values of MMA for INT8 and BF16 -/

section
variable {s : State} {y : Sync} {a b : BitVec 4} {e i j : Nat} (hi : i < 16) (hj : j < 16) (ha : s.matHome a 48 16 48) (hb : s.matHome b 48 16 48)
include hi hj ha hb

/-- An INT8 element of MMA: the exact sum with the element's old value, limited to INT32. -/
theorem mma_int8 (hea : entA e = 9) (heb : entB e = 9) (c : BitVec 32) :
    macNew s y false e a b i j c =
      BitVec.ofInt 32 (max (-2 ^ 31) (min (2 ^ 31 - 1) (c.toInt + ((List.range 48).map fun k =>
        signed 8 (s.home (s.matAt a 48 i k)).toNat * signed 8 (s.home (s.matAt b 48 j k)).toNat).sum))) := by
  have row {r : BitVec 4} {i : Nat} (h : s.matHome r 48 16 48) (hi : i < 16) : (macRow s y false 9 r 9 48 i).els.map (·.2) =
      (List.range 48).map fun k => (Val.ofInt (signed 8 (s.home (s.matAt r 48 i k)).toNat), 127) := by
    simpa [codeValue_int8, State.homeNat, ofBytes] using macRow_els (code := 9) (n := 48) (m := 1) rfl rfl (by decide) rfl rfl h hi
  unfold macNew
  rw [hea, heb]
  exact (macElem_int c (row ha hi) (row hb hj)).trans (intStep_value ..)

/-- A BF16 element of MMA: one FP32 step for the group's sum and one for the sum with the element's old value. -/
theorem mma_bf16 (hea : entA e = 2) (heb : entB e = 2) (c : BitVec 32) :
    macNew s y false e a b i j c =
      (fpStep c ((List.range 24).map fun k =>
        (Val.mul (bf16.value (s.homeNat (s.matAt a 48 i (2 * k)) 2)) (bf16.value (s.homeNat (s.matAt b 48 j (2 * k)) 2))).1)).1 := by
  have row {r : BitVec 4} {i : Nat} (h : s.matHome r 48 16 48) (hi : i < 16) : (macRow s y false 2 r 2 48 i).els.map (·.2) =
      (List.range 24).map fun k => (bf16.value (s.homeNat (s.matAt r 48 i (2 * k)) 2), 127) :=
    macRow_els (code := 2) (n := 24) (m := 2) rfl rfl (by decide) rfl rfl h hi
  unfold macNew
  rw [hea, heb]
  exact macElem_real c (row ha hi) (row hb hj)
end

end Sys2Proof.Machine

namespace Sys2Proof
open Sys2Proof.Machine

/-- Settles O47: by the two answers of the words' common body, the lemma of the block operation, and the two sums of MMA. -/
theorem matrixMultiply : Obligations.MatrixMultiply := by
  unfold Obligations.MatrixMultiply
  intro y c a b slot nf s e fa xc key mma mmas mmat kept refuses runs
  have hmma : exec mma s = macInstr y c a b slot nf false (fun f => f != 0x06) s := rfl
  have hmmas : exec mmas s = macInstr y c a b slot nf true (fun f => [0x01, 0x02, 0x03, 0x04, 0x09, 0x0A].contains f) s := rfl
  have hmmat : exec mmat s = macInstr y c a b slot nf false (fun f => f == 0x06) s := rfl
  have hkey (i j : Nat) : key i j = blockKey xc i j := (blockKey_eq xc i j).symm
  have refusal {i : Instr} {sparse : Bool} {ok : Nat → Bool} (hl : s.core.leave = .held) (hr : Ready s .M y.wait.toList 1)
      (hi : exec i s = macInstr y c a b slot nf sparse ok s) (hok : ok fa = false) : refuses i := macInstr_refuses hi hl hr hok
  have run {i : Instr} {sparse : Bool} {ok : Nat → Bool} {p : State → Prop} (hl : s.core.leave = .held) (hr : Ready s .M y.wait.toList 1)
      (ho : s.older .M (s.pos .M) = true) (ht : HasTurn s .M) (hi : exec i s = macInstr y c a b slot nf sparse ok s) (hok : ok fa = true)
      (hp : ∀ x, (∀ i j, i < 16 → j < 16 → Tab.get 0 x.core.acc (key i j) = macNew s y sparse e a b i j (Tab.get 0 s.core.acc (key i j))) → p x) :
      runs i p := by
    obtain ⟨x, hx, hop, hval⟩ := macInstr_runs hi hl hr ho ht hok
    simp only [runs, hkey] at hp ⊢
    exact ⟨x, hx, hop.frame, ⟨hop.scratch, hop.dstat, hop.seed, hop.flags⟩, hop.acc, hp x hval⟩
  refine ⟨fun hg hl i hi => ?_, fun hl hr => ⟨?_, ?_, ?_, fun ho ht => ⟨?_, ?_, ?_⟩⟩⟩
  · simp only [List.mem_cons, List.not_mem_nil, or_false] at hi
    obtain rfl | rfl | rfl := hi
    · exact macInstr_asks hmma hg hl
    · exact macInstr_asks hmmas hg hl
    · exact macInstr_asks hmmat hg hl
  · intro h
    exact ⟨refusal hl hr hmma (by simp [h]), refusal hl hr hmmas (by simp [h])⟩
  · intro h
    exact refusal hl hr hmmas (by simpa using h)
  · intro h
    exact refusal hl hr hmmat (by simpa using h)
  · intro h
    exact run hl hr ho ht hmmat (by simp [h]) fun _ _ => trivial
  · intro h
    exact run hl hr ho ht hmmas (by simpa using h) fun _ _ => trivial
  · intro h
    refine run hl hr ho ht hmma (by simpa using h) fun x hval i j hi hj ha hb => ⟨fun hea heb => ?_, fun hea heb => ?_⟩
    · exact (hval i j hi hj).trans (mma_int8 hi hj ha hb hea heb _)
    · exact (hval i j hi hj).trans (mma_bf16 hi hj ha hb hea heb _)

end Sys2Proof
end

section
/-!
SUPPORT. Why O43, O44 and O46 fail: where a word of V waits at a bank, `PassesAll` asks whose turn it is before the word resolves, and the word itself asks once more after it has resolved
(R269, R273). As it resolves the horizon moves, so that a load's data may begin to wait at that bank with the earlier turn (R274, R275): the word then stalls.
-/
namespace Sys2Proof.Machine
open Sys2Proof

/-! ## The state that refutes them -/

/-- A descriptor of one INT32 element in home scratchpad (R121). -/
def int32At (off : Nat) : Word := BitVec.ofNat 64 (0x0C * 2 ^ 59 + 1 * 2 ^ 37 + 1 * 2 ^ 21 + off)

/-- The region that it names. -/
def int32Region (off : Nat) : Region := ⟨0x0C, 1, 1, off, false, 0⟩

/-- V's one word is `i`, which waits at bank 0 and has not resolved; the data of a load, which wait on the horizon, go to that bank too. Descriptors 0, 1 and 2 name elements of the
values 0, 1 and 0. No word leaves V so (one waits at a bank only once it has resolved), but the statements speak of every state. -/
def contested (i : Instr) : State :=
  ((State.reset.placeWord .V ((encode i).getD 0)).mapEng .V fun g =>
    { g with view := { g.view with descs := [(0, int32At 0), (1, int32At 8), (2, int32At 0x20)] }, banks := some [(0, 0)] }).mapCore fun c =>
    { c with scratch := [(8, 1)], loads := [⟨⟨0, 0, [], []⟩, false, [(0x30, 7)]⟩] }

/-- The operands of a word of three descriptors there. -/
def contestedRegs : List Region := [int32Region 0, int32Region 8, int32Region 0x20]

/-- At the bank it is V's turn until VADD resolves; then it is the load data's. -/
theorem contested_turn : let s := contested (.vadd Sync.none 0 1 2 .rn false)
    s.bankHeld .V [] = [] ∧ (s.resolve .V).bankHeld .V [] = [(0, 0)] := by decide +kernel

/-! ## An element-wise word that writes nothing -/

/-- The scratchpad of the focus core after a word. -/
def scratchAfter (i : Instr) (s : State) : Tab Byte :=
  match exec i s with
  | .next t => t.core.scratch
  | _ => []

theorem scratchAfter_of_exec {i : Instr} {s t : State} (h : exec i s = .next t) : scratchAfter i s = t.core.scratch := by
  simp only [scratchAfter, h]

/-- The bits of an element depend on the scratchpad alone. -/
theorem Region.get_of_scratch {s t : State} (h : s.core.scratch = t.core.scratch) (r : Region) (i : Nat) : r.get s i = r.get t i := by
  simp only [Region.get, State.homeNat, State.home, h]

/-- One element stands apart. -/
theorem apart_one (d : Region) (srcs : List Region) : Apart d srcs 1 id := by
  refine ⟨.inr fun i j hij hj => ?_, .inl (by decide)⟩
  omega

/-- Where the first element should change and the word leaves the scratchpad as it was, the word is not element-wise. -/
theorem not_elementwise_of_scratch {i : Instr} {s : State} {y : Sync} {pend : Nat} {ops : List VOpnd} {more : List Region → Chk (List Nat)} {steps nf : Bool}
    {cnt : List Region → Nat} {wr : List Region → Nat → Nat} {el : List Region → Nat → Nat → Nat × BitVec 6} (rs : List Region) (ix : List Nat)
    (hp : PassesAll s y pend ops more { regs := rs, idx := ix }) (hs : scratchAfter i s = s.core.scratch)
    (ha : Apart (reg rs 0) rs.tail (cnt rs) (wr rs)) (hn : 0 < cnt rs)
    (hd : (reg rs 0).get s (wr rs 0) ≠ (el rs 0 (drawAt s.core.engV.view.seed steps 0).toNat).1 % 2 ^ (reg rs 0).width) :
    ¬Elementwise i s y pend ops more steps nf cnt wr el := by
  intro h
  obtain ⟨x, ⟨t, ht, harch, -⟩, -, -, -, -, hval⟩ := h rs ix hp
  have hx : s.core.scratch = x.core.scratch := calc
    s.core.scratch = t.core.scratch := hs.symm.trans (scratchAfter_of_exec ht)
    _ = x.core.scratch := show t.arch.core.scratch = x.arch.core.scratch by rw [harch]
  exact hd ((Region.get_of_scratch hx ..).trans ((hval ha).1 0 hn))

end Sys2Proof.Machine

namespace Sys2Proof
open Sys2Proof.Machine

/-- Refutes O43: VADD of 1 and 0, whose operands pass and whose turn it is at its bank until it resolves, stalls there and leaves dd's 0 as it was. -/
theorem not_vectorArithmetic : ¬Obligations.VectorArithmetic := by
  unfold Obligations.VectorArithmetic
  intro h
  obtain ⟨hadd, -⟩ := h Sync.none 0 1 2 .rn false (contested (.vadd Sync.none 0 1 2 .rn false))
  refine not_elementwise_of_scratch contestedRegs [] ?_ (by decide +kernel) (apart_one ..) (by decide) (by decide +kernel) hadd
  unfold PassesAll Ready
  decide +kernel

/-- Refutes O44: VOR of 1 and 0 stalls in the same way. -/
theorem not_vectorPatterns : ¬Obligations.VectorPatterns := by
  unfold Obligations.VectorPatterns
  rintro ⟨-, h⟩
  obtain ⟨-, hor, -⟩ := h Sync.none 0 1 2 0 .eq false (contested (.vor Sync.none 0 1 2))
  refine not_elementwise_of_scratch contestedRegs [] ?_ (by decide +kernel) (apart_one ..) (by decide) (by decide +kernel) hor
  unfold PassesAll Ready
  decide +kernel

/-- Refutes O46: VGTH of a table's element 0, which is 1, stalls in the same way. -/
theorem not_vectorReductions : ¬Obligations.VectorReductions := by
  unfold Obligations.VectorReductions
  rintro ⟨-, h⟩
  obtain ⟨hgth, -⟩ := h Sync.none 0 1 2 0 (contested (.vgth Sync.none 0 1 2))
  refine not_elementwise_of_scratch contestedRegs [0] ?_ (by decide +kernel) (apart_one ..) (by decide) (by decide +kernel) hgth
  unfold PassesAll Ready
  decide +kernel

end Sys2Proof
end
